-- ==== Sys2Proof/Word.lean ====
section
/-!
DEFINITION. The word types of the module and their plainest names.
-/

namespace Sys2Proof

/-- A 64-bit register, address or bundle word (08 R196, R222). -/
abbrev Word := BitVec 64

/-- One byte of memory (04 R107). -/
abbrev Byte := BitVec 8

/-- One queue entry of 2048 bits (08 R213). -/
abbrev Entry := BitVec 2048

/-- One 32-bit lane of an entry (11 R274). -/
abbrev Lane := BitVec 32

/-- The 128 bytes of one cache line (02 R48). -/
abbrev LineData := BitVec 1024

end Sys2Proof
end

