-- ==== Sys2Proof/Syntax.lean ====
section
/-!
DEFINITION. The instructions: one constructor of `Instr` for every row of spec/opcode_table.json. Slot operations
carry the operand fields of their encoding tables (08 R199, R200; 09 to 14); micro-ops carry the fields of 12 R315;
the rows that are events of the hardware (95) carry what the event is about.
-/

namespace Sys2Proof

/-- Scope codes of 05 R129, in code order. -/
inductive Scope where
  | ctx | tile | quad | die | side | mod | host | pod | span | sys
deriving DecidableEq, Repr

/-- Rounding modes of 03 R91, in code order. -/
inductive Rnd where
  | rne | rz | rup | rdn | sr
deriving DecidableEq, Repr

/-- Element formats, the stream codes 1 to 8 of 10 R254. -/
inductive MxFmt where
  | e2m1 | e2m3 | e3m2 | e4m3 | e5m2 | int4 | int6 | int8
deriving DecidableEq, Repr

/-- Block sizes of 03 R80. -/
inductive Blk where
  | b24 | b32
deriving DecidableEq, Repr

/-- Lane formats of `vcvt` (11 R285), in code order. -/
inductive LFmt where
  | f32 | i32 | u32 | bf16 | f16 | scp
deriving DecidableEq, Repr

/-- Forest modes of 13 R334, in code order. -/
inductive FMode where
  | fp32 | bf16 | scp
deriving DecidableEq, Repr

/-- The guard of a slot word (08 R198): the operation acts when the guard register differs from `neg`. -/
structure Guard where
  neg : Bool
  reg : BitVec 4
deriving DecidableEq, Repr

/-- A queue source field (08 R200): `peek` is its K bit. -/
structure QSrc where
  peek : Bool
  q : BitVec 5
deriving DecidableEq, Repr

/-- A queue destination field (08 R200): `none` discards. -/
abbrev QDst := Option (BitVec 5)

/-- A "queue or scalar" source (11 R275): SB selects. -/
inductive QorS where
  | queue (q : QSrc)
  | scalar (s : BitVec 6)
deriving DecidableEq, Repr

/-! Operand shapes of the S slot (09 R227 to R233). -/

structure OpRRR where
  gd : Guard
  d : BitVec 6
  a : BitVec 6
  b : BitVec 6
deriving DecidableEq, Repr

structure OpRR where
  gd : Guard
  d : BitVec 6
  a : BitVec 6
deriving DecidableEq, Repr

structure OpRRI where
  gd : Guard
  d : BitVec 6
  a : BitVec 6
  imm : BitVec 32
deriving DecidableEq, Repr

structure OpShI where
  gd : Guard
  d : BitVec 6
  a : BitVec 6
  sh : BitVec 6
deriving DecidableEq, Repr

/-- `bfx`, `bfx.s` (09 R230): POS in X[5:0], LEN in X[12:6]. -/
structure OpBfx where
  gd : Guard
  d : BitVec 6
  a : BitVec 6
  pos : BitVec 6
  len : BitVec 7
deriving DecidableEq, Repr

structure OpBfi where
  gd : Guard
  d : BitVec 6
  a : BitVec 6
  b : BitVec 6
  pos : BitVec 6
  len : BitVec 7
deriving DecidableEq, Repr

/-- Register compares (09 R231): `d` is the number k of the guard pair g2k, g2k+1. -/
structure OpCmp where
  gd : Guard
  d : BitVec 3
  a : BitVec 6
  b : BitVec 6
deriving DecidableEq, Repr

structure OpCmpI where
  gd : Guard
  d : BitVec 3
  a : BitVec 6
  imm : BitVec 32
deriving DecidableEq, Repr

structure OpSel where
  gd : Guard
  d : BitVec 6
  a : BitVec 6
  b : BitVec 6
  gc : BitVec 4
deriving DecidableEq, Repr

structure OpLi where
  gd : Guard
  d : BitVec 6
  imm : BitVec 32
deriving DecidableEq, Repr

structure OpCtlRd where
  gd : Guard
  d : BitVec 6
  num : BitVec 12
deriving DecidableEq, Repr

structure OpCtlWr where
  gd : Guard
  num : BitVec 12
  a : BitVec 6
deriving DecidableEq, Repr

/-! Operand shapes of the C slot (09 R234 to R253). -/

/-- `br`, `call`: OFS counts 8-byte units from the bundle (08 R199, 09 R235). -/
structure OpBr where
  gd : Guard
  ofs : BitVec 32
deriving DecidableEq, Repr

structure OpJmp where
  gd : Guard
  a : BitVec 6
deriving DecidableEq, Repr

structure OpLoop where
  gd : Guard
  lp : BitVec 2
  a : BitVec 6
  imm : BitVec 32
deriving DecidableEq, Repr

structure OpSync where
  gd : Guard
  land : Bool
  mx : Bool
  fo : Bool
  eng : Bool
deriving DecidableEq, Repr

structure OpTrap where
  gd : Guard
  code : BitVec 16
deriving DecidableEq, Repr

structure OpEvtWt where
  gd : Guard
  d : BitVec 6
  mask : BitVec 16
  scope : Scope
deriving DecidableEq, Repr

/-- `tlb.inv` (09 R248): KIND 0 all, 1 page, 2 range, 3 reg. -/
structure OpTlbInv where
  gd : Guard
  kind : BitVec 2
  a : BitVec 6
  b : BitVec 6
deriving DecidableEq, Repr

/-! Operand shapes of the LA, LB and ST slots (10 R260). -/

structure OpSdLd where
  gd : Guard
  d : BitVec 4
  a : BitVec 6
deriving DecidableEq, Repr

/-- `ld.q` (10 R262): `sq` is the scale queue of SQ = 1 or 2. -/
structure OpLdQ where
  gd : Guard
  d : QDst
  a : BitVec 4
  sq : Option (BitVec 1)
deriving DecidableEq, Repr

structure OpLdSc where
  gd : Guard
  d : BitVec 1
  a : BitVec 4
deriving DecidableEq, Repr

/-- Access widths (10 R260): `size` is log2 of the bytes, `signed` is X[6]. -/
structure Width where
  signed : Bool
  size : BitVec 2
deriving DecidableEq, Repr

structure OpLdG where
  gd : Guard
  d : QDst
  a : BitVec 4
  b : BitVec 6
  w : Width
  msk : BitVec 4
deriving DecidableEq, Repr

structure OpLdS where
  gd : Guard
  d : BitVec 6
  a : BitVec 6
  b : BitVec 6
  off : BitVec 11
  w : Width
deriving DecidableEq, Repr

structure OpLdAcq where
  gd : Guard
  d : BitVec 6
  a : BitVec 6
  b : BitVec 6
  off : BitVec 11
  w : Width
  scope : Scope
deriving DecidableEq, Repr

structure OpStQ where
  gd : Guard
  a : BitVec 4
  b : QSrc
  msk : BitVec 4
deriving DecidableEq, Repr

structure OpStCt where
  gd : Guard
  a : BitVec 4
  b : BitVec 4
  c : QSrc
  rm : Rnd
deriving DecidableEq, Repr

structure OpStX where
  gd : Guard
  a : BitVec 6
  b : QSrc
  c : QSrc
  size : BitVec 2
  msk : BitVec 4
deriving DecidableEq, Repr

structure OpStS where
  gd : Guard
  a : BitVec 6
  b : BitVec 6
  c : BitVec 6
  off : BitVec 11
  size : BitVec 2
deriving DecidableEq, Repr

structure OpStRel where
  gd : Guard
  a : BitVec 6
  b : BitVec 6
  c : BitVec 6
  off : BitVec 11
  size : BitVec 2
  scope : Scope
deriving DecidableEq, Repr

/-- Ordering of an atomic (10 R260 ORD): `none`, `.acq`, `.rel`, `.ar`, each with its scope. -/
inductive Ord where
  | plain
  | acq (scope : Scope)
  | rel (scope : Scope)
  | ar (scope : Scope)
deriving DecidableEq, Repr

/-- Atomics (10 R271); `wide` is true for 8 bytes and false for 4. -/
structure OpAtm where
  gd : Guard
  d : BitVec 6
  a : BitVec 6
  b : BitVec 6
  c : BitVec 6
  off : BitVec 11
  wide : Bool
  ord : Ord
deriving DecidableEq, Repr

/-- `atm.min`, `atm.max`, which may be signed. -/
structure OpAtmS where
  gd : Guard
  d : BitVec 6
  a : BitVec 6
  b : BitVec 6
  c : BitVec 6
  off : BitVec 11
  wide : Bool
  signed : Bool
  ord : Ord
deriving DecidableEq, Repr

/-- Unit of `red.add` (10 R272 T). -/
inductive RedT where
  | f32 | i32 | i64
deriving DecidableEq, Repr

structure OpRed where
  gd : Guard
  a : BitVec 4
  b : QSrc
  t : RedT
  msk : BitVec 4
deriving DecidableEq, Repr

structure OpScope where
  gd : Guard
  scope : Scope
deriving DecidableEq, Repr

/-! Operand shapes of the V0 and V1 slots (11 R278). -/

structure OpVArith where
  gd : Guard
  d : QDst
  a : QSrc
  b : QorS
  msk : BitVec 4
  rm : Rnd
deriving DecidableEq, Repr

structure OpVFma where
  gd : Guard
  d : QDst
  a : QSrc
  b : QorS
  c : QSrc
  msk : BitVec 4
  rm : Rnd
deriving DecidableEq, Repr

structure OpVBin where
  gd : Guard
  d : QDst
  a : QSrc
  b : QorS
  msk : BitVec 4
deriving DecidableEq, Repr

structure OpVUn where
  gd : Guard
  d : QDst
  a : QSrc
  msk : BitVec 4
deriving DecidableEq, Repr

/-- Transcendentals: RM is legal from 0 to 4 and ignored (11 R281). -/
structure OpVTr where
  gd : Guard
  d : QDst
  a : QSrc
  msk : BitVec 4
  rm : Rnd
deriving DecidableEq, Repr

/-- Vector compares: `d` is the number j of the mask pair m2j, m2j+1 (11 R282). -/
structure OpVCmp where
  gd : Guard
  d : BitVec 3
  a : QSrc
  b : QorS
  msk : BitVec 4
deriving DecidableEq, Repr

structure OpVSplat where
  gd : Guard
  d : QDst
  a : BitVec 6
  w64 : Bool
  msk : BitVec 4
deriving DecidableEq, Repr

structure OpVIota where
  gd : Guard
  d : QDst
  a : BitVec 6
  b : BitVec 6
  msk : BitVec 4
deriving DecidableEq, Repr

structure OpVCvt where
  gd : Guard
  d : QDst
  a : QSrc
  tof : LFmt
  frm : LFmt
  msk : BitVec 4
  rm : Rnd
deriving DecidableEq, Repr

/-- Destination of `vred` (11 R286 DK). -/
inductive RedDst where
  | queue (d : QDst)
  | scalar (d : BitVec 6)
  | vs (n : BitVec 3) (tag : BitVec 6)
deriving DecidableEq, Repr

structure OpVRed where
  gd : Guard
  dst : RedDst
  a : QSrc
  op : BitVec 3
  msk : BitVec 4
  rm : Rnd
deriving DecidableEq, Repr

structure OpVDot where
  gd : Guard
  d : QDst
  a : QSrc
  b : QSrc
  c : QSrc
  msk : BitVec 4
  rm : Rnd
deriving DecidableEq, Repr

/-- Optimiser of `vupd` (11 R291 MODE). -/
inductive OptMode where
  | mom | adam | sgd
deriving DecidableEq, Repr

/-- `vupd`: A is popped only, so it carries no K bit (11 R291). -/
structure OpVUpd where
  gd : Guard
  d : QDst
  a : BitVec 5
  b : QSrc
  c : BitVec 6
  mode : OptMode
  vs : BitVec 3
  msk : BitVec 4
  rm : Rnd
deriving DecidableEq, Repr

/-! Operand shapes of the P slot (11 R293). -/

/-- `pk.mx`: `c` is the scale scalar, or none with SCM = 1. -/
structure OpPkMx where
  gd : Guard
  d : QDst
  a : QSrc
  b : QSrc
  c : Option (BitVec 6)
  split : Bool
  blk : Blk
  fmt : MxFmt
  rm : Rnd
deriving DecidableEq, Repr

structure OpUpkMx where
  gd : Guard
  d : QDst
  a : QSrc
  c : Option (BitVec 6)
  blk : Blk
  fmt : MxFmt
deriving DecidableEq, Repr

structure OpShf where
  gd : Guard
  d : QDst
  a : QSrc
  b : QSrc
deriving DecidableEq, Repr

/-- Element width of `xpo`, `zip`, `unzip` (11 R293 W). -/
inductive EWidth where
  | w32 | w16 | w8
deriving DecidableEq, Repr

structure OpXpo where
  gd : Guard
  d : QDst
  a : QSrc
  w : EWidth
deriving DecidableEq, Repr

structure OpBct where
  gd : Guard
  d : QDst
  a : QSrc
  sub : Bool
  lane : BitVec 6
deriving DecidableEq, Repr

/-- Destination of `sc.get` (11 R296). -/
inductive ScDst where
  | scalar (d : BitVec 6)
  | sq (d : BitVec 1)
deriving DecidableEq, Repr

structure OpScGet where
  gd : Guard
  dst : ScDst
  a : QSrc
deriving DecidableEq, Repr

structure OpZip where
  gd : Guard
  d : QDst
  a : QSrc
  b : QSrc
  w : EWidth
deriving DecidableEq, Repr

/-- `pk.h`: `half` is H, true for binary16. -/
structure OpPkH where
  gd : Guard
  d : QDst
  a : QSrc
  b : QSrc
  half : Bool
  rm : Rnd
deriving DecidableEq, Repr

structure OpUpkH where
  gd : Guard
  d : QDst
  a : QSrc
  half : Bool
deriving DecidableEq, Repr

/-! Operand shapes of the M slot (12 R309). -/

structure OpMpWr where
  gd : Guard
  d : BitVec 3
  a : BitVec 6
deriving DecidableEq, Repr

/-- `mp.rd`: `none` is `mp.rd.base` (12 R311). -/
structure OpMpRd where
  gd : Guard
  d : BitVec 6
  a : Option (BitVec 3)
deriving DecidableEq, Repr

structure OpMxCall where
  gd : Guard
  entry : BitVec 8
deriving DecidableEq, Repr

structure OpMxLat where
  gd : Guard
  d : BitVec 2
  a : BitVec 6
  b : QSrc
  c : BitVec 1
deriving DecidableEq, Repr

structure OpMxPrm where
  gd : Guard
  d : BitVec 2
  a : BitVec 6
  blk : Blk
  fmt : MxFmt
deriving DecidableEq, Repr

/-- Conversion of `acc.rd` (12 R324 CONV): `f64` is CONV 1, the only one with W64 = 1. -/
inductive AccConv where
  | f32 | f64 | bf16 | scp
deriving DecidableEq, Repr

structure OpAccRd where
  gd : Guard
  d : QDst
  a : BitVec 6
  b : BitVec 6
  c : BitVec 6
  cd : BitVec 3
  sort : Bool
  tmp : Bool
  gum : Bool
  conv : AccConv
  rm : Rnd
deriving DecidableEq, Repr

structure OpAccClr where
  gd : Guard
  a : BitVec 6
  b : BitVec 6
deriving DecidableEq, Repr

structure OpAccCp where
  gd : Guard
  a : BitVec 6
  b : BitVec 6
  c : BitVec 6
deriving DecidableEq, Repr

/-! Micro-ops (12 R314, R315). `mkr` is the step marker. -/

structure UMac where
  mkr : Bool
  pl : BitVec 2
  aq : BitVec 5
  ak : Bool
  sq : BitVec 1
  sk : Bool
  afmt : MxFmt
  sr : Bool
  rb : BitVec 3
  rofs : BitVec 8
  cg : BitVec 2
  ovw : Bool
  ri : Bool
  w64 : Bool
  kr : BitVec 3
deriving DecidableEq, Repr

structure ULat where
  mkr : Bool
  pl : BitVec 2
  q : BitVec 5
  k : Bool
  sq : BitVec 1
  sk : Bool
  cr : BitVec 3
  ci : Bool
deriving DecidableEq, Repr

structure USet where
  mkr : Bool
  d : BitVec 3
  s : BitVec 3
  add : Bool
  imm : BitVec 32
deriving DecidableEq, Repr

structure ULoop where
  mkr : Bool
  lv : Bool
  csrc : Bool
  s : BitVec 3
  imm : BitVec 16
deriving DecidableEq, Repr

structure UEndl where
  mkr : Bool
  lv : Bool
deriving DecidableEq, Repr

structure UBrz where
  mkr : Bool
  s : BitVec 3
  nz : Bool
  tgt : BitVec 8
deriving DecidableEq, Repr

structure UClr where
  mkr : Bool
  rb : BitVec 3
  rofs : BitVec 8
  nm1 : BitVec 8
deriving DecidableEq, Repr

structure UAcp where
  mkr : Bool
  rb : BitVec 3
  rofs : BitVec 8
  dr : BitVec 3
  dofs : BitVec 8
  nm1 : BitVec 8
deriving DecidableEq, Repr

/-! Operand shapes of the K slot (14 R344). `gp` is the number k of the guard pair. -/

structure OpRngSet where
  gd : Guard
  a : BitVec 6
  b : BitVec 6
  wc : Bool
  wk : Bool
deriving DecidableEq, Repr

structure OpCdClr where
  gd : Guard
  a : BitVec 6
  cd : BitVec 3
deriving DecidableEq, Repr

structure OpCdMrg where
  gd : Guard
  a : QSrc
  b : BitVec 6
  cd : BitVec 3
  msk : BitVec 4
deriving DecidableEq, Repr

structure OpCdTop where
  gd : Guard
  d : QDst
  cd : BitVec 3
deriving DecidableEq, Repr

structure OpCdArg where
  gd : Guard
  d : BitVec 6
  gp : BitVec 3
  adv : Bool
  gum : Bool
  cd : BitVec 3
deriving DecidableEq, Repr

structure OpCdThr where
  gd : Guard
  d : BitVec 6
  a : BitVec 6
  relt : Bool
  cd : BitVec 3
deriving DecidableEq, Repr

/-! Operand shapes of the F slot (13 R333). -/

structure OpFoMd where
  gd : Guard
  fmt : FMode
deriving DecidableEq, Repr

structure OpFoShp where
  gd : Guard
  a : QSrc
  shape : BitVec 6
deriving DecidableEq, Repr

/-- Layouts of `fo.ld`, `fo.st` with the fields each may use (13 R333, R337). -/
inductive FoLay where
  | run (lane : BitVec 3) (bank : BitVec 4)
  | lanes (lm : BitVec 8) (bank : BitVec 4)
  | banks (lane : BitVec 3)
deriving DecidableEq, Repr

structure OpFoLd where
  gd : Guard
  a : QSrc
  b : BitVec 6
  lay : FoLay
deriving DecidableEq, Repr

structure OpFoSt where
  gd : Guard
  d : QDst
  b : BitVec 6
  lay : FoLay
deriving DecidableEq, Repr

structure OpFoUp where
  gd : Guard
  d : QDst
  a : BitVec 6
  b : BitVec 6
  lm : BitVec 8
  wb : Bool
  rb : BitVec 4
  shape : BitVec 6
deriving DecidableEq, Repr

structure OpFoDn where
  gd : Guard
  a : BitVec 6
  b : BitVec 6
  lm : BitVec 8
  acc : Bool
  rb : BitVec 4
  shape : BitVec 6
deriving DecidableEq, Repr

structure OpFoNrm where
  gd : Guard
  a : BitVec 6
  b : BitVec 6
  c : BitVec 6
  lm : BitVec 8
  rb : BitVec 4
  bank : BitVec 4
deriving DecidableEq, Repr

/-! Operand shapes of the A slot (14 R351, R353). -/

/-- The command flags of 14 R351. -/
structure CmdFlags where
  byt : Bool
  evn : BitVec 4
  eve : Bool
  rel : Bool
  acq : Bool
  scope : Scope
deriving DecidableEq, Repr

structure OpCp where
  gd : Guard
  d : BitVec 6
  a : BitVec 6
  b : BitVec 6
  c : BitVec 6
  fl : CmdFlags
deriving DecidableEq, Repr

/-- Element kinds of `cp.rs` (14 R358 RK), in code order. -/
inductive RsKind where
  | f32 | bf | hf | f64 | i32 | i64
deriving DecidableEq, Repr

structure OpCpRs where
  gd : Guard
  d : BitVec 6
  a : BitVec 6
  b : BitVec 6
  c : BitVec 6
  rk : RsKind
  fl : CmdFlags
deriving DecidableEq, Repr

/-- `cp.bc`, `cp.gt`, `cp.lk`: descriptor and barrier. -/
structure OpCpDesc where
  gd : Guard
  a : BitVec 6
  c : BitVec 6
  fl : CmdFlags
deriving DecidableEq, Repr

structure OpBarInit where
  gd : Guard
  a : BitVec 6
  b : BitVec 6
  c : BitVec 6
  scope : Scope
deriving DecidableEq, Repr

structure OpBarUpd where
  gd : Guard
  a : BitVec 6
  b : BitVec 6
  scope : Scope
deriving DecidableEq, Repr

structure OpBarWt where
  gd : Guard
  d : BitVec 6
  a : BitVec 6
  b : BitVec 6
  scope : Scope
deriving DecidableEq, Repr

structure OpEvtSg where
  gd : Guard
  a : BitVec 6
  evn : BitVec 4
  rel : Bool
  scope : Scope
deriving DecidableEq, Repr

/-- Message length of `msg` (14 R365 LEN). -/
inductive MsgLen where
  | b64 | b128 | b256
deriving DecidableEq, Repr

structure OpMsg where
  gd : Guard
  a : BitVec 6
  b : BitVec 6
  c : BitVec 6
  len : MsgLen
  rel : Bool
  acq : Bool
  scope : Scope
deriving DecidableEq, Repr

structure OpSpawn where
  gd : Guard
  d : BitVec 6
  a : BitVec 6
  b : BitVec 6
  c : BitVec 6
  gp : BitVec 3
deriving DecidableEq, Repr

structure OpWt where
  gd : Guard
  a : BitVec 6
deriving DecidableEq, Repr

structure OpLnch where
  gd : Guard
  d : BitVec 6
  a : BitVec 6
  gp : BitVec 3
deriving DecidableEq, Repr

structure OpCrlPut where
  gd : Guard
  a : BitVec 6
  b : BitVec 6
  c : BitVec 6
  gp : BitVec 3
  eos : Bool
  draft : Bool
deriving DecidableEq, Repr

structure OpCrlRej where
  gd : Guard
  a : BitVec 6
  gp : BitVec 3
deriving DecidableEq, Repr

structure OpVerPub where
  gd : Guard
  a : BitVec 6
  b : BitVec 6
  c : BitVec 6
  scope : Scope
deriving DecidableEq, Repr

structure OpKvTrunc where
  gd : Guard
  a : BitVec 6
  b : BitVec 6
  gp : BitVec 3
deriving DecidableEq, Repr

structure OpKvMap where
  gd : Guard
  d : BitVec 6
  a : BitVec 6
  b : BitVec 6
  gp : BitVec 3
deriving DecidableEq, Repr

/-! What the events of the hardware carry. -/

/-- A context of the module: the task at a position of a tile's queue (0 is the head), or a handler context. -/
inductive CtxRef where
  | task (tile pos : Nat)
  | hc (tile k : Nat)
deriving DecidableEq, Repr

/-- Where a line is kept: its primary home, or the replica home on a die (02 R51, R59). -/
inductive Place where
  | primary
  | replica (die : Nat)
deriving DecidableEq, Repr

/-- One store on its way to its home: bytes `data` at the addresses from `pa` where the mask bit is set (02 R55).
`id` numbers the store so that its ACK can be counted; `tile` is the storer; `tag` is the narrow-release tag it
carries: domain, die and, when the release was at .quad, the quad (05 R132); `dev` marks a store to device memory (01 R27). -/
structure StoreMsg where
  id : Nat
  tile : Nat
  place : Place
  pa : Nat
  bytes : List (Option Byte)
  tag : Option (Nat × Nat × Option Nat)
  dev : Bool
deriving DecidableEq, Repr

/-- A diff of a replica (02 R63): page number, die it comes from, bytes with their offsets, its number, the tile whose
atomic made it (512 for none), and the narrow-release tags it carries: 8-byte word of the page, domain, die, quad (05 R132). -/
structure Diff where
  page : Nat
  die : Nat
  bytes : List (Nat × Byte)
  id : Nat
  tile : Nat
  tags : List (Nat × Nat × Nat × Option Nat)
deriving DecidableEq, Repr

/-- Operation of an atomic at its home (10 R271), `addf` that of a binary32 reduction (R272). -/
inductive AtmKind where
  | add | min | max | and | or | xchg | cas | addf
deriving DecidableEq, Repr

/-- One barrier operation reaching the object's home (05 R136): an init, or counts with their origin. `engine` marks an
engine command's signal, whose refusal sets ERR (R138); `err` and `lost` set the sticky marks (R129, R149). -/
inductive BarOp where
  | init (tile : Nat) (phase expected : BitVec 16)
  | upd (tile : Nat) (engine : Bool) (n d : Nat) (b c : Int)
  | err (tile : Nat)
  | lost (tile : Nat)
deriving DecidableEq, Repr

/-- An incoming link transfer as it lands at this module (14 R361), the arrival that follows once its writes are performed, or the local
arrival that follows an outgoing one. -/
inductive LinkXfer where
  | incoming (dom : Nat) (mode : BitVec 2) (byt : Bool) (dst rbar pva key : Word) (tag : BitVec 24)
      (hop : BitVec 16) (round : BitVec 32) (len : Nat) (data : List Byte) (rel : Option Scope)
  | landed (dom : Nat) (rbar : Word) (n : Nat) (rel : Option Scope) (ids : List Nat) (bad : Bool)
  | remoteDone (tile cmd : Nat)
deriving DecidableEq, Repr

/-- Virtual channels of 18 R427. -/
inductive VChan where
  | g | w | m | c
deriving DecidableEq, Repr

/-- What modules send each other on VC-M, VC-W and VC-C (18 R427, R430, R431; 02 R63, R65). A die of another module is named by
8 + 8 × module + die, its own dies by 0 to 7. -/
inductive VcMsg where
  /-- A page request: who asks, the domain, the page, and the group entry it rests on. -/
  | pageAsk (die dom page : Nat) (group : List (BitVec 64))
  /-- The page, for the die that asked. -/
  | pageData (src die page : Nat) (data : List (Nat × Byte))
  /-- The primary's group entry differs. -/
  | pageRefused (src die page : Nat)
  /-- A replica has been dropped. -/
  | pageDropped (die page : Nat)
  | diff (d : Diff)
  /-- A diff of a die has its place in home order. -/
  | ordered (src die page id : Nat)
  | forward (src die : Nat) (d : Diff)
  /-- The primary's ACK of a diff: within the module of its release, or at every replica. -/
  | diffDone (id : Nat) (everywhere : Bool)
  /-- A replica's ACK of a forwarded diff. -/
  | applied (id : Nat)
  | atomic (die tile id pa : Nat) (kind : AtmKind) (wide signed : Bool) (x cmp : BitVec 64)
      (tag : Option (Nat × Nat × Option Nat)) (acq : Option Nat)
  | result (tile id : Nat) (val : BitVec 64)
  /-- A published weight copy (R430), and its receiver's ACK. -/
  | weights (src dom region : Nat) (ver : BitVec 16) (fin : Bool) (id : Nat) (data : List (Nat × Byte))
  | weightsDone (id module : Nat)
deriving DecidableEq, Repr

/-- A flit as received (18 R427): its sequence number, whether its CRC holds, its destination module, and the message that it
completes. -/
structure Flit where
  port : Nat
  chan : VChan
  seq : Nat
  crcOk : Bool
  dest : BitVec 20
  body : Option VcMsg
deriving DecidableEq, Repr

/-- A published weight copy arriving on VC-W (18 R430), from module `src` under the number `id`; `put` is the copy that the receiver has
claimed and written, with the numbers of its writes. -/
structure WBcast where
  dom : Nat
  region : Nat
  ver : BitVec 16
  fin : Bool
  port : Nat
  src : Nat
  id : Nat
  data : List (Nat × Byte)
  put : Option (Nat × List Nat)
deriving DecidableEq, Repr

/-- Units of 17 R414, by their AUX0 code. -/
inductive UnitKind where
  | scratchpad | accumulator | queueFile | matrixArray | forestLane | sort | l1 | homeSlice | hbmRow | walePort
deriving DecidableEq, Repr

/-- One attempt of a start-up step (19 R433, R434). -/
structure StartTry where
  step : Nat
  unit : Nat
  primary : Bool
  alternate : Bool
deriving DecidableEq, Repr

/-- Power readings of one control tick (19 R440): PNOW of each die and MNOW. -/
structure PowerRead where
  pnow : List (BitVec 16)
  mnow : BitVec 16
deriving DecidableEq, Repr

/-- An event of the hardware with what it is about. A row of the opcode table that is an event is the constructor of
`Instr` with the same name; the machine holds the event that is acting (Machine.State). -/
inductive Event where
  | bundleDispatch (r : CtxRef) | bundleCommit | queueEntryLand (tile id : Nat) (sq : Bool) (data : Entry)
  | registerWriteLand (tile id : Nat) (val : Word) | vredDeferredReduction (tile id : Nat)
  | macResultLand (tile : Nat) | routinePause (tile : Nat) | routineFault (tile : Nat) (kind cause detail : Nat)
  | forestOpLand (tile : Nat) | engineCommandComplete (tile cmd : Nat) | engineCommandFault (tile cmd : Nat)
  | linkRoundSend (tile cmd : Nat) | linkTransferLand (x : LinkXfer)
  | barrierUpdateAtHome (pa : Nat) (ops : List BarOp) | barrierWaitSatisfied (r : CtxRef)
  | eventSignalDeliver (dom : Nat) (taskid : Word) (ev : BitVec 4) | storeAtHome (m : StoreMsg)
  | fill (tile : Nat) (pl : Place) (line : Nat) (data : LineData) (next : BitVec 7)
  | loadMissAtHome (tile : Nat) (pl : Place) (line : Nat) | setprev (tile line : Nat) (src prev : BitVec 7)
  | setnext (tile line : Nat) (src next : BitVec 7) | sethead (pl : Place) (line : Nat) (src head : BitVec 7)
  | upd (tile : Nat) (pl : Place) (line id storer : Nat) (src : BitVec 7) (bytes : List (Nat × Byte))
  | ack (home : Bool) (pl : Place) (line id storer : Nat) (src : BitVec 7) | nack (tile line : Nat) (src : BitVec 7)
  | recall (tile : Nat) (pl : Place) (line : Nat) (src : BitVec 7) | l1Evict (tile line : Nat)
  | homeSliceEvict (pl : Place) (line : Nat) | releaseComplete (id : Nat) | forcedPublish (die dom : Nat)
  | replicaRequest (die page dom va : Nat) | replicaDrainComplete (page : Nat) | dirtyGranuleFlushTimer (die page : Nat)
  | diffAtPrimary (d : Diff) | forwardedDiffApply (die : Nat) (d : Diff) | replicaDrop (die page : Nat)
  | forwardedAtomic (tile id : Nat) (pa : Nat) (kind : AtmKind) (wide signed : Bool) (x cmp : Word)
      (tag : Option (Nat × Nat × Option Nat)) (acq : Option Nat)
  | pageWalkComplete (tile : Nat) (vpage : Nat) | streamPreTranslation (r : CtxRef) (a : BitVec 4)
  | regionDescriptorFetch (tile region : Nat) | parkedStoreRetry (r : CtxRef)
  | remoteQueuePush (tile q : Nat) (data : Entry) (src id : Nat) | pushBufferDrain (tile : Nat)
  | messageSlotWrite (tile slot off : Nat) (bytes : List Byte) (sender : BitVec 32) (sup host : Bool) (id : Nat)
  | heldSlotWriteRelease (tile slot : Nat) | handlerStart (tile : Nat) | deviceMessageDeliver (dom : Nat)
  | unsupervisedDomainTimer (dom : Nat) | dependenceWaitEnd (dom : Nat) (side : Bool) (lq : Nat)
  | placementDecision (dom : Nat) (side : Bool) | taskStart (tile : Nat) | splicePointCheck (tile : Nat)
  | spliceSharedRelease (tile : Nat) | taskResume (tile : Nat) | alignedBoundaryReached (tile : Nat)
  | yield (tile : Nat) | abintWatchdog (tile : Nat) | budgetOverrun (tile : Nat) | borderSaveComplete (tile : Nat)
  | borderBlockWrite (dom word : Nat) (val : Word) | verpolWrite (r : CtxRef) (val : Word)
  | creelRingRegWrite (r : CtxRef) (ctl : Bool) (val : Word) | hmsgWrite (r : CtxRef) (val : Word)
  | fltrecWrite (r : CtxRef) (val : Word) | drepWrite (dom n : Nat) (val : Word)
  | hrctlWrite (dom n : Nat) (ctl : Bool) (val : Word) | kvpoolWrite (dom n : Nat) (val : Word)
  | regionEntryStore (dom region word : Nat) (val : Word) | replicaGroupEntryStore (dom g word : Nat) (val : Word)
  | hbandWrite (n : Nat) (val : Word) | mcRequestSubmit (dom : Nat) (val : Word)
  | hostPostedWrite (f : Nat) (bar2 : Bool) (ofs : Nat) (bytes : List Byte)
  | hostRead (f : Nat) (bar2 : Bool) (ofs len : Nat) | cxlSnoop (pa : Nat) | cxlBackInvalidationDone (pa : Nat)
  | offloadFlushReadDone (port : Nat) | flitReceive (f : Flit) | weightBroadcastReceive (b : WBcast)
  | heldBroadcastResume (port : Nat) | portLinkFail (port : Nat) | portTrained (port : Nat)
  | retrainTimeout (port : Nat) | fenceLinkWaitTimeout (id : Nat) | portBlockWrite (port : Nat) (val : Word)
  | moduleReset (tries : List StartTry) (key : Nat × Nat) (modes : List (BitVec 2)) | domainReset (dom : Nat)
  | spdmGetVersion | spdmGetCapabilities | spdmNegotiateAlgorithms (asym hash : BitVec 32) | spdmGetDigests
  | spdmGetCertificate (slot : Nat) (ofs len : Nat) | spdmChallenge (slot : Nat) (nonce : Nat)
  | spdmGetMeasurements (index : Nat) | powerControlTick (p : PowerRead)
  | marginReplan (die steps stretch : Nat) (pass : Bool)
  | eccErrorDetected (unit : UnitKind) (index : Nat) (pa : Nat) (fixed : Bool)
  | selfTestComplete (unit : UnitKind) (index : Nat) (first second : Bool)
  | cxlMemAccess (port : Nat) (write : Bool) (ofs : Nat) (bytes : List Byte)
  | hostFunctionBinding (word : Nat) (val : Word) | sidebandLogClear (index : Nat)
  | sidebandPowerSetting (word : Nat) (val : BitVec 16) | tilePassingToDomain (tile : Nat) (dom : Option Nat)
deriving DecidableEq, Repr

/-- One instruction, micro-op or event: one constructor for each row of spec/opcode_table.json, in its order. A slot
operation or micro-op carries its operand fields; an event acts on the machine's current `Event`. -/
inductive Instr where
  | nop | bundleDispatch | bundleCommit | queueEntryLand | registerWriteLand | add (o : OpRRR) | sub (o : OpRRR)
  | mul (o : OpRRR) | mulh (o : OpRRR) | mulhu (o : OpRRR) | divu (o : OpRRR) | and (o : OpRRR) | or (o : OpRRR)
  | xor (o : OpRRR) | shl (o : OpRRR) | shr (o : OpRRR) | sra (o : OpRRR) | min (o : OpRRR) | max (o : OpRRR)
  | minu (o : OpRRR) | maxu (o : OpRRR) | clz (o : OpRR) | pcnt (o : OpRR) | bfx (o : OpBfx) | bfxS (o : OpBfx)
  | bfi (o : OpBfi) | addi (o : OpRRI) | muli (o : OpRRI) | andi (o : OpRRI) | ori (o : OpRRI) | xori (o : OpRRI)
  | shli (o : OpShI) | shri (o : OpShI) | srai (o : OpShI) | cmpEq (o : OpCmp) | cmpNe (o : OpCmp) | cmpLt (o : OpCmp)
  | cmpGe (o : OpCmp) | cmpLtu (o : OpCmp) | cmpGeu (o : OpCmp) | cmpiEq (o : OpCmpI) | cmpiNe (o : OpCmpI)
  | cmpiLt (o : OpCmpI) | cmpiGe (o : OpCmpI) | cmpiLtu (o : OpCmpI) | cmpiGeu (o : OpCmpI) | sel (o : OpSel)
  | li (o : OpLi) | lih (o : OpRRI) | ctlRd (o : OpCtlRd) | ctlWr (o : OpCtlWr) | br (o : OpBr) | call (o : OpBr)
  | jmp (o : OpJmp) | ret (o : OpJmp) | loop (o : OpLoop) | lbrk (o : OpLoop) | sync (o : OpSync) | halt (g : Guard)
  | trap (o : OpTrap) | evtWt (o : OpEvtWt) | hret (g : Guard) | tlbInv (o : OpTlbInv) | ctxSv (o : OpRR)
  | ctxLd (o : OpRRR) | tilePre (o : OpRR) | brdMov (o : OpRRR) | ucVfy (o : OpRR) | sdLd (o : OpSdLd)
  | ldQ (o : OpLdQ) | ldSc (o : OpLdSc) | ldG (o : OpLdG) | ldS (o : OpLdS) | ldAcq (o : OpLdAcq) | stQ (o : OpStQ)
  | stCt (o : OpStCt) | stX (o : OpStX) | stS (o : OpStS) | stRel (o : OpStRel) | atmAdd (o : OpAtm)
  | atmMin (o : OpAtmS) | atmMax (o : OpAtmS) | atmAnd (o : OpAtm) | atmOr (o : OpAtm) | atmXchg (o : OpAtm)
  | atmCas (o : OpAtm) | redAdd (o : OpRed) | fenceRw (o : OpScope) | fenceAcq (o : OpScope) | fenceRel (o : OpScope)
  | vaddF (o : OpVArith) | vsubF (o : OpVArith) | vmulF (o : OpVArith) | vfmaF (o : OpVFma) | vfmsF (o : OpVFma)
  | vminF (o : OpVBin) | vmaxF (o : OpVBin) | vabsF (o : OpVUn) | vnegF (o : OpVUn) | vaddI (o : OpVBin)
  | vsubI (o : OpVBin) | vmulI (o : OpVBin) | vmulhI (o : OpVBin) | vminI (o : OpVBin) | vmaxI (o : OpVBin)
  | vminuI (o : OpVBin) | vmaxuI (o : OpVBin) | vand (o : OpVBin) | vor (o : OpVBin) | vxor (o : OpVBin)
  | vshl (o : OpVBin) | vshr (o : OpVBin) | vsra (o : OpVBin) | vaddsI (o : OpVBin) | vrcp (o : OpVTr)
  | vrsq (o : OpVTr) | vexp2 (o : OpVTr) | vlg2 (o : OpVTr) | vcmpEq (o : OpVCmp) | vcmpNe (o : OpVCmp)
  | vcmpLt (o : OpVCmp) | vcmpLe (o : OpVCmp) | vcmpGt (o : OpVCmp) | vcmpGe (o : OpVCmp) | vcmpUn (o : OpVCmp)
  | vicmpEq (o : OpVCmp) | vicmpNe (o : OpVCmp) | vicmpLt (o : OpVCmp) | vicmpGe (o : OpVCmp) | vicmpLtu (o : OpVCmp)
  | vicmpGeu (o : OpVCmp) | vsel (o : OpVBin) | vsplat (o : OpVSplat) | viota (o : OpVIota) | vmov (o : OpVUn)
  | vcvt (o : OpVCvt) | vred (o : OpVRed) | vredDeferredReduction | vdot (o : OpVDot) | vupd (o : OpVUpd)
  | pkMx (o : OpPkMx) | upkMx (o : OpUpkMx) | shf (o : OpShf) | xpo (o : OpXpo) | bct (o : OpBct)
  | scGet (o : OpScGet) | zip (o : OpZip) | unzip (o : OpZip) | pkH (o : OpPkH) | upkH (o : OpUpkH)
  | mpWr (o : OpMpWr) | mpRd (o : OpMpRd) | mxCall (o : OpMxCall) | mxLat (o : OpMxLat) | mxPrm (o : OpMxPrm)
  | mxUcw (o : OpRR) | accRd (o : OpAccRd) | accClr (o : OpAccClr) | accCp (o : OpAccCp) | uopEnd (mkr : Bool)
  | uopMac (o : UMac) | macResultLand | uopLat (o : ULat) | uopSet (o : USet) | uopLoop (o : ULoop)
  | uopEndl (o : UEndl) | uopBrz (o : UBrz) | uopClr (o : UClr) | uopAcp (o : UAcp) | uopNop (mkr : Bool)
  | routinePause | routineFault | rngSet (o : OpRngSet) | cdClr (o : OpCdClr) | cdMrg (o : OpCdMrg)
  | cdTop (o : OpCdTop) | cdArg (o : OpCdArg) | cdThr (o : OpCdThr) | foMd (o : OpFoMd) | foShp (o : OpFoShp)
  | foLd (o : OpFoLd) | foSt (o : OpFoSt) | foUp (o : OpFoUp) | foDn (o : OpFoDn) | foNrm (o : OpFoNrm) | forestOpLand
  | cp (o : OpCp) | cpRs (o : OpCpRs) | cpBc (o : OpCpDesc) | cpGt (o : OpCpDesc) | cpLk (o : OpCpDesc)
  | engineCommandComplete | engineCommandFault | linkRoundSend | linkTransferLand | barInit (o : OpBarInit)
  | barArr (o : OpBarUpd) | barArd (o : OpBarUpd) | barExp (o : OpBarUpd) | barWt (o : OpBarWt) | barrierUpdateAtHome
  | barrierWaitSatisfied | evtSg (o : OpEvtSg) | eventSignalDeliver | msg (o : OpMsg) | spawn (o : OpSpawn)
  | wtRet (o : OpWt) | wtBrw (o : OpWt) | lnch (o : OpLnch) | crlPut (o : OpCrlPut) | crlSeal (g : Guard)
  | crlPutRej (o : OpCrlRej) | verPubClm (o : OpLnch) | verPub (o : OpVerPub) | verPubFin (o : OpVerPub)
  | verAdp (o : OpScope) | kvAlloc (o : OpLnch) | kvAllocMust (o : OpRR) | kvTrunc (o : OpKvTrunc) | kvFree (o : OpWt)
  | kvMap (o : OpKvMap) | storeAtHome | fill | loadMissAtHome | setprev | setnext | sethead | upd | ack | nack
  | recallLine | l1Evict | homeSliceEvict | releaseComplete | forcedPublish | replicaRequest | replicaDrainComplete
  | dirtyGranuleFlushTimer | diffAtPrimary | forwardedDiffApply | replicaDrop | forwardedAtomic | pageWalkComplete
  | streamPreTranslation | regionDescriptorFetch | parkedStoreRetry | remoteQueuePush | pushBufferDrain
  | messageSlotWrite | heldSlotWriteRelease | handlerStart | deviceMessageDeliver | unsupervisedDomainTimer
  | dependenceWaitEnd | placementDecision | taskStart | splicePointCheck | spliceSharedRelease | taskResume
  | alignedBoundaryReached | yield | abintWatchdog | budgetOverrun | borderSaveComplete | borderBlockWrite
  | verpolWrite | creelRingRegWrite | hmsgWrite | fltrecWrite | drepWrite | hrctlWrite | kvpoolWrite
  | regionEntryStore | replicaGroupEntryStore | hbandWrite | mcRequestSubmit | hostPostedWrite | hostRead | cxlSnoop
  | cxlBackInvalidationDone | offloadFlushReadDone | flitReceive | weightBroadcastReceive | heldBroadcastResume
  | portLinkFail | portTrained | retrainTimeout | fenceLinkWaitTimeout | portBlockWrite | moduleReset | domainReset
  | spdmGetVersion | spdmGetCapabilities | spdmNegotiateAlgorithms | spdmGetDigests | spdmGetCertificate
  | spdmChallenge | spdmGetMeasurements | powerControlTick | marginReplan | eccErrorDetected | selfTestComplete
  | cxlMemAccess | hostFunctionBinding | sidebandLogClear | sidebandPowerSetting | tilePassingToDomain
deriving DecidableEq, Repr

/-- The instruction an event is. -/
def Event.instr : Event → Instr
  | .bundleDispatch .. => .bundleDispatch
  | .bundleCommit => .bundleCommit
  | .queueEntryLand .. => .queueEntryLand
  | .registerWriteLand .. => .registerWriteLand
  | .vredDeferredReduction .. => .vredDeferredReduction
  | .macResultLand .. => .macResultLand
  | .routinePause .. => .routinePause
  | .routineFault .. => .routineFault
  | .forestOpLand .. => .forestOpLand
  | .engineCommandComplete .. => .engineCommandComplete
  | .engineCommandFault .. => .engineCommandFault
  | .linkRoundSend .. => .linkRoundSend
  | .linkTransferLand .. => .linkTransferLand
  | .barrierUpdateAtHome .. => .barrierUpdateAtHome
  | .barrierWaitSatisfied .. => .barrierWaitSatisfied
  | .eventSignalDeliver .. => .eventSignalDeliver
  | .storeAtHome .. => .storeAtHome
  | .fill .. => .fill
  | .loadMissAtHome .. => .loadMissAtHome
  | .setprev .. => .setprev
  | .setnext .. => .setnext
  | .sethead .. => .sethead
  | .upd .. => .upd
  | .ack .. => .ack
  | .nack .. => .nack
  | .recall .. => .recallLine
  | .l1Evict .. => .l1Evict
  | .homeSliceEvict .. => .homeSliceEvict
  | .releaseComplete .. => .releaseComplete
  | .forcedPublish .. => .forcedPublish
  | .replicaRequest .. => .replicaRequest
  | .replicaDrainComplete .. => .replicaDrainComplete
  | .dirtyGranuleFlushTimer .. => .dirtyGranuleFlushTimer
  | .diffAtPrimary .. => .diffAtPrimary
  | .forwardedDiffApply .. => .forwardedDiffApply
  | .replicaDrop .. => .replicaDrop
  | .forwardedAtomic .. => .forwardedAtomic
  | .pageWalkComplete .. => .pageWalkComplete
  | .streamPreTranslation .. => .streamPreTranslation
  | .regionDescriptorFetch .. => .regionDescriptorFetch
  | .parkedStoreRetry .. => .parkedStoreRetry
  | .remoteQueuePush .. => .remoteQueuePush
  | .pushBufferDrain .. => .pushBufferDrain
  | .messageSlotWrite .. => .messageSlotWrite
  | .heldSlotWriteRelease .. => .heldSlotWriteRelease
  | .handlerStart .. => .handlerStart
  | .deviceMessageDeliver .. => .deviceMessageDeliver
  | .unsupervisedDomainTimer .. => .unsupervisedDomainTimer
  | .dependenceWaitEnd .. => .dependenceWaitEnd
  | .placementDecision .. => .placementDecision
  | .taskStart .. => .taskStart
  | .splicePointCheck .. => .splicePointCheck
  | .spliceSharedRelease .. => .spliceSharedRelease
  | .taskResume .. => .taskResume
  | .alignedBoundaryReached .. => .alignedBoundaryReached
  | .yield .. => .yield
  | .abintWatchdog .. => .abintWatchdog
  | .budgetOverrun .. => .budgetOverrun
  | .borderSaveComplete .. => .borderSaveComplete
  | .borderBlockWrite .. => .borderBlockWrite
  | .verpolWrite .. => .verpolWrite
  | .creelRingRegWrite .. => .creelRingRegWrite
  | .hmsgWrite .. => .hmsgWrite
  | .fltrecWrite .. => .fltrecWrite
  | .drepWrite .. => .drepWrite
  | .hrctlWrite .. => .hrctlWrite
  | .kvpoolWrite .. => .kvpoolWrite
  | .regionEntryStore .. => .regionEntryStore
  | .replicaGroupEntryStore .. => .replicaGroupEntryStore
  | .hbandWrite .. => .hbandWrite
  | .mcRequestSubmit .. => .mcRequestSubmit
  | .hostPostedWrite .. => .hostPostedWrite
  | .hostRead .. => .hostRead
  | .cxlSnoop .. => .cxlSnoop
  | .cxlBackInvalidationDone .. => .cxlBackInvalidationDone
  | .offloadFlushReadDone .. => .offloadFlushReadDone
  | .flitReceive .. => .flitReceive
  | .weightBroadcastReceive .. => .weightBroadcastReceive
  | .heldBroadcastResume .. => .heldBroadcastResume
  | .portLinkFail .. => .portLinkFail
  | .portTrained .. => .portTrained
  | .retrainTimeout .. => .retrainTimeout
  | .fenceLinkWaitTimeout .. => .fenceLinkWaitTimeout
  | .portBlockWrite .. => .portBlockWrite
  | .moduleReset .. => .moduleReset
  | .domainReset .. => .domainReset
  | .spdmGetVersion => .spdmGetVersion
  | .spdmGetCapabilities => .spdmGetCapabilities
  | .spdmNegotiateAlgorithms .. => .spdmNegotiateAlgorithms
  | .spdmGetDigests => .spdmGetDigests
  | .spdmGetCertificate .. => .spdmGetCertificate
  | .spdmChallenge .. => .spdmChallenge
  | .spdmGetMeasurements .. => .spdmGetMeasurements
  | .powerControlTick .. => .powerControlTick
  | .marginReplan .. => .marginReplan
  | .eccErrorDetected .. => .eccErrorDetected
  | .selfTestComplete .. => .selfTestComplete
  | .cxlMemAccess .. => .cxlMemAccess
  | .hostFunctionBinding .. => .hostFunctionBinding
  | .sidebandLogClear .. => .sidebandLogClear
  | .sidebandPowerSetting .. => .sidebandPowerSetting
  | .tilePassingToDomain .. => .tilePassingToDomain

end Sys2Proof
end

