-- ==== Sys2Proof/Config.lean ====
section
/-!
DEFINITION. What one LZB-8120 fixes, and the values the manual leaves open. The open values are opaque: nothing can be
proved of them (log entry 6). The figures are those of 00 R1 to R4 and of the rules named.
-/

namespace Sys2Proof.Config

/-- Tiles of the module (00 R2). -/
abbrev tiles : Nat := 512

/-- Lowest PA of the tile windows and the bytes of one window (01 R33). -/
abbrev windowBase : Nat := 0xF000000000
abbrev windowSize : Nat := 0x1000000

/-- The local alias (01 R19). -/
abbrev aliasBase : Nat := 0xFFFFFFFFFF000000

/-- Free value: which of the enabled actions happens next, as a function of the draw's number. -/
opaque pick : Nat → Nat

/-- Free value: schedule cycles a bundle or a wait took beyond one (00 R7; timing is not modelled). -/
opaque cycles : Nat → BitVec 64

/-- Free value: FTICK that passed between two actions (00 R8). -/
opaque wall : Nat → BitVec 64

/-- Free value: the bytes above a fault that an engine command did or did not write (14 R356). -/
opaque wroteAbove : Nat → Bool

/-- Free value: the entry a full TLB gives up (01 R38: replacement is not architectural). -/
opaque tlbVictim : Nat → Nat

/-- Free value: the line a full L1 set or home set gives up (02 R51, R70). -/
opaque lineVictim : Nat → Nat

/-- Free value: the free KV page that an allocation takes is the first at or after this one (06 R171). -/
opaque kvPick : Nat → Nat

/-- Free value: a load of an I/O die address that has no register (01 R28), by the draw's number and the word. -/
opaque iodWord : Nat → Nat → BitVec 64

/-- Free value: the SHA-384 of the firmware image (19 R437, measurement 2). -/
opaque firmwareImageDigest : BitVec 384

/-- Free value: the device identity certificate chain of slot 0 (19 R437). -/
opaque certificate : List (BitVec 8)

/-- Free value: the identity key's signature over a challenge (19 R435, R437: the private part never leaves iod0). -/
opaque identitySign : List (BitVec 8) → List (BitVec 8)

/-- Free value: the SHA-384 of the root-of-trust ROM (19 R437, measurement 1). -/
opaque romDigest : BitVec 384

/-- Free value: the responder's nonce of an SPDM answer (19 R437). -/
opaque spdmNonce : Nat → BitVec 256

/-- Free values: the timing exponent and the transfer and message sizes that the SPDM responder announces (19 R437). -/
opaque spdmTiming : BitVec 8
opaque spdmTransfer : BitVec 32
opaque spdmMessage : BitVec 32

/-- Free value: the module number and the port at the far end of a trained port (18 R426). -/
opaque peer : Nat → BitVec 20
opaque peerPort : Nat → BitVec 6

/-- Free value: the voltage ceiling of a die, in 5 mV steps above its first plan (19 R441). -/
opaque voltCeiling : Nat → Nat

/-- Free value: the version that selects weight copies for a read from outside a task: the device, a host function, a link
transfer (01 R41 names a task's TVER only). -/
opaque deviceVersion : Nat → BitVec 16

/-- Free value: which other modules exist (18 R424: up to 1,048,576). -/
opaque module : Nat → Bool

/-- Free value: the module number of the start-up (18 R417, R424). -/
opaque moduleNumber : BitVec 20

end Sys2Proof.Config
end

