-- ==== Sys2Proof/Machine/State.lean ====
section
/-!
DEFINITION. The state of the module as plain data, the reasons a step can stop, and the state after reset. INVENTORY.md
lists every piece with its rule. Sparse stores are lists of (number, value) pairs in one canonical form (Map): numbers
rising, no value equal to the one an unlisted number reads as.
-/

namespace Sys2Proof.Machine

open Sys2Proof

/-- A sparse store: strictly rising keys, no entry equal to the default of the store (log entry 9). -/
abbrev Map (α : Type) := List (Nat × α)

/-- The bytes of memory by storage cell (log entry 1). -/
abbrev Memory := List Host.Cell

/-- A fault of the model: it stops the machine. None is raised: the manual describes every error as a trap, a record or
a status. The constructor stands for an access that no rule admits and no rule reports; safe. -/
inductive Fault where
  /-- Raised by nothing in this model; safe. -/
  | impossible
deriving DecidableEq, Repr

/-- Why the model gives an instruction no meaning. -/
inductive Refusal where
  /-- Raised by an arm of `exec` for an instruction without a meaning; safe. -/
  | notModelled (mnemonic : String)
deriving DecidableEq, Repr

/-- One queue entry, reserved (`data = none`) or landed (08 R213, R215). `id` names the reservation. -/
structure QEnt where
  id : Nat
  data : Option Entry
deriving DecidableEq, Repr

/-- One translation: the domain, the 64 KiB VA page number of its first byte, size code, the leaf and where it lies (01 R38, R40). -/
structure TlbEnt where
  dom : Nat
  vpage : Nat
  sz : Nat
  leaf : Word
  leafPA : Nat
deriving DecidableEq, Repr

/-- A stream register with its hidden counters (10 R254), the translations of the page it reads and of the next one, the page
they were made for, and whether the next page's failed (01 R40). -/
structure Stream where
  desc : BitVec 256
  i0 : BitVec 16
  i1 : BitVec 16
  i2 : BitVec 16
  nel : BitVec 40
  page : Option Nat
  cur : Option TlbEnt
  nxt : Option TlbEnt
  failed : Bool
deriving DecidableEq, Repr

/-- The stream register at task start (10 R254). -/
def Stream.init : Stream := ⟨0, 0, 0, 0, 0, none, none, none, false⟩

/-- A hardware loop (09 R237). -/
structure LoopReg where
  act : Bool
  count : BitVec 32
  pend : Option (BitVec 32)
  start : BitVec 57
  stop : BitVec 57
  order : BitVec 2
deriving DecidableEq, Repr

def LoopReg.init : LoopReg := ⟨false, 0, none, 0, 0, 0⟩

/-- A weight plane (12 R303): elements by column, scales by column. -/
structure Plane where
  fmt : MxFmt
  blk : Blk
  psrc : Word
  cols : Map (BitVec 768)
  scl : Map (BitVec 32)
deriving DecidableEq, Repr

def Plane.init : Plane := ⟨.e2m1, .b32, 0, [], []⟩

/-- A reduction that waits for its source entry (11 R289), of which it reads the low `bits` (15 R375). -/
structure Deferred where
  eid : Nat
  data : Option Entry
  bits : Nat
  op : BitVec 3
  rm : Rnd
  mask : Word
  key : Word
  ctr : Word
deriving DecidableEq, Repr

/-- A versioned scalar (11 R288, R289). -/
structure VScal where
  value : Word
  tag : BitVec 16
  wait : Option Deferred
deriving DecidableEq, Repr

def VScal.init : VScal := ⟨0, 0, none⟩

/-- A candidate list (14 R343). -/
structure CandList where
  pairs : List (Lane × Lane)
  kcap : Nat
  void : Bool
deriving DecidableEq, Repr

def CandList.init : CandList := ⟨[], 64, false⟩

/-- What a trap reports (17 R406, R407): KIND, CAUSE, the per-kind fields, SLOT, FLAGS, and RENT and RSTEP of a routine. -/
structure TrapInfo where
  kind : Nat
  cause : Nat
  detail : Nat
  addr : Word
  aux0 : Word
  aux1 : Word
  slot : Nat
  flags : Nat
  rent : Nat
  rstep : Nat
deriving DecidableEq, Repr

/-- A parked store (05 R146), of the bundle at offset `bofs` in repetition `rep`: it is retried once its handler returned (`resumed`)
and a later tlb.inv completed (`inved`) (R147). -/
structure Parked where
  va : Word
  mask : BitVec 256
  data : BitVec 2048
  order : Nat
  dead : Bool
  resumed : Bool
  inved : Bool
  bofs : Nat
  rep : Nat
  info : TrapInfo
deriving DecidableEq, Repr

/-- The microprogram image a context recorded, or a store holds (12 R322). -/
structure UcRec where
  va : Word
  id : BitVec 32
  ver : BitVec 32
  sig : BitVec 768
deriving DecidableEq, Repr

/-- A routine of the matrix sequencer (12 R312, R313, R320): the number of its call, position, loops, captured key and tag. -/
structure Routine where
  num : Nat
  entry : BitVec 8
  pc : BitVec 8
  lc0 : BitVec 16
  lc1 : BitVec 16
  ls0 : BitVec 8
  ls1 : BitVec 8
  key : Word
  tag : BitVec 24
  paused : Bool
  faulted : Option TrapInfo
deriving DecidableEq, Repr

/-- One accumulator row of binary32 columns (12 R307). -/
structure AccRow where
  valid : Bool
  cols : Map Lane
deriving DecidableEq, Repr

def AccRow.init : AccRow := ⟨false, []⟩

/-- The partial results of a MAC that have not landed (12 R316, R318): first physical row, binary64 rows, start from +0, first
column, and for each column the block results in ascending K. -/
structure MacOp where
  row : Nat
  w64 : Bool
  ovw : Bool
  col : Nat
  parts : List (List Nat)
deriving DecidableEq, Repr

/-- Bank writes and flags of an F operation that has not landed (13 R334). -/
structure FoFlight where
  writes : List (Nat × Lane)
  flags : BitVec 8
deriving DecidableEq, Repr

/-- The register an outstanding variable-latency write will write (08 R209). -/
inductive PReg where
  | s (n : BitVec 6)
  | stream (n : BitVec 4)
deriving DecidableEq, Repr

structure PendReg where
  id : Nat
  reg : PReg
deriving DecidableEq, Repr

/-- Why a context does not issue. The first four are freezes (08 R216); the others count schedule cycles. -/
inductive Wait where
  | reg
  | entry
  | remote
  | walk (vpage : Nat)
  | region (r : Nat)
  | replica (die page va : Nat)
  | acks
  | wide (scope : Scope)
  | publish (die : Nat)
  | replay
  | heldWrite
  | device
  | evt (mask : BitVec 16)
  | bar (pa : Nat) (target : BitVec 16)
  | mx
  | fo
  | eng
  | cmdq
  | reads
  | move (tiles : List Nat) (side : Bool)
  | pre (tile : Nat)
  | drop (pages : List Nat)
  | save (va : Word)
  | cast (region copy : Nat) (ver : BitVec 16) (fin : Bool) (scope : Scope)
  | task
deriving DecidableEq, Repr

/-- What a context is doing: it can issue; it waits, the bundle withdrawn until the wait is over (log entry 7); a trap
suspended it (17 R408). -/
inductive Status where
  | ready
  | waiting (w : Wait)
  | suspended
deriving DecidableEq, Repr

/-- Where a task stands in its life (07 R180, R181, 16 R387, R399): `ending` after its `halt` and `dying` after a kill, until
its weight returns. -/
inductive Life where
  | fresh
  | live
  | preempted
  | loaded
  | ending
  | dying
deriving DecidableEq, Repr

/-- A request for an aligned boundary (16 R391): its DETAIL code. -/
inductive Req where
  | pre
  | move
  | yield
  | selfTest
deriving DecidableEq, Repr

/-- Identity of a task: control registers fixed by its launch, its descriptor and its launch's fields
(07 R176, R180, R182, R193). -/
structure Ident where
  taskid : Word
  tcoord : Word
  tcnt : Word
  targs : Word
  descVA : Word
  desc : List Word
  side : Bool
  prio : Nat
  ep : Nat
  rootVA : Word
  cpen : Bool
  cbar : Word
  seed : Word
deriving DecidableEq, Repr

def Ident.init : Ident := ⟨0, 0, 0, 0, 0, [], false, 0, 0, 0, false, 0, 0⟩

/-- What a handler context holds besides its registers (07 R189 to R192; 17 R405). -/
structure HcInfo where
  slot : Nat
  record : List Word
  fault : Bool
  parked : Bool
  engine : Bool
  serves : Option Word
  savedTask : Bool
  sup : Bool
  kill : Bool
  selH : BitVec 5
  selF : BitVec 3
  start : Word
  asked : Option Bool
deriving DecidableEq, Repr

/-- Registers that software reads as scalars, guards, masks and control registers (08 R222, R223). -/
structure Regs where
  s : Map Word
  g : BitVec 16
  m : Map Word
  ev : BitVec 16
  mp : Map Word
  fpsf : BitVec 8
  seedk : Word
  cgctr : Word
  ofs : BitVec 8
  blost : Bool
  tver : BitVec 16
  polScope : Scope
  polPend : Bool
  polAuto : Bool
  polMode : BitVec 2
  crbase : Word
  crlog : BitVec 5
  crwi : BitVec 32
  crpos : BitVec 16
  crseq : BitVec 32
  twgt : BitVec 48
  cyc : Word
  limit : Word
  scrb : Nat
  accb : Nat
deriving DecidableEq, Repr

def Regs.init : Regs :=
  { s := [], g := 0, m := [], ev := 0, mp := [], fpsf := 0, seedk := 0, cgctr := 0, ofs := 0, blost := false, tver := 0,
    polScope := .mod, polPend := false, polAuto := false, polMode := 0, crbase := 0, crlog := 0, crwi := 0, crpos := 0,
    crseq := 0, twgt := 0, cyc := 0, limit := 0, scrb := 0, accb := 0 }

/-- Phase of a spliced pair (15 R374, R378). After a refusal at the splice point: P's loop word, P running on, C's loop word,
C running with its queues renumbered. -/
inductive PairPhase where
  | prologueP
  | prologueC
  | loopP
  | loopC
  | check
  | joined
  | sharedRelease
  | epilogueP
  | epilogueC
  | refusedP
  | refusedW
  | refusedC
  | refusedE
deriving DecidableEq, Repr

/-- A slot entry of the splice record (15 R379): SRC (0 none, 1 P, 2 C) and BOFS. -/
structure PairSlot where
  own : Nat
  bofs : Nat
deriving DecidableEq, Repr

/-- A pair the Splicer joined or is still checking (15 R368 to R381): the loop bundles, bodies and labels, the splice record by combined
bundle, the combined bundle that is next, the trip count, C's renumbering, the queues of the matched operations, the bits of
a forwarded entry and the depth they share. While `linked`, C's queue cq is P's queue pq: `pre` of its entries are C's
own, then `fwd` are those whose matched store has issued. `sig` is the held last write (R376). -/
structure Pair where
  phase : PairPhase
  ploop : Word
  pbody : Word
  plabel : Word
  cloop : Word
  cbody : Word
  clabel : Word
  recs : List (List PairSlot)
  pos : Nat
  count : BitVec 16
  qmap : Map Nat
  pq : Nat
  cq : Nat
  ebits : Nat
  depth : Nat
  linked : Bool
  pre : Nat
  fwd : Nat
  sig : List StoreMsg
deriving DecidableEq, Repr

/-- Adoption and Creel state of a context beyond its control registers (06 R161, R166). -/
structure Creel where
  armed : Scope
  adopted : Bool
deriving DecidableEq, Repr

/-- An atomic of a context whose read half is performed at a primary home elsewhere (02 R65): its number, where it reads, and the die
whose forced publish its acquire waits for (05 R133). -/
structure FarRead where
  id : Nat
  pa : Nat
  hold : Option Nat
deriving DecidableEq, Repr

/-- A context: a task, or a handler context when `hc` is present (07 R173, R174). `pair` is the pair of a producer that is not at the head
of its queue; its consumer is next to it. `first` says that its first bundle has not been dispatched (13 R328), `far` is an atomic whose
read has not returned, `ftag` the tag of the context's last narrow release fence (05 R132), `late` the parts of its last bundle's stores
that wait for room in the replay queue (05 R146), `cast` the number of the publication that it sends and the modules that have not
acknowledged it (18 R430), `reqEnd` the CYC at which the pending request has taken ABINT cycles (16 R392), 0 without one. -/
structure Ctx where
  id : Ident
  life : Life
  status : Status
  r : Regs
  q : Map (List QEnt)
  a : Map Stream
  lp : Map LoopReg
  planes : Map Plane
  vs : Map VScal
  cds : Map CandList
  ct : Map Entry
  ctp : Nat
  fmode : FMode
  shapes : Map (BitVec 256)
  creel : Creel
  started : Bool
  first : Bool
  pc : Word
  rep : Nat
  sticky : Map Word
  owners : BitVec 24
  replay : List Parked
  order : Nat
  uc : Option UcRec
  rout : Option Routine
  macs : List MacOp
  fo : Option FoFlight
  pend : List PendReg
  unacked : List Nat
  far : Option FarRead
  ftag : Option (Nat × Nat × Option Nat)
  late : List Parked
  cast : Option (Nat × List Nat)
  reqs : List Req
  reqEnd : Word
  budDone : Bool
  budPend : Bool
  hc : Option HcInfo
  pair : Option Pair
deriving DecidableEq, Repr

/-- The zero state of 07 R180. -/
def Ctx.init : Ctx :=
  { id := .init, life := .fresh, status := .ready, r := .init, q := [], a := [], lp := [], planes := [], vs := [],
    cds := [], ct := [], ctp := 0, fmode := .fp32, shapes := [], creel := ⟨.mod, false⟩, started := false, first := false, pc := 0, rep := 0,
    sticky := [], owners := 0xEEEEEE, replay := [], order := 0, uc := none, rout := none, macs := [], fo := none,
    pend := [], unacked := [], far := none, ftag := none, late := [], cast := none
    reqs := [], reqEnd := 0, budDone := false, budPend := false, hc := none, pair := none }

/-- One line in an L1 (02 R52, R55, R56): `pend` lists own stores (number, bytes of the line) whose UPD has not come
back; `above` the bytes of applied updates that came before earlier ones of home order, with the numbers of those; `relay` is the
state after eviction, with the confirmations still awaited. -/
structure L1Line where
  data : LineData
  prev : BitVec 7
  next : BitVec 7
  pend : List (Nat × BitVec 128)
  above : List (List Nat × BitVec 128)
  relay : Option Nat
deriving DecidableEq, Repr

/-- A held write to a BUSY message slot (07 R188); `id` numbers the write for the command that waits for it. -/
structure HeldWrite where
  slot : Nat
  off : Nat
  bytes : List Byte
  sender : BitVec 32
  sup : Bool
  host : Bool
  id : Nat
deriving DecidableEq, Repr

/-- A push held in the push buffer (01 R36), with the tile and the number of the write that waits for it. -/
structure PushEnt where
  q : Nat
  data : Entry
  src : Nat
  id : Nat
deriving DecidableEq, Repr

/-- A message that is complete and waits for a handler context (07 R188, R192). -/
structure QMsg where
  slot : Nat
  sup : Bool
  host : Bool
deriving DecidableEq, Repr

/-- A fault waiting for a handler context (07 R189): its record without HCTX, and what it serves. -/
structure QFault where
  record : List Word
  parked : Bool
  engine : Bool
  serves : Option Word
deriving DecidableEq, Repr

/-- What an engine command does (14 R354 to R365). -/
inductive CmdKind where
  | cp
  | rs (k : RsKind)
  | bc
  | gt
  | lk
  | evt (ev : BitVec 4)
  | msg (len : MsgLen)
deriving DecidableEq, Repr

/-- Where an engine command stands (14 R354 to R361): its acquire, the descriptor, its reads, its writes, the link, the
release, the completion, the event that follows it, and the ways it ends early. -/
inductive CmdPhase where
  | acquiring
  | starting
  | reading
  | writing
  | linkWait
  | linkSent
  | releasing
  | flushing
  | done
  | event
  | faulted
  | lost
  | refused (link : Bool)
deriving DecidableEq, Repr

/-- One run of consecutive bytes that an engine command writes (14 R354): at a VA, or at a physical address (R359), and the
element offset of its first byte. -/
structure CmdRun where
  phys : Bool
  addr : Word
  ofs : Nat
  len : Nat
deriving DecidableEq, Repr

/-- An engine command (14 R351 to R361): the issuer and its rights, the operands as issued, and progress. `src` holds the
bytes read, none where a read faulted; `orders` and `rout` name the parked stores and the routine its acquire waits for. -/
structure Cmd where
  id : Nat
  kind : CmdKind
  word : Word
  hc : Option Nat
  taskid : Word
  kid : BitVec 32
  bofs : Nat
  rep : Nat
  sup : Bool
  tver : BitVec 16
  claim : Option (Nat × Nat)
  d : Word
  a : Word
  b : Word
  bar : Option Word
  fl : CmdFlags
  phase : CmdPhase
  orders : Nat
  rout : Option Nat
  desc : List Word
  src : List (Option Byte)
  wrote : Nat
  unacked : List Nat
  ports : List Nat
  bad : Option (Nat × TrapInfo)
deriving DecidableEq, Repr

/-- Stage of a tile in a Border move (16 R398): `releasing` is SAVING once no task is left, during the tile's own release. -/
inductive MoveStage where
  | active
  | draining
  | saving
  | releasing
deriving DecidableEq, Repr

/-- A tile; `devOut` holds its stores to device memory, the oldest on its way (01 R27); `saving` numbers the image writes whose UPD has
not come back (00 R2 to R4, 01 R33, 12 R307, R314, 13 R327, 07 R186 to R189, 02 R48). -/
structure Tile where
  dom : Option Nat
  learner : Bool
  serv : Bool
  closed : Bool
  stage : MoveStage
  saving : List Nat
  lanesOut : BitVec 8
  queue : List Ctx
  hcs : Map (Option Ctx)
  acc : Map AccRow
  banks : Map Lane
  ucode : Map Word
  ucHeld : Option UcRec
  win : Map Byte
  busy : List Nat
  msgq : List QMsg
  held : List HeldWrite
  faults : List QFault
  pushBuf : List PushEnt
  devOut : List StoreMsg
  cmds : List Cmd
  tlb : List TlbEnt
  walks : List Nat
  walkBad : List (Nat × Nat)
  regions : List Nat
  l1 : Map (Option L1Line)
  pair : Option Pair
  testing : Option UnitKind
deriving DecidableEq, Repr

def Tile.init : Tile :=
  { dom := none, learner := false, serv := true, closed := false, stage := .active, saving := [], lanesOut := 0, queue := [],
    hcs := [], acc := [], banks := [], ucode := [], ucHeld := none, win := [], busy := [], msgq := [],
    held := [], faults := [], pushBuf := [], devOut := [], cmds := [], tlb := [], walks := [], walkBad := [], regions := [], l1 := [],
    pair := none, testing := none }

/-- A copy of a weight region (06 R151); READERS follows from the domain's count of live tasks per TVER (R153). -/
structure Copy where
  cbase : BitVec 36
  state : BitVec 2
  pres : Bool
  ver : BitVec 16
deriving DecidableEq, Repr

def Copy.init : Copy := ⟨0, 0, false, 0⟩

/-- A region entry of the version table (06 R151). -/
structure Region where
  vbase : BitVec 41
  merr : Bool
  en : Bool
  cur : BitVec 16
  npg : BitVec 32
  copies : Map Copy
deriving DecidableEq, Repr

def Region.init : Region := ⟨0, false, false, 0, 0, []⟩

/-- An accepted launch (07 R182 to R185, 16 R383 to R385). -/
structure Launch where
  ident : Ident
  side : Bool
  lq : Nat
  dpen : Bool
  dphase : BitVec 16
  dbar : Word
  dies : List Nat
  n : Nat
  next : Nat
  ready : Bool
  since : Nat
  root : Word
  spawns : Nat
  live : Nat
deriving DecidableEq, Repr

/-- A spawned task waiting to be placed (16 R383). -/
structure Spawned where
  ident : Ident
  twgt : BitVec 48
  since : Nat
deriving DecidableEq, Repr

/-- A task saved by a Border move or from a removed tile, waiting to resume (16 R399, R453). `hold` keeps its identity and the
signals that reach it; `mate` those of the consumer of a saved pair. `batch` and `left` give its place in the order of R453; it is
served once `handed`. -/
structure SavedTask where
  ident : Ident
  slot : Nat
  since : Nat
  fresh : Bool
  batch : Nat
  left : Nat
  handed : Bool
  hold : Ctx
  mate : Option Ctx
deriving DecidableEq, Repr

/-- A device message waiting for slot 255 of the supervisor tile (07 R192). -/
structure DevMsg where
  cls : BitVec 8
  payload : List Byte
  since : Word
deriving DecidableEq, Repr

/-- A Border move in progress (16 R398), with its number. -/
structure Move where
  id : Nat
  tiles : List Nat
  side : Bool
deriving DecidableEq, Repr

/-- A domain (00 R3). `ctl` holds the domain control registers by number (08 R223); `vers` the live tasks by TVER (06 R153); `away` names
the tasks saved by `ctx.sv`, `heldPark` and `heldRout` keep what an image does not say of the parked stores and the routine of saved tasks
(05 R147, 12 R321), `bandReqs` the pending band requests as mode + 1 (19 R439), `resuming` the placed tasks whose save slot is freed when
they resume (16 R399). -/
structure Domain where
  ctl : Map Word
  kvHeld : List Nat
  kvBadf : Bool
  lver : BitVec 16
  vers : Map Nat
  regions : Map Region
  serial : BitVec 24
  launches : Map (Option Launch)
  lqs : Map (List Nat)
  rr : Map Nat
  spawnsA : List Spawned
  spawnsL : List Spawned
  saved : List SavedTask
  bbase : Word
  slots : BitVec 16
  slotUsed : List Nat
  nmove : BitVec 8
  move : Option Move
  spdone : Word
  spref : Word
  spreg : Word
  lreason : BitVec 4
  lkid : BitVec 32
  devmsgs : List DevMsg
  missing : List Word
  req : Word
  bandReqs : Map Nat
  groups : Map Word
  heldEv : List (Word × BitVec 4)
  heldVoid : List (Word × BitVec 3)
  heldPark : List (Word × Parked)
  heldRout : List (Word × Routine)
  away : List Word
  resuming : List (Word × Nat)
  unsup : Bool
deriving DecidableEq, Repr

def Domain.init : Domain :=
  { ctl := [], kvHeld := [], kvBadf := false, lver := 0, vers := [], regions := [], serial := 0, launches := [], lqs := [], rr := [],
    spawnsA := [], spawnsL := [], saved := [], bbase := 0, slots := 0, slotUsed := [], nmove := 0, move := none,
    spdone := 0, spref := 0, spreg := 0, lreason := 0, lkid := 0, devmsgs := [], missing := [], req := 0,
    bandReqs := [], groups := [], heldEv := [], heldVoid := [], heldPark := [], heldRout := [], away := [], resuming := [], unsup := false }

/-- What a home keeps for one line (02 R52, R55, R57): HEAD, stores whose UPD is on its way as (number, storer), and the
recall mark. -/
structure HomeLine where
  head : BitVec 7
  sent : List (Nat × Nat)
  recalled : Bool
deriving DecidableEq, Repr

def HomeLine.init : HomeLine := ⟨0x7F, [], false⟩

/-- A line that a home slice holds (02 R48, R70): its way, its key, and whether it waits to be written back. -/
structure Way where
  way : Nat
  line : Nat
  dirty : Bool
deriving DecidableEq, Repr

/-- A narrow-release tag at a home (05 R132). -/
structure NarrowTag where
  place : Place
  word : Nat
  dom : Nat
  die : Nat
  quad : Option Nat
deriving DecidableEq, Repr

/-- A replica of a 64 KiB page (02 R59, R63): the page's VA, the frame that holds its bytes, its dirty bytes by page offset, the
diffs it sent whose place in home order it does not know yet, with their bytes (R64), the FTICK of the first dirty byte, the
number of its last use. A replica on another module has a `die` above 7 and no frame here. -/
structure Replica where
  die : Nat
  page : Nat
  dom : Nat
  va : Nat
  frame : Nat
  dirty : List Nat
  sent : List (Nat × List Nat)
  since : Word
  used : Nat
  dropping : Bool
deriving DecidableEq, Repr

/-- State of a page at its primary home (02 R62); LINE when not listed. -/
inductive PageMode where
  | line
  | draining
  | replica
deriving DecidableEq, Repr

/-- A die that asked for a replica: its domain, the page's VA and the frame it took (02 R61). -/
structure Ask where
  die : Nat
  dom : Nat
  va : Nat
  frame : Nat
deriving DecidableEq, Repr

structure PageState where
  mode : PageMode
  queued : List StoreMsg
  asking : List Ask
deriving DecidableEq, Repr

def PageState.init : PageState := ⟨.line, [], []⟩

/-- Whom the end of a diff is told: nobody; the storer of a store performed at the primary home; the module that sent the diff, with
its number there, once on this module and once everywhere; the module that forwarded it. -/
inductive DiffAck where
  | none
  | store (tile line : Nat)
  | module (m id : Nat)
  | applied (m id : Nat)
deriving DecidableEq, Repr

/-- What remains to be told after a diff is applied throughout this module. -/
def DiffAck.after : DiffAck → DiffAck
  | .module m id => .module m id
  | _ => .none

/-- A diff whose acknowledgement is awaited (02 R63, R66): number, die and domain, page, what has not applied it on this module
and on others; and who is told (log entry 42). -/
structure DiffOut where
  id : Nat
  die : Nat
  dom : Nat
  page : Nat
  left : Nat
  away : Nat
  ack : DiffAck
deriving DecidableEq, Repr

/-- What a release in progress ends: a release store, a fence, an operation of a context that waits for it, an engine
command. -/
inductive RelKind where
  | store
  | fence
  | wait
  | cmd (id : Nat)
deriving DecidableEq, Repr

/-- A release in progress (04 R118, 05 R130): who, scope, the stores it waits for, the writes held until it completes, the
ports it waits on, each with the time since when (05 R149), and for a waiting operation how it ended (`some true` completed). -/
structure Release where
  id : Nat
  kind : RelKind
  r : CtxRef
  taskid : Word
  scope : Scope
  need : List Nat
  sig : List StoreMsg
  ports : List (Nat × Word)
  ended : Option Bool
deriving DecidableEq, Repr

/-- A port of the fabric (18 R426, R427, R432). -/
structure Port where
  peer : BitVec 20
  pport : BitVec 6
  state : BitVec 2
  en : Bool
  dom : BitVec 2
  since : Word
  retries : Nat
  rxSeq : Map Nat
  got : Map Nat
  held : List WBcast
  lasting : Bool
deriving DecidableEq, Repr

def Port.init : Port := ⟨0, 0, 3, false, 0, 0, 0, [], [], [], false⟩

/-- Power state of a compute die (19 R440, R441). -/
structure Power where
  plim : BitVec 16
  pnow : BitVec 16
  swal : BitVec 8
  str : BitVec 8
  marg : BitVec 8
  volts : Nat
  plannedAt : Word
deriving DecidableEq, Repr

def Power.init : Power := ⟨450, 0, 0, 0, 0, 0, 0⟩

/-- An entry of the flash log (19 R434). -/
structure LogEnt where
  time : BitVec 64
  outcome : BitVec 4
  path : BitVec 4
  unit : BitVec 16
  step : BitVec 8
  boot : BitVec 32
deriving DecidableEq, Repr

/-- The SPDM responder (19 R437): how far a requester has negotiated, and its last answer. -/
structure Spdm where
  version : Bool
  caps : Bool
  algs : Bool
  answer : List Byte
deriving DecidableEq, Repr

/-- The management controller (`hostDone` lists how host reads completed, none for Completer Abort, 18 R418) and the I/O dies' module
registers (18 R417, 19 R433 to R441, 17 R412). `testing` lists the units whose self-test is due or runs, each with its number and the PA
of the error. -/
structure Mc where
  hband : Map Word
  hfunc : Map Word
  modnum : BitVec 20
  ports : Map Port
  power : Map Power
  mlim : BitVec 16
  mnow : BitVec 16
  log : List LogEnt
  boot : BitVec 32
  resetAt : Word
  diesOut : List Nat
  stacksOut : List Nat
  slicesOut : List Nat
  started : Bool
  ukey : Option (Nat × Nat)
  testing : List (UnitKind × Nat × Nat)
  spdm : Spdm
  hostDone : List (Option (List Byte))
  flush : List (Nat × Nat)
deriving DecidableEq, Repr

def Mc.init : Mc :=
  { hband := [], hfunc := [], modnum := 0, ports := [], power := [], mlim := 7200, mnow := 0, log := [], boot := 0, resetAt := 0,
    diesOut := [], stacksOut := [], slicesOut := [], started := false, ukey := none, testing := [],
    spdm := ⟨false, false, false, []⟩, hostDone := [], flush := [] }

/-- Everything the manual gives the module; `refused` lists the dies and pages of replica requests that another module refused (18 R431),
`out` what it has sent to other modules on VC-M, VC-W and VC-C, oldest first. -/
structure Core where
  mem : Memory
  poison : Map Bool
  tiles : Map Tile
  doms : Map Domain
  home : Map HomeLine
  phase : Map (BitVec 9)
  slices : Map (List Way)
  tags : List NarrowTag
  reps : List Replica
  pages : Map PageState
  diffs : List DiffOut
  refused : List (Nat × Nat)
  msgs : List Event
  out : List (BitVec 20 × VcMsg)
  rels : List Release
  hostMem : Map Byte
  cxlDirty : List Nat
  backInv : List Nat
  mc : Mc
  ftick : Word
  sclk : Nat
  seq : Nat
  nid : Nat
deriving DecidableEq, Repr

def Core.init : Core :=
  { mem := [], poison := [], tiles := [], doms := [], home := [], phase := [], slices := [], tags := [], reps := [], pages := [],
    diffs := [], refused := [], msgs := [], out := [], rels := [], hostMem := [], cxlDirty := [], backInv := [], mc := .init, ftick := 0, sclk := 0,
    seq := 0, nid := 1 }

/-- The bundle being issued (08 R207, R210): its address, header and length, the slots still to issue, those whose word it presents, the
effective word of each slot and the queue position of the task that owns it, the target of a control transfer, the stores and
commands held until commit, and the control-register and stream writes that hold from the next bundle on. -/
structure Bundle where
  r : CtxRef
  pc : Word
  hdr : Word
  len : Nat
  rep : Nat
  todo : List Nat
  pres : List Nat
  words : Map Word
  own : Map Nat
  target : Option Word
  ends : Bool
  outs : List (CtxRef × StoreMsg)
  sigs : List (CtxRef × Scope × StoreMsg)
  cmds : List (CtxRef × Cmd)
  late : List (CtxRef × Nat × Word)
  lateA : List (CtxRef × Nat × BitVec 256)
deriving DecidableEq, Repr

/-- The machine: what the manual gives it, the context and slot that act, the event that acts, the bundle in progress, and the machine as the
last committed bundle left it, to which a trap or a wait returns (08 R211, log entry 7). -/
structure State extends Core where
  ref : CtxRef
  slot : Nat
  event : Option Event
  bundle : Option Bundle
  saved : Option Core
deriving DecidableEq, Repr

/-- The module after reset: no tile belongs to a domain, nothing is in memory (log entries 1 to 6). -/
def State.reset : State := { Core.init with ref := .task 0 0, slot := 0, event := none, bundle := none, saved := none }

end Sys2Proof.Machine
end

