-- ==== Sys2Proof/Machine/Map.lean ====
section
/-!
DEFINITION. Sparse stores in one canonical form: keys strictly rising, no entry holding the value an unlisted key reads as
(log entry 9). Every other file reads and writes them through these operations.
-/

namespace Sys2Proof.Machine

/-- The value at key `k`; `d` when the key is not listed. -/
def mapGet {α : Type} (d : α) (m : Map α) (k : Nat) : α :=
  match m with
  | [] => d
  | (i, v) :: t => if i = k then v else mapGet d t k

/-- `m` with `v` listed at `k`, in order. -/
def mapIns {α : Type} (k : Nat) (v : α) (m : Map α) : Map α :=
  match m with
  | [] => [(k, v)]
  | (i, x) :: t => if k < i then (k, v) :: (i, x) :: t else if k = i then (k, v) :: t else (i, x) :: mapIns k v t

/-- `m` without an entry at `k`. -/
def mapErase {α : Type} (m : Map α) (k : Nat) : Map α := m.filter fun e => e.1 != k

/-- `m` with `v` at `k`: listing the default removes the entry. -/
def mapSet {α : Type} [DecidableEq α] (d : α) (m : Map α) (k : Nat) (v : α) : Map α :=
  if v = d then mapErase m k else mapIns k v m

/-- Applies `f` to the value at `k`. -/
def mapUpd {α : Type} [DecidableEq α] (d : α) (m : Map α) (k : Nat) (f : α → α) : Map α :=
  mapSet d m k (f (mapGet d m k))

/-- The keys rise strictly. -/
def keysRise {α : Type} : Map α → Bool
  | [] => true
  | [_] => true
  | (i, _) :: (j, v) :: t => decide (i < j) && keysRise ((j, v) :: t)

/-- The canonical form. -/
def mapWf {α : Type} [DecidableEq α] (d : α) (m : Map α) : Bool :=
  keysRise m && m.all fun e => decide (e.2 ≠ d)

/-- The canonical form of the bytes of memory: an unlisted byte reads 0 (log entry 1). -/
def Memory.wf (m : Memory) : Bool := mapWf (0 : Byte) m

/-- The byte at a storage cell. -/
def Memory.get (m : Memory) (k : Nat) : Byte := mapGet 0 m k

def Memory.set (m : Memory) (k : Nat) (b : Byte) : Memory := mapSet 0 m k b

/-- Writes bytes at consecutive keys. -/
def writeRun (m : Map Byte) (k : Nat) (bs : List Byte) : Map Byte :=
  match bs with
  | [] => m
  | b :: t => writeRun (mapSet 0 m k b) (k + 1) t

/-- Reads `n` bytes from key `k`. -/
def readRun (m : Map Byte) (k n : Nat) : List Byte := (List.range n).map fun i => mapGet 0 m (k + i)

/-- Replaces position `i` of a list. -/
def listSet {α : Type} (l : List α) (i : Nat) (v : α) : List α :=
  match l, i with
  | [], _ => []
  | _ :: t, 0 => v :: t
  | x :: t, i + 1 => x :: listSet t i v

/-- Little-endian number of some bytes (00 R10). -/
def leNat (bs : List Byte) : Nat :=
  match bs with
  | [] => 0
  | b :: t => b.toNat + 256 * leNat t

/-- The `n` little-endian bytes of a number. -/
def leBytes (n v : Nat) : List Byte :=
  match n with
  | 0 => []
  | n + 1 => BitVec.ofNat 8 v :: leBytes n (v / 256)

/-- The 64-bit word of eight bytes. -/
def leWord (bs : List Byte) : Word := BitVec.ofNat 64 (leNat bs)

/-- Bits `lo` to `lo + n - 1` of a number. -/
def nbits (v lo n : Nat) : Nat := (v >>> lo) % 2 ^ n

/-- Bits of a word as a number. -/
def wbits (w : Word) (lo n : Nat) : Nat := (w.toNat >>> lo) % 2 ^ n

/-- Replaces bits `lo` to `lo + n - 1` of a word. -/
def wset (w : Word) (lo n v : Nat) : Word :=
  BitVec.ofNat 64 (w.toNat - ((w.toNat >>> lo) % 2 ^ n) <<< lo + (v % 2 ^ n) <<< lo)

/-- Sign extension of the low `n` bits of a number. -/
def sextNat (n v : Nat) : Int :=
  let x := v % 2 ^ n
  if x < 2 ^ (n - 1) then (x : Int) else (x : Int) - 2 ^ n

/-- The word of an integer, modulo 2^64. -/
def wordOfInt (i : Int) : Word := BitVec.ofInt 64 i

end Sys2Proof.Machine
end

