-- ==== Sys2Proof/Machine/Float.lean ====
section
/-!
DEFINITION. Number formats and rounding (03 R73 to R104): exact values as signed dyadic numbers, one rounding into each
format, microscaling elements and block scales, SCP32, the counter generator, the Gumbel variate and the transcendentals.
-/

namespace Sys2Proof.Machine

/-- The flags of FPSF (03 R76): IV 0, DZ 1, OF 2, UF 3, NX 4, OVF 5, UNF 6, SAT 7. -/
abbrev Flags := BitVec 8

def fIV : Flags := 0x01
def fDZ : Flags := 0x02
def fOF : Flags := 0x04
def fUF : Flags := 0x08
def fNX : Flags := 0x10
def fOVF : Flags := 0x20
def fUNF : Flags := 0x40
def fSAT : Flags := 0x80

/-- A flag raised when a condition holds. -/
def fIf (p : Bool) (f : Flags) : Flags := if p then f else 0

/-- A value and the flags it raised. -/
structure FRes where
  bits : Nat
  fl : Flags
deriving DecidableEq, Repr

/-- A binary floating-point format (03 R74) by its exponent and fraction bits. -/
structure FFmt where
  eb : Nat
  mb : Nat
deriving DecidableEq, Repr

def fmtF16 : FFmt := ⟨5, 10⟩
def fmtBf16 : FFmt := ⟨8, 7⟩
def fmtF32 : FFmt := ⟨8, 23⟩
def fmtF64 : FFmt := ⟨11, 52⟩

def FFmt.bias (f : FFmt) : Int := 2 ^ (f.eb - 1) - 1

/-- Exponent of the least quantum. -/
def FFmt.qmin (f : FFmt) : Int := 1 - f.bias - f.mb

/-- The exponent field of infinities and NaNs. -/
def FFmt.emax (f : FFmt) : Nat := 2 ^ f.eb - 1

/-- The canonical quiet NaN (03 R74, R75). -/
def FFmt.nan (f : FFmt) : Nat := f.emax * 2 ^ f.mb + 2 ^ (f.mb - 1)

def FFmt.inf (f : FFmt) (neg : Bool) : Nat := (if neg then 2 ^ (f.eb + f.mb) else 0) + f.emax * 2 ^ f.mb

def FFmt.maxfin (f : FFmt) (neg : Bool) : Nat := f.inf neg - 1

/-- A decoded value: `fin neg m e` is m × 2^e with the sign. -/
inductive FVal where
  | nan (sig : Bool)
  | inf (neg : Bool)
  | fin (neg : Bool) (m : Nat) (e : Int)
deriving DecidableEq, Repr

def FVal.isNan : FVal → Bool
  | .nan _ => true
  | _ => false

def FVal.isSnan : FVal → Bool
  | .nan s => s
  | _ => false

def FVal.isInf : FVal → Bool
  | .inf _ => true
  | _ => false

def FVal.isZero : FVal → Bool
  | .fin _ m _ => m == 0
  | _ => false

def FVal.neg : FVal → Bool
  | .nan _ => false
  | .inf n => n
  | .fin n _ _ => n

/-- The value of a word of format `f`. -/
def FFmt.decode (f : FFmt) (w : Nat) : FVal :=
  let s := (w >>> (f.eb + f.mb)) % 2 == 1
  let e := (w >>> f.mb) % 2 ^ f.eb
  let m := w % 2 ^ f.mb
  if e = f.emax then (if m = 0 then .inf s else .nan (m < 2 ^ (f.mb - 1)))
  else if e = 0 then .fin s m f.qmin
  else .fin s (m + 2 ^ f.mb) (f.qmin + e - 1)

/-- Number of bits of a natural number. -/
def bitLen (n : Nat) : Nat := if n = 0 then 0 else n.log2 + 1

/-- Rounds the magnitude m × 2^e (and a little more, when `st`) to a multiple of 2^q under a mode (03 R91 to R93): the
multiple, and whether it is inexact. `draw` is the 16-bit draw of `.sr`. -/
def roundMag (rm : Rnd) (draw : Nat) (neg : Bool) (m : Nat) (e q : Int) (st : Bool) : Nat × Bool :=
  if e ≥ q then (m * 2 ^ (e - q).toNat, st)
  else
    let k := (q - e).toNat
    let t := m >>> k
    let r := m % 2 ^ k
    let half := 2 ^ (k - 1)
    let up := match rm with
      | .rne => r > half || (r == half && (st || t % 2 == 1))
      | .rz => false
      | .rup => !neg && (r != 0 || st)
      | .rdn => neg && (r != 0 || st)
      | .sr => (r <<< 16) >>> k + draw % 65536 ≥ 65536
    (if up then t + 1 else t, r != 0 || st)

/-- Rounds m × 2^e into format `f` under a mode, with the flags of IEEE 754-2019 default handling, tininess after rounding
(03 R74, R92, R93). -/
def FFmt.round (f : FFmt) (rm : Rnd) (draw : Nat) (neg : Bool) (m : Nat) (e : Int) (st : Bool) : FRes :=
  let sgn := if neg then 2 ^ (f.eb + f.mb) else 0
  if m = 0 then ⟨sgn, fIf st (fNX ||| fUF)⟩
  else
    let top := e + bitLen m - 1
    let qn := top - f.mb
    let q := max qn f.qmin
    let (y, nx) := roundMag rm draw neg m e q st
    let ovf := y ≥ 2 ^ f.mb && (y >>> f.mb) + (q - f.qmin).toNat ≥ f.emax
    if ovf then
      let b := match rm with
        | .rne | .sr => f.inf neg
        | .rz => f.maxfin neg
        | .rup => if neg then f.maxfin true else f.inf false
        | .rdn => if neg then f.inf true else f.maxfin false
      ⟨b, fOF ||| fNX⟩
    else
      let bits := if y < 2 ^ f.mb then y else (y - 2 ^ f.mb) + ((q - f.qmin).toNat + 1) * 2 ^ f.mb
      let tiny := match rm with
        | .sr => y < 2 ^ f.mb
        | _ =>
          if qn ≥ f.qmin then false
          else (roundMag rm draw neg m e qn st).1 < 2 ^ (f.mb + 1) || top < f.qmin + f.mb - 1
      ⟨sgn + bits, fIf nx fNX ||| fIf (nx && tiny) fUF⟩

/-- A value rounded into format `f`; a NaN gives the canonical NaN. -/
def FFmt.ofVal (f : FFmt) (rm : Rnd) (draw : Nat) (v : FVal) : FRes :=
  match v with
  | .nan s => ⟨f.nan, fIf s fIV⟩
  | .inf n => ⟨f.inf n, 0⟩
  | .fin n m e => f.round rm draw n m e false

/-- The exact sum of two finite values over a common exponent. -/
def addFin (rm : Rnd) (n1 : Bool) (m1 : Nat) (e1 : Int) (n2 : Bool) (m2 : Nat) (e2 : Int) : FVal :=
  let e := min e1 e2
  let a : Int := (m1 * 2 ^ (e1 - e).toNat : Nat)
  let b : Int := (m2 * 2 ^ (e2 - e).toNat : Nat)
  let s := (if n1 then -a else a) + (if n2 then -b else b)
  if s = 0 then .fin (if n1 == n2 then n1 else rm == .rdn) 0 0
  else .fin (s < 0) s.natAbs e

/-- Invalid operation: NaN with IV. -/
def fInvalid : FVal × Flags := (.nan false, fIV)

/-- The NaN result of operands of which one is a NaN (03 R75). -/
def fNanOf (vs : List FVal) : FVal × Flags := (.nan false, fIf (vs.any FVal.isSnan) fIV)

/-- Exact a + b, with the flags of special cases. -/
def addVal (rm : Rnd) (a b : FVal) : FVal × Flags :=
  match a, b with
  | .nan s, b => fNanOf [.nan s, b]
  | a, .nan s => fNanOf [a, .nan s]
  | .inf x, .inf y => if x == y then (.inf x, 0) else fInvalid
  | .inf x, .fin .. => (.inf x, 0)
  | .fin .., .inf y => (.inf y, 0)
  | .fin n1 m1 e1, .fin n2 m2 e2 => (addFin rm n1 m1 e1 n2 m2 e2, 0)

/-- Exact a × b. -/
def mulVal (a b : FVal) : FVal × Flags :=
  match a, b with
  | .nan s, b => fNanOf [.nan s, b]
  | a, .nan s => fNanOf [a, .nan s]
  | .inf x, .inf y => (.inf (x != y), 0)
  | .inf x, .fin n m _ => if m = 0 then fInvalid else (.inf (x != n), 0)
  | .fin n m _, .inf y => if m = 0 then fInvalid else (.inf (n != y), 0)
  | .fin n1 m1 e1, .fin n2 m2 e2 => (.fin (n1 != n2) (m1 * m2) (e1 + e2), 0)

/-- The value with its sign inverted. -/
def negVal : FVal → FVal
  | .nan s => .nan s
  | .inf n => .inf !n
  | .fin n m e => .fin (!n) m e

/-- Rounds the result of an exact operation, joining flags. -/
def FFmt.finish (f : FFmt) (rm : Rnd) (draw : Nat) (r : FVal × Flags) : FRes :=
  let o := f.ofVal rm draw r.1
  ⟨o.bits, o.fl ||| r.2⟩

def FFmt.add (f : FFmt) (rm : Rnd) (draw : Nat) (a b : Nat) : FRes := f.finish rm draw (addVal rm (f.decode a) (f.decode b))

def FFmt.sub (f : FFmt) (rm : Rnd) (draw : Nat) (a b : Nat) : FRes :=
  f.finish rm draw (addVal rm (f.decode a) (negVal (f.decode b)))

def FFmt.mul (f : FFmt) (rm : Rnd) (draw : Nat) (a b : Nat) : FRes := f.finish rm draw (mulVal (f.decode a) (f.decode b))

/-- One rounding of the exact a × b + c (11 R279): infinity times zero is invalid even with a quiet NaN c. -/
def FFmt.fma (f : FFmt) (rm : Rnd) (draw : Nat) (a b c : Nat) : FRes :=
  let p := mulVal (f.decode a) (f.decode b)
  let r := addVal rm p.1 (f.decode c)
  f.finish rm draw (r.1, r.2 ||| p.2)

/-- a × b − c with one rounding. -/
def FFmt.fms (f : FFmt) (rm : Rnd) (draw : Nat) (a b c : Nat) : FRes :=
  let p := mulVal (f.decode a) (f.decode b)
  let r := addVal rm p.1 (negVal (f.decode c))
  f.finish rm draw (r.1, r.2 ||| p.2)

/-- Quotient bits kept before rounding: enough for every format with a sticky bit. -/
def quotBits : Nat := 160

/-- a ÷ b, one rounding, RNE (11 R292, 13 R334). -/
def FFmt.div (f : FFmt) (a b : Nat) : FRes :=
  match f.decode a, f.decode b with
  | .nan s, b => f.finish .rne 0 (fNanOf [.nan s, b])
  | a, .nan s => f.finish .rne 0 (fNanOf [a, .nan s])
  | .inf _, .inf _ => f.finish .rne 0 fInvalid
  | .inf x, .fin n _ _ => ⟨f.inf (x != n), 0⟩
  | .fin n _ _, .inf y => f.round .rne 0 (n != y) 0 0 false
  | .fin n1 m1 e1, .fin n2 m2 e2 =>
    if m2 = 0 then (if m1 = 0 then f.finish .rne 0 fInvalid else ⟨f.inf (n1 != n2), fDZ⟩)
    else
      let q := (m1 <<< quotBits) / m2
      f.round .rne 0 (n1 != n2) q (e1 - e2 - quotBits) ((m1 <<< quotBits) % m2 != 0)

/-- floor of the square root, by bits from `k` down. -/
def isqrtFrom (n : Nat) : Nat → Nat → Nat
  | 0, acc => acc
  | k + 1, acc =>
    let t := acc + 2 ^ k
    isqrtFrom n k (if t * t ≤ n then t else acc)

def isqrt (n : Nat) : Nat := isqrtFrom n (bitLen n / 2 + 1) 0

/-- Correctly rounded square root, RNE. -/
def FFmt.sqrt (f : FFmt) (a : Nat) : FRes :=
  match f.decode a with
  | .nan s => f.finish .rne 0 (fNanOf [.nan s])
  | .inf n => if n then f.finish .rne 0 fInvalid else ⟨f.inf false, 0⟩
  | .fin n m e =>
    if m = 0 then f.round .rne 0 n 0 0 false
    else if n then f.finish .rne 0 fInvalid
    else
      let odd := e % 2 != 0
      let m' := (if odd then 2 * m else m) <<< 200
      let e' := (if odd then e - 1 else e) - 200
      let r := isqrt m'
      f.round .rne 0 false r (e' / 2) (r * r != m')

/-! Comparison of values. -/

/-- Whether finite or infinite x is below y; false with a NaN; zeros are equal. -/
def fltVal (a b : FVal) : Bool :=
  match a, b with
  | .nan _, _ => false
  | _, .nan _ => false
  | .inf x, .inf y => x && !y
  | .inf x, .fin .. => x
  | .fin .., .inf y => !y
  | .fin n1 m1 e1, .fin n2 m2 e2 =>
    let e := min e1 e2
    let a : Int := (m1 * 2 ^ (e1 - e).toNat : Nat)
    let b : Int := (m2 * 2 ^ (e2 - e).toNat : Nat)
    decide ((if n1 then -a else a) < (if n2 then -b else b))

def feqVal (a b : FVal) : Bool := !a.isNan && !b.isNan && !fltVal a b && !fltVal b a

/-- The lesser or greater of two values, exact, −0 below +0, any NaN giving the canonical NaN (11 R279). -/
def FFmt.minmax (f : FFmt) (mx : Bool) (a b : Nat) : FRes :=
  let x := f.decode a
  let y := f.decode b
  if x.isNan || y.isNan then ⟨f.nan, fIf (x.isSnan || y.isSnan) fIV⟩
  else
    let lt := fltVal x y || (!fltVal y x && x.neg && !y.neg)
    ⟨if lt != mx then a else b, 0⟩

/-! Conversion to integers (03 R92, R93). -/

/-- Rounds to an integer in [lo, hi]: NaN gives 0 with IV, out of range saturates with IV, inexact sets NX. -/
def toIntSat (rm : Rnd) (draw : Nat) (lo hi : Int) (v : FVal) : Int × Flags :=
  match v with
  | .nan _ => (0, fIV)
  | .inf n => (if n then lo else hi, fIV)
  | .fin n m e =>
    let (y, nx) := roundMag rm draw n m e 0 false
    let i : Int := if n then -(y : Int) else y
    if i < lo then (lo, fIV) else if i > hi then (hi, fIV) else (i, fIf nx fNX)

/-- An integer as an exact value. -/
def valOfInt (i : Int) : FVal := .fin (i < 0) i.natAbs 0

end Sys2Proof.Machine

namespace Sys2Proof

open Sys2Proof.Machine

/-! Microscaling elements (03 R77 to R83). -/

/-- Element width in bits. -/
def MxFmt.width : MxFmt → Nat
  | .e2m1 | .int4 => 4
  | .e2m3 | .e3m2 | .int6 => 6
  | .e4m3 | .e5m2 | .int8 => 8

/-- Exponent and mantissa bits and bias of a floating element; `none` for an integer element. -/
def MxFmt.flt : MxFmt → Option (Nat × Nat × Int)
  | .e2m1 => some (2, 1, 1)
  | .e2m3 => some (2, 3, 1)
  | .e3m2 => some (3, 2, 3)
  | .e4m3 => some (4, 3, 7)
  | .e5m2 => some (5, 2, 15)
  | .int4 | .int6 | .int8 => none

/-- Exponent of the least non-zero element L(f) (03 R101). -/
def MxFmt.lexp : MxFmt → Int
  | .e2m1 => -1 | .e2m3 => -3 | .e3m2 => -4 | .e4m3 => -9 | .e5m2 => -16 | .int4 => -2 | .int6 => -4 | .int8 => -6

/-- The greatest finite magnitude in units of L(f). -/
def MxFmt.maxUnits : MxFmt → Nat
  | .e2m1 => 12
  | .e2m3 => 60
  | .e3m2 => 448
  | .e4m3 => 229376
  | .e5m2 => 3758096384
  | .int4 => 7 | .int6 => 31 | .int8 => 127

/-- emax(f) of `block_scale` (10 R269). -/
def MxFmt.emax : MxFmt → Int
  | .e2m1 | .e2m3 => 2 | .e3m2 => 4 | .e4m3 => 8 | .e5m2 => 15 | .int4 | .int6 | .int8 => 0

/-- The code of the greatest finite magnitude. -/
def MxFmt.maxCode : MxFmt → Nat
  | .e2m1 => 7 | .e2m3 => 31 | .e3m2 => 31 | .e4m3 => 0x7E | .e5m2 => 0x7B | .int4 => 7 | .int6 => 31 | .int8 => 127

/-- The exact value of an element code (03 R77, R79). -/
def MxFmt.decode (f : MxFmt) (c : Nat) : FVal :=
  match f.flt with
  | none =>
    let i := sextNat f.width c
    .fin (i < 0) i.natAbs f.lexp
  | some (eb, mb, _) =>
    let s := (c >>> (eb + mb)) % 2 == 1
    let e := (c >>> mb) % 2 ^ eb
    let m := c % 2 ^ mb
    if f == .e4m3 && e == 15 && m == 7 then .nan false
    else if f == .e5m2 && e == 31 then (if m = 0 then .inf s else .nan false)
    else if e = 0 then .fin s m f.lexp
    else .fin s (m + 2 ^ mb) (f.lexp + e - 1)

/-- The canonical NaN code of a format that has one. -/
def MxFmt.nanCode : MxFmt → Nat
  | .e4m3 => 0x7F
  | .e5m2 => 0x7E
  | _ => 0

/-- The code with a sign. -/
def MxFmt.signed (f : MxFmt) (neg : Bool) (c : Nat) : Nat :=
  match f.flt with
  | none => if neg then (2 ^ f.width - c) % 2 ^ f.width else c
  | some _ => if neg then c + 2 ^ (f.width - 1) else c

/-- Blocks of a K-step: 4 of 24 or 3 of 32 (03 R80). -/
def Blk.count : Blk → Nat
  | .b24 => 4
  | .b32 => 3

def Blk.size : Blk → Nat
  | .b24 => 24
  | .b32 => 32

end Sys2Proof

namespace Sys2Proof.Machine

/-- An element under an E8M0 scale (03 R78, R82). -/
def mxValue (f : MxFmt) (c scale : Nat) : FVal :=
  if scale = 255 then .nan false
  else match f.decode c with
    | .fin n m e => .fin n m (e + (scale : Int) - 127)
    | v => v

/-- Quantises a binary32 value under a scale (03 R83). -/
def quantise (f : MxFmt) (scale : Nat) (rm : Rnd) (draw : Nat) (v : FVal) : FRes :=
  if scale = 255 then ⟨0, fIV⟩
  else match v with
    | .nan _ => ⟨f.nanCode, fIV⟩
    | .inf n => ⟨f.signed n f.maxCode, fSAT⟩
    | .fin n m e0 =>
      let e := e0 + 127 - (scale : Int)
      if m = 0 then ⟨f.signed n 0, 0⟩
      else
        let max := f.maxUnits
        let lx := f.lexp
        let c := Nat.max max 1
        -- |q| > maxfin, exactly
        let big := if e ≥ lx then decide (m * 2 ^ (e - lx).toNat > c) else decide (m > c * 2 ^ (lx - e).toNat)
        if big then ⟨f.signed n f.maxCode, fSAT⟩
        else
          match f.flt with
          | none =>
            let (y, nx) := roundMag rm draw n m e lx false
            if y > max then ⟨f.signed n f.maxCode, fSAT ||| fIf nx fNX⟩ else ⟨f.signed n y, fIf nx fNX⟩
          | some (_, mb, _) =>
            let q := Max.max (e + bitLen m - 1 - mb) lx
            let (y, nx) := roundMag rm draw n m e q false
            if y * 2 ^ (q - lx).toNat > max then ⟨f.signed n f.maxCode, fSAT ||| fIf nx fNX⟩
            else
              let code := if y < 2 ^ mb then y else (y - 2 ^ mb) + ((q - lx).toNat + 1) * 2 ^ mb
              ⟨f.signed n code, fIf nx fNX⟩

/-- floor(log2) of a positive dyadic number. -/
def ilog2 (m : Nat) (e : Int) : Int := e + bitLen m - 1

/-- The greater magnitude of two values without NaN. -/
def maxMag (a b : FVal) : FVal :=
  match a, b with
  | .inf _, _ => .inf false
  | _, .inf _ => .inf false
  | .fin _ m1 e1, .fin _ m2 e2 => if fltVal (.fin false m1 e1) (.fin false m2 e2) then .fin false m2 e2 else .fin false m1 e1
  | a, _ => a

/-- `block_scale` (10 R269). -/
def blockScale (f : MxFmt) (b : List FVal) : Nat :=
  if b.any FVal.isNan then 255
  else match b.foldl maxMag (.fin false 0 0) with
    | .inf _ => 254
    | .fin _ m e =>
      if m = 0 then 127
      else
        let s := ilog2 m e - f.emax + 127
        if s < 0 then 0 else if s > 254 then 254 else s.toNat
    | .nan _ => 255

/-- Joins `w`-bit codes into a bit string, the first lowest (03 R81). -/
def packBits (w : Nat) (cs : List Nat) : Nat :=
  match cs with
  | [] => 0
  | c :: t => c % 2 ^ w + (packBits w t) <<< w

/-- Code `k` of a bit string. -/
def unpackBits (w v k : Nat) : Nat := (v >>> (w * k)) % 2 ^ w

/-! SCP32 (03 R84 to R90). -/

/-- Significand and exponent of a word; zero and non-canonical words give none. -/
def scpDecode (w : Nat) : Option (Nat × Int) :=
  let m := w % 2 ^ 20
  if m < 2 ^ 19 then none else some (m, sextNat 12 (w >>> 20))

def scpVal (w : Nat) : FVal :=
  match scpDecode w with
  | none => .fin false 0 0
  | some (m, e) => .fin false m (e - 20)

/-- Packs a significand of 20 bits: saturates above 2047, flushes below −2048 (03 R85). -/
def packScp (m : Nat) (e : Int) : FRes :=
  if e > 2047 then ⟨0x7FFFFFFF, fOVF⟩
  else if e < -2048 then ⟨0, fUNF⟩
  else ⟨((e % 4096).toNat) * 2 ^ 20 + m, 0⟩

/-- x / 2^k rounded to nearest even. -/
def rneShift (x k : Nat) : Nat := (roundMag .rne 0 false x 0 k false).1

/-- m × 2^e (and more, when `st`) rounded RNE to 20 significant bits; the second component says inexact. -/
def roundScp (m : Nat) (e : Int) (st : Bool) : FRes × Bool :=
  if m = 0 then (⟨0, 0⟩, st)
  else
    let top := e + bitLen m
    let (y, nx) := roundMag .rne 0 false m e (top - 20) st
    (if y = 2 ^ 20 then packScp (2 ^ 19) (top + 1) else packScp y top, nx)

/-- Product (03 R86). -/
def scpMul (a b : Nat) : FRes :=
  match scpDecode a, scpDecode b with
  | some (ma, ea), some (mb, eb) =>
    let p := ma * mb
    let hi := p ≥ 2 ^ 39
    let m := if hi then rneShift p 20 else rneShift p 19
    let e := if hi then ea + eb else ea + eb - 1
    if m = 2 ^ 20 then packScp (2 ^ 19) (e + 1) else packScp m e
  | _, _ => ⟨0, 0⟩

/-- The word as results hold it: a non-canonical word reads as zero (03 R84). -/
def scpCanon (w : Nat) : Nat := if (scpDecode w).isSome then w % 2 ^ 32 else 0

/-- Sum (03 R87). -/
def scpAdd (a b : Nat) : FRes :=
  match scpDecode a, scpDecode b with
  | none, _ => ⟨scpCanon b, 0⟩
  | _, none => ⟨scpCanon a, 0⟩
  | some (ma0, ea0), some (mb0, eb0) =>
    let swap := eb0 > ea0 || (eb0 == ea0 && mb0 > ma0)
    let (ma, ea, mb, eb) := if swap then (mb0, eb0, ma0, ea0) else (ma0, ea0, mb0, eb0)
    let d := (ea - eb).toNat
    let b0 := mb <<< 3
    let bb := if d ≤ 23 then b0 >>> d else 0
    let st0 := if d ≤ 23 then b0 % 2 ^ d != 0 else true
    let s0 := (ma <<< 3) + bb
    let c := s0 ≥ 2 ^ 23
    let st := if c then st0 || s0 % 2 == 1 else st0
    let s1 := if c then s0 >>> 1 else s0
    let e := if c then ea + 1 else ea
    let s := if st then s1 ||| 1 else s1
    let m := rneShift s 3
    if m = 2 ^ 20 then packScp (2 ^ 19) (e + 1) else packScp m e

/-- x > y on (e, m), zero below every other value. -/
def scpGt (x y : Nat) : Bool :=
  match scpDecode x, scpDecode y with
  | some (mx, ex), some (my, ey) => ex > ey || (ex == ey && mx > my)
  | some _, none => true
  | none, _ => false

/-- Maximum (03 R88): on a tie, the first. -/
def scpMax (a b : Nat) : Nat := if scpGt b a then scpCanon b else scpCanon a

/-- Quotient (13 R334). -/
def scpDiv (x z : Nat) : FRes :=
  match scpDecode z with
  | none => if (scpDecode x).isNone then ⟨0, 0⟩ else ⟨0x7FFFFFFF, fOVF⟩
  | some (mz, ez) =>
    match scpDecode x with
    | none => ⟨0, 0⟩
    | some (mx, ex) =>
      let n := mx <<< 64
      (roundScp (n / mz) (ex - ez - 64) (n % mz != 0)).1

/-- Conversion of a value to SCP32 (03 R89). -/
def toScp (v : FVal) : FRes :=
  match v with
  | .nan _ => ⟨0, fIV⟩
  | .inf n => if n then ⟨0, fIV⟩ else ⟨0x7FFFFFFF, fOVF⟩
  | .fin n m e =>
    if m = 0 then ⟨0, 0⟩
    else if n then ⟨0, fIV⟩
    else
      let (r, nx) := roundScp m e false
      ⟨r.bits, r.fl ||| fIf nx fNX⟩

/-- Conversion of an SCP32 word to a float format (03 R90, 11 R285): a value above the greatest finite one gives that one
with OF and NX. Into binary32 it underflows when the result is subnormal (R90), into another format when it is tiny after rounding (R74). -/
def scpToF (f : FFmt) (w : Nat) : FRes :=
  match scpDecode w with
  | none => ⟨0, 0⟩
  | some (m, e) =>
    if fltVal (f.decode (f.maxfin false)) (.fin false m (e - 20)) then ⟨f.maxfin false, fOF ||| fNX⟩
    else
      let r := f.round .rne 0 false m (e - 20) false
      if r.bits = f.inf false then ⟨f.maxfin false, fOF ||| fNX⟩
      else
        let sub := r.bits < 2 ^ f.mb
        ⟨r.bits, if f.mb = 23 then (r.fl &&& ~~~fUF) ||| fIf (sub && (r.fl &&& fNX != 0)) fUF else r.fl⟩

/-! The counter generator (03 R94, R95). -/

def cgenC1 : Word := 0x8E3A5D27C41B69F5
def cgenC2 : Word := 0xB7A10C934F5ED26B

/-- One round of CGEN. -/
def cgenRound (key x : Word) : Word :=
  let a := (x ^^^ (x >>> 29)) * cgenC1
  let b := (a ^^^ (a >>> 32)) * cgenC2
  b + key

/-- CGEN: the 32-bit output of a key and a counter. -/
def cgen (key hi lo : Word) : Nat :=
  let x := lo ^^^ (hi.rotateLeft 32) ^^^ key
  let y := cgenRound key (cgenRound key (cgenRound key (cgenRound key x)))
  y.toNat >>> 32

/-- What a draw takes: key, tag, kind, round and hop (03 R95). -/
structure DrawSrc where
  key : Word
  tag : Nat
  kind : Nat
  round : Nat
  hop : Nat
deriving DecidableEq, Repr

/-- The output for element index `i` of a draw source. -/
def DrawSrc.gen (d : DrawSrc) (i : Nat) : Nat :=
  cgen d.key (BitVec.ofNat 64 ((d.round % 2 ^ 32) * 2 ^ 32 + (d.hop % 65536) * 65536 + d.kind % 256))
    (BitVec.ofNat 64 ((d.tag % 2 ^ 24) * 2 ^ 40 + i % 2 ^ 40))

/-- draw16 (03 R94). -/
def DrawSrc.draw16 (d : DrawSrc) (i : Nat) : Nat := d.gen i / 65536

/-! Transcendental functions at 2^-192, then one rounding (03 R98, R99). -/

def trBits : Nat := 192

/-- ln 2 × 2^192, from the sum of 1 / (k 2^k). -/
def ln2Fix : Nat := 0xb17217f7d1cf79abc9e3b39803f2f6af40f343267298b62d

/-- Terms of the exponential series, `t` being term `k`. -/
def expTerms (z : Nat) : Nat → Nat → Nat → Nat
  | 0, _, _ => 0
  | n + 1, k, t => t + expTerms z n (k + 1) (((t * z) >>> trBits) / (k + 1))

/-- exp(z) for 0 ≤ z < 1, both at 2^-192. -/
def expFix (z : Nat) : Nat := expTerms z 60 0 (2 ^ trBits)

/-- Terms of atanh, `p` being u^(2k+1). -/
def atanhTerms (u2 : Nat) : Nat → Nat → Nat → Nat
  | 0, _, _ => 0
  | n + 1, k, p => p / (2 * k + 1) + atanhTerms u2 n (k + 1) ((p * u2) >>> trBits)

/-- ln(m / 2^k) for a k + 1-bit m, at 2^-192: m / 2^k lies in [1, 2). -/
def lnFix (m k : Nat) : Nat :=
  let u := ((m - 2 ^ k) <<< trBits) / (m + 2 ^ k)
  2 * atanhTerms ((u * u) >>> trBits) 70 0 u

/-- ln(m × 2^e) at 2^-192, m > 0. -/
def lnInt (m : Nat) (e : Int) : Int :=
  let k := bitLen m - 1
  (e + k) * (ln2Fix : Int) + (lnFix m k : Nat)

/-- A fixed-point number at 2^-192 rounded RNE to binary32; `exact` says that no sticky bit follows. -/
def roundFix (i : Int) (exact : Bool) : FRes := fmtF32.round .rne 0 (i < 0) i.natAbs (-(trBits : Int)) (!exact)

/-- The correctly rounded natural logarithm of m × 2^e as a binary32 word. -/
def rn32Ln (m : Nat) (e : Int) : Nat := (roundFix (lnInt m e) (m == 1 && e == 0)).bits

/-- The Gumbel variate of a CGEN output (03 R98): U = (out + 0.5) / 2^32. -/
def gumbel (draw : Nat) : Nat :=
  let t := rn32Ln (2 * draw + 1) (-33)
  match fmtF32.decode t with
  | .fin _ m e => (rn32Ln m e) ^^^ 0x80000000
  | _ => 0

/-- `vrcp` (03 R99). -/
def trRcp (a : Nat) : FRes :=
  match fmtF32.decode a with
  | .nan s => ⟨fmtF32.nan, fIf s fIV⟩
  | .inf n => ⟨if n then 0x80000000 else 0, 0⟩
  | .fin n m _ => if m = 0 then ⟨fmtF32.inf n, fDZ⟩ else fmtF32.div 0x3F800000 a

/-- `vrsq` (03 R99). -/
def trRsq (a : Nat) : FRes :=
  match fmtF32.decode a with
  | .nan s => ⟨fmtF32.nan, fIf s fIV⟩
  | .inf n => if n then ⟨fmtF32.nan, fIV⟩ else ⟨0, 0⟩
  | .fin n m e =>
    if m = 0 then ⟨fmtF32.inf n, fDZ⟩
    else if n then ⟨fmtF32.nan, fIV⟩
    else
      -- 1 / sqrt(m 2^e) = r 2^-p with r² = 2^(2p - e) / m
      let odd := e % 2 != 0
      let m' := if odd then 2 * m else m
      let e' := if odd then e - 1 else e
      let num := 2 ^ 400
      let r := isqrt (num / m')
      fmtF32.round .rne 0 false r (-(200 : Int) - e' / 2) (r * r * m' != num)

/-- `vexp2` (03 R99). -/
def trExp2 (a : Nat) : FRes :=
  match fmtF32.decode a with
  | .nan s => ⟨fmtF32.nan, fIf s fIV⟩
  | .inf n => ⟨if n then 0 else fmtF32.inf false, 0⟩
  | .fin n m e =>
    if m = 0 then ⟨0x3F800000, 0⟩
    else if ilog2 m e ≥ 9 then fmtF32.round .rne 0 false 1 (if n then -1000 else 1000) true
    else
      -- x at 2^-192, floored to an integer part and a fraction
      let x : Int := if e ≥ -(trBits : Int) then (m * 2 ^ (e + trBits).toNat : Nat) else (m >>> (-(trBits : Int) - e).toNat : Nat)
      let sx := if n then -x else x
      let i := sx / 2 ^ trBits
      let f := (sx % 2 ^ trBits).toNat
      if f = 0 && e ≥ -(trBits : Int) then fmtF32.round .rne 0 false 1 i false
      else fmtF32.round .rne 0 false (expFix ((f * ln2Fix) >>> trBits)) (i - trBits) true

/-- `vlg2` (03 R99). -/
def trLg2 (a : Nat) : FRes :=
  match fmtF32.decode a with
  | .nan s => ⟨fmtF32.nan, fIf s fIV⟩
  | .inf n => if n then ⟨fmtF32.nan, fIV⟩ else ⟨fmtF32.inf false, 0⟩
  | .fin n m e =>
    if m = 0 then ⟨fmtF32.inf true, fDZ⟩
    else if n then ⟨fmtF32.nan, fIV⟩
    else
      let k := bitLen m - 1
      let i : Int := e + k
      if m = 2 ^ k then fmtF32.round .rne 0 (i < 0) i.natAbs 0 false
      else roundFix (i * 2 ^ trBits + ((lnFix m k <<< trBits) / ln2Fix : Nat)) false

end Sys2Proof.Machine
end

