-- ==== Sys2Proof/Machine/Base.lean ====
section
/-!
DEFINITION. The named operations over tiles, contexts, registers and queues that every meaning uses, and the fault records
of 17 R405 to R407.
-/

namespace Sys2Proof

/-- The tile a context is on. -/
def CtxRef.tile : CtxRef → Nat
  | .task t _ => t
  | .hc t _ => t

/-- The position of a task in its queue, the number of a handler context. -/
def CtxRef.pos : CtxRef → Nat
  | .task _ p => p
  | .hc _ k => k

/-- Whether it is a handler context. -/
def CtxRef.isHc : CtxRef → Bool
  | .task .. => false
  | .hc .. => true

end Sys2Proof

namespace Sys2Proof.Machine

/-! Tiles, domains and contexts. -/

def Core.tile (c : Core) (t : Nat) : Tile := mapGet .init c.tiles t

def Core.setTile (c : Core) (t : Nat) (x : Tile) : Core := { c with tiles := mapSet .init c.tiles t x }

def Core.updTile (c : Core) (t : Nat) (f : Tile → Tile) : Core := c.setTile t (f (c.tile t))

def Core.dom (c : Core) (d : Nat) : Domain := mapGet .init c.doms d

def Core.setDom (c : Core) (d : Nat) (x : Domain) : Core := { c with doms := mapSet .init c.doms d x }

def Core.updDom (c : Core) (d : Nat) (f : Domain → Domain) : Core := c.setDom d (f (c.dom d))

/-- The context, when there is one. -/
def Core.ctx? (c : Core) (r : CtxRef) : Option Ctx :=
  match r with
  | .task t p => (c.tile t).queue[p]?
  | .hc t k => mapGet none (c.tile t).hcs k

def Core.ctx (c : Core) (r : CtxRef) : Ctx := (c.ctx? r).getD .init

/-- Replaces a context that is there; changes nothing otherwise. -/
def Core.setCtx (c : Core) (r : CtxRef) (x : Ctx) : Core :=
  match r with
  | .task t p => c.updTile t fun tl => { tl with queue := listSet tl.queue p x }
  | .hc t k => c.updTile t fun tl =>
      if (mapGet none tl.hcs k).isSome then { tl with hcs := mapSet none tl.hcs k (some x) } else tl

def Core.updCtx (c : Core) (r : CtxRef) (f : Ctx → Ctx) : Core := c.setCtx r (f (c.ctx r))

/-- Applies `f` to every context of a tile. -/
def Core.updTileCtxs (c : Core) (t : Nat) (f : Ctx → Ctx) : Core :=
  c.updTile t fun tl => { tl with queue := tl.queue.map f, hcs := tl.hcs.map fun e => (e.1, e.2.map f) }

/-- The domain of a tile; 4 (no domain) for a tile of none. -/
def Core.domOf (c : Core) (t : Nat) : Nat := (c.tile t).dom.getD 4

/-- Compute die of a tile (00 R2). -/
def dieOf (t : Nat) : Nat := t / 64

/-- Quad of a tile within its die (00 R2). -/
def quadOf (t : Nat) : Nat := ((t / 8) % 8 / 2) * 4 + t % 8 / 2

/-- Draws the next number. -/
def Core.fresh (c : Core) : Nat × Core := (c.nid, { c with nid := c.nid + 1 })

/-- Sends a message. -/
def Core.send (c : Core) (m : Event) : Core := { c with msgs := c.msgs ++ [m] }

/-- Sends a request that is not already on its way. -/
def Core.sendOnce (c : Core) (m : Event) : Core := if c.msgs.contains m then c else c.send m

/-- The tile offset of message slots and of the local alias of a slot (01 R33, 07 R190). -/
def slotBase : Nat := 0x530000

/-! Stops of an operation. -/

/-- Why an operation does not complete: a trap, or a wait after which its bundle is issued again. -/
inductive Stop where
  | trap (t : TrapInfo)
  | wait (w : Wait)
deriving DecidableEq, Repr

abbrev Op := Except Stop

/-- A trap without per-kind fields. -/
def mkTrap (kind cause : Nat) : TrapInfo :=
  { kind := kind, cause := cause, detail := 0, addr := 0, aux0 := 0, aux1 := 0, slot := 0xF, flags := 0, rent := 0, rstep := 0 }

/-- Trap kinds of 17 R403. -/
def kIllegal : Nat := 1
def kOverflow : Nat := 2
def kUnderflow : Nat := 3
def kImbalance : Nat := 4
def kPage : Nat := 5
def kPerm : Nat := 6
def kAlign : Nat := 7
def kKvdry : Nat := 8
def kFencelost : Nat := 9
def kBudget : Nat := 10
def kWatchdog : Nat := 11
def kForest : Nat := 12
def kVersion : Nat := 13
def kBarrier : Nat := 14
def kLink : Nat := 15
def kProgram : Nat := 16
def kData : Nat := 17

/-- Cause codes of 01 R44 and the chapters named in 17 R403. -/
def cNoncanon : Nat := 0x01
def cNotmapped : Nat := 0x02
def cMalformed : Nat := 0x03
def cPhys : Nat := 0x04
def cDomain : Nat := 0x05
def cSuper : Nat := 0x06
def cRead : Nat := 0x07
def cWrite : Nat := 0x08
def cExec : Nat := 0x09
def cWindow : Nat := 0x0A
def cNotarget : Nat := 0x0B
def cAlign : Nat := 0x0C
def cPriv : Nat := 0x0D
def cStream : Nat := 0x0E
def cNoatom : Nat := 0x0F
def cUcode : Nat := 0x10
def cFbank : Nat := 0x11
def cFshape : Nat := 0x12
def cInuse : Nat := 0x13
def cUncorr : Nat := 0x20

/-- FLAGS bits of word 0 of a record (17 R406). -/
def flParked : Nat := 1
def flEngine : Nat := 2
def flKilled : Nat := 4
def flInhnd : Nat := 8
def flSpliced : Nat := 16
def flRoutine : Nat := 32
def flPend : Nat := 64

/-- The trap kind of an address cause (01 R44). -/
def kindOfCause (cause : Nat) : Nat :=
  if cause ≤ cPhys then kPage else if cause = cAlign then kAlign else if cause = cStream || cause = cUcode then kIllegal
  else if cause = cFbank || cause = cFshape then kForest else if cause = cUncorr then kData else kPerm

def raise {α : Type} (t : TrapInfo) : Op α := .error (.trap t)

/-! Fault records. -/

/-- The eight words of a record (17 R406); HCTX is filled in by the handler that takes it. -/
def recordWords (c : Core) (tile : Nat) (kid : BitVec 32) (bofs : Nat) (taskid : Word) (rep : Nat) (t : TrapInfo) : List Word :=
  [ BitVec.ofNat 64 (t.kind * 2 ^ 56 + t.cause * 2 ^ 48 + t.slot * 2 ^ 44 + 0xF * 2 ^ 40 + t.flags * 2 ^ 32 +
      (rep % 65536) * 65536 + t.detail % 65536),
    BitVec.ofNat 64 (kid.toNat * 2 ^ 32 + bofs % 2 ^ 32), taskid, t.addr,
    BitVec.ofNat 64 ((t.rent % 256) * 2 ^ 24 + (t.rstep % 256) * 2 ^ 16 + (c.domOf tile % 4) * 512 + tile), c.ftick,
    t.aux0, t.aux1 ]

/-- KID of a context: word 1 of its descriptor. -/
def Ctx.kid (x : Ctx) : BitVec 32 := (x.id.desc.getD 1 0).extractLsb' 0 32

/-- ENTRY of a task, or the address at which a handler started. -/
def Ctx.entry (x : Ctx) : Word :=
  match x.hc with
  | some h => h.start
  | none => x.id.desc.getD 0 0

/-- Byte offset of the context's bundle from its entry; a task that has not started stands at its entry. -/
def Ctx.bofs (x : Ctx) : Nat := if x.started || x.hc.isSome then (x.pc - x.entry).toNat else 0

/-- FLAGS bit SPLICED of a trap: a context that runs the combined bundles of a joined pair raised it (15 R380, 17 R406). -/
def Core.splicedFlag (c : Core) (r : CtxRef) : Nat :=
  match r with
  | .task t p => if p < 2 && decide (((c.tile t).pair.map fun x => x.phase) = some .joined) then flSpliced else 0
  | .hc .. => 0

/-- The record of a trap of a context. -/
def ctxRecord (c : Core) (r : CtxRef) (t : TrapInfo) : List Word :=
  let x := c.ctx r
  if r.isHc then recordWords c r.tile 0 x.bofs 0 x.rep { t with flags := t.flags ||| flInhnd }
  else recordWords c r.tile x.kid x.bofs x.id.taskid x.rep { t with flags := t.flags ||| c.splicedFlag r }

/-- The record of a parked store of a context (15 R380, 17 R405). -/
def parkRecord (c : Core) (r : CtxRef) (p : Parked) (t : TrapInfo) : List Word :=
  let x := c.ctx r
  if r.isHc then recordWords c r.tile 0 p.bofs 0 p.rep { t with flags := t.flags ||| flInhnd }
  else recordWords c r.tile x.kid p.bofs x.id.taskid p.rep { t with flags := t.flags ||| c.splicedFlag r }

/-- A record with HCTX = k. -/
def withHctx (rec : List Word) (k : Nat) : List Word :=
  match rec with
  | [] => []
  | w :: t => wset w 40 4 k :: t

/-- A record with a flag added. -/
def withFlag (rec : List Word) (f : Nat) : List Word :=
  match rec with
  | [] => []
  | w :: t => (w ||| BitVec.ofNat 64 (f * 2 ^ 32)) :: t

/-- Bytes of words, little-endian. -/
def wordsBytes (ws : List Word) : List Byte := ws.flatMap fun w => leBytes 8 w.toNat

/-- Queues a device message for the supervisor of a domain (07 R192). -/
def Core.devMsg (c : Core) (d : Nat) (cls : BitVec 8) (payload : List Byte) : Core :=
  if d < 4 then c.updDom d fun x => { x with devmsgs := x.devmsgs ++ [⟨cls, payload, c.ftick⟩] } else c

/-- A fault record as a device message of class 1: its HCTX is 0xF (17 R406). -/
def Core.faultMsg (c : Core) (d : Nat) (rec : List Word) : Core := c.devMsg d 0x01 (wordsBytes (withHctx rec 15))

/-- Frees a message slot (07 R188). -/
def Tile.freeSlot (tl : Tile) (slot : Nat) : Tile := { tl with busy := tl.busy.filter (· != slot) }

def Tile.markBusy (tl : Tile) (slot : Nat) : Tile := if tl.busy.contains slot then tl else { tl with busy := slot :: tl.busy }

/-! Ending a task (07 R181, R193). -/

/-- The launch of a task: its serial. -/
def serialOf (taskid : Word) : Nat := wbits taskid 40 24

/-- A 16-bit difference of versions as a signed number (06 R153). -/
def sext16 (n : Nat) : Int := sextNat 16 n

/-- sel(r, v) (06 R153): the published present copy at or below v with the least distance; of copies with the same VER, the lowest
number (log entry 49). -/
def selCopy (rg : Region) (v : BitVec 16) : Option Nat :=
  (List.range 4).foldl (fun best c =>
    let cp := mapGet .init rg.copies c
    let d := sext16 ((v - cp.ver).toNat)
    if cp.pres && cp.state == 2#2 && decide (d ≥ 0) then
      match best with
      | none => some c
      | some b => if d < sext16 ((v - (mapGet .init rg.copies b).ver).toNat) then some c else some b
    else best) none

/-- One live task more, or one less, at a TVER (06 R153). -/
def addReaders (d : Domain) (v : BitVec 16) (up : Bool) : Domain :=
  { d with vers := mapUpd 0 d.vers v.toNat fun n => if up then n + 1 else n - 1 }

/-- READERS of a copy: the live tasks of the domain whose TVER selects it (06 R153). -/
def Domain.readers (d : Domain) (rg : Region) (c : Nat) : Nat :=
  d.vers.foldl (fun n e => if selCopy rg (BitVec.ofNat 16 e.1) == some c then n + e.2 else n) 0

/-- The pieces of a task's descriptor (07 R176). -/
def descW (desc : List Word) (i lo n : Nat) : Nat := wbits (desc.getD i 0) lo n

def Ident.scrk (i : Ident) : Nat := descW i.desc 6 0 13
def Ident.accr (i : Ident) : Nat := descW i.desc 6 13 13
def Ident.hctx (i : Ident) : Nat := descW i.desc 6 26 4
def Ident.flanes (i : Ident) : Nat := descW i.desc 6 30 8
def Ident.remote (i : Ident) : Nat := descW i.desc 9 0 32
def Ident.budget (i : Ident) : Word := i.desc.getD 11 0
def Ident.abint (i : Ident) : Nat := descW i.desc 12 0 32
def Ident.yieldable (i : Ident) : Bool := descW i.desc 1 36 1 == 1
def Ident.logit (i : Ident) : Bool := descW i.desc 1 39 1 == 1

/-- Depth of queue q; the scale queues (keys 32, 33) hold 8 (07 R176, 08 R213, R219). -/
def Ident.qdepth (i : Ident) (q : Nat) : Nat :=
  if q ≥ 32 then 8 else if q < 16 then descW i.desc 7 (4 * q) 4 else descW i.desc 8 (4 * (q - 16)) 4

/-- Whether queue q is remote-fed. -/
def Ident.isRemote (i : Ident) (q : Nat) : Bool := q < 32 && (i.remote >>> q) % 2 == 1

/-! Registers (08 R222). Reads take the value older bundles left (R209): the context as the machine last committed. -/

/-- The acting context. -/
def State.me (s : State) : Ctx := s.toCore.ctx s.ref

/-- The machine as older bundles left it. -/
def State.older (s : State) : Core := s.saved.getD s.toCore

/-- The acting context as older bundles left it. -/
def State.old (s : State) : Ctx := s.older.ctx s.ref

def State.setMe (s : State) (x : Ctx) : State := { s with toCore := s.toCore.setCtx s.ref x }

def State.upd (s : State) (f : Ctx → Ctx) : State := s.setMe (f s.me)

def State.updRegs (s : State) (f : Regs → Regs) : State := s.upd fun x => { x with r := f x.r }

/-- The value of scalar n: s0 reads zero. -/
def Regs.getS (r : Regs) (n : Nat) : Word := if n = 0 then 0 else mapGet 0 r.s n

/-- Scalar n written: a write to s0 is discarded. -/
def Regs.setS (r : Regs) (n : Nat) (v : Word) : Regs := if n = 0 then r else { r with s := mapSet 0 r.s n v }

/-- Guard n: g0 reads true, g1 false. -/
def Regs.getG (r : Regs) (n : Nat) : Bool := if n = 0 then true else if n = 1 then false else r.g.getLsbD n

/-- Bit n of a 16-bit word set or cleared. -/
def setBit16 (w : BitVec 16) (n : Nat) (b : Bool) : BitVec 16 :=
  if b then w ||| (1#16 <<< n) else w &&& ~~~(1#16 <<< n)

/-- Guard pair k written with a value and its complement; pair 0 is discarded. -/
def Regs.setGPair (r : Regs) (k : Nat) (b : Bool) : Regs :=
  if k = 0 then r else { r with g := setBit16 (setBit16 r.g (2 * k) b) (2 * k + 1) (!b) }

/-- Mask n: m0 all ones, m1 all zeros. -/
def Regs.getM (r : Regs) (n : Nat) : Word := if n = 0 then BitVec.allOnes 64 else if n = 1 then 0 else mapGet 0 r.m n

/-- Mask pair j written; pair 0 is discarded. -/
def Regs.setMPair (r : Regs) (j : Nat) (a b : Word) : Regs :=
  if j = 0 then r else { r with m := mapSet 0 (mapSet 0 r.m (2 * j) a) (2 * j + 1) b }

/-- Whether a variable-latency write of an older bundle to the register has not landed. -/
def Ctx.pending (x : Ctx) (p : PReg) : Bool := x.pend.any fun e => decide (e.reg = p)

/-- Reads scalar n: a read of a register whose write is outstanding freezes (08 R209, R216). -/
def State.rdS (s : State) (n : BitVec 6) : Op Word :=
  if s.old.pending (.s n) then .error (.wait .reg) else .ok (s.old.r.getS n.toNat)

/-- Writes scalar n; an outstanding write of an older bundle to it no longer lands in it. -/
def State.wrS (s : State) (n : BitVec 6) (v : Word) : State :=
  s.upd fun x => { x with r := x.r.setS n.toNat v, pend := x.pend.filter fun e => decide (e.reg ≠ .s n) }

/-- Writes guard pair k. -/
def State.wrG (s : State) (k : BitVec 3) (b : Bool) : State := s.updRegs fun r => r.setGPair k.toNat b

/-- Writes mask pair j. -/
def State.wrM (s : State) (j : BitVec 3) (a b : Word) : State := s.updRegs fun r => r.setMPair j.toNat a b

/-- The mask an operation names (11 R276). -/
def State.mask (s : State) (m : BitVec 4) : Word := s.old.r.getM m.toNat

/-- ORs flags into FPSF (03 R76). -/
def State.flag (s : State) (f : Flags) : State := s.updRegs fun r => { r with fpsf := r.fpsf ||| f }

/-- Whether the operation acts (08 R198, R206). -/
def State.guardOk (s : State) (g : Guard) : Bool := s.old.r.getG g.reg.toNat != g.neg

/-! Queues (08 R213 to R219). Keys 0 to 31 are v0 to v31; 32 and 33 are sq0 and sq1. -/

def Ctx.queue (x : Ctx) (q : Nat) : List QEnt := mapGet [] x.q q

def Ctx.setQueue (x : Ctx) (q : Nat) (l : List QEnt) : Ctx := { x with q := mapSet [] x.q q l }

/-- Lands data in the reservation `id` of a queue. -/
def landIn (l : List QEnt) (id : Nat) (e : Entry) : List QEnt :=
  l.map fun x => if x.id = id && x.data.isNone then { x with data := some e } else x

/-- Lands data in the reservation wherever the context holds it. -/
def Ctx.land (x : Ctx) (id : Nat) (e : Entry) : Ctx := { x with q := x.q.map fun p => (p.1, landIn p.2 id e) }

/-- The message that will land reservation `id`. -/
def landMsg (ms : List Event) (id : Nat) : Option Entry :=
  ms.findSome? fun m => match m with
    | .queueEntryLand _ i _ e => if i = id then some e else none
    | _ => none

/-- A deferred reduction takes the entry it waits for (11 R289). -/
def Ctx.feedDeferred (x : Ctx) (id : Nat) (e : Entry) : Ctx :=
  { x with vs := x.vs.map fun p => (p.1, { p.2 with wait := p.2.wait.map fun d =>
      if d.eid = id then { d with data := some e } else d }) }

/-- Drops the message that lands reservation `id`. -/
def dropLand (ms : List Event) (id : Nat) : List Event :=
  ms.filter fun m => match m with
    | .queueEntryLand _ i _ _ => i != id
    | _ => true

/-- Position of the consumer of a pair in its tile's queue: 1 until the producer ends. -/
def Pair.cpos (p : Pair) : Nat :=
  match p.phase with
  | .epilogueC | .refusedC | .refusedE => 0
  | _ => 1

/-- The pair whose consumer a context is. -/
def Core.asConsumer (c : Core) (r : CtxRef) : Option Pair :=
  match r with
  | .task t p => ((c.tile t).pair).bind fun x => if p = x.cpos then some x else none
  | .hc .. => none

/-- Where queue `q` of a context is: the consumer's forwarded queue of a joined pair is the producer's (15 R373). -/
def Core.qref (c : Core) (r : CtxRef) (q : Nat) : CtxRef × Nat :=
  match c.asConsumer r with
  | some p => if p.linked && q == p.cq then (.task r.tile 0, p.pq) else (r, q)
  | none => (r, q)

/-- The number by which a queue trap reports a queue: renumbered for a consumer (15 R373), `0x80` + n for sqn (17 R407). -/
def Core.qname (c : Core) (r : CtxRef) (q : Nat) : Nat :=
  if q ≥ 32 then 0x80 + (q - 32)
  else match c.asConsumer r with
    | some p => mapGet q p.qmap q
    | none => q

/-- Depth of a queue of a context: the forwarded queue has the greater of the two declared depths (15 R373). -/
def Core.qdepth (c : Core) (r : CtxRef) (q : Nat) : Nat :=
  let own := (c.ctx r).id.qdepth q
  match c.asConsumer r, (c.tile r.tile).pair, r with
  | some p, _, _ => if q == p.cq then p.depth else own
  | none, some p, .task _ 0 => if p.linked && q == p.pq then p.depth else own
  | none, _, _ => own

/-- A pair after its consumer popped the forwarded queue. -/
def Pair.popped (p : Pair) : Pair := if p.pre > 0 then { p with pre := p.pre - 1 } else { p with fwd := p.fwd - 1 }

/-- The acting context's entries of a queue. -/
def State.entries (s : State) (q : Nat) : List QEnt :=
  let (r, k) := s.toCore.qref s.ref q
  (s.toCore.ctx r).queue k

/-- Depth of a queue of the acting context. -/
def State.depth (s : State) (q : Nat) : Nat := s.toCore.qdepth s.ref q

def State.updQ (s : State) (q : Nat) (f : List QEnt → List QEnt) : State :=
  let (r, k) := s.toCore.qref s.ref q
  { s with toCore := s.toCore.updCtx r fun x => x.setQueue k (f (x.queue k)) }

/-- The low bits that a reader of a queue's head sees: of a forwarded entry of an MX stream those that the consumer's load would read
(15 R375). -/
def State.headBits (s : State) (q : Nat) : Nat :=
  match s.toCore.asConsumer s.ref with
  | some p => if q == p.cq && p.pre == 0 && (p.linked || p.fwd > 0) then p.ebits else 2048
  | none => 2048

/-- The head of a queue as its reader sees it. -/
def State.forwarded (s : State) (q : Nat) (e : Entry) : Entry := BitVec.ofNat 2048 (e.toNat % 2 ^ s.headBits q)

/-- Removes the head of a queue. -/
def State.popQ (s : State) (q : Nat) : State :=
  let mine : Bool := match s.toCore.asConsumer s.ref with
    | some p => q == p.cq
    | none => false
  let s := s.updQ q fun l => l.drop 1
  if mine then { s with toCore := s.toCore.updTile s.ref.tile fun tl => { tl with pair := tl.pair.map Pair.popped } } else s

/-- The mark of a poisoned queue entry (17 R412), by the entry's number. -/
def entryKey (id : Nat) : Nat := 2 ^ 61 + id

/-- The head of a queue. A poisoned one raises the data-error trap (17 R412). An entry that an older bundle reserved and that has not
landed freezes the reader (R216); one reserved by the same bundle lands first. An empty remote-fed queue freezes (01 R36); another
underflows (R218, R219). -/
def State.headQ (s : State) (q : Nat) : Op (Entry × State) :=
  match s.entries q with
  | [] =>
    if s.me.id.isRemote q then .error (.wait .remote)
    else raise { mkTrap (if q < 32 then kUnderflow else kImbalance) 0 with detail := s.toCore.qname s.ref q }
  | h :: _ =>
    match h.data with
    | some e =>
      if mapGet false s.poison (entryKey h.id) then
        raise { mkTrap kData cUncorr with aux0 := BitVec.ofNat 64 (3 * 2 ^ 56 + s.ref.tile * 2 ^ 32) }
      else .ok (s.forwarded q e, s)
    | none =>
      match landMsg s.msgs h.id with
      | some e =>
        if s.older.nid ≤ h.id then
          let s := s.updQ q fun l => landIn l h.id e
          let c : Core := { s.toCore with msgs := dropLand s.msgs h.id }
          .ok (s.forwarded q e, { s with toCore := c.updTileCtxs s.ref.tile fun x => x.feedDeferred h.id e })
        else .error (.wait .entry)
      | none => .error (.wait .entry)

/-- Pops or peeks queue q. -/
def State.readQ (s : State) (q : Nat) (peek : Bool) : Op (Entry × State) := do
  let (e, s) ← s.headQ q
  if peek then return (e, s) else return (e, s.popQ q)

/-- Reads a queue source field. -/
def State.src (s : State) (f : QSrc) : Op (Entry × State) := s.readQ f.q.toNat f.peek

/-- The queue-overflow trap of a queue reported as `name`, holding `n` entries (08 R218, 17 R407). -/
def overflowTrap (name n : Nat) : TrapInfo := { mkTrap kOverflow 0 with detail := name, aux0 := BitVec.ofNat 64 n }

/-- Adds an entry at the tail of a queue: landed, or reserved with the number that names it. A full queue overflows
(R218). -/
def State.addQ (s : State) (q : Nat) (e : Option Entry) : Op (Nat × State) :=
  if (s.entries q).length ≥ s.depth q then raise (overflowTrap (s.toCore.qname s.ref q) (s.entries q).length)
  else
    let (i, c) := s.toCore.fresh
    let s := { s with toCore := c }
    .ok (i, s.updQ q fun l => l ++ [⟨i, e⟩])

/-- Pushes a landed entry. -/
def State.pushQ (s : State) (q : Nat) (e : Entry) : Op State := do
  let (_, s) ← s.addQ q (some e)
  return s

/-- Reserves an entry. -/
def State.reserveQ (s : State) (q : Nat) : Op (Nat × State) := s.addQ q none

/-- Pushes to a queue destination; `none` discards (08 R200). -/
def State.dst (s : State) (d : QDst) (e : Entry) : Op State :=
  match d with
  | none => .ok s
  | some q => s.pushQ q.toNat e

/-! Lanes. -/

/-- Lane i of an entry (08 R213). -/
def lane (e : Entry) (i : Nat) : Nat := (e.toNat >>> (32 * i)) % 2 ^ 32

/-- The entry of a list of lanes, the first lowest. -/
def ofLanes (ls : List Nat) : Entry := BitVec.ofNat 2048 (packBits 32 ls)

/-- The 64 lanes. -/
def lanes (e : Entry) : List Nat := (List.range 64).map (lane e)

/-- The task that the fault handler `h` holds suspended: position in the tile's queue. -/
def findTask (tl : Tile) (taskid : Word) : Option Nat := tl.queue.findIdx? fun x => decide (x.id.taskid = taskid)

/-- The code of a scope (05 R129). -/
def scopeCode (q : Scope) : Nat :=
  match q with
  | .ctx => 0 | .tile => 1 | .quad => 2 | .die => 3 | .side => 4 | .mod => 5 | .host => 6 | .pod => 7 | .span => 8 | .sys => 9

/-! Other modules (02 R67). -/

/-- The name of a byte of a page whose primary home is on another module: the module counts above the 52 bits of its PA there
(02 R67). -/
def farPa (module pa : Nat) : Nat := (module + 1) * 2 ^ 64 + pa

/-- Whether a name is one of another module's bytes. -/
def isFar (pa : Nat) : Bool := 2 ^ 64 ≤ pa

/-- The module of such a name. -/
def farModule (pa : Nat) : Nat := pa / 2 ^ 64 - 1

/-- The number by which this module names a die of another one (02 R67). -/
def farDie (module die : Nat) : Nat := 8 + 8 * module + die

/-- The number by which this module names a tile of another one, for its atomics. -/
def farTile (module tile : Nat) : Nat := (module + 1) * 2 ^ 16 + tile

def isFarTile (tile : Nat) : Bool := 2 ^ 16 ≤ tile

/-- The die of a tile, of this module or another. -/
def dieCode (tile : Nat) : Nat := if isFarTile tile then farDie (tile / 2 ^ 16 - 1) (tile % 2 ^ 16 / 64) else dieOf tile

/-- Whether a command was issued by a context, wherever the context's task is now. -/
def Core.issued (c : Core) (r : CtxRef) (t : Nat) (m : Cmd) : Bool :=
  match r with
  | .task .. => m.hc.isNone && decide (m.taskid = (c.ctx r).id.taskid)
  | .hc u k => u == t && m.hc == some k

/-- The link transfers of a context that carry a release at .pod or wider, `except` one command's own (05 R130). -/
def Core.linkCmds (c : Core) (r : CtxRef) (except : Option Nat) : List Cmd :=
  c.tiles.flatMap fun e => if e.2.dom == some (c.domOf r.tile) then
      e.2.cmds.filter fun m => decide (m.kind = .lk) && m.fl.rel && decide (7 ≤ scopeCode m.fl.scope) && some m.id != except && c.issued r e.1 m
    else []

/-- The ports by which traffic for another module leaves: the torus ports of the first coordinate that differs, else the span or
system links (18 R425, R427; log entry 13). -/
def routePorts (me m : Nat) : List Nat :=
  let run := fun (lo n : Nat) => (List.range n).map fun i => lo + i
  if me / 65536 != m / 65536 then run 32 4
  else if me / 4096 != m / 4096 then run 24 8
  else if me / 256 != m / 256 then run 0 8
  else if me / 16 != m / 16 then run 8 8
  else run 16 8

/-- The modules whose acknowledgement of a diff of a domain is awaited (05 R130). -/
def Core.awayModules (c : Core) (dom : Nat) : List Nat :=
  ((c.diffs.filter fun x => x.dom == dom && x.away != 0).flatMap fun x =>
    if isFar (x.page * 65536) then [farModule (x.page * 65536)]
    else (c.reps.filter fun e => e.page == x.page && 8 ≤ e.die).map fun e => (e.die - 8) / 8).eraseDups

/-- The routes across which a release of a context at a scope needs an acknowledgement: none at .host or narrower (05 R149). -/
def Core.routes (c : Core) (r : CtxRef) (q : Scope) (except : Option Nat) : List (List Nat) :=
  if scopeCode q < 7 then []
  else
    let casts := ((c.ctx r).cast.map (·.2)).getD []
    ((c.linkCmds r except).map fun m => [wbits (m.desc.getD 2 0) 0 6]) ++
      ((casts ++ c.awayModules (c.domOf r.tile)).map fun m => routePorts c.mc.modnum.toNat m).eraseDups

def Core.portState (c : Core) (p : Nat) : BitVec 2 := (mapGet Port.init c.mc.ports p).state

/-- The retraining ports that a release waits on: those of a route of which no port is up (05 R149). -/
def Core.linkPorts (c : Core) (r : CtxRef) (q : Scope) (except : Option Nat) : List Nat :=
  ((c.routes r q except).flatMap fun ps => if ps.any fun p => c.portState p == 1#2 then []
    else ps.filter fun p => c.portState p == 2#2).eraseDups

/-- The ports of a route that a release needs and that is down as a whole (05 R149). -/
def Core.lostRoute (c : Core) (r : CtxRef) (q : Scope) (except : Option Nat) : Option (List Nat) :=
  (c.routes r q except).find? fun ps => ps.all fun p => c.portState p == 0#2 || c.portState p == 3#2

/-- Whether a context is a supervisor context (07 R192). -/
def Ctx.isSup (x : Ctx) : Bool :=
  match x.hc with
  | some h => h.fault || h.sup
  | none => false

end Sys2Proof.Machine
end

