-- ==== Sys2Proof/Machine/Flags.lean ====
section
/-!
DEFINITION. The flags of FPSF as the operations raise them (03 R76, R92, R93): joining the flags of many lanes, and the
condition of every compare.
-/

namespace Sys2Proof.Machine

open Sys2Proof

/-- The flags of many results, ORed (03 R76). -/
def joinFlags (rs : List FRes) : Flags := rs.foldl (fun a r => a ||| r.fl) 0

/-- FPSF after a `ctl.wr` of `w`: each bit written 1 is cleared (03 R76). -/
def clearFlags (f : Flags) (w : Word) : Flags := f &&& ~~~(w.extractLsb' 0 8)

/-- The condition of a scalar or integer lane compare on words of one width (09 R231, 11 R282). -/
inductive Cond where
  | eq | ne | lt | ge | ltu | geu
deriving DecidableEq, Repr

def Cond.holds {n : Nat} (c : Cond) (a b : BitVec n) : Bool :=
  match c with
  | .eq => a == b
  | .ne => a != b
  | .lt => a.slt b
  | .ge => !a.slt b
  | .ltu => a.ult b
  | .geu => !a.ult b

/-- The condition of a binary32 lane compare (11 R282). -/
inductive FCond where
  | eq | ne | lt | le | gt | ge | un
deriving DecidableEq, Repr

/-- Whether a quiet NaN operand sets IV: for the ordered conditions only. -/
def FCond.signalling : FCond → Bool
  | .eq | .ne | .un => false
  | .lt | .le | .gt | .ge => true

/-- The condition of two binary32 values. -/
def FCond.holds (c : FCond) (a b : FVal) : Bool :=
  let un := a.isNan || b.isNan
  match c with
  | .eq => feqVal a b
  | .ne => !feqVal a b
  | .lt => !un && fltVal a b
  | .le => !un && !fltVal b a
  | .gt => !un && fltVal b a
  | .ge => !un && !fltVal a b
  | .un => un

/-- The flags of a binary32 compare: IV for a signalling NaN, and for any NaN under the ordered conditions. -/
def FCond.flags (c : FCond) (a b : FVal) : Flags :=
  fIf (a.isSnan || b.isSnan || (c.signalling && (a.isNan || b.isNan))) fIV

end Sys2Proof.Machine
end

