-- ==== Sys2Proof/Machine/Operands.lean ====
section
/-!
DEFINITION. The operand forms that the slots share: extension of loaded values (10 R260), queue-or-scalar sources (11 R275),
stochastic draws (03 R95, 11 R277), lane results under a mask (11 R276), several entries of one queue, and the VA of a
scalar access (10 R264).
-/

namespace Sys2Proof.Machine

open Sys2Proof

/-- A loaded value of 2^size bytes, extended to 64 bits (10 R260). -/
def extend64 (w : Width) (v : Nat) : Word :=
  if w.signed then wordOfInt (sextNat (8 * 2 ^ w.size.toNat) v) else BitVec.ofNat 64 (v % 2 ^ (8 * 2 ^ w.size.toNat))

/-- A loaded value of 2^size bytes, extended to a lane. -/
def extend32 (w : Width) (v : Nat) : Nat := (extend64 w v).toNat % 2 ^ 32

/-- The address s_a + s_b + OFF (10 R264); OFF is signed and in bytes. -/
def scalarVA (a b : Word) (off : BitVec 11) : Word := a + b + off.signExtend 64

/-- A queue-or-scalar source as its lanes (11 R275). -/
def State.srcOr (s : State) (q : QorS) : Op ((Nat → Nat) × State) :=
  match q with
  | .queue f => do
    let (e, s) ← s.src f
    return (lane e, s)
  | .scalar n => do
    let w ← s.rdS n
    return ((fun _ => w.toNat % 2 ^ 32), s)

/-- The queue traffic of a source of a suppressed operation: it consumes no data, so a poisoned entry raises nothing (08 R206). -/
def State.drop (s : State) (q : QSrc) : Op State :=
  match s.src q with
  | .ok (_, s) => .ok s
  | .error (.wait w) => .error (.wait w)
  | .error (.trap t) =>
    if t.kind ≠ kData then raise t else if q.peek then .ok s else .ok (s.popQ q.q.toNat)

/-- The same of a queue-or-scalar source. -/
def State.dropOr (s : State) (q : QorS) : Op State :=
  match q with
  | .queue f => s.drop f
  | .scalar _ => .ok s

/-- The queue traffic of `n` pops of one queue. -/
def State.dropN (s : State) (q : BitVec 5) : Nat → Op State
  | 0 => .ok s
  | n + 1 => do
    let s ← s.drop { q := q, peek := false }
    s.dropN q n

/-- Pushes `n` all-zero entries (08 R206). -/
def State.zeros (s : State) (d : QDst) (n : Nat) : Op State :=
  match n with
  | 0 => .ok s
  | n + 1 => do
    let s ← s.dst d 0
    s.zeros d n

/-- Pushes entries in order. -/
def State.dsts (s : State) (d : QDst) (es : List Entry) : Op State :=
  match es with
  | [] => .ok s
  | e :: t => do
    let s ← s.dst d e
    s.dsts d t

/-- Draws of an operation without a stream (03 R95): key SEEDK as the bundle was dispatched, tag and index of CGCTR. -/
def State.drawSrc (s : State) (kind : Nat) : DrawSrc :=
  { key := s.old.r.seedk, tag := wbits s.me.r.cgctr 40 24, kind := kind, round := 0, hop := 0 }

/-- CGCTR.INDEX. -/
def State.drawBase (s : State) : Nat := wbits s.me.r.cgctr 0 40

/-- Advances CGCTR.INDEX by `n`, modulo 2^40. -/
def State.consume (s : State) (n : Nat) : State :=
  s.updRegs fun r => { r with cgctr := wset r.cgctr 0 40 (wbits r.cgctr 0 40 + n) }

/-- The stochastic draws of an operation of `n` elements, which are consumed under `.sr` only (11 R277). -/
def State.draws (s : State) (rm : Rnd) (n : Nat) : (Nat → Nat) × State :=
  match rm with
  | .sr =>
    let d := s.drawSrc 1
    let b := s.drawBase
    ((fun j => d.draw16 (b + j)), s.consume n)
  | _ => ((fun _ => 0), s)

/-- Lane i of the result is `f i` where the mask selects it and `keep i` elsewhere (11 R276). -/
def laneResults (mask : Word) (keep : Nat → Nat) (f : Nat → FRes) : Entry × Flags :=
  let rs := (List.range 64).map fun i => if mask.getLsbD i then f i else ⟨keep i, 0⟩
  (ofLanes (rs.map fun r => r.bits), joinFlags rs)

/-- A word with bit i the value of `f i`. -/
def bitsOf (f : Nat → Bool) : Word :=
  BitVec.ofNat 64 (packBits 1 ((List.range 64).map fun i => if f i then 1 else 0))

end Sys2Proof.Machine
end

