-- ==== Sys2Proof/Machine/Iod.lean ====
section
/-!
DEFINITION. The registers and tables of the I/O dies as memory (06 R150, R151, 15 R382, 16 R397, 17 R407, 18 R417, R426, R431,
19 R439, R440): what a load of them returns, and the device steps that a store to them becomes.
-/

namespace Sys2Proof.Machine

open Sys2Proof

/-- What an address of the I/O dies is: a word of a table, by domain and number. -/
inductive IodWord where
  | splice (d n : Nat)
  | border (d n : Nat)
  | lost (d n : Nat)
  | host (n : Nat)
  | port (n : Nat)
  | group (d g n : Nat)
  | power (n : Nat)
  | request (d n : Nat)
  | header (d n : Nat)
  | region (d r n : Nat)
  | other
deriving DecidableEq, Repr

/-- Base of the version table of a domain (06 R150). -/
def vtBase (d : Nat) : Nat := if d < 2 then 0xFE01000000 + d * 0x10000 else 0xFF01000000 + (d - 2) * 0x10000

/-- The word of an address within blocks of `step` bytes, one for each of `n` owners, of which `words` words are defined. -/
def inBlocks (pa base step n words : Nat) : Option (Nat × Nat) :=
  if base ≤ pa && pa < base + n * step && (pa - base) % step / 8 < words then some ((pa - base) / step, (pa - base) % step / 8)
  else none

/-- The table word at an address of the I/O dies. -/
def iodWord (pa : Nat) : IodWord :=
  match inBlocks pa 0xFE00020000 0x40 4 4 with
  | some (d, n) => .splice d n
  | none =>
  match inBlocks pa 0xFE00030000 0x100 4 19 with
  | some (d, n) => .border d n
  | none =>
  match inBlocks pa 0xFE00040000 0x2000 4 1024 with
  | some (d, n) => .lost d n
  | none =>
  match inBlocks pa 0xFE00050000 0x1000 1 11 with
  | some (_, n) => .host n
  | none =>
  match inBlocks pa 0xFE00051000 0x1000 1 36 with
  | some (_, n) => .port n
  | none =>
  match inBlocks pa 0xFE00060000 0x800 4 256 with
  | some (d, n) => .group d (n / 4) (n % 4)
  | none =>
  match inBlocks pa 0xFE00070000 0x100 1 9 with
  | some (_, n) => .power n
  | none =>
  match inBlocks pa 0xFE00080000 0x100 4 2 with
  | some (d, n) => .request d n
  | none =>
  match (List.range 4).findSome? fun d => (inBlocks pa (vtBase d) 0x10000 1 0x1020).map fun e => (d, e.2) with
  | some (d, n) => if n < 32 then .header d n else .region d ((n - 32) / 16) ((n - 32) % 16)
  | none => .other

/-! Fields as words. -/

/-- A word of fields (lowest bit, value). -/
def packWord (fs : List (Nat × Nat)) : Word := BitVec.ofNat 64 (fs.foldl (fun a f => a + f.2 * 2 ^ f.1) 0)

def flagNat (b : Bool) : Nat := if b then 1 else 0

/-- Tiles of a predicate, one bit each. -/
def tileWord (k : Nat) (f : Nat → Bool) : Word :=
  BitVec.ofNat 64 ((List.range 64).foldl (fun a i => a + flagNat (f (64 * k + i)) * 2 ^ i) 0)

/-- A region word (06 R151). -/
def Domain.regionWord (d : Domain) (r n : Nat) : Word :=
  let rg := mapGet Region.init d.regions r
  match n with
  | 0 => packWord [(16, rg.vbase.toNat), (1, flagNat rg.merr), (0, flagNat rg.en)]
  | 1 => packWord [(48, rg.cur.toNat), (0, rg.npg.toNat)]
  | _ =>
    if n < 8 then 0
    else
      let c := (n - 8) / 2
      let cp := mapGet Copy.init rg.copies c
      if n % 2 = 0 then packWord [(16, cp.cbase.toNat), (1, cp.state.toNat), (0, flagNat cp.pres)]
      else packWord [(48, cp.ver.toNat), (0, d.readers rg c)]

/-- A word of the Border block (16 R397). -/
def Core.borderWord (c : Core) (d n : Nat) : Word :=
  let dm := c.dom d
  if n < 8 then tileWord n fun t => (c.tile t).dom == some d && (c.tile t).learner
  else if n < 16 then tileWord (n - 8) fun t => (c.tile t).dom == some d && (c.tile t).serv
  else match n with
    | 16 => dm.bbase
    | 17 => packWord [(32, (dm.slots.toNat - dm.slotUsed.length) % 65536), (0, dm.slots.toNat)]
    | _ => packWord [(8, flagNat dm.move.isSome), (0, dm.nmove.toNat)]

/-- A port word (18 R426). -/
def Port.word (p : Port) : Word :=
  packWord [(32, p.peer.toNat), (24, p.pport.toNat), (8, p.state.toNat), (2, flagNat p.en), (0, p.dom.toNat)]

/-- A power word (19 R440). -/
def Mc.powerWord (m : Mc) (n : Nat) : Word :=
  if n = 8 then packWord [(48, m.mlim.toNat), (32, m.mnow.toNat)]
  else
    let p := mapGet Power.init m.power n
    packWord [(48, p.plim.toNat), (32, p.pnow.toNat), (16, p.swal.toNat), (8, p.str.toNat), (0, p.marg.toNat)]

/-- A word as a load reads it. What an address without a register reads as is open (log entry 6). -/
def Core.iodRead (c : Core) (pa : Nat) : Word :=
  match iodWord pa with
  | .splice d n =>
    let dm := c.dom d
    match n with
    | 0 => dm.spdone
    | 1 => dm.spref
    | 2 => dm.spreg
    | _ => packWord [(32, dm.lreason.toNat), (0, dm.lkid.toNat)]
  | .border d n => c.borderWord d n
  | .lost d n => (c.dom d).missing.getD n 0
  | .host n => if n = 10 then packWord [(0, c.mc.modnum.toNat)] else mapGet 0 c.mc.hfunc n
  | .port n => (mapGet Port.init c.mc.ports n).word
  | .group d g n => mapGet 0 (c.dom d).groups (4 * g + n)
  | .power n => c.mc.powerWord n
  | .request d n =>
    let dm := c.dom d
    if n = 0 then dm.req else 0
  | .header d n => if n = 0 then packWord [(0, (c.dom d).lver.toNat)] else 0
  | .region d r n => (c.dom d).regionWord r n
  | .other => Config.iodWord c.seq (pa / 8)

/-- One byte as a load reads it. -/
def Core.iodByte (c : Core) (pa : Nat) : Byte := (c.iodRead (pa / 8 * 8)).extractLsb' (8 * (pa % 8)) 8

/-! Stores (06 R151, 16 R397, 18 R431, 19 R439). Every other register is read-only to programs. -/

/-- What the bytes of a word that a store leaves out count as: the word as it reads, without the bits that a one clears or
starts. -/
def Core.iodKeep (c : Core) (pa : Nat) : Word :=
  match iodWord pa with
  | .region _ _ 0 => c.iodRead pa &&& ~~~(2 : Word)
  | _ => c.iodRead pa

/-- The word a store of bytes leaves at an address aligned to 8. -/
def Core.iodMerge (c : Core) (pa : Nat) (bytes : List (Option Byte)) : Word :=
  let old := c.iodKeep pa
  leWord ((List.range 8).map fun i => (bytes.getD i none).getD (old.extractLsb' (8 * i) 8))

/-- The number by which a store to word 0 of the version table's header, LVER, stands beside the region entries 0 to 255 (06
R150, 21 R445, log entry 22). -/
def headerEntry : Nat := 256

/-- The step that a store to a word is; none where stores are discarded. -/
def iodStep (pa : Nat) (v : Word) : Option Event :=
  match iodWord pa with
  | .border d n => some (.borderBlockWrite d n v)
  | .group d g n => some (.replicaGroupEntryStore d g n v)
  | .request d 0 => some (.mcRequestSubmit d v)
  | .region d r n => some (.regionEntryStore d r n v)
  | .header d 0 => some (.regionEntryStore d headerEntry 0 v)
  | _ => none

/-- The steps of a store of bytes, word by word. -/
def Core.iodSteps (c : Core) (pa : Nat) (bytes : List (Option Byte)) : List Event :=
  let lead := pa % 8
  let bs := List.replicate lead none ++ bytes
  ((List.range ((bs.length + 7) / 8)).map fun k =>
    let w := (bs.drop (8 * k)).take 8
    let a := pa / 8 * 8 + 8 * k
    if w.all Option.isNone then none else iodStep a (c.iodMerge a w)).filterMap id

/-- Whether an address is a register of an I/O die. -/
def isIodPa (pa : Nat) : Bool := 0xFE00000000 ≤ pa && pa < 0x10000000000

end Sys2Proof.Machine
end

