-- ==== Sys2Proof/Machine/Translate.lean ====
section
/-!
DEFINITION. The physical map and HBM placement (01 R28 to R35), page tables and the walker (R20 to R26), the TLB (R38), range
translation (R41), the local alias (R19), and the checks and causes of an access (R43, R44).
-/

namespace Sys2Proof.Machine

open Sys2Proof

/-! The physical map. -/

/-- What a physical address is (01 R28). -/
inductive PaRegion where
  | hbm (h : Nat)
  | win (tile off : Nat)
  | iod
  | coh (port off : Nat)
  | offl (port off : Nat)
  | none
deriving DecidableEq, Repr

def paRegion (pa : Nat) : PaRegion :=
  if pa < 0xF000000000 then .hbm pa
  else if pa < 0xF200000000 then .win ((pa - 0xF000000000) / 0x1000000) (pa % 0x1000000)
  else if pa < 0xFE00000000 then .none
  else if pa < 0x10000000000 then .iod
  else if pa < 0x41000000000 then .hbm (pa - 0x1000000000)
  else if pa < 0x80000000000 then .none
  else if pa < 0x90000000000 then .coh 0 (pa - 0x80000000000)
  else if pa < 0xA0000000000 then .coh 1 (pa - 0x90000000000)
  else if pa < 0x100000000000 then .none
  else if pa < 0x200000000000 then .offl 0 (pa - 0x100000000000)
  else if pa < 0x300000000000 then .offl 1 (pa - 0x200000000000)
  else .none

/-- Physical base of tile t's window (01 R33). -/
def winBase (t : Nat) : Nat := Config.windowBase + t * Config.windowSize

/-- The mode of an HBM band (01 R31). -/
def Core.bandMode (c : Core) (b : Nat) : Nat := wbits (mapGet 0 c.mc.hband (b / 32)) (2 * (b % 32)) 2

/-- Stack and stack offset of an HBM offset (01 R30). -/
def Core.hbmPlace (c : Core) (h : Nat) : Nat × Nat :=
  let b := h / 2 ^ 35
  let o := h % 2 ^ 35
  let (st, off) := match c.bandMode b with
    | 1 => (8 * (o / 2 ^ 33) + (o % 2 ^ 33) / 4096 % 8, (o % 2 ^ 33) / 4096 / 8 * 4096 + o % 4096)
    | 2 => (o / 2 ^ 30, o % 2 ^ 30)
    | _ => (o / 4096 % 32, o / 4096 / 32 * 4096 + o % 4096)
  (st, b * 2 ^ 30 + off)

/-- Whether an HBM offset lies in a stack that is out of service, or in a quarter that uses one (19 R436). -/
def Core.hbmAbsent (c : Core) (h : Nat) : Bool :=
  let q := h % 2 ^ 35 / 2 ^ 33
  c.mc.stacksOut.any fun st =>
    match c.bandMode (h / 2 ^ 35) with
    | 1 => st / 8 == q
    | 2 => st == (c.hbmPlace h).1
    | _ => true

/-- Storage cell of a byte of memory: by stack and offset for HBM, above 2^52 for lines of a coherent window a home slice
holds (log entry 1). -/
def Core.cell (c : Core) (pa : Nat) : Nat :=
  match paRegion pa with
  | .hbm h => let (st, off) := c.hbmPlace h; st * 2 ^ 37 + off
  | _ => 2 ^ 52 + pa

/-- Home die of a line (02 R50); of another module's line, a number above 7. -/
def Core.homeDie (c : Core) (pa : Nat) : Nat :=
  if isFar pa then farDie (farModule pa) 0
  else match paRegion pa with
  | .hbm h => (c.hbmPlace h).1 / 4
  | _ => pa / 4096 % 8

/-- Home slice within the die (02 R50). -/
def homeSlice (pa : Nat) : Nat := (pa / 128 % 64) ^^^ (pa / 8192 % 64)

/-- Key of a host memory byte: port and host address (log entry 1). -/
def Core.hostKey (c : Core) (port : Nat) (word : Nat) (off : Nat) : Nat :=
  port * 2 ^ 64 + wbits (mapGet 0 c.mc.hfunc (word + port)) 44 20 * 2 ^ 44 + off

/-- Whether a coherent window works: its port trained as CXL (01 R28, 18 R417). -/
def Core.cohUp (c : Core) (port : Nat) : Bool := wbits (mapGet 0 c.mc.hfunc (8 + port)) 0 2 == 2

/-- Whether an offload window works (18 R422). -/
def Core.offlUp (c : Core) (port : Nat) : Bool :=
  wbits (mapGet 0 c.mc.hfunc (8 + port)) 0 2 != 0 && wbits (mapGet 0 c.mc.hfunc (6 + port)) 0 1 == 1

/-- A byte as its home holds it. -/
def Core.homeByte (c : Core) (pa : Nat) : Byte :=
  match paRegion pa with
  | .hbm _ => c.mem.get (c.cell pa)
  | .win t off => mapGet 0 (c.tile t).win off
  | .coh p off => if c.cxlDirty.contains (pa / 128) then c.mem.get (c.cell pa) else mapGet 0 c.hostMem (c.hostKey p 8 off)
  | .offl p off => mapGet 0 c.hostMem (c.hostKey p 6 off)
  | .iod => c.iodByte pa
  | .none => 0

def Core.homeBytes (c : Core) (pa n : Nat) : List Byte := (List.range n).map fun i => c.homeByte (pa + i)

def Core.homeWord (c : Core) (pa : Nat) : Word := leWord (c.homeBytes pa 8)

/-! Accesses. -/

/-- The kind of an access, as DETAIL codes it (17 R407). -/
inductive Acc where
  | load (size : Nat)
  | store (size : Nat)
  | atomic (size : Nat)
  | fetch
  | stRd (a : Nat)
  | stWr (a : Nat)
  | engRd
  | engWr
deriving DecidableEq, Repr

def Acc.detail : Acc → Nat
  | .load n => n * 256
  | .store n => 0x1000 + n * 256
  | .atomic n => 0x2000 + n * 256
  | .fetch => 0x3000
  | .stRd a => 0x4000 + a * 256
  | .stWr a => 0x5000 + a * 256
  | .engRd => 0x6000
  | .engWr => 0x7000

def Acc.writes : Acc → Bool
  | .store _ | .atomic _ | .stWr _ | .engWr => true
  | _ => false

def Acc.reads : Acc → Bool
  | .load _ | .atomic _ | .fetch | .stRd _ | .engRd => true
  | _ => false

def Acc.engine : Acc → Bool
  | .engRd | .engWr => true
  | _ => false

/-- Who makes an access: the tile, domain and privilege, the version that selects weight copies, SCRB and the bytes of the
scratchpad claim for a task, whether it is a command that may reach an offload window (18 R422), and the translations that the
accessing stream register holds (01 R40). -/
structure Who where
  tile : Nat
  dom : Nat
  sup : Bool
  tver : BitVec 16
  claim : Option (Nat × Nat)
  offl : Bool
  held : List TlbEnt := []

/-- Where an access goes. -/
structure Loc where
  va : Word
  pa : Nat
  mt : Nat
  repl : Bool
  leaf : Option TlbEnt

/-- SCRK rounded up to 4 KiB, in bytes (07 R186). -/
def Ident.claimBytes (i : Ident) : Nat := (i.scrk + 3) / 4 * 4096

/-- The access rights of a context. -/
def Core.who (c : Core) (r : CtxRef) : Who :=
  let x := c.ctx r
  { tile := r.tile, dom := c.domOf r.tile, sup := x.isSup, tver := x.r.tver,
    claim := if r.isHc then none else some (x.r.scrb, x.id.claimBytes), offl := false }

/-- The rights of an access: a stream's own translations come with it (01 R40). -/
def Core.whoFor (c : Core) (r : CtxRef) (acc : Acc) : Who :=
  let held := fun (a : Nat) => let x := mapGet Stream.init (c.ctx r).a a; x.cur.toList ++ x.nxt.toList
  match acc with
  | .stRd a | .stWr a => { c.who r with held := held a }
  | _ => c.who r

/-- The trap of a faulting access (17 R407). -/
def accTrap (acc : Acc) (va : Word) (pa cause : Nat) : TrapInfo :=
  { mkTrap (kindOfCause cause) cause with detail := acc.detail, addr := va, aux0 := BitVec.ofNat 64 pa }

/-- Whether an access may touch a window offset (01 R34). -/
def windowOk (acc : Acc) (own : Bool) (off : Nat) : Bool :=
  match acc with
  | .fetch => false
  | .engRd => off < 0x521000
  | .load 4 | .atomic 4 => true  -- a barrier operation, whose place R134 checks (05 R135)
  | .engWr => off < 0x520000 || (0x530000 ≤ off && off < 0x53F000) || (0x540000 ≤ off && off < 0x550000)
  | _ => own && off < 0x400000

/-- The cause of the physical address, if it has one; the lowest code first (01 R28, R34, R35). -/
def Core.paCause (c : Core) (w : Who) (acc : Acc) (pa : Nat) : List Nat :=
  match paRegion pa with
  | .hbm h => if c.hbmAbsent h then [cPhys] else []
  | .win t off =>
    (if (c.tile t).dom = some w.dom then [] else [cDomain]) ++ (if windowOk acc (t == w.tile) off then [] else [cWindow])
  | .iod => []
  | .coh p _ => if c.cohUp p then [] else [cPhys]
  | .offl p _ => if !c.offlUp p then [cPhys] else if w.offl && acc.engine then [] else [cWindow]
  | .none => [cPhys]

/-- The causes of a leaf's permissions (01 R44). -/
def leafCauses (w : Who) (acc : Acc) (leaf : Word) : List Nat :=
  (if wbits leaf 7 1 == 1 && !w.sup then [cSuper] else []) ++
  (if acc.reads && acc != .fetch && wbits leaf 4 1 == 0 then [cRead] else []) ++
  (if acc.writes && wbits leaf 5 1 == 0 then [cWrite] else []) ++
  (if acc == .fetch && wbits leaf 6 1 == 0 then [cExec] else [])

/-- The lowest of some causes. -/
def lowestCause (cs : List Nat) : Option Nat := cs.foldl (fun o x => some (match o with | none => x | some y => min x y)) none

/-- The location, or the fault of the lowest cause. -/
def checked (acc : Acc) (l : Loc) (cs : List Nat) : Op Loc :=
  match lowestCause cs with
  | none => .ok l
  | some k => raise (accTrap acc l.va l.pa k)

/-- VA bits [63:57] all equal bit 56 (01 R18). -/
def canonical (va : Word) : Bool := va.toNat < 2 ^ 56 || va.toNat ≥ 2 ^ 64 - 2 ^ 56

/-! The walker (01 R20 to R26). -/

/-- A control register of a domain (08 R223). -/
def Core.ctl (c : Core) (d n : Nat) : Word := mapGet 0 (c.dom d).ctl n

/-- XCTL.ADEN. -/
def Core.aden (c : Core) (d : Nat) : Bool := wbits (c.ctl d 0x42) 0 1 == 1

/-- A leaf as the walker found it: the entry, its size code, the PA of its first member and the members. -/
structure Leaf where
  word : Word
  sz : Nat
  pa : Nat
  members : Nat

/-- The bits of a group member that the walker compares (01 R24). -/
def groupMask (aden : Bool) (w : Word) : Word := if aden then w else w &&& ~~~(0x600 : Word)

/-- The entry is a leaf without a malformed field of its own (01 R25). -/
def leafOk (level : Nat) (w : Word) : Bool :=
  let sz := wbits w 2 2
  wbits w 63 1 == 0 && wbits w 13 3 == 0 && (level == 0 && sz ≤ 1 || level == 1 && sz == 2) &&
  wbits w 11 2 != 3 && !(wbits w 5 1 == 1 && wbits w 4 1 == 0) && !(wbits w 8 1 == 1 && wbits w 11 2 != 0)

/-- Members and alignment of a group (01 R24). -/
def Core.groupOk (c : Core) (d : Nat) (first n : Nat) (w : Word) : Bool :=
  let m := groupMask (c.aden d)
  wbits w 16 (if n == 32 then 5 else 14) == 0 &&
    (List.range n).all fun i => m (c.homeWord (first + 8 * i)) == m w

/-- The cause of a table entry's own address, when a walker cannot read it (01 R28, R34, R35). -/
def Core.tableCause (c : Core) (d pa : Nat) : Option Nat :=
  lowestCause (c.paCause { tile := Config.tiles, dom := d, sup := true, tver := 0, claim := none, offl := false } .fetch pa)

/-- The walk from a table at a level (01 R21): a leaf, or the cause of the fault. -/
def Core.walkFrom (c : Core) (d : Nat) (va : Nat) : Nat → Nat → Except Nat Leaf
  | level, base =>
    let idx := va / 2 ^ (16 + 10 * level) % 1024
    let w := c.homeWord (base + 8 * idx)
    if let some k := c.tableCause d (base + 8 * idx) then .error k
    else if wbits w 0 1 == 0 then .error cNotmapped
    else if wbits w 1 1 == 1 then
      match level with
      | 0 => .error cMalformed
      | l + 1 =>
        if wbits w 52 12 != 0 || wbits w 2 11 != 0 then .error cMalformed
        else c.walkFrom d va l (wbits w 13 39 * 8192)
    else if !leafOk level w then .error cMalformed
    else
      match wbits w 2 2 with
      | 0 => .ok ⟨w, 0, base + 8 * idx, 1⟩
      | 1 => let first := base + 8 * (idx / 32 * 32)
             if c.groupOk d first 32 w then .ok ⟨w, 1, first, 32⟩ else .error cMalformed
      | _ => let first := base + 8 * (idx / 16 * 16)
             if c.groupOk d first 16 w then .ok ⟨w, 2, first, 16⟩ else .error cMalformed

/-- A whole walk of a canonical VA. -/
def Core.walk (c : Core) (d : Nat) (va : Word) : Except Nat Leaf :=
  let root := c.ctl d (if wbits va 56 1 == 1 then 0x41 else 0x40)
  if wbits root 0 1 == 0 then .error cNotmapped else c.walkFrom d va.toNat 3 (wbits root 13 39 * 8192)

/-! The TLB (01 R38). -/

/-- Pages of 64 KiB in a translation of a size code. -/
def szPages (sz : Nat) : Nat :=
  match sz with
  | 0 => 1
  | 1 => 32
  | _ => 16384

/-- Whether an entry translates a 64 KiB page of a domain. -/
def TlbEnt.covers (e : TlbEnt) (d vp : Nat) : Bool := e.dom == d && e.vpage / szPages e.sz == vp / szPages e.sz

def Tile.tlbFind (tl : Tile) (d vp : Nat) : Option TlbEnt := tl.tlb.find? fun e => e.covers d vp

/-- The PA of a VA through a leaf. -/
def leafPa (leaf : Word) (sz : Nat) (va : Word) : Nat :=
  let span := szPages sz * 65536
  wbits leaf 16 36 * 65536 / span * span + va.toNat % span

/-! Translation. -/

/-- The first VA of a region entry: bits [56:16], bit 56 extended. -/
def Region.base (g : Region) : Word := ((g.vbase.signExtend 48) ++ (0 : BitVec 16))

/-- The enabled region that a VA lies in (06 R151). -/
def Domain.regionOf (d : Domain) (va : Word) : Option (Nat × Region) :=
  d.regions.find? fun e => e.2.en && decide ((va - e.2.base).toNat < e.2.npg.toNat * 65536)

/-- The version-table trap (17 R407). -/
def versionTrap (region code : Nat) (va : Word) : TrapInfo :=
  { mkTrap kVersion 0 with detail := code * 4096 + region, addr := va }

/-- Whether a module lies in the scope of a group around its primary (18 R424, R431). -/
def groupReaches (scope primary module : Nat) : Bool :=
  if scope = 7 then primary / 4096 == module / 4096 else if scope = 8 then primary / 65536 == module / 65536 else scope == 9

/-- The enabled replica group that a VA lies in (18 R431). -/
def Domain.groupOf (d : Domain) (va : Word) : Option Nat :=
  (List.range 64).find? fun g =>
    let w0 := mapGet 0 d.groups (4 * g)
    wbits w0 0 1 == 1 && decide ((va - wset w0 0 16 0).toNat % 2 ^ 57 < wbits (mapGet 0 d.groups (4 * g + 1)) 0 32 * 65536)

/-- The four words of a group entry. -/
def Domain.groupWords (d : Domain) (g : Nat) : List Word := (List.range 4).map fun i => mapGet 0 d.groups (4 * g + i)

/-- The other module that holds the primary home of a REPL page (02 R67, 18 R431). -/
def Core.remoteGroup (c : Core) (d : Nat) (va : Word) : Option Nat :=
  ((c.dom d).groupOf va).bind fun g =>
    let w2 := mapGet 0 (c.dom d).groups (4 * g + 2)
    let m := wbits w2 0 20
    if m != c.mc.modnum.toNat && groupReaches (wbits w2 20 4) m c.mc.modnum.toNat then some m else none

/-- The location that a translation gives a VA, or the fault of its lowest cause. -/
def Core.leafLoc (c : Core) (w : Who) (acc : Acc) (va : Word) (e : TlbEnt) : Op Loc :=
  let pa := leafPa e.leaf e.sz va
  let repl := wbits e.leaf 8 1 == 1
  let mt := wbits e.leaf 11 2
  let name := match (if repl && mt == 0 then c.remoteGroup w.dom va else none) with
    | some m => farPa m pa
    | none => pa
  checked acc { va := va, pa := name, mt := mt, repl := repl, leaf := some e } (c.paCause w acc pa ++ leafCauses w acc e.leaf)

/-- Translation of one VA (01 R18, R19, R41, R43, R44). A miss waits for a walk or a region descriptor. -/
def Core.translate (c : Core) (w : Who) (acc : Acc) (va : Word) : Op Loc :=
  if !canonical va then raise (accTrap acc va 0 cNoncanon)
  else if Config.aliasBase ≤ va.toNat then
    let o := va.toNat - Config.aliasBase
    let (off, beyond) : Nat × Bool := match w.claim with
      | some (scrb, n) => if o < 0x400000 then (scrb + o, decide (o ≥ n)) else (o, false)
      | none => (o, false)
    let pa := winBase w.tile + off
    checked acc { va := va, pa := pa, mt := 1, repl := false, leaf := none }
      (c.paCause w acc pa ++ if beyond then [cWindow] else [])
  else
    match (c.dom w.dom).regionOf va with
    | some (r, g) =>
      if acc.writes then raise (versionTrap r 5 va)
      else if !(c.tile w.tile).regions.contains r then .error (.wait (.region r))
      else
        match selCopy g w.tver with
        | none => raise (versionTrap r 4 va)
        | some k =>
          let pa := (mapGet Copy.init g.copies k).cbase.toNat * 65536 + (va - g.base).toNat
          checked acc { va := va, pa := pa, mt := 0, repl := false, leaf := none } (c.paCause w acc pa)
    | none =>
      let vp := va.toNat / 65536
      match (w.held.find? fun e => e.covers w.dom vp).or ((c.tile w.tile).tlbFind w.dom vp) with
      | some e => c.leafLoc w acc va e
      | none =>
        if ((c.tile w.tile).walkBad.any fun e => e.1 == vp) then
          match c.walk w.dom va with
          | .error k => raise (accTrap acc va 0 k)
          | .ok _ => .error (.wait (.walk vp))
        else .error (.wait (.walk vp))

/-- Translation by a unit that waits for its own walks: an engine, the scheduler, the Creel, a host port (01 R39, R41). -/
def Core.translateNow (c : Core) (w : Who) (acc : Acc) (va : Word) : Except TrapInfo Loc :=
  match (c.dom w.dom).regionOf va with
  | some (r, _) =>
    let c := c.updTile w.tile fun tl => { tl with regions := r :: tl.regions }
    match c.translate w acc va with
    | .ok l => .ok l
    | .error (.trap t) => .error t
    | .error (.wait _) => .error (accTrap acc va 0 cNotmapped)
  | none =>
    let t := c.updTile w.tile fun tl => { tl with tlb := [], walkBad := [] }
    match t.translate w acc va with
    | .ok l => .ok l
    | .error (.trap t) => .error t
    | .error (.wait _) =>
      match c.walk w.dom va with
      | .error k => .error (accTrap acc va 0 k)
      | .ok f =>
        match c.leafLoc w acc va { dom := w.dom, vpage := va.toNat / 65536, sz := f.sz, leaf := f.word, leafPA := f.pa } with
        | .ok l => .ok l
        | .error (.trap t) => .error t
        | .error (.wait _) => .error (accTrap acc va 0 cNotmapped)

/-- The VAs of a run of `n` bytes at which something else may hold: its first byte, and each 4 KiB boundary in it. Claims and
window regions are whole in 4 KiB (01 R19, R33). -/
def spanVas (va : Word) (n : Nat) : List Word :=
  let first := 4096 - va.toNat % 4096
  (List.range ((n - first + 4095) / 4096)).map fun k => va + BitVec.ofNat 64 (first + 4096 * k)

/-- Translation of several VAs: the fault of the first that has one. -/
def Core.translateAll (c : Core) (w : Who) (acc : Acc) : List Word → Op Unit
  | [] => .ok ()
  | v :: t => do
    let _ ← c.translate w acc v
    c.translateAll w acc t

/-- Translation of `n` bytes in one page: every 4 KiB of them is checked; the fault of the lowest. -/
def Core.translateSpan (c : Core) (w : Who) (acc : Acc) (va : Word) (n : Nat) : Op Loc := do
  let l ← c.translate w acc va
  c.translateAll w acc (spanVas va n)
  return l

/-- An access whose address must be aligned: the translation's cause comes before ALIGN when it is lower (01 R44). -/
def Core.translateAligned (c : Core) (w : Who) (acc : Acc) (va : Word) (n : Nat) : Op Loc :=
  if va.toNat % n = 0 then c.translate w acc va
  else
    match c.translate w acc va with
    | .error (.trap t) => if t.kind < kAlign then raise t else raise (accTrap acc va 0 cAlign)
    | .error (.wait v) => .error (.wait v)
    | .ok l => raise (accTrap acc va l.pa cAlign)

end Sys2Proof.Machine
end

