-- ==== Sys2Proof/Machine/Memory.lean ====
section
/-!
DEFINITION. Where accesses are performed: L1, homes, replicas and scratchpads (02 R51 to R66), what a load returns (04 R114),
stores and their parking (05 R146), atomics at the home (10 R271), and the messages each of them sends.
-/

namespace Sys2Proof.Machine

open Sys2Proof

/-! Places. -/

/-- The replica of a page on a die. -/
def Core.replica (c : Core) (die page : Nat) : Option Replica := c.reps.find? fun r => r.die == die && r.page == page

/-- The dies that hold a replica of a page. -/
def Core.replicaDies (c : Core) (page : Nat) : List Nat := (c.reps.filter fun r => r.page == page).map fun r => r.die

/-- Whether a die may hold replicas of a domain's pages (02 R60, R61). -/
def Core.drepOn (c : Core) (d die : Nat) : Bool :=
  let w := c.ctl d (0x48 + die)
  decide (die < 8) && wbits w 0 1 == 1 && wbits w 52 12 != 0

/-- The die at which an access from no tile uses a page whose primary home is on another module: one that holds a replica, one that may,
or die 0. -/
def Core.outsideDie (c : Core) (d page : Nat) : Nat :=
  let dies := List.range 8
  ((dies.find? fun k => (c.replica k page).isSome).or (dies.find? fun k => c.drepOn d k)).getD 0

/-- Where an access to a location is performed (02 R51): the replica home of the tile's die, or the primary home. A REPL page of
another die for which no replica is held yet waits for one (R61); one whose request another module refused faults (18 R431). An access
from no tile uses a replica only of a page of another module. -/
def Core.placeOf (c : Core) (w : Who) (acc : Acc) (l : Loc) : Op Place :=
  let page := l.pa / 65536
  let outside := decide (Config.tiles ≤ w.tile)
  let die := if outside then c.outsideDie w.dom page else dieOf w.tile
  let ask : Op Place := .error (.wait (.replica die page (l.va.toNat / 65536)))
  if l.repl && l.mt == 0 && (if outside then isFar l.pa else c.homeDie l.pa != die) then
    if c.refused.contains (die, page) then raise (accTrap acc l.va l.pa cPhys)
    else match c.replica die page with
      | some r => if r.dropping then ask else .ok (.replica die)
      | none => if c.drepOn w.dom die || isFar l.pa then ask else .ok .primary
  else .ok .primary

/-- A key for what a place keeps of a line. -/
def placeKey (pl : Place) (line : Nat) : Nat :=
  match pl with
  | .primary => 16 * line
  | .replica d => 16 * line + d % 8 + 1

/-- The place and the line of a key. -/
def keyPlace (key : Nat) : Place × Nat := (if key % 16 = 0 then .primary else .replica (key % 16 - 1), key / 16)

/-- The die of a place. -/
def Core.placeDie (c : Core) (pl : Place) (line : Nat) : Nat :=
  match pl with
  | .primary => c.homeDie (line * 128)
  | .replica d => d

def Core.homeLine (c : Core) (pl : Place) (line : Nat) : HomeLine := mapGet .init c.home (placeKey pl line)

def Core.updHomeLine (c : Core) (pl : Place) (line : Nat) (f : HomeLine → HomeLine) : Core :=
  { c with home := mapUpd .init c.home (placeKey pl line) f }

/-- The PA at which a place holds a byte: a replica's is in its frame (02 R59). -/
def Core.placePa (c : Core) (pl : Place) (pa : Nat) : Nat :=
  match pl with
  | .primary => pa
  | .replica d =>
    match c.replica d (pa / 65536) with
    | some r => r.frame * 65536 + pa % 65536
    | none => pa

/-- Bytes as a place holds them. -/
def Core.placeBytes (c : Core) (pl : Place) (pa n : Nat) : List Byte := c.homeBytes (c.placePa pl pa) n

/-! Poison (17 R412), by 8-byte word: of a storage cell, of a tile's window with its accumulators and banks, of a line in an L1;
a queue entry by its number (Base). -/

def Core.poisonKey (c : Core) (pa : Nat) : Nat :=
  match paRegion pa with
  | .win t off => 2 ^ 60 + t * 2 ^ 24 + off / 8
  | _ => c.cell pa / 8

def Core.poisoned (c : Core) (pa n : Nat) : Bool :=
  !c.poison.isEmpty && (List.range n).any fun i => mapGet false c.poison (c.poisonKey (pa + i))

/-- Clears the mark of each whole word that a write covers. -/
def Core.cleanse (c : Core) (pa : Nat) (bytes : List (Option Byte)) : Core :=
  if c.poison = [] then c
  else
    (List.range (bytes.length / 8 + 1)).foldl (fun c k =>
      let w := (pa + 7) / 8 * 8 + 8 * k
      if w + 8 ≤ pa + bytes.length && ((bytes.drop (w - pa)).take 8).all Option.isSome then
        { c with poison := mapSet false c.poison (c.poisonKey w) false }
      else c) c

/-- The mark of a word of a line in a tile's L1. -/
def l1Key (tile pa : Nat) : Nat := 2 ^ 62 + tile * 2 ^ 52 + pa / 8

/-- The marks of words of a tile's L1 taken away: of a whole line, or of the words that some bytes of it cover. -/
def Core.cleanL1 (c : Core) (tile line : Nat) (bytes : Option (List (Nat × Byte))) : Core :=
  if c.poison.isEmpty then c
  else
    let ws := (List.range 16).filter fun w => match bytes with
      | none => true
      | some bs => (List.range 8).all fun i => bs.any fun e => e.1 == 8 * w + i
    { c with poison := ws.foldl (fun m w => mapSet false m (l1Key tile (line * 128 + 8 * w)) false) c.poison }

/-- Whether a load that a tile's L1 serves consumes a poisoned word. -/
def Core.l1Poisoned (c : Core) (tile pa n : Nat) : Bool :=
  !c.poison.isEmpty && (List.range n).any fun i => mapGet false c.poison (l1Key tile (pa + i))

/-- Whether some bytes of a tile's window hold a poisoned word: accumulators and banks by their place in it (01 R33). -/
def Core.windowPoisoned (c : Core) (tile off n : Nat) : Bool := c.poisoned (winBase tile + off) n

/-- The data-error trap of a unit of a tile (17 R407, R414). -/
def unitTrap (unit index : Nat) : TrapInfo := { mkTrap kData cUncorr with aux0 := BitVec.ofNat 64 (unit * 2 ^ 56 + index * 2 ^ 32) }

/-! Writing storage. -/

/-- The bytes given at consecutive positions, with those positions. -/
def givenBytes (bytes : List (Option Byte)) (at0 : Nat) : List (Nat × Byte) :=
  match bytes with
  | [] => []
  | none :: t => givenBytes t (at0 + 1)
  | some b :: t => (at0, b) :: givenBytes t (at0 + 1)

/-- A line of a coherent window is taken into its home slice before it is written (18 R420, R421). -/
def Core.takeCoh (c : Core) (pa : Nat) : Core :=
  let line := pa / 128
  match paRegion pa with
  | .coh p off =>
    if c.cxlDirty.contains line then c
    else
      let base := off / 128 * 128
      { c with
        mem := writeRun c.mem (c.cell (line * 128)) ((List.range 128).map fun i => mapGet 0 c.hostMem (c.hostKey p 8 (base + i)))
        cxlDirty := line :: c.cxlDirty }
  | _ => c

/-- A line of a coherent window is written back to the host. -/
def Core.flushCoh (c : Core) (line : Nat) : Core :=
  match paRegion (line * 128) with
  | .coh p off =>
    if c.cxlDirty.contains line then
      let bs := (List.range 128).map fun i => c.mem.get (c.cell (line * 128) + i)
      { c with
        hostMem := writeRun c.hostMem (c.hostKey p 8 off) bs
        mem := writeRun c.mem (c.cell (line * 128)) (List.replicate 128 0)
        cxlDirty := c.cxlDirty.filter (· != line) }
    else c
  | _ => c

/-- Writes bytes of the primary home, of a scratchpad or of a message window. -/
def Core.putBytes (c : Core) (pa : Nat) (bytes : List (Option Byte)) : Core :=
  let c := c.cleanse pa bytes
  match paRegion pa with
  | .win t _ => c.updTile t fun tl =>
      { tl with win := (givenBytes bytes (pa % Config.windowSize)).foldl (fun m e => mapSet 0 m e.1 e.2) tl.win }
  | .coh _ _ =>
    let c := c.takeCoh pa
    { c with mem := (givenBytes bytes pa).foldl (fun m e => m.set (c.cell e.1) e.2) c.mem }
  | .offl p off =>
    { c with hostMem := (givenBytes bytes off).foldl (fun m e => mapSet 0 m (c.hostKey p 6 e.1) e.2) c.hostMem }
  | .hbm _ => { c with mem := (givenBytes bytes pa).foldl (fun m e => m.set (c.cell e.1) e.2) c.mem }
  | _ => c

/-- Writes bytes of a replica into its frame; `mark` sets them dirty (02 R63). -/
def Core.putReplica (c : Core) (die page : Nat) (bytes : List (Nat × Byte)) (mark : Bool) : Core :=
  match c.replica die page with
  | none => c
  | some r =>
    let c := bytes.foldl (fun (c : Core) e => c.putBytes (r.frame * 65536 + e.1) [some e.2]) c
    if !mark then c
    else
      { c with reps := c.reps.map fun x =>
          if x.die == die && x.page == page then
            { x with
              dirty := x.dirty ++ (bytes.map fun e => e.1).filter (fun k => !x.dirty.contains k)
              since := if x.dirty.isEmpty then c.ftick else x.since }
          else x }

/-- A page copied into a frame, its poison with it. -/
def Core.copyPage (c : Core) (page frame : Nat) : Core :=
  let marks := if c.poison.isEmpty then [] else (List.range 8192).filter fun k => c.poisoned (page * 65536 + 8 * k) 8
  let c := (List.range 512).foldl (fun (c : Core) k =>
    c.putBytes (frame * 65536 + 128 * k) ((c.homeBytes (page * 65536 + 128 * k) 128).map some)) c
  { c with poison := marks.foldl (fun m k => mapSet false m (c.poisonKey (frame * 65536 + 8 * k)) true) c.poison }

/-! L1 lines (02 R52, R55). -/

/-- Die-local number of a tile, as PREV and NEXT hold it (R52). -/
def selfIdx (tile : Nat) : BitVec 7 := BitVec.ofNat 7 (tile % 64)

/-- The tile of the same die that a pointer names. -/
def peerTile (tile : Nat) (i : BitVec 7) : Nat := dieOf tile * 64 + i.toNat % 64

def ptrHome : BitVec 7 := 0x40
def ptrEnd : BitVec 7 := 0x7F

/-- Bytes of a line, by offset, written. -/
def lineWrite (d : LineData) (bytes : List (Nat × Byte)) : LineData :=
  bytes.foldl (fun d e =>
    BitVec.ofNat 1024 (d.toNat - (d.toNat >>> (8 * e.1) % 256) <<< (8 * e.1) + e.2.toNat <<< (8 * e.1))) d

/-- The mask of some bytes of a line. -/
def lineMask (bytes : List (Nat × Byte)) : BitVec 128 := bytes.foldl (fun m e => m ||| (1#128 <<< e.1)) 0

/-- The storer's own L1 copy takes a store and marks its bytes pending (R55). -/
def Core.ownL1 (c : Core) (tile id line : Nat) (bytes : List (Nat × Byte)) : Core :=
  match mapGet none (c.tile tile).l1 line with
  | some x =>
    if x.relay.isSome then c
    else (c.cleanL1 tile line (some bytes)).updTile tile fun tl =>
      { tl with l1 := mapSet none tl.l1 line (some { x with data := lineWrite x.data bytes, pend := x.pend ++ [(id, lineMask bytes)] }) }
  | none => c

/-- Sends the update of a store down the sharer list of a place, or its ACK when the list is empty (02 R55). -/
def Core.sendUpd (c : Core) (pl : Place) (line id storer : Nat) (bytes : List (Nat × Byte)) : Core :=
  let h := c.homeLine pl line
  if h.head = ptrEnd then (if storer < Config.tiles then c.send (.ack false pl line id storer ptrHome) else c)
  else
    let c := c.updHomeLine pl line fun h => { h with sent := h.sent ++ [(id, storer)] }
    c.send (.upd (c.placeDie pl line * 64 + h.head.toNat % 64) pl line id storer ptrHome bytes)

/-! Diffs (02 R62 to R66). -/

/-- Sends a message to another module (18 R427). -/
def Core.sendOut (c : Core) (module : Nat) (m : VcMsg) : Core := { c with out := c.out ++ [(BitVec.ofNat 20 module, m)] }

/-- What is left of an awaited diff: with nothing left on this module its ACK goes to who waits for it, and with nothing left
anywhere it is done. -/
def Core.settleDiff (c : Core) (id : Nat) : Core :=
  match c.diffs.find? fun d => d.id == id with
  | none => c
  | some d =>
    if d.left != 0 then c
    else
      let c := match d.ack with
        | .none => c
        | .store tile line => c.send (.ack false .primary line id tile ptrHome)
        | .module m k => c.sendOut m (.diffDone k (d.away == 0))
        | .applied m k => c.sendOut m (.applied k)
      { c with diffs := if d.away = 0 then c.diffs.filter fun x => x.id != id
                        else c.diffs.map fun x => if x.id == id then { x with ack := x.ack.after } else x }

/-- One piece of a diff or of its forwarding has been applied, and `add` more are awaited (R63). -/
def Core.diffPieces (c : Core) (id : Nat) (add : Nat) : Core :=
  let one := fun (d : DiffOut) => if d.id == id then { d with left := d.left + add - 1 } else d
  Core.settleDiff { c with diffs := c.diffs.map one } id

/-- Bytes of a page by line. -/
def byLine (page : Nat) (bytes : List (Nat × Byte)) : List (Nat × List (Nat × Byte)) :=
  ((bytes.map fun e => e.1 / 128).eraseDups).map fun k =>
    (page * 512 + k, (bytes.filter fun e => e.1 / 128 == k).map fun e => (e.1 % 128, e.2))

/-- Sends the updates of a diff down the lists of a place, of its bytes those that `keep` admits: how many lines have sharers. -/
def Core.updLines (c : Core) (pl : Place) (d : Diff) (storer : Nat) (keep : Nat → Bool) : Nat × Core :=
  (byLine d.page d.bytes).foldl (fun (a : Nat × Core) l =>
    let busy := (a.2.homeLine pl l.1).head != ptrEnd
    (if busy then a.1 + 1 else a.1,
      a.2.sendUpd pl l.1 d.id storer (l.2.filter fun e => keep (l.1 % 512 * 128 + e.1)))) (0, c)

/-- Forwards a diff to the replicas of its page on `dies`: how many are on this module, and how many on others. -/
def Core.forward (c : Core) (d : Diff) (dies : List Nat) : Nat × Nat × Core :=
  let near := dies.filter fun e => decide (e < 8)
  let away := dies.filter fun e => decide (8 ≤ e)
  let c := near.foldl (fun (c : Core) e => c.send (.forwardedDiffApply e d)) c
  (near.length, away.length, away.foldl (fun (c : Core) e => c.sendOut ((e - 8) / 8) (.forward c.mc.modnum.toNat ((e - 8) % 8) d)) c)

/-- The sharers and replicas of bytes that a store or an atomic has written at their primary home: without replicas the sharers
acknowledge it (R55); with replicas the bytes are forwarded too, and the ACK waits for them (log entry 42). -/
def Core.homeWrite (c : Core) (tile id pa : Nat) (bytes : List (Option Byte)) (tags : List (Nat × Nat × Nat × Option Nat)) : Core :=
  let line := pa / 128
  let page := pa / 65536
  let dies := c.replicaDies page
  if dies.isEmpty && !isFarTile tile then c.sendUpd .primary line id tile (givenBytes bytes (pa % 128))
  else
    let (i, c) := if id = 0 || isFarTile tile then c.fresh else (id, c)
    let d : Diff := { page := page, die := c.homeDie pa, bytes := givenBytes bytes (pa % 65536), id := i, tile := tile, tags := tags }
    let (k, c) := c.updLines .primary d Config.tiles fun _ => true
    let (near, away, c) := c.forward d dies
    let x : DiffOut := { id := i, die := dieOf tile, dom := c.domOf tile, page := page, left := k + near, away := away
                         ack := if tile < Config.tiles then .store tile line
                           else if isFarTile tile then .module (tile / 2 ^ 16 - 1) id else .none }
    Core.settleDiff { c with diffs := c.diffs ++ [x] } i

/-- Exposed HBM lines under CXL.mem (18 R420): whether a host may hold a copy of the line. -/
def Core.cxlExposed (c : Core) (pa : Nat) : Bool :=
  match paRegion pa with
  | .hbm h => (List.range 2).any fun p =>
      let w := mapGet 0 c.mc.hfunc (8 + p)
      c.cohUp p && wbits w 12 18 * 2 ^ 30 ≤ h && h < (wbits w 12 18 + wbits w 30 10) * 2 ^ 30
  | _ => false

/-- Starts the back-invalidation of a written exposed line (18 R421). -/
def Core.backInvalidate (c : Core) (pa : Nat) : Core :=
  if c.cxlExposed pa && !c.backInv.contains (pa / 128) then { c with backInv := c.backInv ++ [pa / 128] } else c

/-! Home slices (02 R48, R57, R69 to R72). A line's bytes are kept once, where the machine's storage is; a slice says which lines it
holds, in which way, and which of them wait to be written back. The set of a line is PA[21:13] (log entry 43). -/

/-- Ways asked for by an enabled range (02 R69). -/
def Domain.waysAsked (d : Domain) (n : Nat) : Nat :=
  if wbits (mapGet 0 d.ctl (0x50 + n)) 0 1 == 1 then min 12 (wbits (mapGet 0 d.ctl (0x58 + n)) 8 4) else 0

/-- Ways granted to the ranges before range `n` of domain `d`: domains and ranges in ascending order share 12 (02 R70). -/
def Core.waysBefore (c : Core) (d n : Nat) : Nat :=
  ((List.range (8 * d + n)).map fun k => (c.dom (k / 8)).waysAsked (k % 8)).foldl (fun a w => a + min w (12 - a)) 0

/-- Ways granted to a range. -/
def Core.waysGranted (c : Core) (d n : Nat) : Nat := min ((c.dom d).waysAsked n) (12 - c.waysBefore d n)

/-- The ways of a range, from way 15 downward, or the ordinary ways (02 R70). -/
def Core.waysOf (c : Core) (range : Option (Nat × Nat)) : List Nat :=
  match range with
  | some (d, n) => (List.range (c.waysGranted d n)).map fun i => 15 - c.waysBefore d n - i
  | none => List.range (16 - c.waysBefore 4 0)

/-- The range of a domain that matches a PA: the lowest-numbered (02 R71). -/
def Domain.rangeOf (d : Domain) (pa : Nat) : Option Nat :=
  (List.range 8).find? fun n =>
    let b := mapGet 0 d.ctl (0x50 + n)
    wbits b 0 1 == 1 && wbits b 16 36 ≤ pa / 65536 && pa / 65536 ≤ wbits (mapGet 0 d.ctl (0x58 + n)) 16 36

/-- The sampling of the ranges that an access to a slice matches (02 R71): the range in whose ways a fill goes, none for the ordinary
ones, and the stepped phases. -/
def Core.sample (c : Core) (slice pa : Nat) : Option (Nat × Nat) × Core :=
  c.doms.foldl (fun a e =>
    match e.2.rangeOf pa with
    | none => a
    | some n =>
      let k := min 256 (wbits (mapGet 0 e.2.ctl (0x58 + n)) 52 9)
      let key := slice * 32 + e.1 * 8 + n
      let p := (mapGet 0 a.2.phase key).toNat + k
      let kept := decide (256 ≤ p) && decide (0 < c.waysGranted e.1 n)
      (if a.1.isNone && kept then some (e.1, n) else a.1,
        { a.2 with phase := mapSet 0 a.2.phase key (BitVec.ofNat 9 (if p ≥ 256 then p - 256 else p)) })) (none, c)

/-- The slice of a place's line, and the key of its set there. -/
def Core.sliceOf (c : Core) (pl : Place) (line : Nat) : Nat := c.placeDie pl line * 64 + homeSlice (line * 128)

def Core.setKey (c : Core) (pl : Place) (line : Nat) : Nat := c.sliceOf pl line * 512 + line / 64 % 512

def Core.setOf (c : Core) (pl : Place) (line : Nat) : List Way := mapGet [] c.slices (c.setKey pl line)

/-- Whether the home slice holds a line. -/
def Core.inSlice (c : Core) (pl : Place) (line : Nat) : Bool := (c.setOf pl line).any fun w => w.line == placeKey pl line

/-- A line leaves its home slice, written back when it must be: a line of a coherent window to the host (02 R57, 18 R421). -/
def Core.dropLine (c : Core) (key : Nat) : Core :=
  let (pl, line) := keyPlace key
  let c : Core := { c with slices := mapUpd [] c.slices (c.setKey pl line) fun l => l.filter fun w => w.line != key }
  match pl with
  | .primary => c.flushCoh line
  | .replica _ => c

/-- Whether a resident line can be replaced now: it has no sharers (02 R57). -/
def Core.replaceable (c : Core) (w : Way) : Bool :=
  let h := mapGet HomeLine.init c.home w.line
  h.head == ptrEnd && !h.recalled && h.sent.isEmpty

/-- A line taken into one of some ways of its set: a free one, or that of a line without sharers, which one being open. When there is
none, the slice passes the access on without keeping the line. -/
def Core.fillLine (c : Core) (pl : Place) (line : Nat) (ways : List Nat) : Core :=
  let put := fun (c : Core) (w : Nat) =>
    { c with slices := mapUpd [] c.slices (c.setKey pl line) fun l => l ++ [⟨w, placeKey pl line, false⟩] }
  let held := c.setOf pl line
  match ways.find? fun w => held.all fun e => e.way != w with
  | some w => put c w
  | none =>
    let old := held.filter fun e => ways.contains e.way && c.replaceable e
    match old[Config.lineVictim c.seq % old.length]? with
    | some e => put (c.dropLine e.line) e.way
    | none => c

/-- An access that reaches a line's home slice: the ranges sample it, the line is filled if the slice does not hold it, and a write marks
it (02 R71). Windows and registers have no home slice (R50), and a slice that is out of service caches nothing (17 R414, 19 R433). -/
def Core.touch (c : Core) (pl : Place) (pa : Nat) (write : Bool) : Core :=
  let line := pa / 128
  let homed := match paRegion pa with
    | .hbm _ | .coh _ _ => true
    | _ => isFar pa
  if !homed then c
  else
    let (range, c) := c.sample (c.sliceOf pl line) pa
    let c := if c.inSlice pl line || c.mc.slicesOut.contains (c.sliceOf pl line) then c else c.fillLine pl line (c.waysOf range)
    if !write then c
    else { c with slices := mapUpd [] c.slices (c.setKey pl line) fun l =>
             l.map fun w => if w.line == placeKey pl line then { w with dirty := true } else w }

/-- A line written back stays in its slice, clean (18 R421). -/
def Core.cleanLine (c : Core) (key : Nat) : Core :=
  let (pl, line) := keyPlace key
  { c with slices := mapUpd [] c.slices (c.setKey pl line) fun l => l.map fun w => if w.line == key then { w with dirty := false } else w }

/-- A line of a coherent window written back to the host: its slice keeps it, clean (18 R421). -/
def Core.writeBack (c : Core) (line : Nat) : Core := (c.flushCoh line).cleanLine (placeKey .primary line)

/-- A use of a replica, for the choice of the least recently used (02 R61). -/
def Core.useReplica (c : Core) (pl : Place) (page : Nat) : Core :=
  match pl with
  | .primary => c
  | .replica d => { c with nid := c.nid + 1, reps := c.reps.map fun r =>
      if r.die == d && r.page == page then { r with used := c.nid } else r }

/-- The tag of a store as a diff of its page carries it (05 R132). -/
def pageTags (m : StoreMsg) : List (Nat × Nat × Nat × Option Nat) :=
  match m.tag with
  | some (dom, die, quad) => [(m.pa % 65536 / 8, dom, die, quad)]
  | none => []

/-- A store performed at a place: storage, the sharers' update, the replicas (02 R55, R62, R63). How a plain store performed at the
primary home reaches the replicas is the model's choice (log entry 42). -/
def Core.storeAt (c : Core) (m : StoreMsg) : Core :=
  let line := m.pa / 128
  let page := m.pa / 65536
  if isIodPa m.pa then
    let c := (c.iodSteps m.pa m.bytes).foldl (fun c e => c.send e) c
    if m.tile < Config.tiles then c.send (.ack false .primary line m.id m.tile ptrHome) else c
  else
  let c := c.touch m.place m.pa true
  match m.place with
  | .primary => ((c.putBytes m.pa m.bytes).backInvalidate m.pa).homeWrite m.tile m.id m.pa m.bytes (pageTags m)
  | .replica d =>
    let c := (c.putReplica d page (givenBytes m.bytes (m.pa % 65536)) true).useReplica m.place page
    c.sendUpd (.replica d) line m.id m.tile (givenBytes m.bytes (m.pa % 128))

/-- Some dirty bytes of a replica made into a diff, with the tags of their words: its marks are cleared, and it is awaited (02 R63,
05 R132). -/
def Core.mkDiff (c : Core) (r : Replica) (keys : List Nat) : Diff × Core :=
  let (i, c) := c.fresh
  let far := isFar (r.page * 65536)
  let tags := (c.tags.filter fun t => t.place == .replica r.die && t.word / 8192 == r.page && keys.any fun k => k / 8 == t.word % 8192).map
    fun t => (t.word % 8192, t.dom, t.die, t.quad)
  ({ page := r.page, die := r.die, bytes := keys.map fun k => (k, c.homeByte (r.frame * 65536 + k)), id := i, tile := Config.tiles, tags := tags },
    { c with
      diffs := c.diffs ++ [{ id := i, die := r.die, dom := r.dom, page := r.page, left := 1, away := if far then 1 else 0, ack := .none }]
      reps := c.reps.map fun x =>
        if x.die == r.die && x.page == r.page then
          { x with dirty := x.dirty.filter fun k => !keys.contains k, sent := x.sent ++ [(i, keys)] }
        else x })

/-- Sends some dirty bytes of a replica to the primary home as a diff, to another module on VC-M (02 R63). -/
def Core.sendDiff (c : Core) (r : Replica) (keys : List Nat) : Core :=
  if keys.isEmpty then c
  else
    let (d, c) := c.mkDiff r keys
    if isFar (r.page * 65536) then
      c.sendOut (farModule (r.page * 65536))
        (.diff { d with page := d.page % 2 ^ 48, die := farDie c.mc.modnum.toNat d.die })
    else c.send (.diffAtPrimary d)

/-- Sends the dirty bytes of a replica as a diff and clears the marks (02 R63). -/
def Core.publish (c : Core) (r : Replica) : Core := c.sendDiff r r.dirty

/-- The dirty granules of a domain on a die (02 R66). -/
def Core.dirtyReps (c : Core) (die dom : Nat) : List Replica :=
  c.reps.filter fun r => r.die == die && r.dom == dom && !r.dirty.isEmpty

/-- Nothing of a domain waits on a die: no dirty granule, no diff without its ACK. -/
def Core.clean (c : Core) (die dom : Nat) : Bool :=
  (c.dirtyReps die dom).isEmpty && !(c.diffs.any fun x => x.die == die && x.dom == dom && x.left != 0)

/-! Reads. -/

/-- The stores on their way to their homes: those that wait there for a page to drain (02 R62), then those still under way. -/
def Core.onWay (c : Core) : List StoreMsg :=
  (c.pages.flatMap fun e => e.2.queued) ++ c.msgs.filterMap fun m => match m with
    | .storeAtHome x => some x
    | _ => none

/-- A byte under the own stores of a tile among some stores, by PA (log entry 8). -/
def flightByte (ms : List StoreMsg) (tile pa : Nat) (b : Byte) : Byte :=
  ms.foldl (fun b x =>
    if x.tile = tile && x.pa ≤ pa && pa < x.pa + x.bytes.length then ((x.bytes.getD (pa - x.pa) none).getD b) else b) b

/-- Own writes of a context held by a release in progress, or for the shared release of its pair. -/
def Core.heldByte (c : Core) (r : CtxRef) (pa : Nat) (b : Byte) : Byte :=
  let b := c.rels.foldl (fun b x =>
    if x.r = r then flightByte x.sig r.tile pa b else b) b
  match r, (c.tile r.tile).pair with
  | .task _ 0, some p => flightByte p.sig r.tile pa b
  | _, _ => b

/-- Parked bytes of a context, by VA (05 R146). -/
def Ctx.parkedByte (x : Ctx) (va : Word) (b : Byte) : Byte :=
  (x.replay ++ x.late).foldl (fun b p =>
    let k := (va - p.va).toNat
    if k < 256 && p.mask.getLsbD k && !p.dead then p.data.extractLsb' (8 * k) 8 else b) b

/-- The bytes that a tile's L1 holds, when it holds the line. -/
def Tile.l1Line (tl : Tile) (line : Nat) : Option L1Line :=
  match mapGet none tl.l1 line with
  | some l => if l.relay.isNone then some l else none
  | none => none

/-- A read of `n` bytes that lie in one page: L1 when it holds the line, else the place, under the tile's own stores on
their way (02 R51). Of the maximal writes that 04 R114 lets a read return, it returns the one that these hold (log entry 44). `sync` reads
past L1 (05 R131). -/
def Core.readLoc (c : Core) (tile : Nat) (pl : Place) (l : Loc) (n : Nat) (sync : Bool) : List Byte :=
  (List.range n).map fun i =>
    let pa := l.pa + i
    let b := match (if sync || l.mt != 0 then none else (c.tile tile).l1Line (pa / 128)) with
      | some x => x.data.extractLsb' (8 * (pa % 128)) 8
      | none => (c.placeBytes pl pa 1).headD 0
    flightByte c.onWay tile pa b

/-- The lines of `n` bytes at a location. -/
def Loc.lines (l : Loc) (n : Nat) : List Nat := (List.range ((l.pa % 128 + n + 127) / 128)).map fun k => l.pa / 128 + k

/-- Where the L1 copy of a line on a tile comes from: its home when that is on the tile's die, else the die's replica. -/
def Core.l1Place (c : Core) (tile line : Nat) : Place :=
  if c.homeDie (line * 128) = dieOf tile then .primary else .replica (dieOf tile)

/-- Whether a FILL of a line is on its way to a tile. -/
def Core.filling (c : Core) (tile line : Nat) : Bool :=
  c.msgs.any fun m => match m with
    | .fill t _ x _ _ => t == tile && x == line
    | _ => false

/-- Whether a read of some lines must wait so that no write leaves what has arrived (04 R112, R113): a line that the home recalls, unless
the L1 holds it (02 R57); a line whose FILL is on its way; for a read past the L1, a line of the L1 to which an update is on its way. -/
def Core.lineBusy (c : Core) (tile : Nat) (pl : Place) (l : Loc) (n : Nat) (past : Bool) : Bool :=
  (l.lines n).any fun line =>
    let h := c.homeLine pl line
    let held := ((c.tile tile).l1Line line).isSome
    (h.recalled && (past || !held)) || c.filling tile line || (past && held && !h.sent.isEmpty)

/-- Whether the sets of an L1 have room for another line (02 R48). -/
def Tile.l1Room (tl : Tile) (line : Nat) : Bool := (tl.l1.filter fun e => e.1 % 256 == line % 256).length < 8

/-- A load that missed asks the home for the line (02 R51, R54). -/
def Core.missL1 (c : Core) (tile : Nat) (pl : Place) (l : Loc) (n : Nat) (alloc : Bool) : Core :=
  let c := c.useReplica pl (l.pa / 65536)
  (l.lines n).foldl (fun c line =>
    let tl := c.tile tile
    let c := if l.mt == 0 && (tl.l1Line line).isSome then c else c.touch pl (line * 128) false
    let asked := c.msgs.any fun m => match m with
      | .loadMissAtHome t _ x => t == tile && x == line
      | .fill t _ x _ _ => t == tile && x == line
      | _ => false
    let normal := match paRegion l.pa with
      | .hbm _ => true
      | _ => isFar l.pa
    if alloc && normal && l.mt == 0 && c.placeDie pl line == dieOf tile && (mapGet none tl.l1 line).isNone && tl.l1Room line &&
        !asked then
      c.send (.loadMissAtHome tile pl line)
    else c) c

/-- Whether a location is a register of an I/O die. -/
def Loc.isIod (l : Loc) : Bool := isIodPa l.pa

/-- Whether a location is in the tile's own scratchpad. -/
def Loc.isScratch (l : Loc) (tile : Nat) : Bool :=
  match paRegion l.pa with
  | .win t off => t == tile && off < 0x400000
  | _ => false

/-- The data-error trap of a context that consumes a poisoned word (17 R412). -/
def Core.dataTrap (c : Core) (l : Loc) : TrapInfo :=
  { (match paRegion l.pa with
      | .win t _ => unitTrap 1 t
      | .hbm h => unitTrap 9 (c.hbmPlace h).1
      | _ => unitTrap 8 (c.homeDie l.pa * 64 + homeSlice l.pa)) with addr := l.va }

/-- Whether an access is to device memory or to a register of an I/O die: such accesses are performed one by one (01 R27). -/
def Loc.isDevice (l : Loc) : Bool := l.mt == 2 || l.isIod

/-- Whether the tile has stores to device memory that are not performed. -/
def Core.deviceBusy (c : Core) (tile : Nat) : Bool := !(c.tile tile).devOut.isEmpty

/-- An atomic of the tile that covers one of the bytes and has not been performed, or whose write is on its way to the
tile's own replica (02 R65); an atomic of the tile at another module, on the same page. -/
def Core.atomicBusy (c : Core) (tile pa n : Nat) : Bool :=
  let hit := fun (base : Nat) (bs : List (Nat × Byte)) => bs.any fun e => decide (pa ≤ base + e.1) && decide (base + e.1 < pa + n)
  (c.msgs.any fun m => match m with
    | .forwardedAtomic t _ p _ wide _ _ _ _ _ => t == tile && decide (p < pa + n) && decide (pa < p + if wide then 8 else 4)
    | .forwardedDiffApply d x => d == dieOf tile && x.tile == tile && hit (x.page * 65536) x.bytes
    | .upd t _ line _ st _ bs => t / 64 == dieOf tile && st == 1024 + tile && hit (line * 128) bs
    | _ => false) ||
  (isFar pa && c.diffs.any fun d => d.page == pa / 65536 && (match d.ack with
    | .store t _ => t == tile
    | _ => false))

/-! Stores. -/

/-- Splits the bytes of a store at line boundaries. -/
def splitLines (fuel pa : Nat) (bytes : List (Option Byte)) : List (Nat × List (Option Byte)) :=
  match fuel with
  | 0 => []
  | f + 1 =>
    let k := 128 - pa % 128
    if bytes.length ≤ k then [(pa, bytes)] else (pa, bytes.take k) :: splitLines f (pa + k) (bytes.drop k)

/-- The messages of a store, each numbered: one for each line it writes. Its words are applied a line at a time, though each is atomic
by itself only (04 R122; log entry 44). -/
def Core.mkStores (c : Core) (tile : Nat) (pl : Place) (l : Loc) (tag : Option (Nat × Nat × Option Nat)) (bytes : List (Option Byte)) :
    List StoreMsg × Core :=
  (splitLines (bytes.length / 128 + 2) l.pa bytes).foldl (fun (acc : List StoreMsg × Core) p =>
    if p.2.all Option.isNone then acc
    else
      let (i, c) := acc.2.fresh
      (acc.1 ++ [{ id := i, tile := tile, place := pl, pa := p.1, bytes := p.2, tag := tag, dev := l.isDevice }], c)) ([], c)

/-- Sets D of a leaf that a write goes through, at the home of the table and in the TLB (01 R26). -/
def Core.setLeafBits (c : Core) (d tile : Nat) (e : TlbEnt) (bits : Word) : Core :=
  if !c.aden d || e.leaf &&& bits = bits then c
  else
    let n := match e.sz with
      | 0 => 1
      | 1 => 32
      | _ => 16
    let c := (List.range n).foldl (fun (c : Core) i =>
      let pa := e.leafPA + 8 * i
      let w := c.homeWord pa ||| bits
      c.storeAt { id := 0, tile := Config.tiles, place := .primary, pa := pa, bytes := (leBytes 8 w.toNat).map some, tag := none, dev := false }) c
    let set := fun (x : TlbEnt) => if x.vpage == e.vpage && x.dom == e.dom then { x with leaf := x.leaf ||| bits } else x
    (c.updTile tile fun tl => { tl with tlb := tl.tlb.map set }).updTileCtxs tile fun x =>
      { x with a := x.a.map fun y => (y.1, { y.2 with cur := y.2.cur.map set, nxt := y.2.nxt.map set }) }

def leafD : Word := 0x400
def leafA : Word := 0x200
def leafAD : Word := 0x600

/-- Sets bits of the leaf that a VA translates through, when it has one (01 R26). -/
def Core.markLeaf (c : Core) (w : Who) (acc : Acc) (va : Word) (bits : Word) : Core :=
  match c.translateNow w acc va with
  | .ok l =>
    match l.leaf with
    | some e => c.setLeafBits w.dom w.tile e bits
    | none => c
  | .error _ => c

/-- The bit mask of given bytes. -/
def maskOf (bytes : List (Option Byte)) : BitVec 256 :=
  BitVec.ofNat 256 (packBits 1 (bytes.map fun b => if b.isSome then 1 else 0))

/-- The image of given bytes, zeros elsewhere. -/
def imageOf (bytes : List (Option Byte)) : BitVec 2048 :=
  BitVec.ofNat 2048 (packBits 8 (bytes.map fun b => (b.getD 0).toNat))

/-- The number of a page of 64 KiB. -/
def vpageOf (va : Word) : Nat := va.toNat / 65536

/-- A parked store takes its place in the replay queue; unless it stands behind another of its page, its record is raised (05 R146, 17
R405): AUX1 counts the stores parked on the page. -/
def Core.enterPark (c : Core) (r : CtxRef) (p : Parked) : Core :=
  let x := c.ctx r
  let same := x.replay.filter fun e => vpageOf e.va == vpageOf p.va && !e.dead
  let info := { p.info with flags := flParked, aux1 := BitVec.ofNat 64 (same.length + 1) }
  let p := { p with info := info }
  let c := c.updCtx r fun x => { x with replay := x.replay ++ [p] }
  if !same.isEmpty then c
  else c.updTile r.tile fun tl =>
    { tl with faults := tl.faults ++ [⟨parkRecord c r p info, true, false, some x.id.taskid⟩]
              walkBad := tl.walkBad.filter fun e => e.1 != vpageOf p.va }

/-- Parks a part of a store (05 R146). A part that finds the replay queue full waits in its slot: the context dispatches nothing further
until it has entered (`late`). A logit kernel traps instead (16 R396). -/
def State.park (s : State) (va : Word) (bytes : List (Option Byte)) (t : TrapInfo) (behind : Option Parked) : Op State :=
  let x := s.me
  if x.id.logit then raise t
  else
    let p : Parked := { va := va, mask := maskOf bytes, data := imageOf bytes, order := x.order, dead := false,
                        resumed := (behind.map fun e => e.resumed).getD false
                        inved := (behind.map fun e => e.inved).getD false, bofs := x.bofs, rep := x.rep, info := { t with slot := s.slot } }
    let s := s.upd fun x => { x with order := x.order + 1 }
    if x.replay.length < 16 && x.late.isEmpty then .ok { s with toCore := s.toCore.enterPark s.ref p }
    else .ok (s.upd fun x => { x with late := x.late ++ [p] })

/-- The parked store of a context behind which a store to a page parks. -/
def Ctx.parkedOn (x : Ctx) (va : Word) : Option Parked := (x.replay ++ x.late).find? fun p => vpageOf p.va == vpageOf va && !p.dead

/-- A fault that parks a store (05 R146): a page fault or a permission fault. -/
def parks (t : TrapInfo) : Bool := t.kind == kPage || t.kind == kPerm

/-- One part of a store, within one page: held until the bundle commits, or parked. `tag` is the narrow-release tag it carries. -/
def State.storePart (s : State) (acc : Acc) (va : Word) (bytes : List (Option Byte)) (park : Bool)
    (tag : Option (Nat × Nat × Option Nat)) : Op State :=
  if bytes.all Option.isNone then .ok s
  else
    let w := s.toCore.whoFor s.ref acc
    match (if park then s.me.parkedOn va else none) with
    | some p => s.park va bytes p.info (some p)
    | none =>
      match s.toCore.translateSpan w acc va bytes.length with
      | .error (.trap t) => if park && parks t then s.park va bytes t none else raise t
      | .error (.wait v) => .error (.wait v)
      | .ok l => do
        let pl ← s.toCore.placeOf w acc l
        let c := match l.leaf with
          | some e => s.toCore.setLeafBits w.dom w.tile e leafD
          | none => s.toCore
        let (ms, c) := c.mkStores w.tile pl l tag bytes
        return { s with toCore := c, bundle := s.bundle.map fun b => { b with outs := b.outs ++ ms.map fun m => (s.ref, m) } }

/-- A store of bytes at a VA, page by page. -/
def State.storeTagged (s : State) (acc : Acc) (va : Word) (bytes : List (Option Byte)) (park : Bool)
    (tag : Option (Nat × Nat × Option Nat)) : Op State := do
  let first := 65536 - va.toNat % 65536
  let s ← s.storePart acc va (bytes.take first) park tag
  if bytes.length ≤ first then return s
  else s.storePart acc (va + BitVec.ofNat 64 first) (bytes.drop first) park tag

/-- A plain store: after a narrow release fence of its context it is a signalling write, and carries the fence's tag (04 R109,
05 R132). -/
def State.storeBytes (s : State) (acc : Acc) (va : Word) (bytes : List (Option Byte)) (park : Bool) : Op State :=
  s.storeTagged acc va bytes park s.me.ftag

/-! Loads by a context. -/

/-- Bytes from a VA and a PA on as the acting context sees them: under its held and its parked stores (04 R114, 05 R146). -/
def State.ownBytes (s : State) (va : Word) (pa : Nat) (bs : List Byte) : List Byte :=
  bs.mapIdx fun i b => s.me.parkedByte (va + BitVec.ofNat 64 i) (s.toCore.heldByte s.ref (pa + i) b)

/-- One part of a load, within one page: the bytes, whether they came from the own scratchpad, and the state after asking
for the lines. The part is read as one instant, though each of its words is atomic by itself only (04 R122; log entry 44). It waits for what
older bundles left on its way, not for what its own bundle sent. -/
def State.loadPart (s : State) (acc : Acc) (va : Word) (n : Nat) (alloc sync : Bool) : Op (List Byte × Bool × State) := do
  let c := s.toCore
  let w := c.whoFor s.ref acc
  let l ← c.translateSpan w acc va n
  if l.isScratch w.tile then
    if c.poisoned l.pa n then raise (c.dataTrap l)
    return (s.ownBytes va l.pa (c.homeBytes l.pa n), true, s)
  else
    let pl ← c.placeOf w acc l
    if l.isDevice && c.deviceBusy w.tile then .error (.wait .device)
    if s.older.atomicBusy w.tile l.pa n || s.older.lineBusy w.tile pl l n (sync || l.mt != 0) then .error (.wait .acks)
    if c.poisoned (c.placePa pl l.pa) n then raise (c.dataTrap l)
    if !sync && l.mt == 0 && c.l1Poisoned w.tile l.pa n then raise { unitTrap 7 w.tile with addr := l.va }
    return (s.ownBytes va l.pa (c.readLoc w.tile pl l n sync), false, { s with toCore := c.missL1 w.tile pl l n (alloc && !sync) })

/-- A load of `n` bytes, page by page (01 R43). -/
def State.loadBytes (s : State) (acc : Acc) (va : Word) (n : Nat) (alloc sync : Bool) : Op (List Byte × Bool × State) := do
  let first := 65536 - va.toNat % 65536
  let (b1, f1, s) ← s.loadPart acc va (min n first) alloc sync
  if n ≤ first then return (b1, f1, s)
  else
    let (b2, f2, s) ← s.loadPart acc (va + BitVec.ofNat 64 first) (n - first) alloc sync
    return (b1 ++ b2, f1 && f2, s)

/-! Atomics at a home (10 R271, 02 R65). -/

/-- An indivisible read and write at the primary home or scratchpad: `f` maps the old bytes to the new ones, or to none when
it writes nothing. -/
def Core.rmw (c : Core) (tile id pa n : Nat) (tags : List (Nat × Nat × Nat × Option Nat)) (f : List Byte → Option (List Byte)) :
    List Byte × Core :=
  let old := c.homeBytes pa n
  match paRegion pa with
  | .win _ _ =>
    match f old with
    | none => (old, c)
    | some bs => (old, c.putBytes pa (bs.map some))
  | _ =>
    match f old with
    | none =>
      let c := c.touch .primary pa false
      (old, if isFarTile tile then c.sendOut (tile / 2 ^ 16 - 1) (.diffDone id true) else c.send (.ack false .primary (pa / 128) id tile ptrHome))
    | some bs =>
      let c := ((c.touch .primary pa true).putBytes pa (bs.map some)).backInvalidate pa
      let c := c.ownL1 tile id (pa / 128) (givenBytes (bs.map some) (pa % 128))
      (old, c.homeWrite tile id pa (bs.map some) tags)

/-- The new value of an atomic, on n-bit numbers; none for a failed compare (10 R271). -/
def atmApply (k : AtmKind) (n : Nat) (signed : Bool) (old x cmp : Nat) : Option Nat :=
  let less := fun a b => if signed then decide (sextNat n a < sextNat n b) else decide (a < b)
  let x := x % 2 ^ n
  match k with
  | .add => some ((old + x) % 2 ^ n)
  | .min => some (if less x old then x else old)
  | .max => some (if less old x then x else old)
  | .and => some (old &&& x)
  | .or => some (old ||| x)
  | .xchg => some x
  | .cas => if old = cmp % 2 ^ n then some x else none
  | .addf => some ((if n = 64 then fmtF64 else fmtF32).add .rne 0 old x).bits

/-- The dirty bytes of a die's replica in the granules of 32 bytes that an atomic overlaps: they leave before it (02 R65). -/
def Core.granules (c : Core) (die pa n : Nat) : List Nat :=
  match c.replica die (pa / 65536) with
  | none => []
  | some r => r.dirty.filter fun k => decide (pa % 65536 / 32 ≤ k / 32) && decide (k / 32 ≤ (pa % 65536 + n - 1) / 32)

/-- Whether such bytes have not reached the primary home (02 R65). -/
def Core.overDirty (c : Core) (die pa n : Nat) : Bool :=
  !(c.granules die pa n).isEmpty || c.msgs.any fun m => match m with
    | .diffAtPrimary d => d.die == die && d.page == pa / 65536
    | _ => false

/-- Where a unit that does not wait performs an access: at its die's replica, if there is one. -/
def Core.placeNow (c : Core) (w : Who) (acc : Acc) (l : Loc) : Place :=
  match c.placeOf w acc l with
  | .ok p => p
  | .error _ => .primary

/-- Whether the line of an atomic is being recalled at its home (02 R57). -/
def Core.recallBusy (c : Core) (pa : Nat) : Bool := (c.homeLine .primary (pa / 128)).recalled

/-- Whether stores of the tile to one of the 8-byte words have not been acknowledged: held by a release or on their way (04 R124). -/
def Core.storesOver (c : Core) (tile pa n : Nat) : Bool :=
  let lo := pa / 8 * 8
  let hi := (pa + n + 7) / 8 * 8
  let hit := fun (x : StoreMsg) => x.tile == tile && decide (x.pa < hi) && decide (lo < x.pa + x.bytes.length)
  c.onWay.any hit || c.rels.any fun r => r.sig.any hit

end Sys2Proof.Machine
end

