-- ==== Sys2Proof/Machine/Sync.lean ====
section
/-!
DEFINITION. Releases and acquires (04 R109 to R119, 05 R130 to R133, R147 to R149): when a release is met, the releases that
go on while their context continues, waiting for one, narrow-release tags and forced publishes.
-/

namespace Sys2Proof.Machine

open Sys2Proof

/-! Releases. -/

/-- What a release of a context at a scope needs beyond the ACKs of its stores (05 R130); `except` is the command that makes the
release. -/
def Core.scopeMet (c : Core) (r : CtxRef) (q : Scope) (except : Option Nat) : Bool :=
  let n := scopeCode q
  let dom := c.domOf r.tile
  (n < 4 || c.clean (dieOf r.tile) dom) && (n < 6 || (c.cxlDirty.isEmpty && c.backInv.isEmpty)) &&
    (n < 7 || ((c.diffs.all fun d => d.dom != dom || d.away == 0) && (c.linkCmds r except).isEmpty &&
      (c.ctx r).cast.all fun x => x.2.isEmpty))

/-- The command that makes a release. -/
def RelKind.cmd? : RelKind → Option Nat
  | .cmd id => some id
  | _ => none

/-- The retraining ports that a release in progress waits on now (05 R149). -/
def Core.waitPorts (c : Core) (x : Release) : List (Nat × Word) :=
  let now := c.linkPorts x.r x.scope x.kind.cmd?
  x.ports.filter (fun p => now.contains p.1) ++ (now.filter fun p => x.ports.all fun e => e.1 != p).map fun p => (p, c.ftick)

/-- Whether a release in progress is complete (04 R118). The releases of one context complete in order. -/
def Core.releaseMet (c : Core) (x : Release) : Bool :=
  x.need.isEmpty && (c.waitPorts x).isEmpty && c.scopeMet x.r x.scope x.kind.cmd? &&
  ((c.rels.find? fun y => decide (y.r = x.r && y.ended = none)).map fun y => y.id) == some x.id

/-- The trap of dead stores (05 R147), which leaves them in the queue (log entry 45). -/
def Ctx.deadTrap (x : Ctx) : Option TrapInfo :=
  (x.replay.find? fun p => p.dead).map fun p => { p.info with flags := 0, slot := 0xF }

/-- The FENCELOST trap: the peers whose ACK is missing (17 R407). -/
def lostTrap (c : Core) (d : Nat) : TrapInfo :=
  let ms := (c.dom d).missing.map fun w => wbits w 0 20
  { mkTrap kFencelost 0 with aux0 := BitVec.ofNat 64 ms.length, aux1 := BitVec.ofNat 64 (ms.foldl min (ms.headD 0)) }

/-- An operation waits for the replay queue, as older bundles left it, to be empty; dead stores raise their trap (05 R147, R148). A dead
store stays in the queue after its trap, so that the operation traps again when it is issued again (log entry 45). -/
def State.replayEmpty (s : State) : Op Unit :=
  match s.old.deadTrap with
  | some t => raise t
  | none => if s.old.replay.isEmpty && s.old.late.isEmpty then .ok () else .error (.wait .replay)

/-- The peers beyond some ports, as iod0 lists those whose acknowledgement is missing (17 R407). -/
def Core.missingPeers (c : Core) (dom : Nat) (ports : List Nat) : Core :=
  let peers := ports.map fun p => BitVec.ofNat 64 ((mapGet Port.init c.mc.ports p).peer.toNat + p * 2 ^ 20)
  c.updDom dom fun d => { d with missing := peers.take 1024 }

/-- Whether nothing of a context's earlier stores is outstanding throughout a scope. -/
def Core.released (c : Core) (r : CtxRef) (q : Scope) : Bool :=
  (c.ctx r).unacked.isEmpty && (c.rels.all fun x => !decide (x.r = r)) && (c.linkPorts r q none).isEmpty && c.scopeMet r q none

/-- Whether every store of the acting context is acknowledged and the scope is met now. -/
def State.releasedNow (s : State) (q : Scope) : Bool :=
  s.toCore.released s.ref q

/-- The context's routine has ended and its results have landed (12 R318, R326). -/
def Ctx.matrixIdle (x : Ctx) : Bool := x.rout.isNone && x.macs.isEmpty

/-- A release waits for the routines called and the forest operations issued before its bundle (12 R326, 13 R342; log entry 46). -/
def State.unitsIdle (s : State) : Op Unit :=
  if !s.old.matrixIdle then .error (.wait .mx) else if s.old.fo.isSome then .error (.wait .fo) else .ok ()

/-- A release at a scope that the operation waits for (04 R118). One that a link failure ended raises FENCELOST (05 R149). -/
def State.release (s : State) (q : Scope) : Op State := do
  s.replayEmpty
  s.unitsIdle
  match s.rels.find? fun x => decide (x.kind = .wait && x.r = s.ref) with
  | some x =>
    match x.ended with
    | some true => return { s with toCore := { s.toCore with rels := s.rels.filter fun y => y.id != x.id } }
    | some false => raise (lostTrap s.toCore (s.toCore.domOf s.ref.tile))
    | none => .error (.wait (.wide q))
  | none => if s.releasedNow q then return s else .error (.wait (.wide q))

/-- A release enters: the ports it waits on; one that needs a route which is down has failed, and iod0 lists the missing peers (05
R149, 17 R407). -/
def Core.addRelease (c : Core) (r : CtxRef) (k : RelKind) (taskid : Word) (q : Scope) (need : List Nat) (sig : List StoreMsg) : Core :=
  let (i, c) := c.fresh
  let x : Release := { id := i, kind := k, r := r, taskid := taskid, scope := q, need := need, sig := sig
                       ports := (c.linkPorts r q k.cmd?).map fun p => (p, c.ftick), ended := none }
  match c.lostRoute r q k.cmd? with
  | none => { c with rels := c.rels ++ [x] }
  | some ps => { (c.missingPeers (c.domOf r.tile) ps) with rels := c.rels ++ [{ x with ended := some false }] }

/-- A release that goes on while its context continues, holding `sig` (04 R118): up to .host. -/
def Core.releaseLater (c : Core) (r : CtxRef) (k : RelKind) (q : Scope) (sig : List StoreMsg) : Core :=
  let x := c.ctx r
  (c.addRelease r k x.id.taskid q x.unacked sig).updCtx r fun x => { x with unacked := x.unacked ++ sig.map fun m => m.id }

def State.releaseLater (s : State) (k : RelKind) (q : Scope) (sig : List StoreMsg) : State :=
  { s with toCore := s.toCore.releaseLater s.ref k q sig }

/-! Narrow-release tags (05 R132). -/

/-- The tag of a narrow release of a tile. -/
def Core.relTag (c : Core) (tile : Nat) (q : Scope) : Option (Nat × Nat × Option Nat) :=
  match q with
  | .quad => some (c.domOf tile, dieOf tile, some (quadOf tile))
  | .die => some (c.domOf tile, dieOf tile, none)
  | _ => none

def State.relTag (s : State) (q : Scope) : Option (Nat × Nat × Option Nat) := s.toCore.relTag s.ref.tile q

/-- Where a tag is kept: the home slice of its word, or the tile whose scratchpad holds it. -/
def Core.tagHome (c : Core) (t : NarrowTag) : Nat :=
  match paRegion (t.word * 8) with
  | .win k _ => 2 ^ 20 + k
  | _ => c.sliceOf t.place (t.word / 16)

/-- A tag recorded. A slice that holds 64 publishes for its oldest at once. -/
def Core.addTag (c : Core) (t : NarrowTag) : Core :=
  let mine := c.tags.filter fun x => c.tagHome x == c.tagHome t
  let c : Core := match (if mine.length ≥ 64 then mine.head? else none) with
    | none => c
    | some x =>
      let c := (c.dirtyReps x.die x.dom).foldl (fun c r => c.publish r) c
      { c with tags := c.tags.erase x }
  { c with tags := c.tags ++ [t] }

/-- The tags of some words of a place dropped: later writes have taken their place in home order. -/
def Core.dropTags (c : Core) (pl : Place) (covers : Nat → Bool) : Core :=
  { c with tags := c.tags.filter fun t => !(t.place == pl && covers t.word) }

/-- A store at its home: it drops the tags of the words it writes, and leaves its own on its first word. -/
def Core.setTags (c : Core) (m : StoreMsg) : Core :=
  let c := c.dropTags m.place fun w => decide (m.pa / 8 ≤ w) && decide (w ≤ (m.pa + m.bytes.length - 1) / 8)
  match m.tag with
  | none => c
  | some (dom, die, quad) => c.addTag ⟨m.place, m.pa / 8, dom, die, quad⟩

/-- A diff at a home: of the words whose bytes `keep` admits, the tags are those that the diff carries. -/
def Core.diffTags (c : Core) (pl : Place) (d : Diff) (keep : Nat → Bool) : Core :=
  let hit := fun (w : Nat) => d.bytes.any fun e => e.1 / 8 == w && keep e.1
  let c := c.dropTags pl fun w => w / 8192 == d.page && hit (w % 8192)
  (d.tags.filter fun t => hit t.1).foldl (fun c t => c.addTag ⟨pl, d.page * 8192 + t.1, t.2.1, t.2.2.1, t.2.2.2⟩) c

/-- An atomic at its primary home or in a scratchpad (10 R271, 05 R132): when it writes, its word takes its tag. -/
def Core.atomicAt (c : Core) (tile id pa n : Nat) (tag : Option (Nat × Nat × Option Nat)) (f : List Byte → Option (List Byte)) :
    List Byte × Core :=
  let m : StoreMsg := { id := id, tile := tile, place := .primary, pa := pa, bytes := List.replicate n none, tag := tag, dev := false }
  let (old, c) := c.rmw tile id pa n (pageTags m) f
  (old, if (f old).isSome then c.setTags m else c)

/-! Stores on their way. -/

/-- Performs a store message of a context that nothing holds: its own scratchpad at once, else on its way home. -/
def Core.sendStore (c : Core) (m : StoreMsg) : Core :=
  match paRegion m.pa with
  | .win _ _ => (c.putBytes m.pa m.bytes).setTags m
  | _ => (c.ownL1 m.tile m.id (m.pa / 128) (givenBytes m.bytes (m.pa % 128))).send (.storeAtHome m)

/-- A store leaves; one to device memory follows the tile's earlier ones one by one (01 R27). -/
def Core.startStore (c : Core) (m : StoreMsg) : Core :=
  if !m.dev then c.sendStore m
  else
    let busy := c.deviceBusy m.tile
    let c := c.updTile m.tile fun tl => { tl with devOut := tl.devOut ++ [m] }
    if busy then c else c.sendStore m

/-- Whether a store message is performed without an ACK: one to a scratchpad. -/
def msgDirect (m : StoreMsg) : Bool :=
  match paRegion m.pa with
  | .win _ _ => true
  | _ => false

def msgOverlap (a b : StoreMsg) : Bool := decide (a.pa < b.pa + b.bytes.length) && decide (b.pa < a.pa + a.bytes.length)

/-- The release that holds a store of a context: a fence in progress, or a release store of overlapping bytes (04 R118). -/
def Core.holder (c : Core) (r : CtxRef) (m : StoreMsg) : Option Nat :=
  (c.rels.reverse.find? fun x =>
    decide (x.r = r && x.ended = none) && (decide (x.kind = .fence) || x.sig.any fun y => msgOverlap y m)).map fun x => x.id

/-- Whether a release fence of a context is in progress: later writes of the context wait for it (04 R118). -/
def Core.fenced (c : Core) (r : CtxRef) : Bool :=
  c.rels.any fun x => decide (x.r = r && x.ended = none) && decide (x.kind = .fence)

/-- A committed store: held by a release in progress, or performed. -/
def Core.commitStore (c : Core) (r : CtxRef) (m : StoreMsg) : Core :=
  match c.holder r m with
  | some i =>
    let c : Core := { c with rels := c.rels.map fun x => if x.id = i then { x with sig := x.sig ++ [m] } else x }
    c.updCtx r fun x => { x with unacked := x.unacked ++ [m.id] }
  | none =>
    if (msgDirect m) then c.sendStore m
    else (c.updCtx r fun x => { x with unacked := x.unacked ++ [m.id] }).startStore m

/-- Store `id` is acknowledged everywhere it is waited for. -/
def Core.acked (c : Core) (tile id : Nat) : Core :=
  let drop := fun (l : List Nat) => l.filter (· != id)
  let c := c.updTileCtxs tile fun x => { x with unacked := drop x.unacked }
  let c := c.updTile tile fun tl => { tl with saving := drop tl.saving, cmds := tl.cmds.map fun m => { m with unacked := drop m.unacked } }
  let c : Core := { c with rels := c.rels.map fun x => { x with need := drop x.need } }
  match (c.tile tile).devOut with
  | m :: rest =>
    if m.id != id then c
    else
      let c := c.updTile tile fun tl => { tl with devOut := rest }
      match rest with
      | n :: _ => c.sendStore n
      | [] => c
  | [] => c

/-- The end of a release in progress (R118): its held writes are performed; a waiting operation or command goes on. -/
def Core.endRelease (c : Core) (x : Release) (ok : Bool) : Core :=
  match x.kind with
  | .wait => { c with rels := c.rels.map fun y => if y.id = x.id then { y with ended := some ok } else y }
  | .cmd _ => { c with rels := c.rels.map fun y => if y.id = x.id then { y with ended := some ok } else y }
  | _ =>
    let c : Core := { c with rels := c.rels.filter fun y => y.id != x.id }
    let c := x.sig.foldl (fun c m => c.startStore m) c
    -- scratchpad writes have no ACK
    x.sig.foldl (fun c m => if (msgDirect m) then c.acked x.r.tile m.id else c) c

/-- RELEASE_COMPLETE: release `id` of the event is met. At .host and wider the dirty lines of coherent windows are written
back here (05 R130, 18 R421). -/
def execReleaseComplete (s : State) : Host.Outcome State Fault Refusal :=
  match s.event with
  | some (.releaseComplete id) =>
    match s.rels.find? fun x => x.id = id with
    | none => .next s
    | some x =>
      let c := if scopeCode x.scope ≥ 6 then s.cxlDirty.foldl Core.writeBack s.toCore else s.toCore
      if c.releaseMet x then .next { s with toCore := c.endRelease x true } else .next { s with toCore := c }
  | _ => .next s

/-- FORCED_PUBLISH: every dirty granule of the domain on the die is sent as a diff (05 R133, 02 R66). -/
def execForcedPublish (s : State) : Host.Outcome State Fault Refusal :=
  match s.event with
  | some (.forcedPublish die dom) =>
    .next { s with toCore := (s.toCore.dirtyReps die dom).foldl (fun c r => c.publish r) s.toCore }
  | _ => .next s

/-- FENCE_LINK_WAIT_TIMEOUT: a release waited 2,000,000 FTICK on a retraining link since it first waited on it (05 R149): it has
failed, and iod0 lists the missing peers (17 R407). -/
def execFenceLinkWaitTimeout (s : State) : Host.Outcome State Fault Refusal :=
  match s.event with
  | some (.fenceLinkWaitTimeout id) =>
    match s.rels.find? fun x => x.id = id with
    | none => .next s
    | some x =>
      let late := ((s.toCore.waitPorts x).filter fun p => decide (2000000 ≤ (s.ftick - p.2).toNat)).map fun p => p.1
      if late.isEmpty || x.ended.isSome then .next s
      else .next { s with toCore := (s.toCore.missingPeers (s.toCore.domOf x.r.tile) late).endRelease x false }
  | _ => .next s

/-! Tags and acquires (05 R131 to R133). -/

/-- Whether a context lies outside the die or quad of a tag. -/
def NarrowTag.outside (t : NarrowTag) (tile : Nat) : Bool :=
  t.die != dieOf tile || (match t.quad with
    | some q => q != quadOf tile
    | none => false)

/-- The die whose narrow release an acquire that read these bytes of a place has to widen, unless nothing waits there (05 R133). -/
def Core.widen (c : Core) (dom tile : Nat) (pl : Place) (pa n : Nat) : Option Nat :=
  (c.tags.find? fun t => t.dom == dom && t.place == pl && decide (pa / 8 ≤ t.word) && decide (t.word ≤ (pa + n - 1) / 8) &&
    t.outside tile && !c.clean t.die t.dom).map fun t => t.die

/-- An acquire that read these bytes waits for the forced publish of a narrow release. -/
def State.acquired (s : State) (pl : Place) (l : Loc) (n : Nat) : Op Unit :=
  match s.toCore.widen (s.toCore.domOf s.ref.tile) s.ref.tile pl l.pa n with
  | some die => .error (.wait (.publish die))
  | none => .ok ()

/-- Every earlier read of the context has returned its value (10 R273): register writes, queue entries, an entry that a deferred
reduction took. -/
def Ctx.readsDone (x : Ctx) : Bool :=
  x.pend.isEmpty && x.far.isNone && (x.q.all fun e => e.2.all fun y => y.data.isSome) &&
    x.vs.all fun e => e.2.wait.all fun d => d.data.isSome

/-- A die that holds a narrow-release tag of a tile's domain, from outside of which the tile looks, and has something to publish. -/
def Core.tagDie (c : Core) (tile : Nat) : Option Nat :=
  (c.tags.find? fun t => t.dom == c.domOf tile && t.outside tile && !c.clean t.die t.dom).map fun t => t.die

/-- What `fence.acq` waits for (10 R273). -/
def State.fenceAcquire (s : State) (q : Scope) : Op State := do
  s.replayEmpty
  if !s.old.readsDone then .error (.wait .reads)
  if scopeCode q ≥ 4 then
    match s.toCore.tagDie s.ref.tile with
    | some die => .error (.wait (.publish die))
    | none => return s
  else return s

end Sys2Proof.Machine
end

