-- ==== Sys2Proof/Machine/Tasks.lean ====
section
/-!
DEFINITION. Barrier objects and their updates (05 R134 to R141), event signals (R142), the root counter of a launch
(07 R193, R194), and the end of a task (07 R181, 16 R396, 15 R380).
-/

namespace Sys2Proof.Machine

open Sys2Proof

/-! Barrier objects. -/

/-- The fields of a barrier object (05 R134). -/
structure Bar where
  lost : Bool
  err : Bool
  ret : Bool
  ini : Bool
  bytes : Int
  drops : Nat
  pending : Nat
  expected : Nat
  phase : Nat
deriving DecidableEq, Repr

def Bar.read (v : Nat) : Bar :=
  { lost := nbits v 99 1 == 1, err := nbits v 98 1 == 1, ret := nbits v 97 1 == 1, ini := nbits v 96 1 == 1,
    bytes := sextNat 32 (nbits v 64 32), drops := nbits v 48 16, pending := nbits v 32 16, expected := nbits v 16 16,
    phase := nbits v 0 16 }

def Bar.image (b : Bar) : Nat :=
  let bit := fun (x : Bool) (k : Nat) => if x then 2 ^ k else 0
  bit b.lost 99 + bit b.err 98 + bit b.ret 97 + bit b.ini 96 + (b.bytes % 2 ^ 32).toNat * 2 ^ 64 +
    b.drops % 65536 * 2 ^ 48 + b.pending % 65536 * 2 ^ 32 + b.expected % 65536 * 2 ^ 16 + b.phase % 65536

/-- The update of R136 with the checks of R137; none is a misuse. -/
def Bar.update (x : Bar) (n d : Nat) (b c : Int) : Option Bar :=
  let nb := x.bytes + b - c
  if !x.ini || x.ret || decide (x.pending > x.expected) || x.expected == 0 || decide (n > x.pending) ||
      decide (x.drops + d > x.expected) || decide (nb < -2147483648) || decide (nb > 2147483647) then none
  else
    let y := { x with pending := x.pending - n, drops := x.drops + d, bytes := nb }
    if y.pending = 0 && y.bytes = 0 then
      let e := y.expected - y.drops
      some { y with phase := (y.phase + 1) % 65536, expected := e, drops := 0, pending := e, ret := e == 0 }
    else some y

/-- `bar.init` (05 R137). -/
def Bar.start (phase expected : Nat) : Bar :=
  { lost := false, err := false, ret := false, ini := true, bytes := 0, drops := 0, pending := expected, expected := expected,
    phase := phase % 65536 }

/-- Sums of the combined update of one cycle (05 R136). -/
def barSums (ops : List BarOp) : Nat × Nat × Int × Int :=
  ops.foldl (fun a o => match o with
    | .upd _ _ n d b c => (a.1 + n, a.2.1 + d, a.2.2.1 + b, a.2.2.2 + c)
    | _ => a) (0, 0, 0, 0)

/-- One operation by itself: an update that finds a misuse sets ERR when it is an engine's signal and changes nothing when it
is an instruction's (05 R137, R138). -/
def Bar.one (x : Bar) (o : BarOp) : Bar :=
  match o with
  | .init _ p e => if e = 0 then x else Bar.start p.toNat e.toNat
  | .upd _ engine n d b c =>
    match x.update n d b c with
    | some y => y
    | none => if engine then { x with err := true } else x
  | .err _ => { x with err := true }
  | .lost _ => { x with lost := true }

/-- The order of one cycle at the home (05 R136): inits by tile, then the others by tile, an engine's signal after the
instructions of its tile. -/
def barRank (o : BarOp) : Nat :=
  match o with
  | .init t _ _ => t
  | .upd t e _ _ _ _ => 1024 + 2 * t + (if e then 1 else 0)
  | .err t => 1024 + 2 * t + 1
  | .lost t => 1024 + 2 * t + 1

def barIsInit : BarOp → Bool
  | .init .. => true
  | _ => false

/-- Insertion into a list in ascending rank, after equals. -/
def barInsert (o : BarOp) (l : List BarOp) : List BarOp :=
  match l with
  | [] => [o]
  | x :: t => if barRank o < barRank x then o :: x :: t else x :: barInsert o t

/-- The operations that reach a home in one cycle (05 R136): the inits, then the others as one update, or one at a time when
the combined update would be a misuse. -/
def Bar.cycle (x : Bar) (ops : List BarOp) : Bar :=
  let sorted := ops.foldl (fun l o => barInsert o l) []
  let x := (sorted.filter barIsInit).foldl Bar.one x
  let rest := sorted.filter fun o => !barIsInit o
  let plain := rest.filter fun o => match o with
    | .upd .. => true
    | _ => false
  let x := (rest.filter fun o => match o with
    | .upd .. => false
    | _ => true).foldl Bar.one x
  if plain.isEmpty then x
  else
    let (n, d, b, c) := barSums plain
    match x.update n d b c with
    | some y => y
    | none => plain.foldl Bar.one x

/-- The object at a PA. -/
def Core.barAt (c : Core) (pa : Nat) : Bar := Bar.read (leNat (c.homeBytes pa 16))

/-- Operations applied to an object at its home as one atomic of 16 bytes (05 R135). -/
def Core.barApply (c : Core) (tile id pa : Nat) (ops : List BarOp) : Core :=
  (c.atomicAt tile id pa 16 none fun bs => some (leBytes 16 ((Bar.read (leNat bs)).cycle ops).image)).2

/-- The misuse trap: code, object VA, the object as found (17 R407). -/
def barTrap (code : Nat) (va : Word) (obj : Nat) : TrapInfo :=
  { mkTrap kBarrier 0 with detail := code, addr := va, aux0 := BitVec.ofNat 64 obj, aux1 := BitVec.ofNat 64 (obj / 2 ^ 64) }

/-- Whether an object may lie at a location (05 R134): scratchpad, or a normal page of memory. -/
def barPlace (l : Loc) : Bool :=
  match paRegion l.pa with
  | .win _ off => off < 0x400000
  | .hbm _ => l.mt == 0
  | .coh _ _ => l.mt == 0
  | _ => false

/-- The rights of the device acting for a domain: a supervisor's, on no tile (log entry 15). -/
def deviceWho (d : Nat) : Who := { tile := Config.tiles, dom := d, sup := true, tver := Config.deviceVersion d, claim := none, offl := false }

/-- Sends an operation of the device or an engine to a barrier object named by a VA. A VA that does not reach an object takes
nothing (log entry 15). -/
def Core.barSend (c : Core) (w : Who) (va : Word) (o : BarOp) : Core :=
  if va.toNat % 16 ≠ 0 then c
  else
    match c.translateNow w (.atomic 4) va with
    | .error _ => c
    | .ok l => if barPlace l then (c.markLeaf w (.atomic 4) va leafAD).send (.barrierUpdateAtHome l.pa [o]) else c

/-! Signals to a task (05 R142, 16 R396). -/

/-- TASKID without its reserved bits (14 R364). -/
def idKey (t : Word) : Word := wset t 32 8 0

/-- Whether a launch or a spawn has accepted a task that has not started, or the supervisor holds its saved image. -/
def Domain.holds (d : Domain) (id : Word) : Bool :=
  (d.away.any fun x => idKey x == id) ||
  ((d.spawnsA ++ d.spawnsL).any fun x => idKey x.ident.taskid == id) ||
  (match mapGet none d.launches (serialOf id) with
   | some l => wbits id 31 1 == 0 && decide (l.next ≤ wbits id 0 31) && decide (wbits id 0 31 < l.n)
   | none => false)

/-- Applies a signal to a saved task, or to the consumer of a saved pair. -/
def SavedTask.signal (y : SavedTask) (id : Word) (f : Ctx → Ctx) : SavedTask :=
  if idKey y.ident.taskid == id then { y with hold := f y.hold }
  else { y with mate := y.mate.map fun x => if idKey x.id.taskid == id then f x else x }

/-- The saved context of a task, with whether it has not started. -/
def Domain.savedCtx (d : Domain) (id : Word) : Option Bool :=
  d.saved.findSome? fun y =>
    if idKey y.ident.taskid == id then some y.fresh
    else y.mate.bind fun x => if idKey x.id.taskid == id then some (x.life == .fresh) else none

/-- Applies a signal to a task wherever it is: to its context, to its saved context, held for its start, or dropped. -/
def Core.signal (c : Core) (d : Nat) (id : Word) (f : Ctx → Ctx) (hold : Domain → Domain) : Core :=
  let id := idKey id
  let mine := fun (x : Ctx) => idKey x.id.taskid == id
  match c.tiles.find? fun e => e.2.dom == some d && e.2.queue.any mine with
  | some e =>
    if e.2.queue.any fun x => mine x && x.life == .fresh then c.updDom d hold
    else c.updTile e.1 fun tl => { tl with queue := tl.queue.map fun x => if mine x then f x else x }
  | none =>
    match (c.dom d).savedCtx id with
    | some true => c.updDom d hold
    | some false => c.updDom d fun dm => { dm with saved := dm.saved.map fun y => y.signal id f }
    | none => if (c.dom d).holds id then c.updDom d hold else c

/-- Sets an event bit of a context. -/
def Ctx.setEv (x : Ctx) (n : Nat) : Ctx := { x with r := { x.r with ev := setBit16 x.r.ev n true } }

/-- Sets VOID of a candidate list (14 R343). -/
def Ctx.setVoid (x : Ctx) (n : Nat) : Ctx :=
  { x with cds := mapUpd CandList.init x.cds n fun l => { l with void := true } }

/-! The root counter (07 R193, R194). -/

/-- Adds to the root counter of a launch. `root` of the launch follows every change that is not a plain write, so that a
plain write shows. -/
def Core.rootAdd (c : Core) (d tile : Nat) (taskid : Word) (rootVA : Word) (delta : Int) : Core :=
  let ser := serialOf taskid
  match mapGet none (c.dom d).launches ser with
  | none => c
  | some l =>
    let before := l.root
    let after := before + wordOfInt delta
    let (found, c) : Word × Core :=
      if rootVA = 0 then (before, c)
      else
        match c.translateNow { deviceWho d with tile := tile } (.atomic 3) rootVA with
        | .error _ => (before, c)
        | .ok x =>
          let (i, c) := (c.markLeaf { deviceWho d with tile := tile } (.atomic 3) rootVA leafAD).fresh
          let (old, c) := c.atomicAt tile i x.pa 8 none fun b => some (leBytes 8 (leWord b + wordOfInt delta).toNat)
          (leWord old, c)
    let c := c.updDom d fun dm => { dm with launches := mapSet none dm.launches ser (some { l with root := after }) }
    if delta ≥ 0 then c
    else if found != before || decide (found.toNat < (-delta).toNat) then
      if l.ident.cpen then c.barSend (deviceWho d) l.ident.cbar (.err Config.tiles) else c
    else if after = 0 && l.ident.cpen then c.barSend (deviceWho d) l.ident.cbar (.upd Config.tiles true 1 0 0 0)
    else c

/-- Whether the root counter's home cannot take an update now: its line is recalled, or its page drains (02 R57, R62). -/
def Core.rootBusy (c : Core) (d tile : Nat) (rootVA : Word) : Bool :=
  if rootVA = 0 then false
  else match c.translateNow { deviceWho d with tile := tile } (.atomic 3) rootVA with
    | .ok x => c.recallBusy x.pa || (mapGet PageState.init c.pages (x.pa / 65536)).mode == .draining || c.overDirty (dieOf tile) x.pa 8
    | .error _ => false

/-! The end of a task. -/

/-- What is kept of the parked stores and the routine of a task that is saved, where an image has no place for it (05 R147, 12 R321),
and the events that it has by then (05 R142). -/
def Domain.keep (d : Domain) (x : Ctx) : Domain :=
  let id := x.id.taskid
  let evs := (List.range 16).filter fun n => x.r.ev.getLsbD n
  { d with
    heldEv := d.heldEv ++ evs.map fun n => (idKey id, BitVec.ofNat 4 n)
    heldPark := (d.heldPark.filter fun e => e.1 != id) ++ x.replay.map fun p => (id, p)
    heldRout := (d.heldRout.filter fun e => e.1 != id) ++ x.rout.toList.map fun u => (id, u) }

/-- A parked store of an image with what was kept of it: how far its handler and `tlb.inv` have come, and the record it raises. -/
def Parked.restore (p : Parked) (k : Parked) : Parked :=
  { k with va := p.va, mask := p.mask, data := p.data, dead := p.dead || k.dead }

/-- The signals held for a task, and what was kept of it while it was saved, applied to its context (05 R142, R147, 12 R321, 14 R343). -/
def Domain.applyHeld (d : Domain) (x : Ctx) : Ctx :=
  let id := idKey x.id.taskid
  let x := (d.heldEv.filter fun e => e.1 == id).foldl (fun (y : Ctx) e => y.setEv e.2.toNat) x
  let x := (d.heldVoid.filter fun e => e.1 == id).foldl (fun (y : Ctx) e => y.setVoid e.2.toNat) x
  let kept := fun (p : Parked) => (d.heldPark.find? fun e => e.1 == x.id.taskid && e.2.order == p.order && e.2.va == p.va).map (·.2)
  let call := (d.heldRout.find? fun e => e.1 == x.id.taskid).map (·.2)
  { x with
    replay := x.replay.map fun p => ((kept p).map p.restore).getD p
    rout := x.rout.map fun u => (call.map fun k => { u with num := k.num, entry := k.entry }).getD u }

/-- All of that dropped. -/
def Domain.dropHeld (d : Domain) (taskid : Word) : Domain :=
  { d with
    heldEv := d.heldEv.filter fun e => e.1 != idKey taskid
    heldVoid := d.heldVoid.filter fun e => e.1 != idKey taskid
    heldPark := d.heldPark.filter fun e => e.1 != taskid
    heldRout := d.heldRout.filter fun e => e.1 != taskid }

/-- The context references of a tile's queue after the task at `p` leaves it. -/
def shiftRef (t p : Nat) (r : CtxRef) : CtxRef :=
  match r with
  | .task u q => if u = t then (if q = p then .task t (q + 8) else if p < q && q < 8 then .task t (q - 1) else r) else r
  | _ => r

/-- Takes the task at a position out of the tile's queue; its held stores are still performed. -/
def Core.removeTask (c : Core) (t p : Nat) : Core :=
  let c := c.updTile t fun tl => { tl with queue := tl.queue.eraseIdx p }
  { c with rels := c.rels.map fun x => { x with r := shiftRef t p x.r } }

/-- What is left of the forwarded queue when the joined loop exits: the entries whose store has issued are the consumer's, the
others the producer's (15 R375, R378). -/
def Core.unforward (c : Core) (t : Nat) : Core :=
  match (c.tile t).pair with
  | none => c
  | some pr =>
    if !pr.linked then c
    else
      let n := pr.pre + pr.fwd
      let l := (c.ctx (.task t 0)).queue pr.pq
      let c := c.updCtx (.task t 0) fun x => x.setQueue pr.pq (l.drop n)
      let c := c.updCtx (.task t 1) fun x => x.setQueue pr.cq (l.take n)
      c.updTile t fun tl => { tl with pair := some { pr with linked := false } }

/-- A pair after the member at `p` ended: the consumer goes on alone (15 R374, R378). -/
def Core.unpair (c : Core) (t p : Nat) : Core :=
  match (c.tile t).pair with
  | none => c
  | some pr =>
    let after : PairPhase := if pr.phase = .refusedP || pr.phase = .refusedW then .refusedC else .epilogueC
    let x := c.ctx (.task t 0)
    -- a request to the pair goes on to its consumer
    let c := if p = 0 && pr.cpos = 1 then c.updCtx (.task t 1) fun y => { y with reqs := x.reqs } else c
    if p > 1 then c
    else c.updTile t fun tl => { tl with pair := if p = 0 && pr.cpos = 1 then some { pr with phase := after } else none }

/-- One task less of a launch; the launch goes with its last (07 R193). -/
def Domain.leave (d : Domain) (taskid : Word) : Domain :=
  let ser := serialOf taskid
  match mapGet none d.launches ser with
  | none => d
  | some l =>
    { d with launches := mapSet none d.launches ser (if l.live ≤ 1 then none else some { l with live := l.live - 1 }) }

/-- TASK_END (07 R181): the weight returns, the reader counts drop, the claims are released, the next task becomes head. -/
def Core.endTask (c : Core) (t p : Nat) : Core :=
  let x := c.ctx (.task t p)
  let d := c.domOf t
  let c := if x.r.twgt = 0 then c else c.rootAdd d t x.id.taskid x.id.rootVA (-(x.r.twgt.toNat : Int))
  let c := c.updDom d fun dm => (if x.started then addReaders dm x.r.tver false else dm).leave x.id.taskid
  (c.unpair t p).removeTask t p

/-- Ends a task whose `halt` or kill is done once its weight return, a release at .mod, may be performed (07 R193): after `halt` its
parked stores are performed, its reservations have landed and its units have finished (09 R243); after a kill the forest
operation of a committed bundle has landed (13 R334). -/
def Core.tryEnd (c : Core) (t p : Nat) : Core :=
  let x := c.ctx (.task t p)
  if x.r.twgt != 0 && c.rootBusy (c.domOf t) t x.id.rootVA then c
  else match x.life with
  | .ending =>
    if c.released (.task t p) .mod && (x.replay.all fun e => e.dead) && x.late.isEmpty && x.matrixIdle && x.fo.isNone && x.readsDone then
      c.endTask t p
    else c
  | .dying => if c.released (.task t p) .mod && x.fo.isNone then c.endTask t p else c
  | _ => c

/-! Killing a task (17 R408, 16 R396, 15 R380). -/

/-- The bytes of a Creel record (06 R164). -/
def creelRecord (ftick : Word) (tile flags value seq pos ver lp token : Nat) : List Byte :=
  leBytes 32 (token + lp * 2 ^ 32 + ver * 2 ^ 64 + pos * 2 ^ 80 + seq * 2 ^ 96 + value * 2 ^ 128 + flags * 2 ^ 160 +
    tile * 2 ^ 176 + ftick.toNat * 2 ^ 192)

/-- A plain read by the device with a task's rights, of bytes in one page. -/
def Core.devicePart (c : Core) (w : Who) (va : Word) (n : Nat) : Option (List Byte) :=
  match c.translateNow w .engRd va with
  | .error _ => none
  | .ok l =>
    let pa := c.placePa (c.placeNow w .engRd l) l.pa
    if c.poisoned pa n then none else some (c.homeBytes pa n)

/-- A plain read by the device, page by page (01 R43). -/
def Core.deviceRead (c : Core) (w : Who) (va : Word) (n : Nat) : Option (List Byte) :=
  let first := 65536 - va.toNat % 65536
  if n ≤ first then c.devicePart w va n
  else do
    let a ← c.devicePart w va first
    let b ← c.devicePart w (va + BitVec.ofNat 64 first) (n - first)
    return a ++ b

/-- A store of the Creel for a task whose bundle is gone: numbered and on its way, or nothing when it faults. -/
def Core.creelStore (c : Core) (w : Who) (va : Word) (bytes : List Byte) : Option (List StoreMsg × Core) :=
  match c.translateNow w (.store 3) va with
  | .error _ => none
  | .ok l => some ((c.markLeaf w (.store 3) va leafAD).mkStores w.tile (c.placeNow w (.store 3) l) l none (bytes.map some))

/-- The VA of the ring (06 R163): bit 56 of BASE extended (01 R18). -/
def Regs.ringBase (r : Regs) : Word := wordOfInt (sextNat 57 r.crbase.toNat)

/-- The ring of a context is enabled (06 R163). -/
def Ctx.ringOn (x : Ctx) : Bool := 4 ≤ x.r.crlog.toNat && x.r.crlog.toNat ≤ 24

/-- VOID in the list that the request header of a killed logit kernel names (16 R395, R396 step 2). -/
def Core.voidList (c : Core) (r : CtxRef) : Core :=
  let x := c.ctx r
  let i := if wbits x.id.taskid 31 1 == 1 then 0 else wbits x.id.taskid 0 31
  match c.deviceRead (c.who r) (x.id.targs + BitVec.ofNat 64 (16 * i)) 16 with
  | none => c
  | some bs =>
    let w0 := leWord (bs.take 8)
    let w1 := leWord (bs.drop 8)
    if wbits w1 63 1 == 1 && wbits w1 3 60 == 0 then
      let cd := wbits w1 0 3
      c.signal (c.domOf r.tile) w0 (fun y => y.setVoid cd) fun d => { d with heldVoid := d.heldVoid ++ [(idKey w0, BitVec.ofNat 3 cd)] }
    else c

/-- The VOID record and the release of WIDX (06 R168, 16 R396 step 3). -/
def Core.voidRecord (c : Core) (r : CtxRef) : Core :=
  let x := c.ctx r
  if !x.ringOn then c
  else
    let w := c.who r
    let slot := x.r.crwi.toNat % 2 ^ x.r.crlog.toNat
    let flags := (if x.r.crpos = 0 then 1 else 0) + 16 + (if x.creel.adopted then 32 else 0)
    let rc := creelRecord c.ftick (c.domOf r.tile % 4 * 512 + r.tile) flags 0x7FC00000 x.r.crseq.toNat x.r.crpos.toNat x.r.tver.toNat 0x7FC00000 0
    match c.creelStore w (x.r.ringBase + BitVec.ofNat 64 (64 + 32 * slot)) rc with
    | none => c
    | some (ms, c) =>
      let wi := x.r.crwi + 1
      let c := c.updCtx r fun x => { x with r := { x.r with crwi := wi, crpos := x.r.crpos + 1 } }
      let c := ms.foldl (fun (c : Core) m => c.commitStore r m) c
      match c.creelStore w x.r.ringBase (leBytes 8 wi.toNat) with
      | none => c
      | some (ms, c) => c.releaseLater r .store .mod ms

/-- Kills the task at a position: its record goes to the supervisor marked KILLED, its dead stores and its routine go, and it
ends (07 R181). A logit kernel voids its request first (16 R396). -/
def Core.killAt (c : Core) (t p : Nat) (rec : List Word) (flags : Nat) : Core :=
  let r := CtxRef.task t p
  let x := c.ctx r
  let c := c.updCtx r fun x =>
    { x with life := .dying, status := .ready, replay := [], late := [], rout := none, macs := [], far := none, reqs := [] }
  let c := if x.id.logit then (c.voidList r).voidRecord r else c
  (c.faultMsg (c.domOf t) (withFlag rec flags)).tryEnd t p

/-- The record of the partner of a killed member of a pair (15 R380): its BOFS is that of its entry in the splice record of
the combined bundle, 0 where it has none; its FLAGS are KILLED and SPLICED only, and it names no routine. -/
def partnerRecord (x : Ctx) (bofs : Nat) (rec : List Word) : List Word :=
  match rec with
  | w0 :: _ :: _ :: addr :: w4 :: t =>
    wset w0 32 8 0 :: BitVec.ofNat 64 (x.kid.toNat * 2 ^ 32 + bofs) :: x.id.taskid :: addr :: wset w4 16 16 0 :: t
  | l => l

/-- BOFS of the member at queue position `q` in the combined bundle that is next; 0 outside the joined loop. -/
def Pair.bofsOf (p : Pair) (q : Nat) : Nat :=
  if p.phase = .joined then (((p.recs.getD p.pos []).find? fun e => e.own == q + 1).map fun e => e.bofs).getD 0 else 0

/-- Whether a kill of one member ends both: the pair runs as one unit (15 R380). -/
def Pair.both (p : Pair) : Bool :=
  match p.phase with
  | .epilogueC | .refusedP | .refusedW | .refusedC | .refusedE => false
  | _ => true

/-- Kills a task named by its TASKID, and the partner of a running pair with it (17 R408, 15 R380). -/
def Core.killTask (c : Core) (t : Nat) (taskid : Word) (rec : List Word) : Core :=
  match findTask (c.tile t) taskid with
  | none => c
  | some p =>
    match (c.tile t).pair with
    | some pr =>
      if p < 2 && pr.both && (c.tile t).queue.length ≥ 2 then
        let q := 1 - p
        let prec := partnerRecord (c.ctx (.task t q)) (pr.bofsOf q) rec
        let c := pr.sig.foldl (fun c m => c.commitStore (.task t 0) m) (c.unforward t)
        let c := c.updTile t fun tl => { tl with pair := none }
        -- the later position first, so that the earlier keeps its number
        if p = 1 then (c.killAt t 1 rec flKilled).killAt t 0 prec (flKilled + flSpliced)
        else (c.killAt t 1 prec (flKilled + flSpliced)).killAt t 0 rec flKilled
      else c.killAt t p rec flKilled
    | none => c.killAt t p rec flKilled

/-! Requests to a tile's running task (16 R391, R459). -/

/-- Whether a task runs on a tile: the head of its queue has started and not ended (16 R387). -/
def Core.running (c : Core) (t : Nat) : Bool :=
  match (c.tile t).queue with
  | x :: _ => x.life == .live
  | [] => false

/-- The contexts that a pair consists of now: its producer, and its consumer while the producer has not ended. -/
def Pair.members (p : Option Pair) : Nat :=
  match p with
  | some pr => if pr.cpos = 1 then 2 else 1
  | none => 1

/-- Contexts of a tile that are the head task, or the head pair. -/
def Tile.headCount (tl : Tile) : Nat := min tl.queue.length (Pair.members tl.pair)

/-- ABINT of the running task; the lesser one of a pair (15 R378). -/
def Tile.abint (tl : Tile) : Nat :=
  let xs := (tl.queue.take tl.headCount).map fun x => x.id.abint
  xs.foldl min (xs.headD 0)

/-- Records a request; the first one starts the count against ABINT (16 R392, R459). -/
def Core.addReq (c : Core) (t : Nat) (q : Req) : Core :=
  let head := c.ctx (.task t 0)
  if head.reqs.contains q then c
  else c.updTile t fun tl =>
    let member := fun (k : Nat) (x : Ctx) =>
      if k < tl.headCount then
        { x with reqs := if k = 0 then x.reqs ++ [q] else x.reqs
                 reqEnd := if head.reqs.isEmpty then x.r.cyc + BitVec.ofNat 64 tl.abint else x.reqEnd }
      else x
    { tl with queue := tl.queue.mapIdx member }

/-- Marks the request of every handler context that waits for it as performed. -/
def Core.answered (c : Core) (w : Wait) : Core :=
  { c with tiles := c.tiles.map fun e => (e.1, { e.2 with hcs := e.2.hcs.map fun h => (h.1, h.2.map fun x =>
      if x.status = .waiting w then { x with hc := x.hc.map fun k => { k with asked := some true } } else x) }) }

end Sys2Proof.Machine
end

