-- ==== Sys2Proof/Machine/Ops.lean ====
section
/-!
DEFINITION. Taking a trap (17 R403 to R408, 07 R175), waiting (log entry 7), the outcome of an operation under its guard
(08 R206), and the return from a handler (09 R246).
-/

namespace Sys2Proof.Machine

open Sys2Proof

/-! Taking a trap. -/

/-- Ends a handler context: its slot is freed and the context with it (07 R175, R188). -/
def Core.endHandler (c : Core) (t k : Nat) : Core :=
  match mapGet none (c.tile t).hcs k with
  | none => c
  | some x =>
    match x.hc with
    | none => c
    | some h => c.updTile t fun tl => { (tl.freeSlot h.slot) with hcs := mapSet none tl.hcs k none }

/-- The budget overrun of a context is due (16 R394). -/
def Ctx.budDue (x : Ctx) : Bool := x.r.limit != 0 && !x.budDone && decide (x.r.limit.toNat ≤ x.r.cyc.toNat)

/-- Whether the count of a pending request of a running task has reached ABINT (16 R392). -/
def Ctx.expired (x : Ctx) : Bool := x.reqEnd != 0 && decide (x.reqEnd.toNat ≤ x.r.cyc.toNat)

/-- A trap of context r (17 R403 to R408, 07 R175), in the machine as its last committed bundle left it: a task is suspended and its
record waits for a handler context, or it is killed when it is a logit kernel (16 R396); an async trap that is due and not this one stays
pending (17 R404, R406 PEND); a handler context ends, its record goes to the
supervisor, and the task it holds suspended and unsaved is killed. -/
def takeTrap (c : Core) (r : CtxRef) (t : TrapInfo) : Core :=
  let c : Core := { c with rels := c.rels.filter fun e => !decide (e.kind = .wait && e.r = r) }
  let c := c.updCtx r fun x => { x with cast := none, budPend := x.budPend || x.budDue }
  let x := c.ctx r
  let rc := ctxRecord c r { t with flags := t.flags ||| (if x.budPend || x.expired then flPend else 0) }
  match r with
  | .task tl _ =>
    if x.id.logit then c.killTask tl x.id.taskid rc
    else
    let c := c.updCtx r fun x => { x with status := .suspended }
    c.updTile tl fun q => { q with faults := q.faults ++ [⟨rc, false, false, some x.id.taskid⟩], walkBad := [] }
  | .hc tl k =>
    let c := (c.endHandler tl k).faultMsg (c.domOf tl) rc
    match x.hc with
    | some h =>
      match h.serves with
      | some id => if h.fault && !h.parked && !h.engine && !h.savedTask then c.killTask tl id h.record else c
      | none => c
    | none => c

/-- The contexts whose bundle is in progress: both members of a joined pair. -/
def State.runners (s : State) : List CtxRef :=
  match s.bundle with
  | some b => if b.own.isEmpty then [b.r] else [.task b.r.tile 0, .task b.r.tile 1]
  | none => [s.ref]

/-- The schedule cycles of the contexts of the bundle in progress go on (08 R217, R223). -/
def State.keepCyc (s : State) (c : Core) : Core :=
  if s.bundle.isNone then c
  else s.runners.foldl (fun c r => c.updCtx r fun x => { x with r := { x.r with cyc := (s.toCore.ctx r).r.cyc } }) c

/-- The machine with the bundle in progress discarded (08 R211). -/
def State.rollback (s : State) : State :=
  { s with toCore := s.saved.getD s.toCore, bundle := none, saved := none }

/-- A wait that freezes the bundle engine: it counts no schedule cycle (08 R216, R217). A translation or a replica that is awaited
stalls its slot only (01 R42): how many cycles pass until a consumer freezes is open. -/
def Wait.freezes (w : Wait) : Bool :=
  match w with
  | .reg | .entry | .remote | .publish _ => true
  | _ => false

/-- A wait that a request for an aligned boundary withdraws (16 R391): one that counts toward YIELDCYC (R390). -/
def Wait.withdrawn (w : Wait) : Bool :=
  match w with
  | .evt _ | .bar _ _ => true
  | _ => false

/-- Of some schedule cycles, those that a context counts before its budget trap or its watchdog trap is due (16 R392, R394). -/
def Ctx.cycRoom (x : Ctx) (n : Nat) : Nat :=
  let n := if x.r.limit = 0 || x.budDone then n else min n (x.r.limit.toNat - x.r.cyc.toNat)
  if x.reqEnd = 0 then n else min n (x.reqEnd.toNat - x.r.cyc.toNat)

/-- Schedule cycles added to a context. -/
def Ctx.addCyc (x : Ctx) (n : Nat) : Ctx := { x with r := { x.r with cyc := x.r.cyc + BitVec.ofNat 64 (x.cycRoom n) } }

/-- Schedule cycles that contexts count together, up to the first trap that one of them makes due (15 R378, 16 R394). -/
def Core.addCycles (c : Core) (rs : List CtxRef) (n : Nat) : Core :=
  let n := rs.foldl (fun n r => (c.ctx r).cycRoom n) n
  rs.foldl (fun c r => c.updCtx r fun x => x.addCyc n) c

/-- The cycles of a wait in `evt.wt` or `bar.wt` that has ended: fewer than the yield interval of a task that it binds (16 R389, R390). -/
def Core.endWait (c : Core) (r : CtxRef) : Core :=
  let n := wbits (c.ctl (c.domOf r.tile) 0x70) 0 32
  let open' := (Config.cycles (4 * c.seq + 3)).toNat
  c.addCycles [r] (if n = 0 || !(c.ctx r).id.yieldable then open' else open' % n)

/-- An illegal-bundle trap of an operation reports the header and the slot word (17 R407). -/
def State.trapWords (s : State) (t : TrapInfo) : TrapInfo :=
  match s.bundle with
  | some b =>
    if t.kind = kIllegal && t.flags &&& flRoutine = 0 then { t with aux0 := b.hdr, aux1 := mapGet 0 b.words s.slot } else t
  | none => t

/-- A trap of the acting context, precise at its bundle. -/
def State.trap (s : State) (t : TrapInfo) : State :=
  let slot := if t.slot = 0xF && s.bundle.isSome then s.slot else t.slot
  let t := s.trapWords t
  let c := s.keepCyc s.rollback.toCore
  { s.rollback with toCore := takeTrap c s.ref { t with slot := slot } }

/-- The record of a release that an operation of a context waits for. -/
def Core.waitRelease (c : Core) (r : CtxRef) (q : Scope) : Core :=
  if c.rels.any fun x => decide (x.kind = .wait && x.r = r) then c
  else c.addRelease r .wait (c.ctx r).id.taskid q (c.ctx r).unacked []

/-- A request that a handler context makes once, however often its bundle is issued again. -/
def Core.asking (c : Core) (r : CtxRef) (f : Core → Core) : Core :=
  match (c.ctx r).hc with
  | some h => if h.asked.isSome then c else f (c.updCtx r fun x => { x with hc := some { h with asked := some false } })
  | none => f c

/-- Closes the tiles of a Border move and asks for the boundaries of their running tasks (16 R398). -/
def Core.startMove (c : Core) (d : Nat) (ts : List Nat) (side : Bool) : Core :=
  ts.foldl (fun c t =>
    let c := c.updTile t fun tl => { tl with closed := true, stage := .draining }
    if c.running t then c.addReq t .move else c)
    { (c.updDom d fun dm => { dm with move := some ⟨c.nid, ts, side⟩ }) with nid := c.nid + 1 }

/-- Replicas go: those of the dies and pages that `which` names start to drop, and the requests for them are withdrawn (02 R60, R64,
R68). -/
def Core.dropPages (c : Core) (which : Nat → Nat → Bool) : Core :=
  let c := (c.reps.filter fun x => x.die < 8 && which x.die x.page && !x.dropping).foldl (fun c x => c.sendOnce (.replicaDrop x.die x.page)) c
  { c with
    reps := c.reps.map fun x => if x.die < 8 && which x.die x.page then { x with dropping := true } else x
    pages := c.pages.map fun e => (e.1, { e.2 with asking := e.2.asking.filter fun a => !(a.die < 8 && which a.die e.1) })
    refused := c.refused.filter fun e => !which e.1 e.2
    msgs := c.msgs.filter fun m => match m with
      | .replicaRequest die page _ _ => !which die page
      | _ => true }

/-- A publication sends its copy to every other module of its scope (18 R430); what it waited for before is over. -/
def Core.broadcast (c : Core) (r : CtxRef) (region copy : Nat) (v : BitVec 16) (fin : Bool) (q : Scope) : Core :=
  let d := c.domOf r.tile
  let me := c.mc.modnum.toNat
  let rg := mapGet Region.init (c.dom d).regions region
  let base := (mapGet Copy.init rg.copies copy).cbase.toNat * 65536
  let data := (List.range (rg.npg.toNat * 65536)).map fun k => (k, c.homeByte (base + k))
  let ms := (List.range (2 ^ 20)).filter fun m => m != me && Config.module m && groupReaches (scopeCode q) m me
  let (i, c) := c.fresh
  let c := ms.foldl (fun (c : Core) m => c.sendOut m (.weights me d region v fin i data)) c
  Core.updCtx { c with rels := c.rels.filter fun x => !decide (x.kind = .wait && x.r = r) } r fun x => { x with cast := some (i, ms) }

/-- Asks for what a wait waits for: a walk, a region descriptor, a replica, a release. -/
def Core.request (c : Core) (r : CtxRef) (w : Wait) : Core :=
  match w with
  | .walk vp => c.updTile r.tile fun tl =>
      { tl with walks := if tl.walks.contains vp then tl.walks else tl.walks ++ [vp],
                walkBad := tl.walkBad.filter fun e => e.1 != vp }
  | .region g => c.sendOnce (.regionDescriptorFetch r.tile g)
  | .replica die page va => c.sendOnce (.replicaRequest die page (c.domOf r.tile) va)
  | .wide q => c.waitRelease r q
  | .pre t => c.asking r fun c => c.addReq t .pre
  | .move ts side => c.asking r fun c => c.startMove (c.domOf r.tile) ts side
  | .drop pages => c.dropPages fun _ page => pages.contains page
  | .cast region copy v fin q => c.broadcast r region copy v fin q
  | _ => c

/-- The acting context waits; its bundle is issued again when the wait is over (16 R391, log entry 7). The cycles of a wait that may end in
a yield are counted when it ends (`Core.endWait`) or yields. -/
def State.wait (s : State) (w : Wait) : State :=
  let b := s.rollback
  let c := if w.freezes then b.toCore else s.keepCyc b.toCore
  let c := c.request b.ref w
  let c := if w.freezes || w.withdrawn then c else c.addCycles s.runners (Config.cycles (4 * s.seq + 2)).toNat
  { b with toCore := c.updCtx b.ref fun x =>
      { x with status := .waiting w } }

/-- The outcome of an operation of a slot. -/
def finish (s : State) (r : Op State) : Host.Outcome State Fault Refusal :=
  match r with
  | .ok s' => .next s'
  | .error (.trap t) => .next (s.trap t)
  | .error (.wait w) => .next (s.wait w)

/-- An operation under its guard (08 R206): `off` does what a suppressed operation still does. -/
def guarded (s : State) (g : Guard) (off on : State → Op State) : Host.Outcome State Fault Refusal :=
  finish s (if s.guardOk g then on s else off s)

/-- A suppressed operation that names no queue and no stream does nothing. -/
def skip (s : State) : Op State := .ok s

/-- The trap PRIV (08 R221). -/
def privTrap : TrapInfo := mkTrap kPerm cPriv

/-! Returning from a handler (09 R246, 17 R408). -/

/-- A suspended task resumes at its bundle; its routine goes on unless a boundary is requested. -/
def Core.resumeTask (c : Core) (t : Nat) (taskid : Word) : Core :=
  match findTask (c.tile t) taskid with
  | none => c
  | some p => c.updCtx (.task t p) fun x =>
      { x with status := if x.status = .suspended then .ready else x.status
               rout := x.rout.map fun u => { u with faulted := none, paused := u.paused && !x.reqs.isEmpty } }

/-- Parts of a store that waited for room enter the replay queue (05 R146). Where nothing but dead stores fill it, all of them but the
oldest make room (log entry 45). -/
def Core.enterLate (c : Core) (r : CtxRef) : Nat → Core
  | 0 => c
  | n + 1 =>
    let x := c.ctx r
    match x.late with
    | [] => c
    | p :: rest =>
      let replay := if x.replay.length ≥ 16 && x.replay.all fun e => e.dead then x.replay.take 1 else x.replay
      if replay.length ≥ 16 then c
      else
        let c := c.updCtx r fun x => { x with replay := replay, late := rest }
        let c := if p.dead then c.updCtx r fun x => { x with replay := x.replay ++ [p] } else c.enterPark r p
        c.enterLate r n

/-- A parked store after the handler of its record returned: killed, or to be retried (05 R147). -/
def Parked.after (p : Parked) (kill : Bool) : Parked := if kill then { p with dead := true } else { p with resumed := true }

/-- What the return of a parked store's handler does to a task of a domain, on whatever tile it is or in whatever image (05 R147):
the stores parked on the page are dead, or wait for a later tlb.inv. -/
def Core.parkOutcome (c : Core) (d : Nat) (taskid : Word) (page : Nat) (kill : Bool) : Core :=
  let out := fun (p : Parked) => if vpageOf p.va = page then p.after kill else p
  let c := c.updDom d fun dm => { dm with heldPark := dm.heldPark.map fun e => if e.1 = taskid then (e.1, out e.2) else e }
  match c.tiles.find? fun e => e.2.dom == some d && (findTask e.2 taskid).isSome with
  | none => c
  | some e =>
    let r := CtxRef.task e.1 ((findTask e.2 taskid).getD 0)
    (c.updCtx r fun x => { x with replay := x.replay.map out, late := x.late.map out }).enterLate r (c.ctx r).late.length

/-- What the return of a handler does to what it served: a parked store's handler lets its stores retry or marks them dead
(05 R147); an engine fault's does nothing more; a suspended task stays saved, is killed, or resumes. -/
def Core.handlerOutcome (c : Core) (t : Nat) (h : HcInfo) : Core :=
  if !h.fault then c
  else if h.engine then c
  else if h.parked then
    match h.serves with
    | none => c
    | some id => c.parkOutcome (c.domOf t) id (vpageOf (h.record.getD 3 0)) h.kill
  else match h.serves with
    | none => c
    | some id => if h.savedTask then c else if h.kill then c.killTask t id h.record else c.resumeTask t id

end Sys2Proof.Machine
end

