-- ==== Sys2Proof/Machine/Coherence.lean ====
section
/-!
DEFINITION. The messages of the memory hierarchy: line-level write-update inside a die (02 R52 to R58), replicated pages
(02 R59 to R66), and what modules send each other about them (02 R67, 18 R431). Log entry 20 says how the model words the
confirmations of R56.
-/

namespace Sys2Proof.Machine

open Sys2Proof

/-! Lines. -/

def Core.l1Tag (c : Core) (tile line : Nat) : Option L1Line := mapGet none (c.tile tile).l1 line

def Core.setL1 (c : Core) (tile line : Nat) (x : Option L1Line) : Core :=
  c.updTile tile fun tl => { tl with l1 := mapSet none tl.l1 line x }

/-- Whether an update or a recall of a line is on its way to a sharer of a die. -/
def Core.passing (c : Core) (die line : Nat) : Bool :=
  c.msgs.any fun m => match m with
    | .upd t _ l _ _ _ _ | .recall t _ l _ => dieOf t == die && l == line
    | _ => false

/-- Relays of a line that have both confirmations are freed once no update or recall can still reach them: none is lost (R56). -/
def Core.freeRelays (c : Core) (die line : Nat) : Core :=
  if c.passing die line then c
  else
    (c.tiles.filter fun e => dieOf e.1 == die && (mapGet none e.2.l1 line).any fun x => x.relay == some 0).foldl
      (fun c e => c.setL1 e.1 line none) c

/-- The bytes of an update outside some masks. -/
def openBytes (masks : List (BitVec 128)) (bytes : List (Nat × Byte)) : List (Nat × Byte) :=
  bytes.filter fun e => masks.all fun m => !m.getLsbD e.1

/-- Passes an update on, or acknowledges it at the tail. -/
def Core.passUpd (c : Core) (tile : Nat) (next : BitVec 7) (pl : Place) (line id storer : Nat) (bytes : List (Nat × Byte)) : Core :=
  if next = ptrEnd then c.send (.ack true pl line id storer (selfIdx tile))
  else c.send (.upd (peerTile tile next) pl line id storer (selfIdx tile) bytes)

/-- A sharer's line under an update (R55): a byte keeps an own store that is pending, and what an update that comes later in home
order has written. -/
def L1Line.take (x : L1Line) (sent : List Nat) (id : Nat) (bytes : List (Nat × Byte)) : L1Line × List (Nat × Byte) :=
  let pend := x.pend.filter fun p => p.1 != id
  let bs := openBytes (pend.map (·.2) ++ (x.above.filter fun o => o.1.contains id).map (·.2)) bytes
  let before := sent.takeWhile (· != id)
  let above := (x.above.map fun o => (o.1.filter fun i => i != id && sent.contains i, o.2)).filter fun o => !o.1.isEmpty
  ({ x with data := lineWrite x.data bs, pend := pend
            above := if before.isEmpty then above else above ++ [(before, lineMask bytes)] }, bs)

/-- UPD at a sharer (R53, R55); a relay passes it on without applying it (R56). -/
def execUpd (s : State) : Host.Outcome State Fault Refusal :=
  match s.event with
  | some (.upd tile pl line id storer _ bytes) =>
    let c := s.toCore
    match c.l1Tag tile line with
    | none => .next { s with toCore := c.send (.ack true pl line id storer (selfIdx tile)) }
    | some x =>
      let c : Core :=
        if x.relay.isSome then c
        else
          let (y, bs) := x.take ((c.homeLine pl line).sent.map (·.1)) id bytes
          (c.cleanL1 tile line (some bs)).setL1 tile line (some y)
      .next { s with toCore := c.passUpd tile x.next pl line id storer bytes }
  | _ => .next s

/-- The storer that the recall of a line names in its ACK. -/
def recallStorer : Nat := 513

/-- Whether a message changes the list of a line on a die, or goes down it. -/
def moves (pl : Place) (die line : Nat) (m : Event) : Bool :=
  match m with
  | .fill t _ l _ _ | .upd t _ l _ _ _ _ | .recall t _ l _ | .setprev t l _ _ | .setnext t l _ _ => l == line && dieOf t == die
  | .sethead p l _ _ => l == line && p == pl
  | _ => false

/-- Whether the list of a line is at rest, no message about it being on its way but refusals. -/
def Core.atRest (c : Core) (pl : Place) (line : Nat) : Bool := !c.msgs.any (moves pl (c.placeDie pl line) line)

/-- Whether a refusal of a line is on its way on a die, or waits for its unlink. -/
def Core.refusing (c : Core) (die line : Nat) : Bool :=
  c.msgs.any fun m => match m with
    | .nack t l _ => l == line && dieOf t == die
    | _ => false

/-- ACK at the home, which passes it to the storer, and at the storer (R55). The ACK of a recall ends it when everything else about the
line has arrived; the slice gives the line up then (R57). -/
def execAck (s : State) : Host.Outcome State Fault Refusal :=
  match s.event with
  | some (.ack home pl line id storer _) =>
    let c := s.toCore
    let die := c.placeDie pl line
    if !home then .next { s with toCore := c.acked storer id }
    else if storer = recallStorer then
      if !c.atRest pl line || c.refusing die line then .next { s with toCore := c.send (.ack true pl line id storer ptrHome) }
      else
        let c := (c.updHomeLine pl line fun h => { h with head := ptrEnd, recalled := false }).freeRelays die line
        .next { s with toCore := c.dropLine (placeKey pl line) }
    else
      let c := (c.updHomeLine pl line fun h => { h with sent := h.sent.erase (id, storer) }).freeRelays die line
      .next { s with toCore := if storer < Config.tiles then c.send (.ack false pl line id storer ptrHome) else c.diffPieces id 0 }
  | _ => .next s

/-- LOAD_MISS_AT_HOME: the new sharer goes to the head of the list (R54). A line being recalled keeps the miss waiting (R57); a
line that the slice could not keep has no sharers. -/
def execLoadMissAtHome (s : State) : Host.Outcome State Fault Refusal :=
  match s.event with
  | some (.loadMissAtHome tile pl line) =>
    let c := s.toCore
    let h := c.homeLine pl line
    if h.recalled then .next { s with toCore := c.send (.loadMissAtHome tile pl line) }
    else if !c.inSlice pl line then .next s
    else
      let data := BitVec.ofNat 1024 (leNat (c.placeBytes pl (line * 128) 128))
      let c := c.updHomeLine pl line fun h => { h with head := selfIdx tile }
      let c := c.send (.fill tile pl line data h.head)
      .next { s with toCore := if h.head = ptrEnd then c else c.send (.setprev (peerTile tile h.head) line ptrHome (selfIdx tile)) }
  | _ => .next s

/-- Own stores of a tile to a line that a fill does not carry, oldest first: their updates come to the new head, or they have not reached
the home. -/
def Core.ownFlight (c : Core) (tile line : Nat) : List (Nat × List (Nat × Byte)) :=
  (c.msgs.filterMap fun m => match m with
    | .upd t _ l id storer _ bytes => if t == tile && storer == tile && l == line then some (id, bytes) else none
    | _ => none) ++
  c.onWay.filterMap fun x => if x.tile == tile && x.pa / 128 == line then some (x.id, givenBytes x.bytes (x.pa % 128)) else none

/-- FILL at the new sharer (R53): own stores that the fill cannot carry yet stay visible and pending. -/
def execFill (s : State) : Host.Outcome State Fault Refusal :=
  match s.event with
  | some (.fill tile _ line data next) =>
    let x : L1Line := { data := data, prev := ptrHome, next := next, pend := [], above := [], relay := none }
    let c := (s.toCore.cleanL1 tile line none).setL1 tile line (some x)
    .next { s with toCore := (s.toCore.ownFlight tile line).foldl (fun c x => c.ownL1 tile x.1 line x.2) c }
  | _ => .next s

/-! Eviction from an L1 (R56). A confirmation is a SETPREV or SETNEXT that carries the receiver's own number. -/

/-- A relay that has one confirmation more; freed with the last. -/
def Core.confirm (c : Core) (tile line : Nat) (x : L1Line) : Core :=
  match x.relay with
  | some n => (c.setL1 tile line (some { x with relay := some (n - 1) })).freeRelays (dieOf tile) line
  | none => c

/-- SETPREV at a sharer: one of a sharer that is not its PREV is refused, and one at a relay. -/
def execSetprev (s : State) : Host.Outcome State Fault Refusal :=
  match s.event with
  | some (.setprev tile line src prev) =>
    let c := s.toCore
    let refuse : Core := if src = ptrHome then c else c.send (.nack (peerTile tile src) line (selfIdx tile))
    .next { s with toCore := match c.l1Tag tile line with
      | none => if prev = selfIdx tile then c else refuse
      | some x =>
        if prev = selfIdx tile then c.confirm tile line x
        else if x.relay.isSome then refuse
        else if src = ptrHome then c.setL1 tile line (some { x with prev := prev })
        else if x.prev != src then refuse
        else (c.setL1 tile line (some { x with prev := prev })).send (.setnext (peerTile tile src) line (selfIdx tile) src) }
  | _ => .next s

/-- SETNEXT at a sharer: it is refused when the sharer does not point to the sender. -/
def execSetnext (s : State) : Host.Outcome State Fault Refusal :=
  match s.event with
  | some (.setnext tile line src next) =>
    let c := s.toCore
    let refuse : Core := if src = ptrHome then c else c.send (.nack (peerTile tile src) line (selfIdx tile))
    .next { s with toCore := match c.l1Tag tile line with
      | none => if next = selfIdx tile then c else refuse
      | some x =>
        if next = selfIdx tile then c.confirm tile line x
        else if x.relay.isSome || x.next != src then refuse
        else (c.setL1 tile line (some { x with next := next })).send (.setprev (peerTile tile src) line (selfIdx tile) src) }
  | _ => .next s

/-- SETHEAD at the home: it is refused when the HEAD is not the sender. -/
def execSethead (s : State) : Host.Outcome State Fault Refusal :=
  match s.event with
  | some (.sethead pl line src head) =>
    let c := s.toCore
    let t := c.placeDie pl line * 64 + src.toNat % 64
    let c : Core :=
      if (c.homeLine pl line).head = src then
        (c.updHomeLine pl line fun h => { h with head := head }).send (.setnext t line ptrHome src)
      else c.send (.nack t line ptrHome)
    .next { s with toCore := c }
  | _ => .next s

/-- The sharers of a line from a pointer on. -/
def Core.chain (c : Core) (die line : Nat) : Nat → BitVec 7 → List (BitVec 7)
  | 0, _ => []
  | n + 1, p => if p = ptrEnd then [] else p :: match c.l1Tag (die * 64 + p.toNat % 64) line with
    | some x => c.chain die line n x.next
    | none => []

/-- The element before another in a list. -/
def before (l : List (BitVec 7)) (a : BitVec 7) : Option (BitVec 7) := ((l.zip (l.drop 1)).find? fun e => e.2 == a).map (·.1)

/-- The unlink of a relay through the home: the home or the sharer that points to it takes its NEXT, and its successor's PREV is put
right (R56). -/
def Core.unlink (c : Core) (tile line : Nat) (x : L1Line) : Core :=
  let pl := c.l1Place tile line
  let die := dieOf tile
  let me := selfIdx tile
  let l := c.chain die line 64 (c.homeLine pl line).head
  let upd := fun (c : Core) (p : BitVec 7) (f : L1Line → L1Line) =>
    c.updTile (die * 64 + p.toNat % 64) fun tl => { tl with l1 := mapUpd none tl.l1 line fun o => o.map f }
  let c : Core :=
    if !l.contains me then c
    else match before l me with
      | none => c.updHomeLine pl line fun h => { h with head := x.next }
      | some p => upd c p fun y => { y with next := x.next }
  let c : Core := if x.next = ptrEnd then c
    else upd c x.next fun y => { y with prev := (before (l.filter (· != me)) x.next).getD ptrHome }
  c.setL1 tile line none

/-- NACK at a sharer that is unlinking: it repeats its unlink through the home, which performs it when nothing else about the line is on
its way (R56). -/
def execNack (s : State) : Host.Outcome State Fault Refusal :=
  match s.event with
  | some (.nack tile line src) =>
    let c := s.toCore
    match c.l1Tag tile line with
    | none => .next s
    | some x =>
      if x.relay.isNone then .next s
      else if src != ptrHome || !c.atRest (c.l1Place tile line) line then .next { s with toCore := c.send (.nack tile line ptrHome) }
      else .next { s with toCore := c.unlink tile line x }
  | _ => .next s

/-- L1_EVICT: the tag becomes a relay and asks its neighbours to pass it by (R56). -/
def execL1Evict (s : State) : Host.Outcome State Fault Refusal :=
  match s.event with
  | some (.l1Evict tile line) =>
    let c := s.toCore
    match c.l1Tag tile line with
    | none => .next s
    | some x =>
      if x.relay.isSome then .next s
      else
        let me := selfIdx tile
        let tail := x.next = ptrEnd
        let y : L1Line := { x with data := 0, pend := [], above := [], relay := some (if tail then 1 else 2) }
        let c := (c.cleanL1 tile line none).setL1 tile line (some y)
        let c := if x.prev = ptrHome then c.send (.sethead (c.l1Place tile line) line me x.next)
          else c.send (.setnext (peerTile tile x.prev) line me x.next)
        .next { s with toCore := if tail then c else c.send (.setprev (peerTile tile x.next) line me x.prev) }
  | _ => .next s

/-- RECALL at a sharer or a relay: it drops the line and passes the RECALL on; the tail acknowledges (R53, R57). -/
def execRecall (s : State) : Host.Outcome State Fault Refusal :=
  match s.event with
  | some (.recall tile pl line _) =>
    let c := s.toCore
    match c.l1Tag tile line with
    | none => .next { s with toCore := c.send (.ack true pl line 0 recallStorer (selfIdx tile)) }
    | some x =>
      let c := (c.cleanL1 tile line none).setL1 tile line none
      let m : Event := if x.next = ptrEnd then .ack true pl line 0 recallStorer (selfIdx tile)
        else .recall (peerTile tile x.next) pl line (selfIdx tile)
      .next { s with toCore := c.send m }
  | _ => .next s

/-- Starts the recall of a line with sharers, when the updates sent before it have been acknowledged. -/
def Core.startRecall (c : Core) (pl : Place) (line : Nat) : Core :=
  let h := c.homeLine pl line
  if h.head = ptrEnd || h.recalled || !h.sent.isEmpty then c
  else
    let c := c.updHomeLine pl line fun h => { h with recalled := true }
    c.send (.recall (c.placeDie pl line * 64 + h.head.toNat % 64) pl line ptrHome)

/-- HOME_SLICE_EVICT: a line with sharers is recalled first; a line without leaves the slice, written back (R57). -/
def execHomeSliceEvict (s : State) : Host.Outcome State Fault Refusal :=
  match s.event with
  | some (.homeSliceEvict pl line) =>
    let c := s.toCore
    if (c.homeLine pl line).head != ptrEnd then .next { s with toCore := c.startRecall pl line }
    else if c.replaceable ⟨0, placeKey pl line, false⟩ then .next { s with toCore := c.dropLine (placeKey pl line) }
    else .next s
  | _ => .next s

/-! Replicated pages (R59 to R66). -/

def Core.page (c : Core) (p : Nat) : PageState := mapGet .init c.pages p

def Core.setPage (c : Core) (p : Nat) (x : PageState) : Core := { c with pages := mapSet .init c.pages p x }

/-- The bytes of a page that are not zero, by offset. -/
def Core.pageBytes (c : Core) (page : Nat) : List (Nat × Byte) :=
  (List.range 65536).filterMap fun k => let b := c.homeByte (page * 65536 + k); if b = 0 then none else some (k, b)

/-- A replica of a page made from the primary's bytes (R62): in its frame, or sent to the module that asked. -/
def Core.addReplica (c : Core) (page : Nat) (a : Ask) : Core :=
  let r : Replica := { die := a.die, page := page, dom := a.dom, va := a.va, frame := a.frame, dirty := [], sent := [], since := 0
                       used := c.nid, dropping := false }
  let c : Core := { c with reps := c.reps ++ [r], nid := c.nid + 1 }
  if a.die < 8 then c.copyPage page a.frame
  else c.sendOut ((a.die - 8) / 8) (.pageData c.mc.modnum.toNat ((a.die - 8) % 8) page (c.pageBytes page))

/-- Every UPD already sent for a page at its primary home has been acknowledged, and no line of it is being recalled (R62). -/
def Core.pageQuiet (c : Core) (page : Nat) : Bool :=
  c.home.all fun e => e.1 % 16 != 0 || e.1 / 16 / 512 != page || (e.2.sent.isEmpty && !e.2.recalled)

/-- A die asks the primary home of a page for a replica (R62). -/
def Core.askPage (c : Core) (page : Nat) (a : Ask) : Core :=
  let p := c.page page
  match p.mode with
  | .line => c.setPage page { p with mode := .draining, asking := p.asking ++ [a] }
  | .draining => c.setPage page { p with asking := p.asking ++ [a] }
  | .replica => c.addReplica page a

/-- A free frame of a domain's replica pool on a die (R60, R61): one that no replica and no request holds. -/
def Core.freeFrame (c : Core) (die dom : Nat) : Option Nat :=
  let w := c.ctl dom (0x48 + die)
  let held := (c.reps.filter fun r => r.die == die).map (·.frame) ++
    c.pages.flatMap fun e => (e.2.asking.filter fun a => a.die == die).map (·.frame)
  (List.range (wbits w 52 12)).findSome? fun i => let f := wbits w 16 36 + i; if held.contains f then none else some f

/-- The least recently used replica of a domain on a die starts to drop, unless one is dropping already (R61). -/
def Core.dropOldest (c : Core) (die dom : Nat) : Core :=
  let mine := c.reps.filter fun r => r.die == die && r.dom == dom
  if mine.any fun x => x.dropping then c
  else match mine.foldl (fun (o : Option Replica) r => match o with
      | some x => if r.used < x.used then some r else o
      | none => some r) none with
    | some r => c.dropPages fun d p => d == r.die && p == r.page
    | none => c

/-- REPLICA_REQUEST: die `die` asks for a page (R61, R62). With its pool full it gives up the least recently used replica of
the domain first. The request for a page whose primary home is on another module goes there (18 R431). -/
def execReplicaRequest (s : State) : Host.Outcome State Fault Refusal :=
  match s.event with
  | some (.replicaRequest die page d va) =>
    let c := s.toCore
    let again := fun (c : Core) => c.send (.replicaRequest die page d va)
    match c.replica die page with
    | some r => .next { s with toCore := if r.dropping then again c else c }
    | none =>
      let p := c.page page
      if (p.asking.any fun a => a.die == die) || !c.drepOn d die then .next s
      else match c.freeFrame die d with
        | none => .next { s with toCore := again (c.dropOldest die d) }
        | some f =>
          let a : Ask := ⟨die, d, va, f⟩
          if isFar (page * 65536) then
            match (c.dom d).groupOf (BitVec.ofNat 64 (va * 65536)) with
            | none => .next s
            | some g =>
              let m : VcMsg := .pageAsk (farDie c.mc.modnum.toNat die) d (page % 2 ^ 48) ((c.dom d).groupWords g)
              .next { s with toCore := (c.setPage page { p with asking := p.asking ++ [a] }).sendOut (farModule (page * 65536)) m }
          else .next { s with toCore := c.askPage page a }
  | _ => .next s

/-- A page without replicas or requests is LINE again (R62). -/
def Core.pageDone (c : Core) (page : Nat) : Core :=
  let p := c.page page
  if p.mode = .replica && (c.replicaDies page).isEmpty then c.setPage page { p with mode := .line } else c

/-- REPLICA_DRAIN_COMPLETE: the page goes to the dies that asked, and the queued stores go on in their order (R62). -/
def execReplicaDrainComplete (s : State) : Host.Outcome State Fault Refusal :=
  match s.event with
  | some (.replicaDrainComplete page) =>
    let c := s.toCore
    let p := c.page page
    if p.mode != .draining || !c.pageQuiet page then .next s
    else
      let c := c.setPage page { p with mode := .replica, queued := [], asking := [] }
      let c := p.asking.foldl (fun (c : Core) a => c.addReplica page a) c
      .next { s with toCore := p.queued.foldl (fun c m => (c.storeAt m).setTags m) (c.pageDone page) }
  | _ => .next s

/-- DIRTY_GRANULE_FLUSH_TIMER: granules dirty for 2,048 FTICK leave on their own (R63). -/
def execDirtyGranuleFlushTimer (s : State) : Host.Outcome State Fault Refusal :=
  match s.event with
  | some (.dirtyGranuleFlushTimer die page) =>
    match s.toCore.replica die page with
    | none => .next s
    | some r =>
      if r.dirty.isEmpty || (s.ftick - r.since).toNat < 2048 then .next s else .next { s with toCore := s.toCore.publish r }
  | _ => .next s

/-- The die that sent a diff learns that it has its place in home order, behind what was forwarded to it before (R64). -/
def Core.orderedBack (c : Core) (d : Diff) : Core :=
  if d.die < 8 then (if (c.replica d.die d.page).isSome then c.send (.forwardedDiffApply d.die d) else c)
  else match (c.diffs.find? fun x => x.id == d.id).map fun x => x.ack with
    | some (DiffAck.module m k) => c.sendOut m (.ordered c.mc.modnum.toNat ((d.die - 8) % 8) d.page k)
    | _ => c

/-- DIFF_AT_PRIMARY: the diff is applied in home order and forwarded to every other replica (R62, R63). -/
def execDiffAtPrimary (s : State) : Host.Outcome State Fault Refusal :=
  match s.event with
  | some (.diffAtPrimary d) =>
    let c := s.toCore
    let c := (byLine d.page d.bytes).foldl (fun (c : Core) l => (c.touch .primary (l.1 * 128) true).backInvalidate (l.1 * 128)) c
    let c := d.bytes.foldl (fun (c : Core) e => c.putBytes (d.page * 65536 + e.1) [some e.2]) c
    let c := c.diffTags .primary d fun _ => true
    let (k, c) := c.updLines .primary d Config.tiles fun _ => true
    let (near, away, c) := c.forward d ((c.replicaDies d.page).filter (· != d.die))
    let c := c.orderedBack d
    let c : Core := { c with diffs := c.diffs.map fun x => if x.id == d.id then { x with away := x.away + away } else x }
    .next { s with toCore := c.diffPieces d.id (k + near) }
  | _ => .next s

/-- FORWARDED_DIFF_APPLY at a replica: bytes that are dirty there, and bytes of a diff of its own that comes later in home order, keep
their value (R64). Its own diff comes back to it when it has its place in that order. -/
def execForwardedDiffApply (s : State) : Host.Outcome State Fault Refusal :=
  match s.event with
  | some (.forwardedDiffApply die d) =>
    let c := s.toCore
    match c.replica die d.page with
    | none => .next { s with toCore := if d.bytes.isEmpty then c else c.diffPieces d.id 0 }
    | some r =>
      if r.sent.any fun e => e.1 == d.id then
        .next { s with toCore := { c with reps := c.reps.map fun x =>
          if x.die == die && x.page == d.page then { x with sent := x.sent.filter fun e => e.1 != d.id } else x } }
      else if d.bytes.isEmpty then .next s
      else
        let keep := fun k => !r.dirty.contains k && r.sent.all fun e => !e.2.contains k
        let c := (byLine d.page d.bytes).foldl (fun (c : Core) l => c.touch (.replica die) (l.1 * 128) true) c
        let c := (c.putReplica die d.page (d.bytes.filter fun e => keep e.1) false).diffTags (.replica die) d keep
        let (k, c) := c.updLines (.replica die) d (1024 + d.tile) keep
        .next { s with toCore := c.diffPieces d.id k }
  | _ => .next s

/-- Messages that a replica still has to take before it can go. -/
def replicaTraffic (die page : Nat) (m : Event) : Bool :=
  match m with
  | .storeAtHome x => decide (x.place = .replica die) && x.pa / 65536 == page
  | .loadMissAtHome _ pl line | .fill _ pl line _ _ => decide (pl = .replica die) && line / 512 == page
  | .forwardedDiffApply d x => d == die && x.page == page
  | _ => false

/-- A replica's frame is free (R64): the slice gives its lines up, its tags go, and a primary home on another module learns of it. -/
def Core.freeReplica (c : Core) (die page : Nat) : Core :=
  let c := (List.range 512).foldl (fun (c : Core) k =>
    if c.inSlice (.replica die) (page * 512 + k) then c.dropLine (placeKey (.replica die) (page * 512 + k)) else c) c
  let c := c.dropTags (.replica die) fun w => w / 8192 == page
  let c : Core := { c with reps := c.reps.filter fun x => !(x.die == die && x.page == page) }
  if isFar (page * 65536) then
    c.sendOut (farModule (page * 65536)) (.pageDropped (farDie c.mc.modnum.toNat die) (page % 2 ^ 48))
  else c.pageDone page

/-- REPLICA_DROP: the L1 copies go, the dirty granules leave as a diff, and with its ACK the frame is free (R61, R64). -/
def execReplicaDrop (s : State) : Host.Outcome State Fault Refusal :=
  match s.event with
  | some (.replicaDrop die page) =>
    let c := s.toCore
    match c.replica die page with
    | none => .next s
    | some r =>
      let again := fun (c : Core) => c.send (.replicaDrop die page)
      let c : Core := { c with reps := c.reps.map fun x => if x.die == die && x.page == page then { x with dropping := true } else x }
      let lines := (List.range 512).map fun k => page * 512 + k
      let shared := lines.filter fun k => (c.homeLine (.replica die) k).head != ptrEnd
      let busy := lines.any fun k => !(c.homeLine (.replica die) k).sent.isEmpty
      if c.msgs.any (replicaTraffic die page) then .next { s with toCore := again c }
      else if !shared.isEmpty || busy then
        .next { s with toCore := again (shared.foldl (fun c k => c.startRecall (.replica die) k) c) }
      else if !r.dirty.isEmpty then .next { s with toCore := again (c.publish r) }
      else if c.diffs.any fun x => x.die == die && x.page == page && x.left != 0 then .next { s with toCore := again c }
      else .next { s with toCore := c.freeReplica die page }
  | _ => .next s

/-- FORWARDED_ATOMIC at the primary home (R65); a page that drains keeps it queued (R62), and so does a line being recalled. An acquire
is widened by the tags of what it read (05 R133). -/
def execForwardedAtomic (s : State) : Host.Outcome State Fault Refusal :=
  match s.event with
  | some (.forwardedAtomic tile id pa kind wide signed x cmp tag acq) =>
    let c := s.toCore
    if (c.page (pa / 65536)).mode == .draining || c.recallBusy pa then
      .next { s with toCore := c.send (.forwardedAtomic tile id pa kind wide signed x cmp tag acq) }
    else
      let n := if wide then 8 else 4
      let hold := acq.bind fun dom => c.widen dom tile .primary pa n
      let (old, c) := c.atomicAt tile id pa n tag fun b => (atmApply kind (8 * n) signed (leNat b) x.toNat cmp.toNat).map (leBytes n)
      let val := extend64 ⟨signed, if wide then 3 else 2⟩ (leNat old)
      if isFarTile tile then .next { s with toCore := c.sendOut (tile / 2 ^ 16 - 1) (.result (tile % 2 ^ 16) id val) }
      else
        let c := c.updTileCtxs tile fun y =>
          { y with far := y.far.map fun f => if f.id == id then { f with hold := hold } else f }
        .next { s with toCore := c.send (.registerWriteLand tile id val) }
  | _ => .next s

/-! Messages from other modules (02 R67, 18 R427, R430, R431). -/

/-- The number by which this module names a page of another one. -/
def farPage (module page : Nat) : Nat := farPa module (page * 65536) / 65536

/-- A page that another module asked for arrives: into the frame that the request took, unless the request was withdrawn (02 R60). -/
def Core.pageArrives (c : Core) (src die page : Nat) (data : List (Nat × Byte)) : Core :=
  let p := c.page (farPage src page)
  match p.asking.find? fun a => a.die == die with
  | none => c.sendOut src (.pageDropped (farDie c.mc.modnum.toNat die) page)
  | some a =>
    let c := c.setPage (farPage src page) { p with asking := p.asking.filter fun x => x.die != die }
    let r : Replica := { die := die, page := farPage src page, dom := a.dom, va := a.va, frame := a.frame, dirty := [], sent := []
                         since := 0, used := c.nid, dropping := false }
    let c : Core := { c with reps := c.reps ++ [r], nid := c.nid + 1 }
    let c := (List.range 512).foldl (fun (c : Core) k => c.putBytes (a.frame * 65536 + 128 * k) (List.replicate 128 (some 0))) c
    data.foldl (fun (c : Core) e => c.putBytes (a.frame * 65536 + e.1 % 65536) [some e.2]) c

/-- A page request of another module (18 R431): it is refused when its group entry differs from this module's. -/
def Core.farAsk (c : Core) (die dom page : Nat) (group : List Word) : Core :=
  let d := c.dom (dom % 4)
  let same := (List.range 64).any fun g => wbits (mapGet 0 d.groups (4 * g)) 0 1 == 1 && d.groupWords g == group
  let mine := wbits (group.getD 2 0) 0 20 == c.mc.modnum.toNat
  if same && mine then c.askPage page ⟨die, 4, 0, 0⟩
  else c.sendOut ((die - 8) / 8) (.pageRefused c.mc.modnum.toNat ((die - 8) % 8) page)

/-- A message of another module. The copies of R430 are those of the ports (Machine.Devices). -/
def Core.fromModule (c : Core) (m : VcMsg) : Core :=
  match m with
  | .pageAsk die dom page group => if die < 8 then c else c.farAsk die dom page group
  | .pageData src die page data => c.pageArrives src (die % 8) page data
  | .pageRefused src die page =>
    let p := c.page (farPage src page)
    { c.setPage (farPage src page) { p with asking := p.asking.filter fun a => a.die != die } with
      refused := (die, farPage src page) :: c.refused }
  | .pageDropped die page => Core.pageDone { c with reps := c.reps.filter fun x => !(x.die == die && x.page == page) } page
  | .diff d =>
    let (i, c) := c.fresh
    let x : DiffOut := { id := i, die := d.die, dom := 4, page := d.page, left := 1, away := 0, ack := .module ((d.die - 8) / 8) d.id }
    Core.send { c with diffs := c.diffs ++ [x] } (.diffAtPrimary { d with id := i })
  | .ordered src die page id =>
    c.send (.forwardedDiffApply die { page := farPage src page, die := die, bytes := [], id := id, tile := Config.tiles, tags := [] })
  | .forward src die d =>
    let (i, c) := c.fresh
    let x : DiffOut := { id := i, die := d.die, dom := 4, page := farPage src d.page, left := 1, away := 0, ack := .applied src d.id }
    Core.send { c with diffs := c.diffs ++ [x] }
      (.forwardedDiffApply (die % 8) { d with id := i, page := farPage src d.page, die := if d.die < 8 then farDie src d.die else d.die })
  | .diffDone id everywhere =>
    Core.settleDiff { c with diffs := c.diffs.map fun x =>
      if x.id == id then { x with left := 0, away := if everywhere then 0 else x.away } else x } id
  | .applied id =>
    Core.settleDiff { c with diffs := c.diffs.map fun x => if x.id == id then { x with away := x.away - 1 } else x } id
  | .atomic die tile id pa kind wide signed x cmp tag acq =>
    if die < 8 then c else c.send (.forwardedAtomic (farTile ((die - 8) / 8) tile) id pa kind wide signed x cmp tag acq)
  | .result tile id val => c.send (.registerWriteLand tile id val)
  | .weights .. => c
  | .weightsDone id module => c.tiles.foldl (fun (c : Core) e => c.updTileCtxs e.1 fun x =>
      { x with cast := x.cast.map fun y => if y.1 = id then (y.1, y.2.filter (· != module)) else y }) c

/-! Stores at their homes. -/

/-- STORE_AT_HOME (R55): applied in home order and sent down the list. A page that drains queues it (R62); a line being
recalled keeps it waiting (R57). -/
def Core.storeArrives (c : Core) (m : StoreMsg) : Core :=
  let m : StoreMsg := match m.place with
    | .replica d => if (c.replica d (m.pa / 65536)).isSome then m else { m with place := .primary }
    | .primary => m
  let p := c.page (m.pa / 65536)
  if p.mode == .draining && decide (m.place = .primary) then c.setPage (m.pa / 65536) { p with queued := p.queued ++ [m] }
  else if (c.homeLine m.place (m.pa / 128)).recalled then c.send (.storeAtHome m)
  else (c.storeAt m).setTags m

end Sys2Proof.Machine
end

