-- ==== Sys2Proof/Machine/Permute.lean ====
section
/-!
DEFINITION. The P slot: block-scaled packing, scales, 16-bit packing and rearrangement (11 R293 to R300).
-/

namespace Sys2Proof.Machine

open Sys2Proof

/-- Byte 192 of an entry as a bit position: where a packed entry holds its scales (11 R294). -/
def scaleBit : Nat := 1536

/-- Byte `j` of the scales: from a scalar or from the scale bytes of an entry. -/
def scaleByte (w j : Nat) : Nat := (w >>> (8 * j)) % 256

/-- The 96 binary32 sources of `pk.mx` (11 R294). -/
def packSource (split : Bool) (a b : Entry) (k : Nat) : Nat :=
  if split then (if k < 32 then lane a (32 + k) else lane b (k - 32))
  else if k < 64 then lane a k else lane b (k - 64)

/-- The scales of `pk.mx`: given, or computed for each block. -/
def packScales (fmt : MxFmt) (blk : Blk) (given : Option Nat) (y : Nat → Nat) : List Nat :=
  (List.range blk.count).map fun j =>
    match given with
    | some w => scaleByte w j
    | none => blockScale fmt ((List.range blk.size).map fun i => fmtF32.decode (y (j * blk.size + i)))

/-- Quantises one 96-element K-step into the entry of R294, with its flags. -/
def packStep (fmt : MxFmt) (blk : Blk) (given : Option Nat) (rm : Rnd) (dr : Nat → Nat) (y : Nat → Nat) : Entry × Flags :=
  let sc := packScales fmt blk given y
  let rs := (List.range 96).map fun k => quantise fmt (sc.getD (k / blk.size) 0) rm (dr k) (fmtF32.decode (y k))
  (BitVec.ofNat 2048 (packBits fmt.width (rs.map fun r => r.bits) + (packBits 8 sc) <<< scaleBit), joinFlags rs)

/-- Decodes one packed K-step: 96 binary32 results (11 R295). -/
def unpackStep (fmt : MxFmt) (blk : Blk) (scales : Nat) (e : Entry) : List FRes :=
  (List.range 96).map fun k =>
    fmtF32.ofVal .rne 0 (mxValue fmt (unpackBits fmt.width e.toNat k) (scaleByte scales (k / blk.size)))

/-- An optional scalar source. -/
def State.rdOpt (s : State) (c : Option (BitVec 6)) : Op (Option Nat) :=
  match c with
  | none => .ok none
  | some n => do
    let w ← s.rdS n
    return some w.toNat

/-- `pk.mx` (11 R294). -/
def execPkMx (o : OpPkMx) (s : State) : Host.Outcome State Fault Refusal :=
  guarded s o.gd
    (fun s => do
      let s ← s.drop o.a
      let s ← s.drop o.b
      s.zeros o.d 1)
    (fun s => do
      let (a, s) ← s.src o.a
      let (b, s) ← s.src o.b
      let given ← s.rdOpt o.c
      let (dr, s) := s.draws o.rm 96
      let (e, fl) := packStep o.fmt o.blk given o.rm dr (packSource o.split a b)
      (s.flag fl).dst o.d e)

/-- `upk.mx` (11 R295). -/
def execUpkMx (o : OpUpkMx) (s : State) : Host.Outcome State Fault Refusal :=
  guarded s o.gd
    (fun s => do
      let s ← s.drop o.a
      s.zeros o.d 2)
    (fun s => do
      let (a, s) ← s.src o.a
      let given ← s.rdOpt o.c
      let rs := unpackStep o.fmt o.blk (given.getD (a.toNat >>> scaleBit)) a
      let xs := rs.map fun r => r.bits
      (s.flag (joinFlags rs)).dsts o.d [ofLanes (xs.take 64), ofLanes (xs.drop 64)])

/-- `shf` (11 R298). -/
def execShf (o : OpShf) (s : State) : Host.Outcome State Fault Refusal :=
  guarded s o.gd
    (fun s => do
      let s ← s.drop o.a
      let s ← s.drop o.b
      s.zeros o.d 1)
    (fun s => do
      let (a, s) ← s.src o.a
      let (b, s) ← s.src o.b
      s.dst o.d (ofLanes ((List.range 64).map fun i => if lane b i ≥ 2 ^ 31 then 0 else lane a (lane b i % 64))))

/-- Bits of an element (11 R293 W). -/
def elemBits (w : EWidth) : Nat :=
  match w with
  | .w32 => 32
  | .w16 => 16
  | .w8 => 8

/-- Element e of an entry. -/
def elem (w : EWidth) (x : Entry) (e : Nat) : Nat := unpackBits (elemBits w) x.toNat e

/-- An entry of elements. -/
def ofElems (w : EWidth) (xs : List Nat) : Entry := BitVec.ofNat 2048 (packBits (elemBits w) xs)

/-- Elements of an entry. -/
def elemCount (w : EWidth) : Nat := 2048 / elemBits w

/-- Rows and columns of the tile of `xpo` (11 R299). -/
def xpoShape (w : EWidth) : Nat × Nat :=
  match w with
  | .w32 => (8, 8)
  | .w16 => (8, 16)
  | .w8 => (16, 16)

/-- `xpo` (11 R299). -/
def execXpo (o : OpXpo) (s : State) : Host.Outcome State Fault Refusal :=
  guarded s o.gd
    (fun s => do
      let s ← s.drop o.a
      s.zeros o.d 1)
    (fun s => do
      let (a, s) ← s.src o.a
      let (rows, cols) := xpoShape o.w
      s.dst o.d (ofElems o.w ((List.range (rows * cols)).map fun d => elem o.w a ((d % rows) * cols + d / rows))))

/-- `bct` and `bct.g` (11 R298). -/
def execBct (o : OpBct) (s : State) : Host.Outcome State Fault Refusal :=
  guarded s o.gd
    (fun s => do
      let s ← s.drop o.a
      s.zeros o.d 1)
    (fun s => do
      let (a, s) ← s.src o.a
      let l := o.lane.toNat
      s.dst o.d (ofLanes ((List.range 64).map fun i => if o.sub then lane a (8 * (i / 8) + l % 8) else lane a l)))

/-- `sc.get` (11 R296). -/
def execScGet (o : OpScGet) (s : State) : Host.Outcome State Fault Refusal :=
  guarded s o.gd
    (fun s => do
      let s ← s.drop o.a
      match o.dst with
      | .scalar _ => return s
      | .sq d => s.pushQ (32 + d.toNat) 0)
    (fun s => do
      let (a, s) ← s.src o.a
      let v := (a.toNat >>> scaleBit) % 2 ^ 32
      match o.dst with
      | .scalar d => return s.wrS d (BitVec.ofNat 64 v)
      | .sq d => s.pushQ (32 + d.toNat) (BitVec.ofNat 2048 v))

/-- Alternates two lists. -/
def interleave (xs ys : List Nat) : List Nat :=
  match xs, ys with
  | x :: xs, y :: ys => x :: y :: interleave xs ys
  | _, _ => []

/-- Every second element. -/
def evens : List Nat → List Nat
  | x :: _ :: t => x :: evens t
  | [x] => [x]
  | [] => []

/-- A rearrangement of the elements of two entries into two entries. -/
def rearrange2 (s : State) (o : OpZip) (f : List Nat → List Nat → List Nat) : Host.Outcome State Fault Refusal :=
  guarded s o.gd
    (fun s => do
      let s ← s.drop o.a
      let s ← s.drop o.b
      s.zeros o.d 2)
    (fun s => do
      let (a, s) ← s.src o.a
      let (b, s) ← s.src o.b
      let n := elemCount o.w
      let xs := f ((List.range n).map (elem o.w a)) ((List.range n).map (elem o.w b))
      s.dsts o.d [ofElems o.w (xs.take n), ofElems o.w (xs.drop n)])

/-- `zip` (11 R300). -/
def execZip (o : OpZip) (s : State) : Host.Outcome State Fault Refusal := rearrange2 s o interleave

/-- `unzip` (11 R300). -/
def execUnzip (o : OpZip) (s : State) : Host.Outcome State Fault Refusal :=
  rearrange2 s o fun a b => evens (a ++ b) ++ evens ((a ++ b).drop 1)

/-- The 16-bit float format of H (11 R293). -/
def halfFmt (half : Bool) : FFmt := if half then fmtF16 else fmtBf16

/-- `pk.h` (11 R297). -/
def execPkH (o : OpPkH) (s : State) : Host.Outcome State Fault Refusal :=
  guarded s o.gd
    (fun s => do
      let s ← s.drop o.a
      let s ← s.drop o.b
      s.zeros o.d 1)
    (fun s => do
      let (a, s) ← s.src o.a
      let (b, s) ← s.src o.b
      let (dr, s) := s.draws o.rm 128
      let rs := (List.range 128).map fun j =>
        (halfFmt o.half).ofVal o.rm (dr j) (fmtF32.decode (if j < 64 then lane a j else lane b (j - 64)))
      (s.flag (joinFlags rs)).dst o.d (ofElems .w16 (rs.map fun r => r.bits)))

/-- `upk.h` (11 R297). -/
def execUpkH (o : OpUpkH) (s : State) : Host.Outcome State Fault Refusal :=
  guarded s o.gd
    (fun s => do
      let s ← s.drop o.a
      s.zeros o.d 2)
    (fun s => do
      let (a, s) ← s.src o.a
      let rs := (List.range 128).map fun j => fmtF32.ofVal .rne 0 ((halfFmt o.half).decode (elem .w16 a j))
      let xs := rs.map fun r => r.bits
      (s.flag (joinFlags rs)).dsts o.d [ofLanes (xs.take 64), ofLanes (xs.drop 64)])

end Sys2Proof.Machine
end

