-- ==== Sys2Proof/Machine/MemOps.lean ====
section
/-!
DEFINITION. The LA, LB and ST slots (10 R254 to R273): streams, loads, stores, the corner-turn stash, atomics, reductions and
fences; and the landings of queue entries and registers (08 R215, R209).
-/

namespace Sys2Proof.Machine

open Sys2Proof

/-! Stream registers (10 R254 to R257). -/

def sdField (d : BitVec 256) (lo n : Nat) : Nat := (d.toNat >>> lo) % 2 ^ n

def Stream.fmt (x : Stream) : Nat := sdField x.desc 60 4
def Stream.blkCode (x : Stream) : Nat := sdField x.desc 58 2
def Stream.alloc (x : Stream) : Bool := sdField x.desc 57 1 == 1
def Stream.tag (x : Stream) : Nat := sdField x.desc 104 24
def Stream.sstr (x : Stream) : Nat := sdField x.desc 100 4
def Stream.cnt0 (x : Stream) : Nat := sdField x.desc 128 16
def Stream.cnt1 (x : Stream) : Nat := sdField x.desc 216 16
def Stream.cnt2 (x : Stream) : Nat := sdField x.desc 200 16
def Stream.str0 (x : Stream) : Int := sextNat 24 (sdField x.desc 168 24)
def Stream.str1 (x : Stream) : Int := sextNat 24 (sdField x.desc 144 24)
def Stream.str2 (x : Stream) : Int := sextNat 24 (sdField x.desc 232 24)
def Stream.soff (x : Stream) : Int := sextNat 32 (sdField x.desc 64 32)

/-- sext57(BASE). -/
def Stream.base (x : Stream) : Int := sextNat 57 (sdField x.desc 0 57)

/-- The element format of a stream; none for RAW. -/
def Stream.mx (x : Stream) : Option MxFmt :=
  match x.fmt with
  | 1 => some .e2m1 | 2 => some .e2m3 | 3 => some .e3m2 | 4 => some .e4m3 | 5 => some .e5m2
  | 6 => some .int4 | 7 => some .int6 | 8 => some .int8
  | _ => none

/-- The block size of an MX stream. -/
def Stream.blk (x : Stream) : Blk := if x.blkCode = 1 then .b24 else .b32

/-- EB, the bytes of a step (10 R255). -/
def Stream.eb (x : Stream) : Nat :=
  match x.mx with
  | none => 256
  | some f => 12 * f.width

/-- E, the elements of a step. -/
def Stream.elems (x : Stream) : Nat := if x.mx.isNone then 64 else 96

/-- nb, the scale bytes of a step. -/
def Stream.nb (x : Stream) : Nat := if x.mx.isNone then 0 else x.blk.count

/-- The offset o of the current step (10 R256). -/
def Stream.offset (x : Stream) : Int := 8 * (x.i0.toNat * x.str0 + x.i1.toNat * x.str1 + x.i2.toNat * x.str2)

def Stream.addr (x : Stream) : Word := wordOfInt (x.base + x.offset)

def Stream.saddr (x : Stream) : Word := wordOfInt (x.base + 8 * x.soff + x.offset / x.eb * x.sstr)

/-- The step of R256. -/
def Stream.step (x : Stream) : Stream :=
  let i0 := x.i0.toNat + 1
  let (i0, i1) := if i0 = x.cnt0 then (0, x.i1.toNat + 1) else (i0, x.i1.toNat)
  let (i1, i2) := if i1 = x.cnt1 then (0, x.i2.toNat + 1) else (i1, x.i2.toNat)
  let i2 := if i2 = x.cnt2 then 0 else i2
  { x with i0 := BitVec.ofNat 16 i0, i1 := BitVec.ofNat 16 i1, i2 := BitVec.ofNat 16 i2,
           nel := BitVec.ofNat 40 (x.nel.toNat + x.elems) }

/-- A descriptor that `sd.ld` accepts (10 R257). -/
def descOk (d : BitVec 256) : Bool :=
  let x : Stream := { Stream.init with desc := d }
  let eb : Int := x.eb
  sdField d 192 8 == 0 && sdField d 96 4 == 0 && x.fmt ≤ 8 && x.blkCode != 3 &&
  (if x.fmt = 0 then x.blkCode == 0
   else x.blkCode != 0 && 8 * x.str0 % eb == 0 && 8 * x.str1 % eb == 0 && 8 * x.str2 % eb == 0 && decide (x.nb ≤ x.sstr)) &&
  x.cnt0 != 0 && x.cnt1 != 0 && x.cnt2 != 0 && sdField d 0 3 == 0

def Ctx.stream (x : Ctx) (n : Nat) : Stream := mapGet .init x.a n

def Ctx.setStream (x : Ctx) (n : Nat) (v : Stream) : Ctx := { x with a := mapSet .init x.a n v }

/-- Steps a stream register. -/
def State.stepStream (s : State) (n : BitVec 4) : State := s.upd fun x => x.setStream n.toNat (x.stream n.toNat).step

/-- The stream an operation names; one whose descriptor has not landed freezes (10 R261). -/
def State.stream (s : State) (n : BitVec 4) : Op Stream :=
  if s.old.pending (.stream n) then .error (.wait .reg) else .ok (s.me.stream n.toNat)

/-- The STREAM trap (10 R257, 17 R407). -/
def streamTrap (va : Word) : TrapInfo := { mkTrap kIllegal cStream with addr := va }

/-- An operation that needs a RAW stream, or an MX one. -/
def needRaw (x : Stream) : Op Unit := if x.mx.isNone then .ok () else raise (streamTrap x.addr)
def needMx (x : Stream) : Op MxFmt :=
  match x.mx with
  | some f => .ok f
  | none => raise (streamTrap x.addr)

/-! Landings (08 R209, R215). -/

/-- Lands bytes in queue q: at once from the own scratchpad, else in an entry reserved for them. -/
def State.landQ (s : State) (q : Nat) (e : Entry) (now : Bool) : Op State :=
  if now then s.pushQ q e
  else do
    let (i, s) ← s.reserveQ q
    return { s with toCore := s.toCore.send (.queueEntryLand s.ref.tile i (decide (q ≥ 32)) e) }

/-- Lands bytes in a queue destination. -/
def State.landDst (s : State) (d : QDst) (e : Entry) (now : Bool) : Op State :=
  match d with
  | none => .ok s
  | some q => s.landQ q.toNat e now

/-- Writes a scalar: at once, or as a variable-latency write. A write to s0 is discarded. -/
def State.landS (s : State) (d : BitVec 6) (v : Word) (now : Bool) : State :=
  if d = 0 || now then s.wrS d v
  else
    let (i, c) := s.toCore.fresh
    let c := c.updCtx s.ref fun x => { x with pend := (x.pend.filter fun e => decide (e.reg ≠ .s d)) ++ [⟨i, .s d⟩] }
    { s with toCore := c.send (.registerWriteLand s.ref.tile i v) }

/-- QUEUE_ENTRY_LAND: the data lands in its reserved entry, or reaches the reduction that took the entry (08 R215). -/
def execQueueEntryLand (s : State) : Host.Outcome State Fault Refusal :=
  match s.event with
  | some (.queueEntryLand tile id _ e) =>
    .next { s with toCore := s.toCore.updTileCtxs tile fun x => (x.land id e).feedDeferred id e }
  | _ => .next s

/-- The landing of a register write in a context; the read of an atomic performed elsewhere has returned with it. -/
def Ctx.landReg (x : Ctx) (id : Nat) (v : Word) : Ctx :=
  let x := { x with far := x.far.bind fun f => if f.id = id then none else some f }
  match x.pend.find? fun p => p.id = id with
  | none => x
  | some p =>
    let x := { x with pend := x.pend.filter fun y => y.id != id }
    match p.reg with
    | .s n => { x with r := x.r.setS n.toNat v }
    | .stream _ => x

/-- REGISTER_WRITE_LAND: a variable-latency write lands (08 R209); the descriptor of `sd.ld` is already in place. -/
def execRegisterWriteLand (s : State) : Host.Outcome State Fault Refusal :=
  match s.event with
  | some (.registerWriteLand tile id v) => .next { s with toCore := s.toCore.updTileCtxs tile fun x => x.landReg id v }
  | _ => .next s

/-! Loads. -/

/-- `sd.ld` (10 R261). -/
def execSdLd (o : OpSdLd) (s : State) : Host.Outcome State Fault Refusal :=
  guarded s o.gd skip fun s => do
    let a ← s.rdS o.a
    let w := s.toCore.who s.ref
    let _ ← s.toCore.translateAligned w (.load 3) a 32
    let (bs, now, s) ← s.loadPart (.load 3) a 32 true false
    let d := BitVec.ofNat 256 (leNat bs)
    if !descOk d then raise (streamTrap a)
    let s := { s with bundle := s.bundle.map fun b => { b with lateA := b.lateA ++ [(s.ref, o.d.toNat, d)] } }
    if now then return s
    else
      let (i, c) := s.toCore.fresh
      let c := c.updCtx s.ref fun x => { x with pend := (x.pend.filter fun e => decide (e.reg ≠ .stream o.d)) ++ [⟨i, .stream o.d⟩] }
      return { s with toCore := c.send (.registerWriteLand s.ref.tile i 0) }

/-- The elements of the current step of a stream as an entry. -/
def State.readStep (s : State) (n : BitVec 4) (x : Stream) : Op (Entry × Bool × State) := do
  let (bs, now, s) ← s.loadBytes (.stRd n.toNat) x.addr x.eb x.alloc false
  return (BitVec.ofNat 2048 (leNat bs), now, s)

/-- The scale group of the current step (08 R219). -/
def State.readScales (s : State) (n : BitVec 4) (x : Stream) : Op (Entry × Bool × State) := do
  let (bs, now, s) ← s.loadBytes (.stRd n.toNat) x.saddr x.nb x.alloc false
  return (BitVec.ofNat 2048 (leNat bs), now, s)

/-- The pair of a joined loop whose matched operation, load or store, an operation is: one that its bundle presents, since a body
presents one operation of that stream (15 R371, R375). -/
def Core.matched (c : Core) (r : CtxRef) (present load : Bool) (a : BitVec 4) : Option Pair :=
  match r, (c.tile r.tile).pair with
  | .task _ p, some x =>
    if present && x.phase = .joined && p = (if load then 1 else 0) &&
        descW (c.ctx r).id.desc 10 (if load then 57 else 53) 4 = a.toNat then some x
    else none
  | _, _ => none

def State.matched (s : State) (load : Bool) (a : BitVec 4) : Option Pair :=
  s.toCore.matched s.ref (s.bundle.any fun b => b.pres.contains s.slot) load a

/-- `ld.q` (10 R262); the matched load of a joined loop only steps its stream (15 R375). -/
def execLdQ (o : OpLdQ) (s : State) : Host.Outcome State Fault Refusal :=
  guarded s o.gd
    (fun s => do
      let s ← s.zeros o.d 1
      let s ← match o.sq with
        | none => Except.ok s
        | some q => s.pushQ (32 + q.toNat) 0
      return s.stepStream o.a)
    (fun s => do
      let x ← s.stream o.a
      if (s.matched true o.a).isSome then return s.stepStream o.a
      match o.sq with
      | none => do
        let (e, now, s) ← s.readStep o.a x
        let s ← s.landDst o.d e now
        return s.stepStream o.a
      | some q => do
        let _ ← needMx x
        let (e, now, s) ← s.readStep o.a x
        let (g, nows, s) ← s.readScales o.a x
        let s ← s.landDst o.d e now
        let s ← s.landQ (32 + q.toNat) g nows
        return s.stepStream o.a)

/-- `ld.sc` (10 R263). -/
def execLdSc (o : OpLdSc) (s : State) : Host.Outcome State Fault Refusal :=
  guarded s o.gd
    (fun s => do
      let s ← s.pushQ (32 + o.d.toNat) 0
      return s.stepStream o.a)
    (fun s => do
      let x ← s.stream o.a
      let _ ← needMx x
      let (g, now, s) ← s.readScales o.a x
      let s ← s.landQ (32 + o.d.toNat) g now
      return s.stepStream o.a)

/-- One aligned scalar-sized access of a lane or scalar. -/
def State.loadAligned (s : State) (w : Width) (e : Word) (sync : Bool) : Op (Nat × Bool × State) := do
  let n := 2 ^ w.size.toNat
  let acc := Acc.load w.size.toNat
  let _ ← s.toCore.translateAligned (s.toCore.who s.ref) acc e n
  let (bs, now, s) ← s.loadPart acc e n true sync
  return (leNat bs, now, s)

/-- The lanes of a gather, from lane 0 up (10 R264). -/
def State.gather (s : State) (o : OpLdG) (base : Word) (idx : Entry) (m : Word) : List Nat → Op (List Nat × Bool × State)
  | [] => .ok ([], true, s)
  | i :: t => do
    if m.getLsbD i then
      let (v, now, s) ← s.loadAligned o.w (base + BitVec.ofNat 64 (lane idx i * 2 ^ o.w.size.toNat)) false
      let (vs, nows, s) ← s.gather o base idx m t
      return (extend32 o.w v :: vs, now && nows, s)
    else
      let (vs, nows, s) ← s.gather o base idx m t
      return (0 :: vs, nows, s)

/-- `ld.g` (10 R264). -/
def execLdG (o : OpLdG) (s : State) : Host.Outcome State Fault Refusal :=
  guarded s o.gd
    (fun s => do
      let s ← s.zeros o.d 1
      return s.stepStream o.a)
    (fun s => do
      let x ← s.stream o.a
      needRaw x
      let b ← s.rdS o.b
      let (idx, now, s) ← s.readStep o.a x
      let (vs, nows, s) ← s.gather o b idx (s.mask o.msk) (List.range 64)
      let s ← s.landDst o.d (ofLanes vs) (now && nows)
      return s.stepStream o.a)

/-- `ld.s` (10 R265). -/
def execLdS (o : OpLdS) (s : State) : Host.Outcome State Fault Refusal :=
  guarded s o.gd skip fun s => do
    let a ← s.rdS o.a
    let b ← s.rdS o.b
    let e := scalarVA a b o.off
    let (v, now, s) ← s.loadAligned o.w e false
    return s.landS o.d (extend64 o.w v) now

/-- `ld.acq` (10 R265, 05 R131, R133). -/
def execLdAcq (o : OpLdAcq) (s : State) : Host.Outcome State Fault Refusal :=
  guarded s o.gd skip fun s => do
    let a ← s.rdS o.a
    let b ← s.rdS o.b
    let e := scalarVA a b o.off
    let n := 2 ^ o.w.size.toNat
    let acc := Acc.load o.w.size.toNat
    let w := s.toCore.who s.ref
    let l ← s.toCore.translateAligned w acc e n
    let pl ← s.toCore.placeOf w acc l
    let (v, now, s) ← s.loadAligned o.w e (decide (scopeCode o.scope ≥ 4))
    s.acquired pl l n
    return s.landS o.d (extend64 o.w v) now

/-! Stores. -/

/-- The low bytes of a word. -/
def lowBytes (n v : Nat) : List (Option Byte) := (leBytes n v).map some

/-- A scalar store, aligned (10 R266): one that is not raises ALIGN, unless its translation has a lower cause (01 R44). -/
def State.storeScalar (s : State) (size : Nat) (e : Word) (v : Nat) (park : Bool) (tag : Option (Nat × Nat × Option Nat)) : Op State :=
  let acc := Acc.store size
  let bytes := lowBytes (2 ^ size) v
  if e.toNat % 2 ^ size = 0 then s.storeTagged acc e bytes park tag
  else
    match s.toCore.translateAligned (s.toCore.who s.ref) acc e (2 ^ size) with
    | .ok _ => .ok s
    | .error (.wait w) => .error (.wait w)
    | .error (.trap t) => if park && parks t then s.park e bytes t none else raise t

/-- `st.s` (10 R266). -/
def execStS (o : OpStS) (s : State) : Host.Outcome State Fault Refusal :=
  guarded s o.gd skip fun s => do
    let a ← s.rdS o.a
    let b ← s.rdS o.b
    let v ← s.rdS o.c
    s.storeScalar o.size.toNat (scalarVA a b o.off) v.toNat true s.me.ftag

/-- Moves the stores a release store made out of the bundle and into a release in progress (04 R118). -/
def State.holdStores (s : State) (before : Nat) (q : Scope) : State :=
  match s.bundle with
  | none => s
  | some b => { s with bundle := some { b with
      outs := b.outs.take before, sigs := b.sigs ++ (b.outs.drop before).map fun m => (s.ref, q, m.2) } }

/-- `st.rel` (10 R266): it waits for the replay queue, then its address is checked. Up to .host the write is held by a release in
progress, which starts when the bundle commits; wider, the bundle waits for the release. -/
def execStRel (o : OpStRel) (s : State) : Host.Outcome State Fault Refusal :=
  guarded s o.gd skip fun s => do
    let a ← s.rdS o.a
    let b ← s.rdS o.b
    let v ← s.rdS o.c
    let e := scalarVA a b o.off
    let before := (s.bundle.map fun b => b.outs.length).getD 0
    s.replayEmpty
    let t ← s.storeScalar o.size.toNat e v.toNat false ((s.relTag o.scope).or s.me.ftag)
    if scopeCode o.scope ≥ 7 then
      let s ← s.release o.scope
      s.storeScalar o.size.toNat e v.toNat false none
    else
      s.unitsIdle
      return t.holdStores before o.scope

/-- Writes an entry at the current step of a stream. -/
def State.writeStep (s : State) (n : BitVec 4) (x : Stream) (m : Word) (e : Entry) : Op State :=
  let img := leBytes x.eb e.toNat
  let bytes := img.mapIdx fun i b => if x.mx.isSome || m.getLsbD (i / 4) then some b else none
  s.storeBytes (.stWr n.toNat) x.addr bytes true

/-- The matched store of a joined loop (15 R375, R376): it pops nothing; a shared one writes the forwarded entry, the last
iteration's held for the release. -/
def State.matchedStore (s : State) (p : Pair) (o : OpStQ) : Op State := do
  let x ← s.stream o.a
  let l := s.entries p.pq
  let k := p.pre + p.fwd
  let s ← if descW s.me.id.desc 10 52 1 = 0 then Except.ok s
    else
      match l[k]? with
      | none => raise { mkTrap kUnderflow 0 with detail := s.toCore.qname s.ref p.pq }
      | some h =>
        match (match h.data with
          | some e => some e
          | none => if s.older.nid ≤ h.id then landMsg s.msgs h.id else none) with
        | none => .error (.wait .entry)
        | some e => do
          let before := (s.bundle.map fun b => b.outs.length).getD 0
          let s ← s.writeStep o.a x (s.mask 0) e
          let last := (mapGet LoopReg.init s.me.lp 0).count == 1
          match s.bundle with
          | none => pure s
          | some b =>
            if last then
              let held := some { p with sig := (b.outs.drop before).map fun m => m.2 }
              let c := s.toCore.updTile s.ref.tile fun tl => { tl with pair := held }
              pure { s with toCore := c, bundle := some { b with outs := b.outs.take before } }
            else pure s
  let issued := fun (p : Pair) => { p with fwd := p.fwd + 1 }
  let s := { s with toCore := s.toCore.updTile s.ref.tile fun tl => { tl with pair := tl.pair.map issued } }
  return s.stepStream o.a

/-- `st.q` (10 R267). -/
def execStQ (o : OpStQ) (s : State) : Host.Outcome State Fault Refusal :=
  guarded s o.gd
    (fun s => do
      let s ← s.drop o.b
      return s.stepStream o.a)
    (fun s => do
      match s.matched false o.a with
      | some p => s.matchedStore p o
      | none => do
        let (e, s) ← s.src o.b
        let x ← s.stream o.a
        let s ← s.writeStep o.a x (s.mask o.msk) e
        return s.stepStream o.a)

/-- The selected lanes of a scatter, in lane order, each aligned (10 R268). -/
def State.scatter (s : State) (size : Nat) (base : Word) (idx dat : Entry) : List Nat → Op State
  | [] => .ok s
  | i :: t => do
    let s ← s.storeScalar size (base + BitVec.ofNat 64 (lane idx i * 2 ^ size)) (lane dat i) true s.me.ftag
    s.scatter size base idx dat t

/-- `st.x` (10 R268). -/
def execStX (o : OpStX) (s : State) : Host.Outcome State Fault Refusal :=
  guarded s o.gd
    (fun s => do
      let s ← s.drop o.b
      s.drop o.c)
    (fun s => do
      let a ← s.rdS o.a
      let (idx, s) ← s.src o.b
      let (dat, s) ← s.src o.c
      let m := s.mask o.msk
      s.scatter o.size.toNat a idx dat ((List.range 64).filter fun i => m.getLsbD i))

/-! The corner-turn stash (10 R269). -/

/-- Element (r, c) of the tile in the buffer. -/
def ctElem (ct : Map Entry) (r c : Nat) : Nat := lane (mapGet 0 ct ((96 * r + c) / 64)) ((96 * r + c) % 64)

/-- One row written through a stream: elements, scales and flags; then the stream steps. -/
def State.writeRow (s : State) (n : BitVec 4) (rm : Rnd) (y : Nat → Nat) : Op State := do
  let x ← s.stream n
  let f ← needMx x
  let d : DrawSrc := { key := s.old.r.seedk, tag := x.tag, kind := 1, round := 0, hop := 0 }
  let dr := fun k => match rm with
    | .sr => d.draw16 (x.nel.toNat + k)
    | _ => 0
  let sc := packScales f x.blk none y
  let rs := (List.range 96).map fun k => quantise f (sc.getD (k / x.blk.size) 0) rm (dr k) (fmtF32.decode (y k))
  let el := lowBytes x.eb (packBits f.width (rs.map fun r => r.bits))
  let s ← s.storeBytes (.stWr n.toNat) x.addr el true
  -- each block's elements come before its scale: a scale under a later block's elements is overwritten by them
  let under := fun (j : Nat) => let k := (x.saddr + BitVec.ofNat 64 j - x.addr).toNat
                                decide (k < x.eb) && decide (j < k / (x.eb / x.blk.count))
  let s ← s.storeBytes (.stWr n.toNat) x.saddr (sc.mapIdx fun j v => if under j then none else some (BitVec.ofNat 8 v)) true
  return (s.flag (joinFlags rs)).stepStream n

/-- The rows of one orientation. -/
def State.writeRows (s : State) (n : BitVec 4) (rm : Rnd) (f : Nat → Nat → Nat) : List Nat → Op State
  | [] => .ok s
  | r :: t => do
    let s ← s.writeRow n rm (f r)
    s.writeRows n rm f t

/-- Advances CTP, from 143 back to 0. -/
def Ctx.bumpCt (x : Ctx) : Ctx := { x with ctp := if x.ctp ≥ 143 then 0 else x.ctp + 1 }

/-- `st.ct` (10 R269). -/
def execStCt (o : OpStCt) (s : State) : Host.Outcome State Fault Refusal :=
  guarded s o.gd
    (fun s => do
      let s ← s.drop o.c
      return s.upd Ctx.bumpCt)
    (fun s => do
      let (e, s) ← s.src o.c
      let last := s.me.ctp ≥ 143
      let s := s.upd fun x => { x with ct := mapSet 0 x.ct x.ctp e }
      let s := s.upd Ctx.bumpCt
      if last then
        let _ ← needMx (s.me.stream o.a.toNat)
        let _ ← needMx (s.me.stream o.b.toNat)
        let ct := s.me.ct
        let s ← s.writeRows o.a o.rm (fun r c => ctElem ct r c) (List.range 96)
        s.writeRows o.b o.rm (fun c r => ctElem ct r c) (List.range 96)
      else return s)

/-! Atomics and reductions (10 R271, R272). -/

/-- The checks of an atomic: alignment, other tiles' windows, device pages (NOATOM). -/
def State.atomicLoc (s : State) (size : Nat) (e : Word) : Op Loc := do
  let acc := Acc.atomic size
  let l ← s.toCore.translateAligned (s.toCore.who s.ref) acc e (2 ^ size)
  if l.isDevice then raise (accTrap acc e l.pa cNoatom)
  return l

/-- Sets D of the leaf that an atomic writes through. -/
def State.dirtyLeaf (s : State) (l : Loc) : State :=
  match l.leaf with
  | some e => { s with toCore := s.toCore.setLeafBits (s.toCore.domOf s.ref.tile) s.ref.tile e leafD }
  | none => s

/-- The roles of ORD: the release scope and the acquire scope. -/
def ordScopes (o : Ord) : Option Scope × Option Scope :=
  match o with
  | .plain => (none, none)
  | .acq q => (none, some q)
  | .rel q => (some q, none)
  | .ar q => (some q, some q)

/-- An atomic on a page that is replicated on the issuer's die or draining, or whose primary home is on another module, goes to the
primary home as a message (02 R62, R65). -/
def Core.atomicFar (c : Core) (tile pa : Nat) : Bool :=
  isFar pa || (c.replica (dieOf tile) (pa / 65536)).isSome || (mapGet PageState.init c.pages (pa / 65536)).mode == .draining

/-- An atomic that must wait: for own stores to its words and own atomics to its bytes (04 R124), for a release fence of its context
(04 R118), for the recall of its line (02 R57), and until what its read may return has arrived at the tile (04 R112): of what older
bundles left on its way. -/
def State.atomicWaits (s : State) (l : Loc) (n : Nat) : Bool :=
  let c := s.toCore
  let t := s.ref.tile
  c.fenced s.ref || c.storesOver t l.pa n || s.older.atomicBusy t l.pa n || c.recallBusy l.pa ||
    s.older.lineBusy t (c.l1Place t (l.pa / 128)) l n true

/-- An atomic on its way to a primary home elsewhere, its die's overlapping dirty granules before it (02 R65). -/
def Core.sendAtomic (c : Core) (tile id : Nat) (l : Loc) (k : AtmKind) (wide signed : Bool) (x cmp : Word)
    (tag : Option (Nat × Nat × Option Nat)) (acq : Option Nat) : Core :=
  let die := dieOf tile
  let page := l.pa / 65536
  let c := match c.replica die page with
    | some r => c.sendDiff r (c.granules die l.pa (if wide then 8 else 4))
    | none => c
  if isFar l.pa then
    let d : DiffOut := { id := id, die := die, dom := c.domOf tile, page := page, left := 1, away := 1, ack := .store tile (l.pa / 128) }
    Core.sendOut { c with diffs := c.diffs ++ [d] } (farModule l.pa)
      (.atomic (farDie c.mc.modnum.toNat die) tile id (l.pa % 2 ^ 64) k wide signed x cmp tag acq)
  else c.send (.forwardedAtomic tile id l.pa k wide signed x cmp tag acq)

/-- An atomic: `x` is the operand and `cmp` the expected value (10 R271). One whose read is performed elsewhere holds back what the
context does next until it has returned (04 R116, R117). -/
def State.atomic (s : State) (d : BitVec 6) (e : Word) (wide signed : Bool) (ord : Ord) (k : AtmKind) (x cmp : Word) : Op State := do
  let size := if wide then 3 else 2
  let n := 2 ^ size
  let l ← s.atomicLoc size e
  let (rel, acq) := ordScopes ord
  let s ← match rel with
    | some q => s.release q
    | none => Except.ok s
  let tile := s.ref.tile
  if s.atomicWaits l n then .error (.wait .acks)
  if s.toCore.poisoned l.pa n then raise (s.toCore.dataTrap l)
  match acq with
  | some _ => s.acquired .primary l n
  | none => pure ()
  let s := s.dirtyLeaf l
  let tag := (rel.bind s.relTag).or s.me.ftag
  let value := fun (old : List Byte) => extend64 ⟨signed, if wide then 3 else 2⟩ (leNat old)
  let f := fun (b : List Byte) => (atmApply k (8 * n) signed (leNat b) x.toNat cmp.toNat).map (leBytes n)
  let (i, c) := s.toCore.fresh
  if l.isScratch tile then
    let (old, c) := c.atomicAt tile i l.pa n tag f
    return ({ s with toCore := c }).landS d (value old) true
  else if c.atomicFar tile l.pa then
    let c := c.updCtx s.ref fun y =>
      { y with unacked := y.unacked ++ [i], far := some ⟨i, l.pa, none⟩
               pend := if d = 0 then y.pend else (y.pend.filter fun p => decide (p.reg ≠ .s d)) ++ [⟨i, .s d⟩] }
    return { s with toCore := c.sendAtomic tile i l k wide signed x cmp tag (acq.map fun _ => c.domOf tile) }
  else
    let (old, c) := c.atomicAt tile i l.pa n tag f
    let c := c.updCtx s.ref fun y => { y with unacked := y.unacked ++ [i] }
    return ({ s with toCore := c }).landS d (value old) false

/-- An atomic whose operand is sc and whose address takes sb (10 R271). -/
def atomicOp (s : State) (o : OpAtm) (k : AtmKind) : Host.Outcome State Fault Refusal :=
  guarded s o.gd skip fun s => do
    let a ← s.rdS o.a
    let b ← s.rdS o.b
    let x ← s.rdS o.c
    s.atomic o.d (scalarVA a b o.off) o.wide false o.ord k x 0

/-- `atm.min`, `atm.max`. -/
def atomicOpS (s : State) (o : OpAtmS) (k : AtmKind) : Host.Outcome State Fault Refusal :=
  guarded s o.gd skip fun s => do
    let a ← s.rdS o.a
    let b ← s.rdS o.b
    let x ← s.rdS o.c
    s.atomic o.d (scalarVA a b o.off) o.wide o.signed o.ord k x 0

def execAtmAdd (o : OpAtm) (s : State) : Host.Outcome State Fault Refusal := atomicOp s o .add
def execAtmMin (o : OpAtmS) (s : State) : Host.Outcome State Fault Refusal := atomicOpS s o .min
def execAtmMax (o : OpAtmS) (s : State) : Host.Outcome State Fault Refusal := atomicOpS s o .max
def execAtmAnd (o : OpAtm) (s : State) : Host.Outcome State Fault Refusal := atomicOp s o .and
def execAtmOr (o : OpAtm) (s : State) : Host.Outcome State Fault Refusal := atomicOp s o .or
def execAtmXchg (o : OpAtm) (s : State) : Host.Outcome State Fault Refusal := atomicOp s o .xchg

/-- `atm.cas`: sb is the expected value, the address is sa + OFF (10 R271). -/
def execAtmCas (o : OpAtm) (s : State) : Host.Outcome State Fault Refusal :=
  guarded s o.gd skip fun s => do
    let a ← s.rdS o.a
    let b ← s.rdS o.b
    let x ← s.rdS o.c
    s.atomic o.d (scalarVA a 0 o.off) o.wide false o.ord .cas x b

/-- The units of a reduction: byte offset, size and operand of each selected unit (10 R272). -/
def redUnits (t : RedT) (m : Word) (e : Entry) : List (Nat × Nat × Nat) :=
  match t with
  | .i64 => ((List.range 32).filter fun j => m.getLsbD (2 * j)).map fun j => (8 * j, 8, lane e (2 * j) + lane e (2 * j + 1) * 2 ^ 32)
  | _ => ((List.range 64).filter fun i => m.getLsbD i).map fun i => (4 * i, 4, lane e i)

/-- The new value of a unit. -/
def redApply (t : RedT) (old x : Nat) : Nat :=
  match t with
  | .f32 => (fmtF32.add .rne 0 old x).bits
  | .i32 => (old + x) % 2 ^ 32
  | .i64 => (old + x) % 2 ^ 64

/-- The atomic that a unit of a reduction is (10 R272). -/
def redKind (t : RedT) : AtmKind :=
  match t with
  | .f32 => .addf
  | _ => .add

/-- Where the units of a reduction are performed, each checked as an atomic is: by byte offset and size. -/
def State.reduceLocs (s : State) (acc : Acc) (base : Word) : List (Nat × Nat × Nat) → Op (List Loc)
  | [] => .ok []
  | (off, n, _) :: rest => do
    let va := base + BitVec.ofNat 64 off
    let l ← s.toCore.translate (s.toCore.who s.ref) acc va
    if l.isDevice then raise (accTrap acc va l.pa cNoatom)
    if s.atomicWaits l n then .error (.wait .acks)
    if s.toCore.poisoned l.pa n then raise (s.toCore.dataTrap l)
    let ls ← s.reduceLocs acc base rest
    return l :: ls

/-- One unit of a reduction, of n bytes, performed at its home, or on its way there (02 R65). -/
def State.reduceUnit (s : State) (t : RedT) (l : Loc) (n x : Nat) : State :=
  let tile := s.ref.tile
  let s := s.dirtyLeaf l
  let tag := s.me.ftag
  let (i, c) := s.toCore.fresh
  let c := if l.isScratch tile then c else c.updCtx s.ref fun y => { y with unacked := y.unacked ++ [i] }
  let c := if !l.isScratch tile && c.atomicFar tile l.pa then
      c.sendAtomic tile i l (redKind t) (n == 8) false (BitVec.ofNat 64 x) 0 tag none
    else (c.atomicAt tile i l.pa n tag fun b => some (leBytes n (redApply t (leNat b) x))).2
  { s with toCore := c }

/-- The units of a reduction in order: all checked, then each performed. -/
def State.reduceUnits (s : State) (acc : Acc) (base : Word) (t : RedT) (us : List (Nat × Nat × Nat)) : Op State := do
  let ls ← s.reduceLocs acc base us
  return (ls.zip us).foldl (fun s e => s.reduceUnit t e.1 e.2.2.1 e.2.2.2) s

/-- `red.add` (10 R272). -/
def execRedAdd (o : OpRed) (s : State) : Host.Outcome State Fault Refusal :=
  guarded s o.gd
    (fun s => do
      let s ← s.drop o.b
      return s.stepStream o.a)
    (fun s => do
      let (e, s) ← s.src o.b
      let x ← s.stream o.a
      needRaw x
      let s ← s.reduceUnits (.atomic (match o.t with | .i64 => 3 | _ => 2)) x.addr o.t (redUnits o.t (s.mask o.msk) e)
      return s.stepStream o.a)

/-! Fences (10 R273). -/

/-- After a narrow release fence the context's writes carry its tag, until a fence at .side or wider (04 R109, 05 R132). -/
def State.fenceTag (s : State) (q : Scope) : State :=
  s.upd fun x => { x with ftag := if scopeCode q ≥ 4 then none else (s.relTag q).or x.ftag }

/-- The release half of a fence: up to .host it goes on behind the context's later reads. -/
def State.fenceRelease (s : State) (q : Scope) : Op State := do
  s.replayEmpty
  s.unitsIdle
  let s ← if scopeCode q ≥ 7 then s.release q
    else if s.releasedNow q then Except.ok s
    else Except.ok (s.releaseLater .fence q [])
  return s.fenceTag q

/-- `fence.rel`. -/
def execFenceRel (o : OpScope) (s : State) : Host.Outcome State Fault Refusal :=
  guarded s o.gd skip fun s => s.fenceRelease o.scope

/-- `fence.acq`. -/
def execFenceAcq (o : OpScope) (s : State) : Host.Outcome State Fault Refusal :=
  guarded s o.gd skip fun s => s.fenceAcquire o.scope

/-- `fence.rw`: both, and no later access is performed before it completes (04 R119). -/
def execFenceRw (o : OpScope) (s : State) : Host.Outcome State Fault Refusal :=
  guarded s o.gd skip fun s => do
    let s ← s.release o.scope
    let s ← s.fenceAcquire o.scope
    return s.fenceTag o.scope

end Sys2Proof.Machine
end

