-- ==== Sys2Proof/Machine/Control.lean ====
section
/-!
DEFINITION. The unprivileged C slot (09 R234 to R246): branches and calls, hardware loops, waits, and the ends of tasks and
handlers.
-/

namespace Sys2Proof.Machine

open Sys2Proof

/-- Address of the acting bundle. -/
def State.bundlePc (s : State) : Word := (s.bundle.map fun b => b.pc).getD s.me.pc

/-- Address of the bundle that follows in sequence (08 R196). -/
def State.nextPc (s : State) : Word := s.bundlePc + BitVec.ofNat 64 ((s.bundle.map fun b => b.len).getD 8)

/-- Control continues at an address. -/
def State.goTo (s : State) (a : Word) : State := { s with bundle := s.bundle.map fun b => { b with target := some a } }

/-- The bundle at an offset in units of 8 bytes (08 R199, 09 R235). -/
def State.atOffset (s : State) (ofs : BitVec 32) : Word := s.bundlePc + (ofs.signExtend 64) * 8

/-- `br` (09 R235). -/
def execBr (o : OpBr) (s : State) : Host.Outcome State Fault Refusal :=
  guarded s o.gd skip fun s => .ok (s.goTo (s.atOffset o.ofs))

/-- `call`: s63 takes the address of the next bundle in sequence (09 R235). -/
def execCall (o : OpBr) (s : State) : Host.Outcome State Fault Refusal :=
  guarded s o.gd skip fun s => .ok ((s.wrS 63 s.nextPc).goTo (s.atOffset o.ofs))

/-- A jump to the address in a scalar; a misaligned one is the alignment fault of a fetch (09 R236). -/
def State.jumpTo (s : State) (a : BitVec 6) : Op State := do
  let v ← s.rdS a
  if v.toNat % 8 ≠ 0 then raise (accTrap .fetch v 0 cAlign)
  return s.goTo v

/-- `jmp` (09 R236). -/
def execJmp (o : OpJmp) (s : State) : Host.Outcome State Fault Refusal := guarded s o.gd skip fun s => s.jumpTo o.a

/-- `ret` (09 R236). -/
def execRet (o : OpJmp) (s : State) : Host.Outcome State Fault Refusal := guarded s o.gd skip fun s => s.jumpTo o.a

/-! Hardware loops (09 R237 to R241). -/

def Ctx.loopReg (x : Ctx) (n : Nat) : LoopReg := mapGet .init x.lp n

def Ctx.setLoop (x : Ctx) (n : Nat) (l : LoopReg) : Ctx := { x with lp := mapSet .init x.lp n l }

/-- SEQ of each active loop but `n`, renumbered from 0 in order of entry; the number the newest entry takes. -/
def Ctx.ranks (x : Ctx) (n : Nat) : Ctx × Nat :=
  let act := (List.range 4).filter fun k => k != n && (x.loopReg k).act
  let rank := fun (k : Nat) => (act.filter fun j => (x.loopReg j).order.toNat < (x.loopReg k).order.toNat).length
  (act.foldl (fun (y : Ctx) k => y.setLoop k { x.loopReg k with order := BitVec.ofNat 2 (rank k) }) x, act.length)

/-- Entry of loop n with a count, a body and its end (09 R238). -/
def Ctx.enterLoop (x : Ctx) (n count : Nat) (start stop : Word) : Ctx :=
  let (x, k) := x.ranks n
  x.setLoop n { act := count != 0, count := BitVec.ofNat 32 count, pend := none, start := start.setWidth 57, stop := stop.setWidth 57,
                order := BitVec.ofNat 2 k }

/-- `loop` (09 R238): a count of 0 continues at the label. -/
def execLoop (o : OpLoop) (s : State) : Host.Outcome State Fault Refusal :=
  guarded s o.gd skip fun s => do
    let a ← s.rdS o.a
    let n := a.toNat % 2 ^ 32
    let stop := s.atOffset o.imm
    if n = 0 then
      let s := s.upd fun x => x.setLoop o.lp.toNat { x.loopReg o.lp.toNat with act := false, pend := none }
      return s.goTo stop
    else return s.upd fun x => x.enterLoop o.lp.toNat n s.nextPc stop

/-- `lbrk` (09 R240). -/
def execLbrk (o : OpLoop) (s : State) : Host.Outcome State Fault Refusal :=
  guarded s o.gd skip fun s => do
    let a ← s.rdS o.a
    let v := (a + o.imm.zeroExtend 64).extractLsb' 0 32
    return s.upd fun x => x.setLoop o.lp.toNat { x.loopReg o.lp.toNat with pend := some v }

/-- The boundaries at the end of a bundle that transfers nowhere (09 R239): the active loops whose END is the next address,
from the newest entry on. -/
def Ctx.boundary (x : Ctx) (fuel : Nat) (next : Word) : Ctx × Word :=
  match fuel with
  | 0 => (x, next)
  | f + 1 =>
    let here := (List.range 4).filter fun k => (x.loopReg k).act && (x.loopReg k).stop == next.setWidth 57
    let newest := here.foldl (fun (o : Option Nat) k => match o with
      | none => some k
      | some j => if (x.loopReg j).order.toNat < (x.loopReg k).order.toNat then some k else some j) none
    match newest with
    | none => (x, next)
    | some k =>
      let l := x.loopReg k
      let n := match l.pend with
        | some p => p
        | none => l.count - 1
      if n.toNat > 0 then (x.setLoop k { l with count := n, pend := none }, l.start.signExtend 64)
      else (x.setLoop k { l with count := n, pend := none, act := false }).boundary f next

/-! Waiting and ending. -/

/-- Every reservation and variable-latency register write of the context has landed (09 R242). -/
def Ctx.landed (x : Ctx) : Bool := x.readsDone

/-- Commands of a context that are not complete, on whatever tile it issued them. -/
def Core.cmdsOf (c : Core) (r : CtxRef) : List Cmd :=
  c.tiles.flatMap fun e => if e.2.dom == some (c.domOf r.tile) then e.2.cmds.filter (c.issued r e.1) else []

/-- `sync` (09 R242). -/
def execSync (o : OpSync) (s : State) : Host.Outcome State Fault Refusal :=
  guarded s o.gd skip fun s => do
    if o.land && !s.old.landed then .error (.wait .entry)
    if o.mx && !s.old.matrixIdle then .error (.wait .mx)
    if o.fo && s.old.fo.isSome then .error (.wait .fo)
    if o.eng && !(s.older.cmdsOf s.ref).isEmpty then .error (.wait .eng)
    return s

/-- The bundle ends its context when it commits. -/
def State.ending (s : State) : State := { s with bundle := s.bundle.map fun b => { b with ends := true } }

/-- `halt` (09 R243): in a bundle, the waits for the task's older work, and the end at commit; without one, the end of the
task itself once its weight return can be performed (07 R181, R193). -/
def execHalt (g : Guard) (s : State) : Host.Outcome State Fault Refusal :=
  match s.bundle with
  | none =>
    match s.ref with
    | .task t p => .next { s with toCore := s.toCore.tryEnd t p }
    | .hc .. => .next s
  | some _ =>
    guarded s g skip fun s => do
      s.replayEmpty
      if !s.old.landed then .error (.wait .entry)
      s.unitsIdle
      return s.ending

/-- `trap` (09 R244). -/
def execTrap (o : OpTrap) (s : State) : Host.Outcome State Fault Refusal :=
  guarded s o.gd skip fun _ => raise { mkTrap kProgram 0 with detail := o.code.toNat }

/-- `evt.wt` (09 R245, 05 R143): tests the masked bits, clears those set and returns them, or waits. -/
def execEvtWt (o : OpEvtWt) (s : State) : Host.Outcome State Fault Refusal :=
  guarded s o.gd skip fun s =>
    let hit := s.me.r.ev &&& o.mask
    if hit = 0 then .error (.wait (.evt o.mask))
    else .ok ((s.updRegs fun r => { r with ev := r.ev &&& ~~~hit }).wrS o.d (hit.zeroExtend 64))

/-- `hret` (09 R246): waits for the parked stores, performs a release at .mod, and ends the handler when its bundle
commits. -/
def execHret (g : Guard) (s : State) : Host.Outcome State Fault Refusal :=
  guarded s g skip fun s => do
    s.replayEmpty
    let s ← s.release .mod
    return s.ending

end Sys2Proof.Machine
end

