-- ==== Sys2Proof/Machine/Forest.lean ====
section
/-!
DEFINITION. The sum-product forest (13 R327 to R342): banks, shapes, tree evaluation, and the F slot.
-/

namespace Sys2Proof.Machine

open Sys2Proof

/-! Banks (R327, R328). -/

/-- The number of an entry of a tile's banks: lane, bank, entry. -/
def bankKey (l b e : Nat) : Nat := l * 4096 + b * 256 + e

def Core.bankGet (c : Core) (t l b e : Nat) : Nat := (mapGet 0 (c.tile t).banks (bankKey l b e)).toNat

/-- The window offset of an entry of the banks (01 R33). -/
def bankOfs (key : Nat) : Nat := 0x500000 + 4 * key

/-- An operation that reads poisoned entries raises the data-error trap of the first one's lane (17 R412, R414). -/
def State.banksSound (s : State) (keys : List Nat) : Op Unit :=
  match (if s.poison.isEmpty then none else keys.find? fun k => s.toCore.windowPoisoned s.ref.tile (bankOfs k) 4) with
  | some k => raise (unitTrap 5 (s.ref.tile * 8 + k / 4096))
  | none => .ok ()

/-- The marks of the words whose two entries are both written. -/
def Core.cleanBanks (c : Core) (t : Nat) (keys : List Nat) : Core :=
  if c.poison.isEmpty then c
  else (keys.filter fun k => k % 2 == 0 && keys.contains (k + 1)).foldl (fun (c : Core) k =>
    c.cleanse (winBase t + bankOfs k) (List.replicate 8 (some 0))) c

/-- The bank-range trap: shape index and offending entry (17 R407). -/
def bankTrap (shape entry : Nat) : TrapInfo :=
  { mkTrap kForest cFbank with detail := shape, aux0 := BitVec.ofNat 64 entry }

/-- Lanes of a mask, each claimed by the context. -/
def Ctx.lanesOf (x : Ctx) (lm : Nat) (shape : Nat) : Op (List Nat) :=
  let sel := (List.range 8).filter fun l => lm.testBit l
  if sel.all fun l => x.id.flanes.testBit l then .ok sel else raise (bankTrap shape 0)

/-- Entries that an operation touches, each at most 255: the lowest that is not is reported. -/
def entriesOk (shape : Nat) (es : List Nat) : Op Unit :=
  match lowestCause (es.filter fun e => decide (255 < e)) with
  | none => .ok ()
  | some e => raise (bankTrap shape e)

/-! Arithmetic of a mode (R334). -/

/-- A word as a mode reads it. -/
def modeRead (m : FMode) (w : Nat) : Nat :=
  match m with
  | .fp32 => w
  | .bf16 => w % 65536
  | .scp => scpCanon w

def modeAdd (m : FMode) (a b : Nat) : FRes :=
  match m with
  | .fp32 => fmtF32.add .rne 0 a b
  | .bf16 => fmtBf16.add .rne 0 a b
  | .scp => scpAdd a b

def modeMul (m : FMode) (a b : Nat) : FRes :=
  match m with
  | .fp32 => fmtF32.mul .rne 0 a b
  | .bf16 => fmtBf16.mul .rne 0 a b
  | .scp => scpMul a b

def modeMax (m : FMode) (a b : Nat) : FRes :=
  match m with
  | .fp32 => fmtF32.minmax true a b
  | .bf16 => fmtBf16.minmax true a b
  | .scp => ⟨scpMax a b, 0⟩

/-- x > y strictly; false with a NaN. -/
def modeGt (m : FMode) (x y : Nat) : Bool :=
  match m with
  | .fp32 => fltVal (fmtF32.decode y) (fmtF32.decode x)
  | .bf16 => fltVal (fmtBf16.decode y) (fmtBf16.decode x)
  | .scp => scpGt x y

def modeDiv (m : FMode) (x z : Nat) : FRes :=
  match m with
  | .fp32 => fmtF32.div x z
  | .bf16 => fmtBf16.div x z
  | .scp => scpDiv x z

/-! Shapes (R330, R331). -/

/-- A shape without a malformed bit. -/
def shapeOk (s : BitVec 256) : Bool := s.extractLsb' 48 16 == 0 && s.extractLsb' 30 2 == 0

/-- OP of node n. -/
def shapeOp (s : BitVec 256) (n : Nat) : Nat := (s.toNat >>> (2 * n)) % 4

/-- Bank and offset of leaf i. -/
def shapeLeaf (s : BitVec 256) (i : Nat) : Nat × Nat :=
  let v := (s.toNat >>> (64 + 12 * i)) % 4096
  (v % 16, v / 16)

/-- The leaves present, in ascending order. -/
def shapeLeaves (s : BitVec 256) : List Nat := (List.range 16).filter fun i => (s.toNat >>> 32).testBit i

/-- The value of a node whose two children are present. -/
def nodeValue (m : FMode) (op a b : Nat) : FRes :=
  match op with
  | 0 => modeAdd m a b
  | 1 => modeMul m a b
  | 2 => modeMax m a b
  | _ => ⟨a, 0⟩

/-- The tree as a heap of 31 positions: nodes 0 to 14, then the leaves (R331). -/
def evalTree (m : FMode) (s : BitVec 256) (leaf : Nat → Nat) : List (Option Nat) × Flags :=
  let start := List.replicate 15 none ++ (List.range 16).map fun i =>
    if (s.toNat >>> 32).testBit i then some (modeRead m (leaf i)) else none
  ((List.range 15).map (14 - ·)).foldl (fun (a : List (Option Nat) × Flags) n =>
    match a.1.getD (2 * n + 1) none, a.1.getD (2 * n + 2) none with
    | some x, some y => let r := nodeValue m (shapeOp s n) x y; (listSet a.1 n (some r.bits), a.2 ||| r.fl)
    | some x, none => (listSet a.1 n (some x), a.2)
    | none, y => (listSet a.1 n y, a.2)) (start, 0)

/-- The adjoints of the nodes and leaves, parents before children (R339). -/
def adjoints (m : FMode) (s : BitVec 256) (vals : List (Option Nat)) (root : Nat) : List (Option Nat) × Flags :=
  (List.range 15).foldl (fun (a : List (Option Nat) × Flags) n =>
    let l := 2 * n + 1
    let r := 2 * n + 2
    let put := fun (x y : Option Nat) (fl : Flags) => (listSet (listSet a.1 l x) r y, a.2 ||| fl)
    match a.1.getD n none with
    | none => a
    | some d =>
      match vals.getD l none, vals.getD r none with
      | some x, some y =>
        match shapeOp s n with
        | 0 => put (some d) (some d) 0
        | 1 => let p := modeMul m d y; let q := modeMul m d x; put (some p.bits) (some q.bits) (p.fl ||| q.fl)
        | 2 => if modeGt m y x then put (some 0) (some d) 0 else put (some d) (some 0) 0
        | _ => put (some d) (some 0) 0
      | some _, none => put (some d) none 0
      | none, some _ => put none (some d) 0
      | none, none => a) (listSet (List.replicate 31 none) 0 (some root), 0)

/-! The F slot (R335 to R340). -/

/-- An F operation issues after the previous one of the context has landed (R334). -/
def forestSlot (s : State) (g : Guard) (off on : State → Op State) : Host.Outcome State Fault Refusal :=
  if s.old.fo.isSome then finish s (.error (.wait .fo)) else guarded s g off on

/-- An F operation whose bank writes and flags wait for its landing. -/
def State.fly (s : State) (ws : List (Nat × Nat)) (fl : Flags) : State :=
  s.upd fun x => { x with fo := some ⟨ws.map fun w => (w.1, BitVec.ofNat 32 w.2), fl⟩ }

/-- FOREST_OP_LAND: the writes and flags of the operation in flight on the tile take effect. -/
def execForestOpLand (s : State) : Host.Outcome State Fault Refusal :=
  match s.event with
  | some (.forestOpLand t) =>
    match (s.toCore.tile t).queue.findIdx? fun x => x.fo.isSome with
    | none => .next s
    | some p =>
      let r := CtxRef.task t p
      match (s.toCore.ctx r).fo with
      | none => .next s
      | some f =>
        let c := (s.toCore.cleanBanks t (f.writes.map fun w => w.1)).updTile t fun tl =>
          { tl with banks := f.writes.foldl (fun m w => mapSet 0 m w.1 w.2) tl.banks }
        .next { s with toCore := c.updCtx r fun x => { x with fo := none, r := { x.r with fpsf := x.r.fpsf ||| f.flags } } }
  | _ => .next s

/-- `fo.md` (R335). -/
def execFoMd (o : OpFoMd) (s : State) : Host.Outcome State Fault Refusal :=
  forestSlot s o.gd skip fun s => .ok ((s.upd fun x => { x with fmode := o.fmt }).fly [] 0)

/-- `fo.shp` (R336). -/
def execFoShp (o : OpFoShp) (s : State) : Host.Outcome State Fault Refusal :=
  forestSlot s o.gd (fun s => s.drop o.a) fun s => do
    let (e, s) ← s.src o.a
    let v : BitVec 256 := e.extractLsb' 0 256
    if !shapeOk v then raise { mkTrap kForest cFshape with detail := o.shape.toNat }
    return (s.upd fun x => { x with shapes := mapSet 0 x.shapes o.shape.toNat v }).fly [] 0

/-- Words of an entry and where they lie: word, lane, bank, entry (R337). -/
def layWords (lay : FoLay) (e : Nat) : List (Nat × Nat × Nat × Nat) :=
  match lay with
  | .run l b => (List.range 64).map fun i => (i, l.toNat, b.toNat, e + i)
  | .lanes lm b => ((List.range 64).filter fun i => lm.toNat.testBit (i / 8)).map fun i => (i, i / 8, b.toNat, e + i % 8)
  | .banks l => (List.range 64).map fun i => (i, l.toNat, i / 4, e + i % 4)

def layMask (lay : FoLay) : Nat :=
  match lay with
  | .run l _ => 2 ^ l.toNat
  | .lanes lm _ => lm.toNat
  | .banks l => 2 ^ l.toNat

/-- The placement of `fo.ld` and `fo.st`, with its checks. -/
def State.placed (s : State) (lay : FoLay) (e : Word) : Op (List (Nat × Nat × Nat × Nat)) := do
  let _ ← s.me.lanesOf (layMask lay) 0
  let ws := layWords lay e.toNat
  entriesOk 0 (ws.map fun w => w.2.2.2)
  return ws

/-- `fo.ld` (R337). -/
def execFoLd (o : OpFoLd) (s : State) : Host.Outcome State Fault Refusal :=
  forestSlot s o.gd (fun s => s.drop o.a) fun s => do
    let (v, s) ← s.src o.a
    let e ← s.rdS o.b
    let ws ← s.placed o.lay e
    return s.fly (ws.map fun w => (bankKey w.2.1 w.2.2.1 w.2.2.2, lane v w.1)) 0

/-- `fo.st` (R337). -/
def execFoSt (o : OpFoSt) (s : State) : Host.Outcome State Fault Refusal :=
  forestSlot s o.gd (fun s => s.zeros o.d 1) fun s => do
    let e ← s.rdS o.b
    let ws ← s.placed o.lay e
    s.banksSound (ws.map fun w => bankKey w.2.1 w.2.2.1 w.2.2.2)
    let word := fun (i : Nat) => match ws.find? fun w => w.1 == i with
      | some w => s.toCore.bankGet s.ref.tile w.2.1 w.2.2.1 w.2.2.2
      | none => 0
    (s.fly [] 0).dst o.d (ofLanes ((List.range 64).map word))

def Ctx.shape (x : Ctx) (n : Nat) : BitVec 256 := mapGet 0 x.shapes n

/-- The evaluation of a shape in a lane. -/
def State.evalLane (s : State) (sh : BitVec 256) (l lb : Nat) : List (Option Nat) × Flags :=
  evalTree s.old.fmode sh fun i => let (b, ofs) := shapeLeaf sh i; s.toCore.bankGet s.ref.tile l b (lb + ofs)

/-- The entries that the leaves of a shape name in some lanes, `ofs` above them. -/
def leafKeys (sh : BitVec 256) (ls : List Nat) (lb ofs : Nat) : List Nat :=
  ls.flatMap fun l => (shapeLeaves sh).map fun i => bankKey l (shapeLeaf sh i).1 (lb + (shapeLeaf sh i).2 + ofs)

/-- `fo.up` (R338). -/
def execFoUp (o : OpFoUp) (s : State) : Host.Outcome State Fault Refusal :=
  forestSlot s o.gd (fun s => s.zeros o.d 1) fun s => do
    let lb ← s.rdS o.a
    let re ← s.rdS o.b
    let sh := s.old.shape o.shape.toNat
    let ls ← s.me.lanesOf o.lm.toNat o.shape.toNat
    if !ls.isEmpty then
      entriesOk o.shape.toNat ((shapeLeaves sh).map (fun i => lb.toNat + (shapeLeaf sh i).2) ++ if o.wb then [re.toNat] else [])
    s.banksSound (leafKeys sh ls lb.toNat 0)
    let roots := ls.map fun l => let (v, fl) := s.evalLane sh l lb.toNat; (l, (v.getD 0 none).getD 0, fl)
    let ws := if o.wb then roots.map fun x => (bankKey x.1 o.rb.toNat re.toNat, x.2.1) else []
    let word := fun (i : Nat) => ((roots.find? fun x => x.1 == i).map fun x => x.2.1).getD 0
    (s.fly ws (roots.foldl (fun a x => a ||| x.2.2) 0)).dst o.d (ofLanes ((List.range 64).map word))

/-- The places that `fo.dn` writes, in the order of their lowest leaf, with the leaves that name them. -/
def leafGroups (sh : BitVec 256) (lb : Nat) : List ((Nat × Nat) × List Nat) :=
  (shapeLeaves sh).foldl (fun gs i =>
    let (b, ofs) := shapeLeaf sh i
    let k := (b, lb + ofs)
    if gs.any fun g => g.1 == k then gs.map fun g => if g.1 == k then (g.1, g.2 ++ [i]) else g else gs ++ [(k, [i])]) []

/-- The writes of `fo.dn` in one lane, with the flags. -/
def State.downLane (s : State) (o : OpFoDn) (sh : BitVec 256) (l lb re ofs : Nat) : List (Nat × Nat) × Flags :=
  let m := s.old.fmode
  let (vals, fl) := s.evalLane sh l lb
  match vals.getD 0 none with
  | none => ([], fl)
  | some _ =>
    let (adj, fl2) := adjoints m sh vals (modeRead m (s.toCore.bankGet s.ref.tile l o.rb.toNat (re + ofs)))
    (leafGroups sh lb).foldl (fun (a : List (Nat × Nat) × Flags) g =>
      let start := if o.acc then some (modeRead m (s.toCore.bankGet s.ref.tile l g.1.1 (g.1.2 + ofs))) else none
      let (v, f) := g.2.foldl (fun (x : Option Nat × Flags) i =>
        let d := (adj.getD (15 + i) none).getD 0
        match x.1 with
        | none => (some d, x.2)
        | some y => let r := modeAdd m y d; (some r.bits, x.2 ||| r.fl)) (start, 0)
      (a.1 ++ [(bankKey l g.1.1 (g.1.2 + ofs), v.getD 0)], a.2 ||| f)) ([], fl ||| fl2)

/-- `fo.dn` (R339). -/
def execFoDn (o : OpFoDn) (s : State) : Host.Outcome State Fault Refusal :=
  forestSlot s o.gd skip fun s => do
    let lb ← s.rdS o.a
    let re ← s.rdS o.b
    let sh := s.old.shape o.shape.toNat
    let ofs := s.old.r.ofs.toNat
    let ls ← s.me.lanesOf o.lm.toNat o.shape.toNat
    entriesOk o.shape.toNat ((re.toNat + ofs) :: (shapeLeaves sh).map fun i => lb.toNat + (shapeLeaf sh i).2 + ofs)
    s.banksSound (leafKeys sh ls lb.toNat 0 ++ (ls.map fun l => bankKey l o.rb.toNat (re.toNat + ofs)) ++
      if o.acc then leafKeys sh ls lb.toNat ofs else [])
    let rs := ls.map fun l => s.downLane o sh l lb.toNat re.toNat ofs
    return s.fly (rs.flatMap fun r => r.1) (rs.foldl (fun a r => a ||| r.2) 0)

/-- `fo.nrm` (R340). -/
def execFoNrm (o : OpFoNrm) (s : State) : Host.Outcome State Fault Refusal :=
  forestSlot s o.gd skip fun s => do
    let e ← s.rdS o.a
    let n ← s.rdS o.b
    let ne ← s.rdS o.c
    let ls ← s.me.lanesOf o.lm.toNat 0
    if n.toNat > 256 then raise (bankTrap 0 0)
    if n = 0 then return s.fly [] 0
    if !ls.isEmpty then entriesOk 0 [e.toNat + n.toNat - 1, ne.toNat]
    let m := s.old.fmode
    let t := s.ref.tile
    s.banksSound (ls.flatMap fun l => bankKey l o.rb.toNat ne.toNat ::
      (List.range n.toNat).map fun k => bankKey l o.bank.toNat (e.toNat + k))
    let rs := ls.flatMap fun l =>
      let z := modeRead m (s.toCore.bankGet t l o.rb.toNat ne.toNat)
      (List.range n.toNat).map fun k =>
        (bankKey l o.bank.toNat (e.toNat + k), modeDiv m (modeRead m (s.toCore.bankGet t l o.bank.toNat (e.toNat + k))) z)
    return s.fly (rs.map fun r => (r.1, r.2.bits)) (joinFlags (rs.map fun r => r.2))

end Sys2Proof.Machine
end

