-- ==== Sys2Proof/WellFormed.lean ====
section
/-!
DEFINITION. Which instructions are well formed: the limits of 08 R220 and of the encoding tables (09 R230, R233, R245;
10 R260; 11 R286, R291; 12 R309; 14 R344, R351) that the types of Syntax do not already say, and the ranges of the
numbers an event carries.
-/

namespace Sys2Proof

/-- The control-register numbers of 08 R223. -/
def ctlAssigned (n : BitVec 12) : Bool :=
  n.toNat ≤ 0x0A || (0x10 ≤ n.toNat && n.toNat ≤ 0x13) || n.toNat == 0x18 || n.toNat == 0x19 ||
  (0x1C ≤ n.toNat && n.toNat ≤ 0x1E) || n.toNat == 0x20 || n.toNat == 0x21 ||
  (0x40 ≤ n.toNat && n.toNat ≤ 0x42) || (0x48 ≤ n.toNat && n.toNat ≤ 0x61) || (0x68 ≤ n.toNat && n.toNat ≤ 0x6A) ||
  n.toNat == 0x70 || n.toNat == 0x71 || (0x80 ≤ n.toNat && n.toNat ≤ 0x83)

/-- LEN from 1 to 64 and POS + LEN at most 64 (09 R230). -/
def bfOk (pos : BitVec 6) (len : BitVec 7) : Bool :=
  1 ≤ len.toNat && pos.toNat + len.toNat ≤ 64

/-- `.sd` is legal only on `atm.min` and `atm.max` (10 R260). -/
def Width.loadOk (w : Width) : Bool := !(w.signed && w.size == 3#2)

/-- `pk.mx`, `upk.mx`: the scale scalar field is zero with SCM, which the type already says (11 R293). `vupd`: the
hyperparameter base and the queues (11 R291). -/
def OpVUpd.ok (o : OpVUpd) : Bool :=
  1 ≤ o.c.toNat && o.c.toNat ≤ 59 && o.d != some o.a && o.b.q != o.a

/-- `bct.g` keeps LANE[5:3] zero (11 R298). -/
def OpBct.ok (o : OpBct) : Bool := !o.sub || o.lane.toNat < 8

/-- `vred`: a rounding mode only for the sum (11 R278). -/
def OpVRed.ok (o : OpVRed) : Bool := o.op == 0#3 || o.rm == .rne

/-- `acc.rd` (12 R309). -/
def OpAccRd.ok (o : OpAccRd) : Bool :=
  !((o.gum || o.sort) && (o.conv == .bf16 || o.conv == .scp)) && (o.sort || o.cd == 0#3) &&
  (o.tmp || o.sort || o.c == 0#6) && o.rm != .sr && (o.rm == .rne || o.conv == .f64 || o.conv == .bf16)

/-- ACQ = REL = 0 carries no scope in a command of 05 R144 (14 R351). -/
def CmdFlags.ok (f : CmdFlags) : Bool := f.rel || f.acq || f.scope == .ctx

/-- A micro-op names mp0 to mp6 in the register fields it uses (12 R314). -/
def mpOk (r : BitVec 3) : Bool := r != 7#3

def UMac.ok (o : UMac) : Bool := mpOk o.rb && (!o.sr || mpOk o.kr)

def USet.ok (o : USet) : Bool := mpOk o.d && (!o.add || mpOk o.s)

def ULoop.ok (o : ULoop) : Bool := !o.csrc || mpOk o.s

def CtxRef.ok : CtxRef → Bool
  | .task t p => t < Config.tiles && p < 8
  | .hc t k => t < Config.tiles && k < 8

/-- The instruction meets every limit of its rule. -/
def wellFormed : Instr → Bool
  | .bfx o => bfOk o.pos o.len
  | .bfxS o => bfOk o.pos o.len
  | .bfi o => bfOk o.pos o.len
  | .ctlRd o => ctlAssigned o.num
  | .ctlWr o => ctlAssigned o.num
  | .evtWt o => o.mask != 0#16
  | .ldG o => o.w.size != 3#2
  | .ldS o => o.w.loadOk
  | .ldAcq o => o.w.loadOk
  | .stX o => o.size != 3#2
  | .vred o => o.ok
  | .vupd o => o.ok
  | .vcvt o => o.tof != o.frm
  | .bct o => o.ok
  | .accRd o => o.ok
  | .rngSet o => o.wc || o.wk
  | .uopMac o => o.ok
  | .uopLat o => mpOk o.cr
  | .uopSet o => o.ok
  | .uopLoop o => o.ok
  | .uopBrz o => mpOk o.s
  | .uopClr o => mpOk o.rb
  | .uopAcp o => mpOk o.rb && mpOk o.dr
  | .cp o => o.fl.ok
  | .cpRs o => o.fl.ok
  | .cpBc o => o.fl.ok
  | .cpGt o => o.fl.ok
  | .cpLk o => o.fl.ok
  | _ => true

/-- The tile, context and port numbers an event carries exist. -/
def Event.ok : Event → Bool
  | .bundleDispatch r => r.ok
  | .barrierWaitSatisfied r => r.ok
  | .parkedStoreRetry r => r.ok
  | .streamPreTranslation r _ => r.ok
  | .verpolWrite r _ => r.ok
  | .creelRingRegWrite r _ _ => r.ok
  | .hmsgWrite r _ => r.ok
  | .fltrecWrite r _ => r.ok
  | .handlerStart t => t < Config.tiles
  | .taskStart t => t < Config.tiles
  | .taskResume t => t < Config.tiles
  | .heldBroadcastResume p => p < 36
  | .portLinkFail p => p < 36
  | .portTrained p => p < 36
  | .retrainTimeout p => p < 36
  | .portBlockWrite p _ => p < 36
  | _ => true

end Sys2Proof
end

