-- ==== Sys2Proof/Decode.lean ====
section
/-!
DEFINITION. Decoding of slot words, micro-ops and bundle headers (08 R196 to R200, R220, R226; the encoding tables of
09 R227 to R253, 10 R260, 11 R278, R293, 12 R309, R314, R315, 13 R333, 14 R344, R353), total on every word, and the
encoder written from the same tables.
-/

namespace Sys2Proof

/-- The slot classes of 08 R226: LA and LB share one map, as do V0 and V1. -/
inductive SlotClass where
  | s | c | l | st | v | p | m | k | f | a
deriving DecidableEq, Repr

/-- Why a word is no instruction (08 R220): its opcode is not assigned, a reserved or unused bit is set, or a field lies
outside its kind or its instruction's limits. -/
inductive DecodeError where
  | unassigned
  | reserved
  | limit
deriving DecidableEq, Repr

/-- The fields of format G (08 R199); formats I and O regroup the same bits. -/
structure Grid where
  x : BitVec 20
  rm : BitVec 3
  msk : BitVec 4
  c : BitVec 6
  b : BitVec 6
  a : BitVec 6
  d : BitVec 6
  opc : BitVec 8
  gs : BitVec 1
  grd : BitVec 4
deriving DecidableEq, Repr

/-- A slot word from its fields, highest first (08 R198, R199). -/
def Grid.pack (g : Grid) : Word :=
  g.x ++ g.rm ++ g.msk ++ g.c ++ g.b ++ g.a ++ g.d ++ g.opc ++ g.gs ++ g.grd

/-- The fields of a slot word (08 R198, R199). -/
def Grid.ofWord (w : Word) : Grid :=
  { x := w.extractLsb' 44 20, rm := w.extractLsb' 41 3, msk := w.extractLsb' 37 4, c := w.extractLsb' 31 6,
    b := w.extractLsb' 25 6, a := w.extractLsb' 19 6, d := w.extractLsb' 13 6, opc := w.extractLsb' 5 8,
    gs := w.extractLsb' 4 1, grd := w.extractLsb' 0 4 }

abbrev Dec := Except DecodeError

/-- Rejects with `e` unless `p` holds. -/
def need (p : Bool) (e : DecodeError) : Dec Unit := if p then .ok () else .error e

/-- The guard of a word. -/
def Grid.gd (g : Grid) : Guard := ⟨g.gs == 1#1, g.grd⟩

/-- The 32-bit immediate of format I (08 R199). -/
def Grid.imm (g : Grid) : BitVec 32 :=
  g.x.extractLsb' 0 13 ++ g.rm ++ g.msk ++ g.c ++ g.b

/-- The displacement of format O (08 R199). -/
def Grid.ofs (g : Grid) : BitVec 32 :=
  g.x.extractLsb' 0 1 ++ g.rm ++ g.msk ++ g.c ++ g.b ++ g.a ++ g.d

/-! Kinds of register fields (08 R200). -/

def decQSrc (f : BitVec 6) : QSrc := ⟨f.extractLsb' 5 1 == 1#1, f.extractLsb' 0 5⟩

def decQDst (f : BitVec 6) : Dec QDst :=
  if f.extractLsb' 5 1 == 0#1 then .ok (some (f.extractLsb' 0 5))
  else if f == 0x20#6 then .ok none else .error .limit

/-- A field of which only the low `n` bits may be set. -/
def decLow (n : Nat) (f : BitVec 6) : Dec (BitVec n) :=
  if f.toNat < 2 ^ n then .ok (f.extractLsb' 0 n) else .error .limit

/-- A pair destination: an even number below 16 (08 R200). -/
def decPair (f : BitVec 6) : Dec (BitVec 3) :=
  if f.toNat < 16 && f.extractLsb' 0 1 == 0#1 then .ok (f.extractLsb' 1 3) else .error .limit

/-- GP, the even guard of a result pair, in X[19:16] (14 R344, R351). -/
def decGp (f : BitVec 4) : Dec (BitVec 3) :=
  if f.extractLsb' 0 1 == 0#1 then .ok (f.extractLsb' 1 3) else .error .limit

def decRnd (f : BitVec 3) : Dec Rnd :=
  match f.toNat with
  | 0 => .ok .rne | 1 => .ok .rz | 2 => .ok .rup | 3 => .ok .rdn | 4 => .ok .sr
  | _ => .error .limit

def decScope (f : BitVec 4) : Dec Scope :=
  match f.toNat with
  | 0 => .ok .ctx | 1 => .ok .tile | 2 => .ok .quad | 3 => .ok .die | 4 => .ok .side
  | 5 => .ok .mod | 6 => .ok .host | 7 => .ok .pod | 8 => .ok .span | 9 => .ok .sys
  | _ => .error .limit

def decFmt (f : BitVec 4) : Dec MxFmt :=
  match f.toNat with
  | 1 => .ok .e2m1 | 2 => .ok .e2m3 | 3 => .ok .e3m2 | 4 => .ok .e4m3 | 5 => .ok .e5m2
  | 6 => .ok .int4 | 7 => .ok .int6 | 8 => .ok .int8
  | _ => .error .limit

def decBlk (f : BitVec 2) : Dec Blk :=
  match f.toNat with
  | 1 => .ok .b24 | 2 => .ok .b32
  | _ => .error .limit

def decLFmt (f : BitVec 4) : Dec LFmt :=
  match f.toNat with
  | 0 => .ok .f32 | 1 => .ok .i32 | 2 => .ok .u32 | 3 => .ok .bf16 | 4 => .ok .f16 | 5 => .ok .scp
  | _ => .error .limit

def decEWidth (f : BitVec 2) : Dec EWidth :=
  match f.toNat with
  | 0 => .ok .w32 | 1 => .ok .w16 | 2 => .ok .w8
  | _ => .error .limit

def decBit (f : BitVec 1) : Bool := f == 1#1

def encBit (b : Bool) : BitVec 1 := if b then 1#1 else 0#1

def encRnd : Rnd → BitVec 3
  | .rne => 0 | .rz => 1 | .rup => 2 | .rdn => 3 | .sr => 4

def encScope : Scope → BitVec 4
  | .ctx => 0 | .tile => 1 | .quad => 2 | .die => 3 | .side => 4
  | .mod => 5 | .host => 6 | .pod => 7 | .span => 8 | .sys => 9

def encFmt : MxFmt → BitVec 4
  | .e2m1 => 1 | .e2m3 => 2 | .e3m2 => 3 | .e4m3 => 4 | .e5m2 => 5 | .int4 => 6 | .int6 => 7 | .int8 => 8

def encBlk : Blk → BitVec 2
  | .b24 => 1 | .b32 => 2

def encLFmt : LFmt → BitVec 4
  | .f32 => 0 | .i32 => 1 | .u32 => 2 | .bf16 => 3 | .f16 => 4 | .scp => 5

def encEWidth : EWidth → BitVec 2
  | .w32 => 0 | .w16 => 1 | .w8 => 2

def encQSrc (q : QSrc) : BitVec 6 := encBit q.peek ++ q.q

def encQDst : QDst → BitVec 6
  | none => 0x20
  | some q => 0#1 ++ q

def encPair (k : BitVec 3) : BitVec 6 := 0#2 ++ k ++ 0#1

def encGp (k : BitVec 3) : BitVec 4 := k ++ 0#1

/-- Every named field of the four is zero. -/
def Grid.noD (g : Grid) : Bool := g.d == 0
def Grid.noA (g : Grid) : Bool := g.a == 0
def Grid.noB (g : Grid) : Bool := g.b == 0
def Grid.noC (g : Grid) : Bool := g.c == 0
def Grid.noMk (g : Grid) : Bool := g.msk == 0
def Grid.noRm (g : Grid) : Bool := g.rm == 0
/-- X has no bit set from `n` upward. -/
def Grid.xBelow (g : Grid) (n : Nat) : Bool := g.x.toNat < 2 ^ n

/-! The S slot (09 R227 to R233). -/

def decRRR (g : Grid) : Dec OpRRR := do
  need (g.noC && g.noMk && g.noRm && g.xBelow 0) .reserved
  return ⟨g.gd, g.d, g.a, g.b⟩

def decRR (g : Grid) : Dec OpRR := do
  need (g.noB && g.noC && g.noMk && g.noRm && g.xBelow 0) .reserved
  return ⟨g.gd, g.d, g.a⟩

def decRRI (g : Grid) : Dec OpRRI := do
  need (g.xBelow 13) .reserved
  return ⟨g.gd, g.d, g.a, g.imm⟩

def decShI (g : Grid) : Dec OpShI := do
  need (g.xBelow 0 && g.noRm && g.noMk && g.noC) .reserved
  return ⟨g.gd, g.d, g.a, g.b⟩

/-- `bfx` and `bfx.s` share an opcode; X[13] tells them apart (09 R230). -/
def decBfxS (g : Grid) : Dec Instr := do
  need (g.noB && g.noC && g.noMk && g.noRm && g.xBelow 14) .reserved
  let o : OpBfx := ⟨g.gd, g.d, g.a, g.x.extractLsb' 0 6, g.x.extractLsb' 6 7⟩
  need (bfOk o.pos o.len) .limit
  if decBit (g.x.extractLsb' 13 1) then return .bfxS o else return .bfx o

def decBfi (g : Grid) : Dec OpBfi := do
  need (g.noC && g.noMk && g.noRm && g.xBelow 13) .reserved
  let o : OpBfi := ⟨g.gd, g.d, g.a, g.b, g.x.extractLsb' 0 6, g.x.extractLsb' 6 7⟩
  need (bfOk o.pos o.len) .limit
  return o

def decCmp (g : Grid) : Dec OpCmp := do
  need (g.noC && g.noMk && g.noRm && g.xBelow 0) .reserved
  let k ← decPair g.d
  return ⟨g.gd, k, g.a, g.b⟩

def decCmpI (g : Grid) : Dec OpCmpI := do
  need (g.xBelow 13) .reserved
  let k ← decPair g.d
  return ⟨g.gd, k, g.a, g.imm⟩

def decSel (g : Grid) : Dec OpSel := do
  need (g.noMk && g.noRm && g.xBelow 0) .reserved
  let c ← decLow 4 g.c
  return ⟨g.gd, g.d, g.a, g.b, c⟩

def decLi (g : Grid) : Dec OpLi := do
  need (g.xBelow 13 && g.noA) .reserved
  return ⟨g.gd, g.d, g.imm⟩

def decCtlRd (g : Grid) : Dec OpCtlRd := do
  need (g.noA && g.noB && g.noC && g.noMk && g.noRm && g.xBelow 12) .reserved
  need (ctlAssigned (g.x.extractLsb' 0 12)) .limit
  return ⟨g.gd, g.d, g.x.extractLsb' 0 12⟩

def decCtlWr (g : Grid) : Dec OpCtlWr := do
  need (g.noD && g.noB && g.noC && g.noMk && g.noRm && g.xBelow 12) .reserved
  need (ctlAssigned (g.x.extractLsb' 0 12)) .limit
  return ⟨g.gd, g.x.extractLsb' 0 12, g.a⟩

def decodeS (g : Grid) : Dec Instr :=
  match g.opc.toNat with
  | 0x01 => .add <$> decRRR g
  | 0x02 => .sub <$> decRRR g
  | 0x03 => .mul <$> decRRR g
  | 0x04 => .mulh <$> decRRR g
  | 0x05 => .mulhu <$> decRRR g
  | 0x06 => .divu <$> decRRR g
  | 0x08 => .and <$> decRRR g
  | 0x09 => .or <$> decRRR g
  | 0x0A => .xor <$> decRRR g
  | 0x0B => .shl <$> decRRR g
  | 0x0C => .shr <$> decRRR g
  | 0x0D => .sra <$> decRRR g
  | 0x0E => .min <$> decRRR g
  | 0x0F => .max <$> decRRR g
  | 0x10 => .minu <$> decRRR g
  | 0x11 => .maxu <$> decRRR g
  | 0x12 => .clz <$> decRR g
  | 0x13 => .pcnt <$> decRR g
  | 0x14 => decBfxS g
  | 0x15 => .bfi <$> decBfi g
  | 0x21 => .addi <$> decRRI g
  | 0x23 => .muli <$> decRRI g
  | 0x28 => .andi <$> decRRI g
  | 0x29 => .ori <$> decRRI g
  | 0x2A => .xori <$> decRRI g
  | 0x2B => .shli <$> decShI g
  | 0x2C => .shri <$> decShI g
  | 0x2D => .srai <$> decShI g
  | 0x40 => .cmpEq <$> decCmp g
  | 0x41 => .cmpNe <$> decCmp g
  | 0x42 => .cmpLt <$> decCmp g
  | 0x43 => .cmpGe <$> decCmp g
  | 0x44 => .cmpLtu <$> decCmp g
  | 0x45 => .cmpGeu <$> decCmp g
  | 0x48 => .cmpiEq <$> decCmpI g
  | 0x49 => .cmpiNe <$> decCmpI g
  | 0x4A => .cmpiLt <$> decCmpI g
  | 0x4B => .cmpiGe <$> decCmpI g
  | 0x4C => .cmpiLtu <$> decCmpI g
  | 0x4D => .cmpiGeu <$> decCmpI g
  | 0x50 => .sel <$> decSel g
  | 0x60 => .li <$> decLi g
  | 0x61 => .lih <$> decRRI g
  | 0x68 => .ctlRd <$> decCtlRd g
  | 0x69 => .ctlWr <$> decCtlWr g
  | _ => .error .unassigned

/-! The C slot (09 R234 to R253). -/

def decBr (g : Grid) : Dec OpBr := do
  need (g.xBelow 1) .reserved
  return ⟨g.gd, g.ofs⟩

def decJmp (g : Grid) : Dec OpJmp := do
  need (g.noD && g.noB && g.noC && g.noMk && g.noRm && g.xBelow 0) .reserved
  return ⟨g.gd, g.a⟩

def decLoop (g : Grid) : Dec OpLoop := do
  need (g.xBelow 13) .reserved
  let lp ← decLow 2 g.d
  return ⟨g.gd, lp, g.a, g.imm⟩

def decSync (g : Grid) : Dec OpSync := do
  need (g.noD && g.noA && g.noB && g.noC && g.noMk && g.noRm && g.xBelow 4) .reserved
  return ⟨g.gd, decBit (g.x.extractLsb' 0 1), decBit (g.x.extractLsb' 1 1), decBit (g.x.extractLsb' 2 1),
    decBit (g.x.extractLsb' 3 1)⟩

/-- Format N: no operand bit is set. -/
def decN (g : Grid) : Dec Guard := do
  need (g.noD && g.noA && g.noB && g.noC && g.noMk && g.noRm && g.xBelow 0) .reserved
  return g.gd

def decTrap (g : Grid) : Dec OpTrap := do
  need (g.xBelow 13 && g.noD && g.noA && g.imm.toNat < 65536) .reserved
  return ⟨g.gd, g.imm.extractLsb' 0 16⟩

def decEvtWt (g : Grid) : Dec OpEvtWt := do
  need (g.noA && g.noB && g.noC && g.noMk && g.noRm) .reserved
  let sc ← decScope (g.x.extractLsb' 0 4)
  need (g.x.extractLsb' 4 16 != 0#16) .limit
  return ⟨g.gd, g.d, g.x.extractLsb' 4 16, sc⟩

def decTlbInv (g : Grid) : Dec OpTlbInv := do
  need (g.noD && g.noC && g.noMk && g.noRm && g.xBelow 6 && g.x.extractLsb' 0 4 == 0#4) .reserved
  return ⟨g.gd, g.x.extractLsb' 4 2, g.a, g.b⟩

def decodeC (g : Grid) : Dec Instr :=
  match g.opc.toNat with
  | 0x80 => .br <$> decBr g
  | 0x81 => .jmp <$> decJmp g
  | 0x82 => .call <$> decBr g
  | 0x83 => .ret <$> decJmp g
  | 0x84 => .loop <$> decLoop g
  | 0x85 => .lbrk <$> decLoop g
  | 0x86 => .sync <$> decSync g
  | 0x87 => .halt <$> decN g
  | 0x88 => .trap <$> decTrap g
  | 0x89 => .evtWt <$> decEvtWt g
  | 0x8A => .hret <$> decN g
  | 0xE0 => .tlbInv <$> decTlbInv g
  | 0xE1 => .ctxSv <$> decRR g
  | 0xE2 => .ctxLd <$> decRRR g
  | 0xE3 => .tilePre <$> decRR g
  | 0xE4 => .brdMov <$> decRRR g
  | 0xE5 => .ucVfy <$> decRR g
  | _ => .error .unassigned

/-! The LA, LB and ST slots (10 R260). -/

def decW (g : Grid) : Width := ⟨decBit (g.x.extractLsb' 6 1), g.x.extractLsb' 4 2⟩

def decSdLd (g : Grid) : Dec OpSdLd := do
  need (g.noB && g.noC && g.noMk && g.noRm && g.xBelow 0) .reserved
  let d ← decLow 4 g.d
  return ⟨g.gd, d, g.a⟩

def decLdQ (g : Grid) : Dec OpLdQ := do
  need (g.noB && g.noC && g.noMk && g.noRm && g.xBelow 2) .reserved
  let d ← decQDst g.d
  let a ← decLow 4 g.a
  match (g.x.extractLsb' 0 2).toNat with
  | 0 => return ⟨g.gd, d, a, none⟩
  | 1 => return ⟨g.gd, d, a, some 0#1⟩
  | 2 => return ⟨g.gd, d, a, some 1#1⟩
  | _ => .error .limit

def decLdSc (g : Grid) : Dec OpLdSc := do
  need (g.noB && g.noC && g.noMk && g.noRm && g.xBelow 0) .reserved
  let d ← decLow 1 g.d
  let a ← decLow 4 g.a
  return ⟨g.gd, d, a⟩

def decLdG (g : Grid) : Dec OpLdG := do
  need (g.noC && g.noRm && g.xBelow 7 && g.x.extractLsb' 0 4 == 0#4) .reserved
  let d ← decQDst g.d
  let a ← decLow 4 g.a
  need ((decW g).size != 3#2) .limit
  return ⟨g.gd, d, a, g.b, decW g, g.msk⟩

def decLdS (g : Grid) : Dec OpLdS := do
  need (g.noC && g.noMk && g.noRm && g.x.extractLsb' 0 4 == 0#4 && g.x.extractLsb' 7 2 == 0#2) .reserved
  need (decW g).loadOk .limit
  return ⟨g.gd, g.d, g.a, g.b, g.x.extractLsb' 9 11, decW g⟩

def decLdAcq (g : Grid) : Dec OpLdAcq := do
  need (g.noC && g.noMk && g.noRm && g.x.extractLsb' 7 2 == 0#2) .reserved
  need (decW g).loadOk .limit
  let sc ← decScope (g.x.extractLsb' 0 4)
  return ⟨g.gd, g.d, g.a, g.b, g.x.extractLsb' 9 11, decW g, sc⟩

def decodeL (g : Grid) : Dec Instr :=
  match g.opc.toNat with
  | 0x80 => .ldQ <$> decLdQ g
  | 0x81 => .ldSc <$> decLdSc g
  | 0x82 => .ldG <$> decLdG g
  | 0x83 => .ldS <$> decLdS g
  | 0x84 => .ldAcq <$> decLdAcq g
  | 0x88 => .sdLd <$> decSdLd g
  | _ => .error .unassigned

def decStQ (g : Grid) : Dec OpStQ := do
  need (g.noD && g.noC && g.noRm && g.xBelow 0) .reserved
  let a ← decLow 4 g.a
  return ⟨g.gd, a, decQSrc g.b, g.msk⟩

def decStCt (g : Grid) : Dec OpStCt := do
  need (g.noD && g.noMk && g.xBelow 0) .reserved
  let a ← decLow 4 g.a
  let b ← decLow 4 g.b
  let rm ← decRnd g.rm
  return ⟨g.gd, a, b, decQSrc g.c, rm⟩

def decStX (g : Grid) : Dec OpStX := do
  need (g.noD && g.noRm && g.xBelow 6 && g.x.extractLsb' 0 4 == 0#4) .reserved
  need (g.x.extractLsb' 4 2 != 3#2) .limit
  return ⟨g.gd, g.a, decQSrc g.b, decQSrc g.c, g.x.extractLsb' 4 2, g.msk⟩

def decStS (g : Grid) : Dec OpStS := do
  need (g.noD && g.noMk && g.noRm && g.x.extractLsb' 0 4 == 0#4 && g.x.extractLsb' 6 3 == 0#3) .reserved
  return ⟨g.gd, g.a, g.b, g.c, g.x.extractLsb' 9 11, g.x.extractLsb' 4 2⟩

def decStRel (g : Grid) : Dec OpStRel := do
  need (g.noD && g.noMk && g.noRm && g.x.extractLsb' 6 3 == 0#3) .reserved
  let sc ← decScope (g.x.extractLsb' 0 4)
  return ⟨g.gd, g.a, g.b, g.c, g.x.extractLsb' 9 11, g.x.extractLsb' 4 2, sc⟩

def decOrd (g : Grid) : Dec Ord := do
  let sc ← decScope (g.x.extractLsb' 0 4)
  match (g.x.extractLsb' 7 2).toNat with
  | 0 => do
    need (sc == .ctx) .limit
    return .plain
  | 1 => return .acq sc
  | 2 => return .rel sc
  | _ => return .ar sc

/-- `atm.min`, `atm.max`: sizes 4 and 8, signed or not. -/
def decAtmS (g : Grid) : Dec OpAtmS := do
  need (g.noMk && g.noRm) .reserved
  need (g.x.extractLsb' 5 1 == 1#1) .limit
  let o ← decOrd g
  return ⟨g.gd, g.d, g.a, g.b, g.c, g.x.extractLsb' 9 11, decBit (g.x.extractLsb' 4 1), decBit (g.x.extractLsb' 6 1), o⟩

def decAtm (g : Grid) : Dec OpAtm := do
  need (g.x.extractLsb' 6 1 == 0#1) .limit
  let o ← decAtmS g
  return ⟨o.gd, o.d, o.a, o.b, o.c, o.off, o.wide, o.ord⟩

def decRed (g : Grid) : Dec OpRed := do
  need (g.noD && g.noC && g.noRm && g.xBelow 6 && g.x.extractLsb' 0 4 == 0#4) .reserved
  let a ← decLow 4 g.a
  match (g.x.extractLsb' 4 2).toNat with
  | 0 => return ⟨g.gd, a, decQSrc g.b, .f32, g.msk⟩
  | 1 => return ⟨g.gd, a, decQSrc g.b, .i32, g.msk⟩
  | 2 => return ⟨g.gd, a, decQSrc g.b, .i64, g.msk⟩
  | _ => .error .limit

def decFence (g : Grid) : Dec OpScope := do
  need (g.noD && g.noA && g.noB && g.noC && g.noMk && g.noRm && g.xBelow 4) .reserved
  let sc ← decScope (g.x.extractLsb' 0 4)
  return ⟨g.gd, sc⟩

def decodeSt (g : Grid) : Dec Instr :=
  match g.opc.toNat with
  | 0x80 => .stQ <$> decStQ g
  | 0x81 => .stCt <$> decStCt g
  | 0x82 => .stX <$> decStX g
  | 0x83 => .stS <$> decStS g
  | 0x84 => .stRel <$> decStRel g
  | 0x88 => .atmAdd <$> decAtm g
  | 0x89 => .atmMin <$> decAtmS g
  | 0x8A => .atmMax <$> decAtmS g
  | 0x8B => .atmAnd <$> decAtm g
  | 0x8C => .atmOr <$> decAtm g
  | 0x8D => .atmXchg <$> decAtm g
  | 0x8E => .atmCas <$> decAtm g
  | 0x90 => .redAdd <$> decRed g
  | 0x98 => .fenceRw <$> decFence g
  | 0x99 => .fenceAcq <$> decFence g
  | 0x9A => .fenceRel <$> decFence g
  | _ => .error .unassigned

/-! The V0 and V1 slots (11 R275, R278). -/

/-- SB is X[19]; the rest of X is zero. -/
def decQorS (g : Grid) : QorS := if decBit (g.x.extractLsb' 19 1) then .scalar g.b else .queue (decQSrc g.b)

def Grid.xOnlySb (g : Grid) : Bool := g.x.extractLsb' 0 19 == 0#19

def decVArith (g : Grid) : Dec OpVArith := do
  need (g.noC && g.xOnlySb) .reserved
  let d ← decQDst g.d
  let rm ← decRnd g.rm
  return ⟨g.gd, d, decQSrc g.a, decQorS g, g.msk, rm⟩

def decVFma (g : Grid) : Dec OpVFma := do
  need g.xOnlySb .reserved
  let d ← decQDst g.d
  let rm ← decRnd g.rm
  return ⟨g.gd, d, decQSrc g.a, decQorS g, decQSrc g.c, g.msk, rm⟩

def decVBin (g : Grid) : Dec OpVBin := do
  need (g.noC && g.noRm && g.xOnlySb) .reserved
  let d ← decQDst g.d
  return ⟨g.gd, d, decQSrc g.a, decQorS g, g.msk⟩

def decVUn (g : Grid) : Dec OpVUn := do
  need (g.noB && g.noC && g.noRm && g.xBelow 0) .reserved
  let d ← decQDst g.d
  return ⟨g.gd, d, decQSrc g.a, g.msk⟩

def decVTr (g : Grid) : Dec OpVTr := do
  need (g.noB && g.noC && g.xBelow 0) .reserved
  let d ← decQDst g.d
  let rm ← decRnd g.rm
  return ⟨g.gd, d, decQSrc g.a, g.msk, rm⟩

def decVCmp (g : Grid) : Dec OpVCmp := do
  need (g.noC && g.noRm && g.xOnlySb) .reserved
  let d ← decPair g.d
  return ⟨g.gd, d, decQSrc g.a, decQorS g, g.msk⟩

def decVSplat (g : Grid) : Dec OpVSplat := do
  need (g.noB && g.noC && g.noRm && g.xBelow 1) .reserved
  let d ← decQDst g.d
  return ⟨g.gd, d, g.a, decBit (g.x.extractLsb' 0 1), g.msk⟩

def decVIota (g : Grid) : Dec OpVIota := do
  need (g.noC && g.noRm && g.xBelow 0) .reserved
  let d ← decQDst g.d
  return ⟨g.gd, d, g.a, g.b, g.msk⟩

def decVCvt (g : Grid) : Dec OpVCvt := do
  need (g.noB && g.noC && g.xBelow 8) .reserved
  let d ← decQDst g.d
  let rm ← decRnd g.rm
  let tof ← decLFmt (g.x.extractLsb' 4 4)
  let frm ← decLFmt (g.x.extractLsb' 0 4)
  need (tof != frm) .limit
  return ⟨g.gd, d, decQSrc g.a, tof, frm, g.msk, rm⟩

def decVRed (g : Grid) : Dec OpVRed := do
  need (g.noB && g.xBelow 5) .reserved
  let rm ← decRnd g.rm
  let op := g.x.extractLsb' 0 3
  need (op == 0#3 || g.noRm) .reserved
  match (g.x.extractLsb' 3 2).toNat with
  | 0 => do
    need g.noC .reserved
    let d ← decQDst g.d
    return ⟨g.gd, .queue d, decQSrc g.a, op, g.msk, rm⟩
  | 1 => do
    need g.noC .reserved
    return ⟨g.gd, .scalar g.d, decQSrc g.a, op, g.msk, rm⟩
  | 2 => do
    let n ← decLow 3 g.d
    return ⟨g.gd, .vs n g.c, decQSrc g.a, op, g.msk, rm⟩
  | _ => .error .limit

def decVDot (g : Grid) : Dec OpVDot := do
  need (g.xBelow 0) .reserved
  let d ← decQDst g.d
  let rm ← decRnd g.rm
  return ⟨g.gd, d, decQSrc g.a, decQSrc g.b, decQSrc g.c, g.msk, rm⟩

def decVUpd (g : Grid) : Dec OpVUpd := do
  need (g.xBelow 5) .reserved
  let d ← decQDst g.d
  let a ← decLow 5 g.a
  let rm ← decRnd g.rm
  let mode ← match (g.x.extractLsb' 3 2).toNat with
    | 0 => Except.ok OptMode.mom
    | 1 => .ok .adam
    | 2 => .ok .sgd
    | _ => .error DecodeError.limit
  let o : OpVUpd := ⟨g.gd, d, a, decQSrc g.b, g.c, mode, g.x.extractLsb' 0 3, g.msk, rm⟩
  need o.ok .limit
  return o

def decodeV (g : Grid) : Dec Instr :=
  match g.opc.toNat with
  | 0x01 => .vaddF <$> decVArith g
  | 0x02 => .vsubF <$> decVArith g
  | 0x03 => .vmulF <$> decVArith g
  | 0x04 => .vfmaF <$> decVFma g
  | 0x05 => .vfmsF <$> decVFma g
  | 0x06 => .vminF <$> decVBin g
  | 0x07 => .vmaxF <$> decVBin g
  | 0x08 => .vabsF <$> decVUn g
  | 0x09 => .vnegF <$> decVUn g
  | 0x10 => .vaddI <$> decVBin g
  | 0x11 => .vsubI <$> decVBin g
  | 0x12 => .vmulI <$> decVBin g
  | 0x13 => .vmulhI <$> decVBin g
  | 0x14 => .vminI <$> decVBin g
  | 0x15 => .vmaxI <$> decVBin g
  | 0x16 => .vminuI <$> decVBin g
  | 0x17 => .vmaxuI <$> decVBin g
  | 0x18 => .vand <$> decVBin g
  | 0x19 => .vor <$> decVBin g
  | 0x1A => .vxor <$> decVBin g
  | 0x1B => .vshl <$> decVBin g
  | 0x1C => .vshr <$> decVBin g
  | 0x1D => .vsra <$> decVBin g
  | 0x1E => .vaddsI <$> decVBin g
  | 0x20 => .vrcp <$> decVTr g
  | 0x21 => .vrsq <$> decVTr g
  | 0x22 => .vexp2 <$> decVTr g
  | 0x23 => .vlg2 <$> decVTr g
  | 0x40 => .vcmpEq <$> decVCmp g
  | 0x41 => .vcmpNe <$> decVCmp g
  | 0x42 => .vcmpLt <$> decVCmp g
  | 0x43 => .vcmpLe <$> decVCmp g
  | 0x44 => .vcmpGt <$> decVCmp g
  | 0x45 => .vcmpGe <$> decVCmp g
  | 0x46 => .vcmpUn <$> decVCmp g
  | 0x48 => .vicmpEq <$> decVCmp g
  | 0x49 => .vicmpNe <$> decVCmp g
  | 0x4A => .vicmpLt <$> decVCmp g
  | 0x4B => .vicmpGe <$> decVCmp g
  | 0x4C => .vicmpLtu <$> decVCmp g
  | 0x4D => .vicmpGeu <$> decVCmp g
  | 0x50 => .vsel <$> decVBin g
  | 0x60 => .vsplat <$> decVSplat g
  | 0x61 => .viota <$> decVIota g
  | 0x62 => .vmov <$> decVUn g
  | 0x68 => .vcvt <$> decVCvt g
  | 0x80 => .vred <$> decVRed g
  | 0x81 => .vdot <$> decVDot g
  | 0x82 => .vupd <$> decVUpd g
  | _ => .error .unassigned

/-! The P slot (11 R293). -/

/-- The scale source of `pk.mx`, `upk.mx`: C must be zero with SCM. -/
def decScm (g : Grid) : Dec (Option (BitVec 6)) :=
  if decBit (g.x.extractLsb' 7 1) then (if g.noC then .ok none else .error .reserved) else .ok (some g.c)

def decPkMx (g : Grid) : Dec OpPkMx := do
  need (g.noMk && g.xBelow 8) .reserved
  let d ← decQDst g.d
  let rm ← decRnd g.rm
  let c ← decScm g
  let blk ← decBlk (g.x.extractLsb' 4 2)
  let fmt ← decFmt (g.x.extractLsb' 0 4)
  return ⟨g.gd, d, decQSrc g.a, decQSrc g.b, c, decBit (g.x.extractLsb' 6 1), blk, fmt, rm⟩

def decUpkMx (g : Grid) : Dec OpUpkMx := do
  need (g.noMk && g.noRm && g.noB && g.xBelow 8 && g.x.extractLsb' 6 1 == 0#1) .reserved
  let d ← decQDst g.d
  let c ← decScm g
  let blk ← decBlk (g.x.extractLsb' 4 2)
  let fmt ← decFmt (g.x.extractLsb' 0 4)
  return ⟨g.gd, d, decQSrc g.a, c, blk, fmt⟩

def decShf (g : Grid) : Dec OpShf := do
  need (g.noMk && g.noRm && g.noC && g.xBelow 0) .reserved
  let d ← decQDst g.d
  return ⟨g.gd, d, decQSrc g.a, decQSrc g.b⟩

def decXpo (g : Grid) : Dec OpXpo := do
  need (g.noMk && g.noRm && g.noB && g.noC && g.xBelow 2) .reserved
  let d ← decQDst g.d
  let w ← decEWidth (g.x.extractLsb' 0 2)
  return ⟨g.gd, d, decQSrc g.a, w⟩

def decBct (g : Grid) : Dec OpBct := do
  need (g.noMk && g.noRm && g.noB && g.noC && g.xBelow 7) .reserved
  let d ← decQDst g.d
  let o : OpBct := ⟨g.gd, d, decQSrc g.a, decBit (g.x.extractLsb' 6 1), g.x.extractLsb' 0 6⟩
  need o.ok .limit
  return o

def decScGet (g : Grid) : Dec OpScGet := do
  need (g.noMk && g.noRm && g.noB && g.noC && g.xBelow 1) .reserved
  if decBit (g.x.extractLsb' 0 1) then
    let q ← decLow 1 g.d
    return ⟨g.gd, .sq q, decQSrc g.a⟩
  else return ⟨g.gd, .scalar g.d, decQSrc g.a⟩

def decZip (g : Grid) : Dec OpZip := do
  need (g.noMk && g.noRm && g.noC && g.xBelow 2) .reserved
  let d ← decQDst g.d
  let w ← decEWidth (g.x.extractLsb' 0 2)
  return ⟨g.gd, d, decQSrc g.a, decQSrc g.b, w⟩

def decPkH (g : Grid) : Dec OpPkH := do
  need (g.noMk && g.noC && g.xBelow 1) .reserved
  let d ← decQDst g.d
  let rm ← decRnd g.rm
  return ⟨g.gd, d, decQSrc g.a, decQSrc g.b, decBit (g.x.extractLsb' 0 1), rm⟩

def decUpkH (g : Grid) : Dec OpUpkH := do
  need (g.noMk && g.noRm && g.noB && g.noC && g.xBelow 1) .reserved
  let d ← decQDst g.d
  return ⟨g.gd, d, decQSrc g.a, decBit (g.x.extractLsb' 0 1)⟩

def decodeP (g : Grid) : Dec Instr :=
  match g.opc.toNat with
  | 0x80 => .pkMx <$> decPkMx g
  | 0x81 => .upkMx <$> decUpkMx g
  | 0x82 => .shf <$> decShf g
  | 0x83 => .xpo <$> decXpo g
  | 0x84 => .bct <$> decBct g
  | 0x85 => .scGet <$> decScGet g
  | 0x86 => .zip <$> decZip g
  | 0x87 => .unzip <$> decZip g
  | 0x88 => .pkH <$> decPkH g
  | 0x89 => .upkH <$> decUpkH g
  | _ => .error .unassigned

/-! The M slot (12 R309). -/

def decMpWr (g : Grid) : Dec OpMpWr := do
  need (g.noB && g.noC && g.noMk && g.noRm && g.xBelow 0) .reserved
  let d ← decLow 3 g.d
  return ⟨g.gd, d, g.a⟩

def decMpRd (g : Grid) : Dec OpMpRd := do
  need (g.noB && g.noC && g.noMk && g.noRm && g.xBelow 1) .reserved
  if decBit (g.x.extractLsb' 0 1) then
    need g.noA .limit
    return ⟨g.gd, g.d, none⟩
  else
    let a ← decLow 3 g.a
    return ⟨g.gd, g.d, some a⟩

def decMxCall (g : Grid) : Dec OpMxCall := do
  need (g.noD && g.noA && g.noB && g.noC && g.noMk && g.noRm && g.xBelow 8) .reserved
  return ⟨g.gd, g.x.extractLsb' 0 8⟩

def decMxLat (g : Grid) : Dec OpMxLat := do
  need (g.noMk && g.noRm && g.xBelow 0) .reserved
  let d ← decLow 2 g.d
  let c ← decLow 1 g.c
  return ⟨g.gd, d, g.a, decQSrc g.b, c⟩

def decMxPrm (g : Grid) : Dec OpMxPrm := do
  need (g.noB && g.noC && g.noMk && g.noRm && g.xBelow 6) .reserved
  let d ← decLow 2 g.d
  let blk ← decBlk (g.x.extractLsb' 4 2)
  let fmt ← decFmt (g.x.extractLsb' 0 4)
  return ⟨g.gd, d, g.a, blk, fmt⟩

/-- CONV with W64: only CONV 1 reads binary64 rows (12 R309). -/
def decConv (conv : BitVec 3) (w64 : Bool) : Dec AccConv :=
  match conv.toNat, w64 with
  | 0, false => .ok .f32
  | 1, true => .ok .f64
  | 2, false => .ok .bf16
  | 3, false => .ok .scp
  | _, _ => .error .limit

def decAccRd (g : Grid) : Dec OpAccRd := do
  need (g.noMk && g.xBelow 10) .reserved
  let d ← decQDst g.d
  let rm ← decRnd g.rm
  let conv ← decConv (g.x.extractLsb' 0 3) (decBit (g.x.extractLsb' 3 1))
  let o : OpAccRd := ⟨g.gd, d, g.a, g.b, g.c, g.x.extractLsb' 7 3, decBit (g.x.extractLsb' 6 1),
    decBit (g.x.extractLsb' 5 1), decBit (g.x.extractLsb' 4 1), conv, rm⟩
  need o.ok .limit
  return o

def decAccClr (g : Grid) : Dec OpAccClr := do
  need (g.noD && g.noC && g.noMk && g.noRm && g.xBelow 0) .reserved
  return ⟨g.gd, g.a, g.b⟩

def decAccCp (g : Grid) : Dec OpAccCp := do
  need (g.noD && g.noMk && g.noRm && g.xBelow 0) .reserved
  return ⟨g.gd, g.a, g.b, g.c⟩

def decodeM (g : Grid) : Dec Instr :=
  match g.opc.toNat with
  | 0x60 => .mpWr <$> decMpWr g
  | 0x61 => .mpRd <$> decMpRd g
  | 0x80 => .mxCall <$> decMxCall g
  | 0x81 => .mxLat <$> decMxLat g
  | 0x82 => .mxPrm <$> decMxPrm g
  | 0x83 => .mxUcw <$> decRR g
  | 0x84 => .accRd <$> decAccRd g
  | 0x85 => .accClr <$> decAccClr g
  | 0x86 => .accCp <$> decAccCp g
  | _ => .error .unassigned

/-! The K slot (14 R344). -/

def decRngSet (g : Grid) : Dec OpRngSet := do
  need (g.noD && g.noC && g.noMk && g.noRm && g.xBelow 2) .reserved
  let wc := decBit (g.x.extractLsb' 1 1)
  let wk := decBit (g.x.extractLsb' 0 1)
  need (wc || wk) .limit
  return ⟨g.gd, g.a, g.b, wc, wk⟩

def decCdClr (g : Grid) : Dec OpCdClr := do
  need (g.noD && g.noB && g.noC && g.noMk && g.noRm && g.xBelow 3) .reserved
  return ⟨g.gd, g.a, g.x.extractLsb' 0 3⟩

def decCdMrg (g : Grid) : Dec OpCdMrg := do
  need (g.noD && g.noC && g.noRm && g.xBelow 3) .reserved
  return ⟨g.gd, decQSrc g.a, g.b, g.x.extractLsb' 0 3, g.msk⟩

def decCdTop (g : Grid) : Dec OpCdTop := do
  need (g.noA && g.noB && g.noC && g.noMk && g.noRm && g.xBelow 3) .reserved
  let d ← decQDst g.d
  return ⟨g.gd, d, g.x.extractLsb' 0 3⟩

def decCdArg (g : Grid) : Dec OpCdArg := do
  need (g.noA && g.noB && g.noC && g.noMk && g.noRm && g.x.extractLsb' 5 11 == 0#11) .reserved
  let gp ← decGp (g.x.extractLsb' 16 4)
  return ⟨g.gd, g.d, gp, decBit (g.x.extractLsb' 4 1), decBit (g.x.extractLsb' 3 1), g.x.extractLsb' 0 3⟩

def decCdThr (g : Grid) : Dec OpCdThr := do
  need (g.noB && g.noC && g.noMk && g.noRm && g.xBelow 4) .reserved
  return ⟨g.gd, g.d, g.a, decBit (g.x.extractLsb' 3 1), g.x.extractLsb' 0 3⟩

def decodeK (g : Grid) : Dec Instr :=
  match g.opc.toNat with
  | 0x60 => .rngSet <$> decRngSet g
  | 0x80 => .cdClr <$> decCdClr g
  | 0x81 => .cdMrg <$> decCdMrg g
  | 0x82 => .cdTop <$> decCdTop g
  | 0x83 => .cdArg <$> decCdArg g
  | 0x84 => .cdThr <$> decCdThr g
  | _ => .error .unassigned

/-! The F slot (13 R333). -/

def decFoMd (g : Grid) : Dec OpFoMd := do
  need (g.noD && g.noA && g.noB && g.noC && g.noMk && g.noRm && g.xBelow 2) .reserved
  match (g.x.extractLsb' 0 2).toNat with
  | 0 => return ⟨g.gd, .fp32⟩
  | 1 => return ⟨g.gd, .bf16⟩
  | 2 => return ⟨g.gd, .scp⟩
  | _ => .error .limit

def decFoShp (g : Grid) : Dec OpFoShp := do
  need (g.noD && g.noB && g.noC && g.noMk && g.noRm && g.xBelow 6) .reserved
  return ⟨g.gd, decQSrc g.a, g.x.extractLsb' 0 6⟩

/-- The layout of X: LM in [19:12], bit 11 zero, LANE in [10:8], bits [7:6] zero, BANK in [5:2], LAY in [1:0]. -/
def decLay (x : BitVec 20) : Dec FoLay := do
  need (x.extractLsb' 11 1 == 0#1 && x.extractLsb' 6 2 == 0#2) .reserved
  match (x.extractLsb' 0 2).toNat with
  | 0 => do
    need (x.extractLsb' 12 8 == 0#8) .limit
    return .run (x.extractLsb' 8 3) (x.extractLsb' 2 4)
  | 1 => do
    need (x.extractLsb' 8 3 == 0#3) .limit
    return .lanes (x.extractLsb' 12 8) (x.extractLsb' 2 4)
  | 2 => do
    need (x.extractLsb' 12 8 == 0#8 && x.extractLsb' 2 4 == 0#4) .limit
    return .banks (x.extractLsb' 8 3)
  | _ => .error .limit

def decFoLd (g : Grid) : Dec OpFoLd := do
  need (g.noD && g.noC && g.noMk && g.noRm) .reserved
  let lay ← decLay g.x
  return ⟨g.gd, decQSrc g.a, g.b, lay⟩

def decFoSt (g : Grid) : Dec OpFoSt := do
  need (g.noA && g.noC && g.noMk && g.noRm) .reserved
  let d ← decQDst g.d
  let lay ← decLay g.x
  return ⟨g.gd, d, g.b, lay⟩

def decFoUp (g : Grid) : Dec OpFoUp := do
  need (g.noC && g.noMk && g.noRm && g.x.extractLsb' 11 1 == 0#1) .reserved
  let d ← decQDst g.d
  return ⟨g.gd, d, g.a, g.b, g.x.extractLsb' 12 8, decBit (g.x.extractLsb' 10 1), g.x.extractLsb' 6 4,
    g.x.extractLsb' 0 6⟩

def decFoDn (g : Grid) : Dec OpFoDn := do
  need (g.noD && g.noC && g.noMk && g.noRm && g.x.extractLsb' 11 1 == 0#1) .reserved
  return ⟨g.gd, g.a, g.b, g.x.extractLsb' 12 8, decBit (g.x.extractLsb' 10 1), g.x.extractLsb' 6 4,
    g.x.extractLsb' 0 6⟩

def decFoNrm (g : Grid) : Dec OpFoNrm := do
  need (g.noD && g.noMk && g.noRm && g.x.extractLsb' 10 2 == 0#2 && g.x.extractLsb' 0 2 == 0#2) .reserved
  return ⟨g.gd, g.a, g.b, g.c, g.x.extractLsb' 12 8, g.x.extractLsb' 6 4, g.x.extractLsb' 2 4⟩

def decodeF (g : Grid) : Dec Instr :=
  match g.opc.toNat with
  | 0x60 => .foMd <$> decFoMd g
  | 0x80 => .foShp <$> decFoShp g
  | 0x81 => .foLd <$> decFoLd g
  | 0x82 => .foSt <$> decFoSt g
  | 0x83 => .foUp <$> decFoUp g
  | 0x84 => .foDn <$> decFoDn g
  | 0x85 => .foNrm <$> decFoNrm g
  | _ => .error .unassigned

/-! The A slot (14 R351, R353). -/

/-- SCOPE, ACQ, REL, EVE, EVN and BYT of a copy command. -/
def decFl (x : BitVec 20) : Dec CmdFlags := do
  let sc ← decScope (x.extractLsb' 0 4)
  let f : CmdFlags := ⟨decBit (x.extractLsb' 11 1), x.extractLsb' 7 4, decBit (x.extractLsb' 6 1),
    decBit (x.extractLsb' 5 1), decBit (x.extractLsb' 4 1), sc⟩
  need f.ok .limit
  return f

/-- RM and MK are zero in every A operation. -/
def Grid.plain (g : Grid) : Bool := g.noMk && g.noRm

def decCp (g : Grid) : Dec OpCp := do
  need (g.plain && g.xBelow 12) .reserved
  let fl ← decFl g.x
  return ⟨g.gd, g.d, g.a, g.b, g.c, fl⟩

def decRk (f : BitVec 3) : Dec RsKind :=
  match f.toNat with
  | 0 => .ok .f32 | 1 => .ok .bf | 2 => .ok .hf | 3 => .ok .f64 | 4 => .ok .i32 | 5 => .ok .i64
  | _ => .error .limit

def encRk : RsKind → BitVec 3
  | .f32 => 0 | .bf => 1 | .hf => 2 | .f64 => 3 | .i32 => 4 | .i64 => 5

def decCpRs (g : Grid) : Dec OpCpRs := do
  need (g.plain && g.xBelow 15) .reserved
  let rk ← decRk (g.x.extractLsb' 12 3)
  let fl ← decFl g.x
  return ⟨g.gd, g.d, g.a, g.b, g.c, rk, fl⟩

def decCpDesc (g : Grid) : Dec OpCpDesc := do
  need (g.plain && g.noD && g.noB && g.xBelow 12) .reserved
  let fl ← decFl g.x
  return ⟨g.gd, g.a, g.c, fl⟩

def decBarInit (g : Grid) : Dec OpBarInit := do
  need (g.plain && g.noD && g.xBelow 4) .reserved
  let sc ← decScope (g.x.extractLsb' 0 4)
  return ⟨g.gd, g.a, g.b, g.c, sc⟩

def decBarUpd (g : Grid) : Dec OpBarUpd := do
  need (g.plain && g.noD && g.noC && g.xBelow 4) .reserved
  let sc ← decScope (g.x.extractLsb' 0 4)
  return ⟨g.gd, g.a, g.b, sc⟩

def decBarWt (g : Grid) : Dec OpBarWt := do
  need (g.plain && g.noC && g.xBelow 4) .reserved
  let sc ← decScope (g.x.extractLsb' 0 4)
  return ⟨g.gd, g.d, g.a, g.b, sc⟩

def decEvtSg (g : Grid) : Dec OpEvtSg := do
  need (g.plain && g.noD && g.noB && g.noC && g.xBelow 11 && g.x.extractLsb' 6 1 == 0#1 &&
    g.x.extractLsb' 4 1 == 0#1) .reserved
  let sc ← decScope (g.x.extractLsb' 0 4)
  return ⟨g.gd, g.a, g.x.extractLsb' 7 4, decBit (g.x.extractLsb' 5 1), sc⟩

def decMsg (g : Grid) : Dec OpMsg := do
  need (g.plain && g.noD && g.xBelow 14 && g.x.extractLsb' 6 6 == 0#6) .reserved
  let sc ← decScope (g.x.extractLsb' 0 4)
  let len ← match (g.x.extractLsb' 12 2).toNat with
    | 0 => Except.ok MsgLen.b64
    | 1 => .ok .b128
    | 2 => .ok .b256
    | _ => .error DecodeError.limit
  return ⟨g.gd, g.a, g.b, g.c, len, decBit (g.x.extractLsb' 5 1), decBit (g.x.extractLsb' 4 1), sc⟩

/-- X holds GP alone. -/
def Grid.xGp (g : Grid) : Bool := g.x.extractLsb' 0 16 == 0#16

def decSpawn (g : Grid) : Dec OpSpawn := do
  need (g.plain && g.xGp) .reserved
  let gp ← decGp (g.x.extractLsb' 16 4)
  return ⟨g.gd, g.d, g.a, g.b, g.c, gp⟩

def decWt (g : Grid) : Dec OpWt := do
  need (g.plain && g.noD && g.noB && g.noC && g.xBelow 0) .reserved
  return ⟨g.gd, g.a⟩

def decLnch (g : Grid) : Dec OpLnch := do
  need (g.plain && g.noB && g.noC && g.xGp) .reserved
  let gp ← decGp (g.x.extractLsb' 16 4)
  return ⟨g.gd, g.d, g.a, gp⟩

def decCrlPut (g : Grid) : Dec OpCrlPut := do
  need (g.plain && g.noD && g.x.extractLsb' 0 12 == 0#12 && g.x.extractLsb' 14 2 == 0#2) .reserved
  let gp ← decGp (g.x.extractLsb' 16 4)
  return ⟨g.gd, g.a, g.b, g.c, gp, decBit (g.x.extractLsb' 12 1), decBit (g.x.extractLsb' 13 1)⟩

def decCrlRej (g : Grid) : Dec OpCrlRej := do
  need (g.plain && g.noD && g.noB && g.noC && g.xGp) .reserved
  let gp ← decGp (g.x.extractLsb' 16 4)
  return ⟨g.gd, g.a, gp⟩

def decVerPub (g : Grid) : Dec OpVerPub := do
  need (g.plain && g.noD && g.xBelow 4) .reserved
  let sc ← decScope (g.x.extractLsb' 0 4)
  return ⟨g.gd, g.a, g.b, g.c, sc⟩

def decKvTrunc (g : Grid) : Dec OpKvTrunc := do
  need (g.plain && g.noD && g.noC && g.xGp) .reserved
  let gp ← decGp (g.x.extractLsb' 16 4)
  return ⟨g.gd, g.a, g.b, gp⟩

def decKvMap (g : Grid) : Dec OpKvMap := do
  need (g.plain && g.noC && g.xGp) .reserved
  let gp ← decGp (g.x.extractLsb' 16 4)
  return ⟨g.gd, g.d, g.a, g.b, gp⟩

def decodeA (g : Grid) : Dec Instr :=
  match g.opc.toNat with
  | 0x80 => .cp <$> decCp g
  | 0x81 => .cpRs <$> decCpRs g
  | 0x82 => .cpBc <$> decCpDesc g
  | 0x83 => .cpGt <$> decCpDesc g
  | 0x84 => .cpLk <$> decCpDesc g
  | 0x88 => .barInit <$> decBarInit g
  | 0x89 => .barArr <$> decBarUpd g
  | 0x8A => .barArd <$> decBarUpd g
  | 0x8B => .barExp <$> decBarUpd g
  | 0x8C => .barWt <$> decBarWt g
  | 0x90 => .evtSg <$> decEvtSg g
  | 0x91 => .msg <$> decMsg g
  | 0x98 => .spawn <$> decSpawn g
  | 0x99 => .wtRet <$> decWt g
  | 0x9A => .wtBrw <$> decWt g
  | 0x9B => .lnch <$> decLnch g
  | 0xA0 => .crlPut <$> decCrlPut g
  | 0xA1 => .crlSeal <$> decN g
  | 0xA2 => .crlPutRej <$> decCrlRej g
  | 0xA8 => .verPubClm <$> decLnch g
  | 0xA9 => .verPub <$> decVerPub g
  | 0xAA => .verPubFin <$> decVerPub g
  | 0xAB => .verAdp <$> decFence g
  | 0xB0 => .kvAlloc <$> decLnch g
  | 0xB1 => .kvAllocMust <$> decRR g
  | 0xB2 => .kvTrunc <$> decKvTrunc g
  | 0xB3 => .kvFree <$> decWt g
  | 0xB4 => .kvMap <$> decKvMap g
  | _ => .error .unassigned

/-- The instruction of a slot word in a slot of class `cls`. The all-zero word is `nop`; opcode 0 with any other bit set
is refused (08 R198). -/
def decodeSlot (cls : SlotClass) (w : Word) : Dec Instr :=
  if w = 0 then .ok .nop
  else
    let g := Grid.ofWord w
    if g.opc = 0 then .error .reserved
    else match cls with
      | .s => decodeS g
      | .c => decodeC g
      | .l => decodeL g
      | .st => decodeSt g
      | .v => decodeV g
      | .p => decodeP g
      | .m => decodeM g
      | .k => decodeK g
      | .f => decodeF g
      | .a => decodeA g

/-! Micro-ops (12 R314, R315). -/

/-- A field of a micro-op: `n` bits from bit `lo`. -/
def uf (w : Word) (lo n : Nat) : BitVec n := w.extractLsb' lo n

/-- Every bit from `lo` to `hi - 1` is zero. -/
def uz (w : Word) (lo hi : Nat) : Bool := w.extractLsb' lo (hi - lo) == 0

def decUMac (w : Word) : Dec UMac := do
  need (uz w 0 23) .reserved
  let afmt ← decFmt (uf w 45 4)
  let sr ← match (uf w 42 3).toNat with
    | 0 => Except.ok false
    | 4 => .ok true
    | _ => .error DecodeError.limit
  let o : UMac :=
    { mkr := decBit (uf w 63 1), pl := uf w 57 2, aq := uf w 52 5, ak := decBit (uf w 51 1), sq := uf w 50 1,
      sk := decBit (uf w 49 1), afmt := afmt, sr := sr, rb := uf w 39 3, rofs := uf w 31 8, cg := uf w 29 2,
      ovw := decBit (uf w 28 1), ri := decBit (uf w 27 1), w64 := decBit (uf w 26 1), kr := uf w 23 3 }
  need o.ok .limit
  return o

def decULat (w : Word) : Dec ULat := do
  need (uz w 42 49 && uz w 28 39 && uz w 0 27) .reserved
  let o : ULat :=
    { mkr := decBit (uf w 63 1), pl := uf w 57 2, q := uf w 52 5, k := decBit (uf w 51 1), sq := uf w 50 1,
      sk := decBit (uf w 49 1), cr := uf w 39 3, ci := decBit (uf w 27 1) }
  need (mpOk o.cr) .limit
  return o

def decUSet (w : Word) : Dec USet := do
  need (uz w 32 52) .reserved
  let o : USet := ⟨decBit (uf w 63 1), uf w 56 3, uf w 53 3, decBit (uf w 52 1), uf w 0 32⟩
  need o.ok .limit
  return o

def decULoop (w : Word) : Dec ULoop := do
  need (uz w 16 54) .reserved
  let o : ULoop := ⟨decBit (uf w 63 1), decBit (uf w 58 1), decBit (uf w 57 1), uf w 54 3, uf w 0 16⟩
  need o.ok .limit
  return o

def decUEndl (w : Word) : Dec UEndl := do
  need (uz w 0 58) .reserved
  return ⟨decBit (uf w 63 1), decBit (uf w 58 1)⟩

def decUBrz (w : Word) : Dec UBrz := do
  need (uz w 8 55) .reserved
  let o : UBrz := ⟨decBit (uf w 63 1), uf w 56 3, decBit (uf w 55 1), uf w 0 8⟩
  need (mpOk o.s) .limit
  return o

def decUClr (w : Word) : Dec UClr := do
  need (uz w 42 59 && uz w 0 23) .reserved
  let o : UClr := ⟨decBit (uf w 63 1), uf w 39 3, uf w 31 8, uf w 23 8⟩
  need (mpOk o.rb) .limit
  return o

def decUAcp (w : Word) : Dec UAcp := do
  need (uz w 42 59 && uz w 0 12) .reserved
  let o : UAcp := ⟨decBit (uf w 63 1), uf w 39 3, uf w 31 8, uf w 28 3, uf w 20 8, uf w 12 8⟩
  need (mpOk o.rb && mpOk o.dr) .limit
  return o

/-- The micro-op of a word of the store, or why it is malformed. -/
def decodeUop (w : Word) : Dec Instr :=
  match (uf w 59 4).toNat with
  | 0 => if uz w 0 59 then .ok (.uopEnd (decBit (uf w 63 1))) else .error .reserved
  | 1 => .uopMac <$> decUMac w
  | 2 => .uopLat <$> decULat w
  | 3 => .uopSet <$> decUSet w
  | 4 => .uopLoop <$> decULoop w
  | 5 => .uopEndl <$> decUEndl w
  | 6 => .uopBrz <$> decUBrz w
  | 7 => .uopClr <$> decUClr w
  | 8 => .uopAcp <$> decUAcp w
  | 9 => if uz w 0 59 then .ok (.uopNop (decBit (uf w 63 1))) else .error .reserved
  | _ => .error .unassigned

/-! Bundle headers (08 R196, R197). -/

/-- The header of a bundle: owners of the six ports (a nibble each), ALIGN, REP and PRES. -/
structure Header where
  ports : BitVec 24
  align : BitVec 12
  rep : BitVec 8
  pres : BitVec 12
deriving DecidableEq, Repr

/-- Port nibble `p` of a PORTS field. -/
def portNibble (ports : BitVec 24) (p : Nat) : Nat := (ports.toNat / 16 ^ p) % 16

/-- The header of a word, refused when bits [63:56] are set or a nibble is 0xC or 0xD (08 R197, R220). -/
def decodeHeader (w : Word) : Dec Header := do
  need (w.extractLsb' 56 8 == 0#8) .reserved
  let h : Header := ⟨w.extractLsb' 32 24, w.extractLsb' 20 12, w.extractLsb' 12 8, w.extractLsb' 0 12⟩
  need ((List.range 6).all fun p => portNibble h.ports p != 0xC && portNibble h.ports p != 0xD) .limit
  return h

/-- A header word from its fields. -/
def Header.pack (h : Header) : Word := 0#8 ++ h.ports ++ h.align ++ h.rep ++ h.pres

/-- The class of slot number `i` (08 R197). -/
def slotClass (i : Nat) : SlotClass :=
  match i with
  | 0 => .s | 1 => .c | 2 => .l | 3 => .l | 4 => .st | 5 => .v | 6 => .v | 7 => .p | 8 => .m | 9 => .k | 10 => .f
  | _ => .a

/-! The encoder, from the same tables. -/

/-- An empty word with an opcode and a guard. -/
def gridOf (opc : BitVec 8) (gd : Guard) : Grid :=
  { x := 0, rm := 0, msk := 0, c := 0, b := 0, a := 0, d := 0, opc := opc, gs := encBit gd.neg, grd := gd.reg }

def encRRR (opc : BitVec 8) (o : OpRRR) : Grid := { gridOf opc o.gd with d := o.d, a := o.a, b := o.b }

def encRR (opc : BitVec 8) (o : OpRR) : Grid := { gridOf opc o.gd with d := o.d, a := o.a }

/-- Puts a 32-bit immediate in place (08 R199). -/
def Grid.withImm (g : Grid) (imm : BitVec 32) : Grid :=
  { g with
        x := 0#7 ++ imm.extractLsb' 19 13, rm := imm.extractLsb' 16 3, msk := imm.extractLsb' 12 4,
        c := imm.extractLsb' 6 6, b := imm.extractLsb' 0 6 }

def encRRI (opc : BitVec 8) (o : OpRRI) : Grid := { gridOf opc o.gd with d := o.d, a := o.a }.withImm o.imm

def encShI (opc : BitVec 8) (o : OpShI) : Grid := { gridOf opc o.gd with d := o.d, a := o.a, b := o.sh }

def encBfx (sx : BitVec 1) (o : OpBfx) : Grid :=
  { gridOf 0x14 o.gd with d := o.d, a := o.a, x := 0#6 ++ sx ++ o.len ++ o.pos }

def encCmp (opc : BitVec 8) (o : OpCmp) : Grid := { gridOf opc o.gd with d := encPair o.d, a := o.a, b := o.b }

def encCmpI (opc : BitVec 8) (o : OpCmpI) : Grid := { gridOf opc o.gd with d := encPair o.d, a := o.a }.withImm o.imm

def encBr (opc : BitVec 8) (o : OpBr) : Grid :=
  { gridOf opc o.gd with
        x := 0#19 ++ o.ofs.extractLsb' 31 1, rm := o.ofs.extractLsb' 28 3, msk := o.ofs.extractLsb' 24 4,
        c := o.ofs.extractLsb' 18 6, b := o.ofs.extractLsb' 12 6, a := o.ofs.extractLsb' 6 6, d := o.ofs.extractLsb' 0 6 }

def encLoop (opc : BitVec 8) (o : OpLoop) : Grid := { gridOf opc o.gd with d := 0#4 ++ o.lp, a := o.a }.withImm o.imm

/-- W in X[6:4] with the offset in X[19:9]. -/
def encWX (off : BitVec 11) (mid : BitVec 2) (w : Width) (low : BitVec 4) : BitVec 20 :=
  off ++ mid ++ encBit w.signed ++ w.size ++ low

def encOrd : Ord → BitVec 2 × BitVec 4
  | .plain => (0, 0)
  | .acq s => (1, encScope s)
  | .rel s => (2, encScope s)
  | .ar s => (3, encScope s)

def encAtmS (opc : BitVec 8) (o : OpAtmS) : Grid :=
  { gridOf opc o.gd with
        d := o.d, a := o.a, b := o.b, c := o.c,
        x := o.off ++ (encOrd o.ord).1 ++ encBit o.signed ++ 1#1 ++ encBit o.wide ++ (encOrd o.ord).2 }

def encAtm (opc : BitVec 8) (o : OpAtm) : Grid :=
  encAtmS opc ⟨o.gd, o.d, o.a, o.b, o.c, o.off, o.wide, false, o.ord⟩

def encRedT : RedT → BitVec 2
  | .f32 => 0 | .i32 => 1 | .i64 => 2

def encFence (opc : BitVec 8) (o : OpScope) : Grid := { gridOf opc o.gd with x := 0#16 ++ encScope o.scope }

/-- B and SB of a queue or scalar source. -/
def encQorS : QorS → BitVec 6 × BitVec 20
  | .queue q => (encQSrc q, 0)
  | .scalar s => (s, 0x80000)

def encVArith (opc : BitVec 8) (o : OpVArith) : Grid :=
  { gridOf opc o.gd with
        d := encQDst o.d, a := encQSrc o.a, b := (encQorS o.b).1, x := (encQorS o.b).2, msk := o.msk,
        rm := encRnd o.rm }

def encVFma (opc : BitVec 8) (o : OpVFma) : Grid :=
  { gridOf opc o.gd with
        d := encQDst o.d, a := encQSrc o.a, b := (encQorS o.b).1, x := (encQorS o.b).2,
        c := encQSrc o.c, msk := o.msk, rm := encRnd o.rm }

def encVBin (opc : BitVec 8) (o : OpVBin) : Grid :=
  { gridOf opc o.gd with d := encQDst o.d, a := encQSrc o.a, b := (encQorS o.b).1, x := (encQorS o.b).2, msk := o.msk }

def encVUn (opc : BitVec 8) (o : OpVUn) : Grid :=
  { gridOf opc o.gd with d := encQDst o.d, a := encQSrc o.a, msk := o.msk }

def encVTr (opc : BitVec 8) (o : OpVTr) : Grid :=
  { gridOf opc o.gd with d := encQDst o.d, a := encQSrc o.a, msk := o.msk, rm := encRnd o.rm }

def encVCmp (opc : BitVec 8) (o : OpVCmp) : Grid :=
  { gridOf opc o.gd with d := encPair o.d, a := encQSrc o.a, b := (encQorS o.b).1, x := (encQorS o.b).2, msk := o.msk }

def encVRed (o : OpVRed) : Grid :=
  let g := { gridOf 0x80 o.gd with a := encQSrc o.a, msk := o.msk, rm := encRnd o.rm }
  match o.dst with
  | .queue d => { g with d := encQDst d, x := 0#15 ++ 0#2 ++ o.op }
  | .scalar d => { g with d := d, x := 0#15 ++ 1#2 ++ o.op }
  | .vs n t => { g with d := 0#3 ++ n, c := t, x := 0#15 ++ 2#2 ++ o.op }

def encOptMode : OptMode → BitVec 2
  | .mom => 0 | .adam => 1 | .sgd => 2

/-- SCM and C of a scale source. -/
def encScm (c : Option (BitVec 6)) : BitVec 1 × BitVec 6 :=
  match c with
  | none => (1, 0)
  | some r => (0, r)

def encZip (opc : BitVec 8) (o : OpZip) : Grid :=
  { gridOf opc o.gd with d := encQDst o.d, a := encQSrc o.a, b := encQSrc o.b, x := 0#18 ++ encEWidth o.w }

/-- CONV and W64 of `acc.rd`. -/
def encConv : AccConv → BitVec 3 × BitVec 1
  | .f32 => (0, 0) | .f64 => (1, 1) | .bf16 => (2, 0) | .scp => (3, 0)

def encFMode : FMode → BitVec 2
  | .fp32 => 0 | .bf16 => 1 | .scp => 2

def encLay : FoLay → BitVec 20
  | .run l b => 0#8 ++ 0#1 ++ l ++ 0#2 ++ b ++ 0#2
  | .lanes lm b => lm ++ 0#1 ++ 0#3 ++ 0#2 ++ b ++ 1#2
  | .banks l => 0#8 ++ 0#1 ++ l ++ 0#2 ++ 0#4 ++ 2#2

def encFl (opx : BitVec 4) (f : CmdFlags) : BitVec 20 :=
  0#4 ++ opx ++ encBit f.byt ++ f.evn ++ encBit f.eve ++ encBit f.rel ++ encBit f.acq ++ encScope f.scope

def encCpDesc (opc : BitVec 8) (o : OpCpDesc) : Grid :=
  { gridOf opc o.gd with a := o.a, c := o.c, x := encFl 0 o.fl }

def encBarUpd (opc : BitVec 8) (o : OpBarUpd) : Grid :=
  { gridOf opc o.gd with a := o.a, b := o.b, x := 0#16 ++ encScope o.scope }

def encMsgLen : MsgLen → BitVec 2
  | .b64 => 0 | .b128 => 1 | .b256 => 2

def encXGp (gp : BitVec 3) : BitVec 20 := encGp gp ++ 0#16

def encWt (opc : BitVec 8) (o : OpWt) : Grid := { gridOf opc o.gd with a := o.a }

def encLnch (opc : BitVec 8) (o : OpLnch) : Grid := { gridOf opc o.gd with d := o.d, a := o.a, x := encXGp o.gp }

def encVerPub (opc : BitVec 8) (o : OpVerPub) : Grid :=
  { gridOf opc o.gd with a := o.a, b := o.b, c := o.c, x := 0#16 ++ encScope o.scope }

/-- The class and the fields of an S-slot instruction's word. -/
def encodeS : Instr → Option Grid
  | .add o => some (encRRR 0x01 o) | .sub o => some (encRRR 0x02 o) | .mul o => some (encRRR 0x03 o)
  | .mulh o => some (encRRR 0x04 o) | .mulhu o => some (encRRR 0x05 o) | .divu o => some (encRRR 0x06 o)
  | .and o => some (encRRR 0x08 o) | .or o => some (encRRR 0x09 o) | .xor o => some (encRRR 0x0A o)
  | .shl o => some (encRRR 0x0B o) | .shr o => some (encRRR 0x0C o) | .sra o => some (encRRR 0x0D o)
  | .min o => some (encRRR 0x0E o) | .max o => some (encRRR 0x0F o) | .minu o => some (encRRR 0x10 o)
  | .maxu o => some (encRRR 0x11 o)
  | .clz o => some (encRR 0x12 o) | .pcnt o => some (encRR 0x13 o)
  | .bfx o => some (encBfx 0 o) | .bfxS o => some (encBfx 1 o)
  | .bfi o => some { gridOf 0x15 o.gd with d := o.d, a := o.a, b := o.b, x := 0#7 ++ o.len ++ o.pos }
  | .addi o => some (encRRI 0x21 o) | .muli o => some (encRRI 0x23 o) | .andi o => some (encRRI 0x28 o)
  | .ori o => some (encRRI 0x29 o) | .xori o => some (encRRI 0x2A o)
  | .shli o => some (encShI 0x2B o) | .shri o => some (encShI 0x2C o) | .srai o => some (encShI 0x2D o)
  | .cmpEq o => some (encCmp 0x40 o) | .cmpNe o => some (encCmp 0x41 o) | .cmpLt o => some (encCmp 0x42 o)
  | .cmpGe o => some (encCmp 0x43 o) | .cmpLtu o => some (encCmp 0x44 o) | .cmpGeu o => some (encCmp 0x45 o)
  | .cmpiEq o => some (encCmpI 0x48 o) | .cmpiNe o => some (encCmpI 0x49 o) | .cmpiLt o => some (encCmpI 0x4A o)
  | .cmpiGe o => some (encCmpI 0x4B o) | .cmpiLtu o => some (encCmpI 0x4C o) | .cmpiGeu o => some (encCmpI 0x4D o)
  | .sel o => some { gridOf 0x50 o.gd with d := o.d, a := o.a, b := o.b, c := 0#2 ++ o.gc }
  | .li o => some ({ gridOf 0x60 o.gd with d := o.d }.withImm o.imm)
  | .lih o => some (encRRI 0x61 o)
  | .ctlRd o => some { gridOf 0x68 o.gd with d := o.d, x := 0#8 ++ o.num }
  | .ctlWr o => some { gridOf 0x69 o.gd with a := o.a, x := 0#8 ++ o.num }
  | _ => none

def encodeC : Instr → Option Grid
  | .br o => some (encBr 0x80 o) | .call o => some (encBr 0x82 o)
  | .jmp o => some { gridOf 0x81 o.gd with a := o.a }
  | .ret o => some { gridOf 0x83 o.gd with a := o.a }
  | .loop o => some (encLoop 0x84 o) | .lbrk o => some (encLoop 0x85 o)
  | .sync o => some { gridOf 0x86 o.gd with x := 0#16 ++ encBit o.eng ++ encBit o.fo ++ encBit o.mx ++ encBit o.land }
  | .halt g => some (gridOf 0x87 g)
  | .trap o => some ((gridOf 0x88 o.gd).withImm (0#16 ++ o.code))
  | .evtWt o => some { gridOf 0x89 o.gd with d := o.d, x := o.mask ++ encScope o.scope }
  | .hret g => some (gridOf 0x8A g)
  | .tlbInv o => some { gridOf 0xE0 o.gd with a := o.a, b := o.b, x := 0#14 ++ o.kind ++ 0#4 }
  | .ctxSv o => some (encRR 0xE1 o) | .ctxLd o => some (encRRR 0xE2 o) | .tilePre o => some (encRR 0xE3 o)
  | .brdMov o => some (encRRR 0xE4 o) | .ucVfy o => some (encRR 0xE5 o)
  | _ => none

def encodeL : Instr → Option Grid
  | .sdLd o => some { gridOf 0x88 o.gd with d := 0#2 ++ o.d, a := o.a }
  | .ldQ o => some { gridOf 0x80 o.gd with
        d := encQDst o.d, a := 0#2 ++ o.a,
        x := match o.sq with | none => 0 | some s => if s == 0#1 then 1 else 2 }
  | .ldSc o => some { gridOf 0x81 o.gd with d := 0#5 ++ o.d, a := 0#2 ++ o.a }
  | .ldG o => some { gridOf 0x82 o.gd with d := encQDst o.d, a := 0#2 ++ o.a, b := o.b, msk := o.msk, x := encWX 0 0 o.w 0 }
  | .ldS o => some { gridOf 0x83 o.gd with d := o.d, a := o.a, b := o.b, x := encWX o.off 0 o.w 0 }
  | .ldAcq o => some { gridOf 0x84 o.gd with d := o.d, a := o.a, b := o.b, x := encWX o.off 0 o.w (encScope o.scope) }
  | _ => none

def encodeSt : Instr → Option Grid
  | .stQ o => some { gridOf 0x80 o.gd with a := 0#2 ++ o.a, b := encQSrc o.b, msk := o.msk }
  | .stCt o => some { gridOf 0x81 o.gd with a := 0#2 ++ o.a, b := 0#2 ++ o.b, c := encQSrc o.c, rm := encRnd o.rm }
  | .stX o => some { gridOf 0x82 o.gd with
        a := o.a, b := encQSrc o.b, c := encQSrc o.c, msk := o.msk,
        x := encWX 0 0 ⟨false, o.size⟩ 0 }
  | .stS o => some { gridOf 0x83 o.gd with a := o.a, b := o.b, c := o.c, x := encWX o.off 0 ⟨false, o.size⟩ 0 }
  | .stRel o => some { gridOf 0x84 o.gd with
        a := o.a, b := o.b, c := o.c,
        x := encWX o.off 0 ⟨false, o.size⟩ (encScope o.scope) }
  | .atmAdd o => some (encAtm 0x88 o) | .atmMin o => some (encAtmS 0x89 o) | .atmMax o => some (encAtmS 0x8A o)
  | .atmAnd o => some (encAtm 0x8B o) | .atmOr o => some (encAtm 0x8C o) | .atmXchg o => some (encAtm 0x8D o)
  | .atmCas o => some (encAtm 0x8E o)
  | .redAdd o => some { gridOf 0x90 o.gd with
        a := 0#2 ++ o.a, b := encQSrc o.b, msk := o.msk,
        x := 0#14 ++ encRedT o.t ++ 0#4 }
  | .fenceRw o => some (encFence 0x98 o) | .fenceAcq o => some (encFence 0x99 o) | .fenceRel o => some (encFence 0x9A o)
  | _ => none

def encodeV : Instr → Option Grid
  | .vaddF o => some (encVArith 0x01 o) | .vsubF o => some (encVArith 0x02 o) | .vmulF o => some (encVArith 0x03 o)
  | .vfmaF o => some (encVFma 0x04 o) | .vfmsF o => some (encVFma 0x05 o)
  | .vminF o => some (encVBin 0x06 o) | .vmaxF o => some (encVBin 0x07 o)
  | .vabsF o => some (encVUn 0x08 o) | .vnegF o => some (encVUn 0x09 o)
  | .vaddI o => some (encVBin 0x10 o) | .vsubI o => some (encVBin 0x11 o) | .vmulI o => some (encVBin 0x12 o)
  | .vmulhI o => some (encVBin 0x13 o) | .vminI o => some (encVBin 0x14 o) | .vmaxI o => some (encVBin 0x15 o)
  | .vminuI o => some (encVBin 0x16 o) | .vmaxuI o => some (encVBin 0x17 o) | .vand o => some (encVBin 0x18 o)
  | .vor o => some (encVBin 0x19 o) | .vxor o => some (encVBin 0x1A o) | .vshl o => some (encVBin 0x1B o)
  | .vshr o => some (encVBin 0x1C o) | .vsra o => some (encVBin 0x1D o) | .vaddsI o => some (encVBin 0x1E o)
  | .vrcp o => some (encVTr 0x20 o) | .vrsq o => some (encVTr 0x21 o) | .vexp2 o => some (encVTr 0x22 o)
  | .vlg2 o => some (encVTr 0x23 o)
  | .vcmpEq o => some (encVCmp 0x40 o) | .vcmpNe o => some (encVCmp 0x41 o) | .vcmpLt o => some (encVCmp 0x42 o)
  | .vcmpLe o => some (encVCmp 0x43 o) | .vcmpGt o => some (encVCmp 0x44 o) | .vcmpGe o => some (encVCmp 0x45 o)
  | .vcmpUn o => some (encVCmp 0x46 o)
  | .vicmpEq o => some (encVCmp 0x48 o) | .vicmpNe o => some (encVCmp 0x49 o) | .vicmpLt o => some (encVCmp 0x4A o)
  | .vicmpGe o => some (encVCmp 0x4B o) | .vicmpLtu o => some (encVCmp 0x4C o) | .vicmpGeu o => some (encVCmp 0x4D o)
  | .vsel o => some (encVBin 0x50 o)
  | .vsplat o => some { gridOf 0x60 o.gd with d := encQDst o.d, a := o.a, msk := o.msk, x := 0#19 ++ encBit o.w64 }
  | .viota o => some { gridOf 0x61 o.gd with d := encQDst o.d, a := o.a, b := o.b, msk := o.msk }
  | .vmov o => some (encVUn 0x62 o)
  | .vcvt o => some { gridOf 0x68 o.gd with
        d := encQDst o.d, a := encQSrc o.a, msk := o.msk, rm := encRnd o.rm,
        x := 0#12 ++ encLFmt o.tof ++ encLFmt o.frm }
  | .vred o => some (encVRed o)
  | .vdot o => some { gridOf 0x81 o.gd with
        d := encQDst o.d, a := encQSrc o.a, b := encQSrc o.b, c := encQSrc o.c,
        msk := o.msk, rm := encRnd o.rm }
  | .vupd o => some { gridOf 0x82 o.gd with
        d := encQDst o.d, a := 0#1 ++ o.a, b := encQSrc o.b, c := o.c, msk := o.msk,
        rm := encRnd o.rm, x := 0#15 ++ encOptMode o.mode ++ o.vs }
  | _ => none

def encodeP : Instr → Option Grid
  | .pkMx o => some { gridOf 0x80 o.gd with
        d := encQDst o.d, a := encQSrc o.a, b := encQSrc o.b, c := (encScm o.c).2,
        rm := encRnd o.rm, x := 0#12 ++ (encScm o.c).1 ++ encBit o.split ++ encBlk o.blk ++ encFmt o.fmt }
  | .upkMx o => some { gridOf 0x81 o.gd with
        d := encQDst o.d, a := encQSrc o.a, c := (encScm o.c).2,
        x := 0#12 ++ (encScm o.c).1 ++ 0#1 ++ encBlk o.blk ++ encFmt o.fmt }
  | .shf o => some { gridOf 0x82 o.gd with d := encQDst o.d, a := encQSrc o.a, b := encQSrc o.b }
  | .xpo o => some { gridOf 0x83 o.gd with d := encQDst o.d, a := encQSrc o.a, x := 0#18 ++ encEWidth o.w }
  | .bct o => some { gridOf 0x84 o.gd with d := encQDst o.d, a := encQSrc o.a, x := 0#13 ++ encBit o.sub ++ o.lane }
  | .scGet o => some (match o.dst with
      | .scalar d => { gridOf 0x85 o.gd with d := d, a := encQSrc o.a }
      | .sq q => { gridOf 0x85 o.gd with d := 0#5 ++ q, a := encQSrc o.a, x := 1 })
  | .zip o => some (encZip 0x86 o)
  | .unzip o => some (encZip 0x87 o)
  | .pkH o => some { gridOf 0x88 o.gd with
        d := encQDst o.d, a := encQSrc o.a, b := encQSrc o.b, rm := encRnd o.rm,
        x := 0#19 ++ encBit o.half }
  | .upkH o => some { gridOf 0x89 o.gd with d := encQDst o.d, a := encQSrc o.a, x := 0#19 ++ encBit o.half }
  | _ => none

def encodeM : Instr → Option Grid
  | .mpWr o => some { gridOf 0x60 o.gd with d := 0#3 ++ o.d, a := o.a }
  | .mpRd o => some (match o.a with
      | some r => { gridOf 0x61 o.gd with d := o.d, a := 0#3 ++ r }
      | none => { gridOf 0x61 o.gd with d := o.d, x := 1 })
  | .mxCall o => some { gridOf 0x80 o.gd with x := 0#12 ++ o.entry }
  | .mxLat o => some { gridOf 0x81 o.gd with d := 0#4 ++ o.d, a := o.a, b := encQSrc o.b, c := 0#5 ++ o.c }
  | .mxPrm o => some { gridOf 0x82 o.gd with d := 0#4 ++ o.d, a := o.a, x := 0#14 ++ encBlk o.blk ++ encFmt o.fmt }
  | .mxUcw o => some (encRR 0x83 o)
  | .accRd o => some { gridOf 0x84 o.gd with
        d := encQDst o.d, a := o.a, b := o.b, c := o.c, rm := encRnd o.rm,
        x := 0#10 ++ o.cd ++ encBit o.sort ++ encBit o.tmp ++ encBit o.gum ++ (encConv o.conv).2 ++ (encConv o.conv).1 }
  | .accClr o => some { gridOf 0x85 o.gd with a := o.a, b := o.b }
  | .accCp o => some { gridOf 0x86 o.gd with a := o.a, b := o.b, c := o.c }
  | _ => none

def encodeK : Instr → Option Grid
  | .rngSet o => some { gridOf 0x60 o.gd with a := o.a, b := o.b, x := 0#18 ++ encBit o.wc ++ encBit o.wk }
  | .cdClr o => some { gridOf 0x80 o.gd with a := o.a, x := 0#17 ++ o.cd }
  | .cdMrg o => some { gridOf 0x81 o.gd with a := encQSrc o.a, b := o.b, msk := o.msk, x := 0#17 ++ o.cd }
  | .cdTop o => some { gridOf 0x82 o.gd with d := encQDst o.d, x := 0#17 ++ o.cd }
  | .cdArg o => some { gridOf 0x83 o.gd with d := o.d, x := encGp o.gp ++ 0#11 ++ encBit o.adv ++ encBit o.gum ++ o.cd }
  | .cdThr o => some { gridOf 0x84 o.gd with d := o.d, a := o.a, x := 0#16 ++ encBit o.relt ++ o.cd }
  | _ => none

def encodeF : Instr → Option Grid
  | .foMd o => some { gridOf 0x60 o.gd with x := 0#18 ++ encFMode o.fmt }
  | .foShp o => some { gridOf 0x80 o.gd with a := encQSrc o.a, x := 0#14 ++ o.shape }
  | .foLd o => some { gridOf 0x81 o.gd with a := encQSrc o.a, b := o.b, x := encLay o.lay }
  | .foSt o => some { gridOf 0x82 o.gd with d := encQDst o.d, b := o.b, x := encLay o.lay }
  | .foUp o => some { gridOf 0x83 o.gd with
        d := encQDst o.d, a := o.a, b := o.b,
        x := o.lm ++ 0#1 ++ encBit o.wb ++ o.rb ++ o.shape }
  | .foDn o => some { gridOf 0x84 o.gd with a := o.a, b := o.b, x := o.lm ++ 0#1 ++ encBit o.acc ++ o.rb ++ o.shape }
  | .foNrm o => some { gridOf 0x85 o.gd with a := o.a, b := o.b, c := o.c, x := o.lm ++ 0#2 ++ o.rb ++ o.bank ++ 0#2 }
  | _ => none

def encodeA : Instr → Option Grid
  | .cp o => some { gridOf 0x80 o.gd with d := o.d, a := o.a, b := o.b, c := o.c, x := encFl 0 o.fl }
  | .cpRs o => some { gridOf 0x81 o.gd with d := o.d, a := o.a, b := o.b, c := o.c, x := encFl (0#1 ++ encRk o.rk) o.fl }
  | .cpBc o => some (encCpDesc 0x82 o) | .cpGt o => some (encCpDesc 0x83 o) | .cpLk o => some (encCpDesc 0x84 o)
  | .barInit o => some { gridOf 0x88 o.gd with a := o.a, b := o.b, c := o.c, x := 0#16 ++ encScope o.scope }
  | .barArr o => some (encBarUpd 0x89 o) | .barArd o => some (encBarUpd 0x8A o) | .barExp o => some (encBarUpd 0x8B o)
  | .barWt o => some { gridOf 0x8C o.gd with d := o.d, a := o.a, b := o.b, x := 0#16 ++ encScope o.scope }
  | .evtSg o => some { gridOf 0x90 o.gd with
        a := o.a,
        x := 0#9 ++ o.evn ++ 0#1 ++ encBit o.rel ++ 0#1 ++ encScope o.scope }
  | .msg o => some { gridOf 0x91 o.gd with
        a := o.a, b := o.b, c := o.c,
        x := 0#6 ++ encMsgLen o.len ++ 0#6 ++ encBit o.rel ++ encBit o.acq ++ encScope o.scope }
  | .spawn o => some { gridOf 0x98 o.gd with d := o.d, a := o.a, b := o.b, c := o.c, x := encXGp o.gp }
  | .wtRet o => some (encWt 0x99 o) | .wtBrw o => some (encWt 0x9A o)
  | .lnch o => some (encLnch 0x9B o)
  | .crlPut o => some { gridOf 0xA0 o.gd with
        a := o.a, b := o.b, c := o.c,
        x := encGp o.gp ++ 0#2 ++ encBit o.draft ++ encBit o.eos ++ 0#12 }
  | .crlSeal g => some (gridOf 0xA1 g)
  | .crlPutRej o => some { gridOf 0xA2 o.gd with a := o.a, x := encXGp o.gp }
  | .verPubClm o => some (encLnch 0xA8 o)
  | .verPub o => some (encVerPub 0xA9 o) | .verPubFin o => some (encVerPub 0xAA o)
  | .verAdp o => some (encFence 0xAB o)
  | .kvAlloc o => some (encLnch 0xB0 o)
  | .kvAllocMust o => some (encRR 0xB1 o)
  | .kvTrunc o => some { gridOf 0xB2 o.gd with a := o.a, b := o.b, x := encXGp o.gp }
  | .kvFree o => some (encWt 0xB3 o)
  | .kvMap o => some { gridOf 0xB4 o.gd with d := o.d, a := o.a, b := o.b, x := encXGp o.gp }
  | _ => none

/-- The fields of an instruction's word in a slot of class `cls`, when the class has that instruction. -/
def encodeGrid (cls : SlotClass) (i : Instr) : Option Grid :=
  match cls with
  | .s => encodeS i | .c => encodeC i | .l => encodeL i | .st => encodeSt i | .v => encodeV i
  | .p => encodeP i | .m => encodeM i | .k => encodeK i | .f => encodeF i | .a => encodeA i

/-- The slot word of an instruction. -/
def encodeSlot (cls : SlotClass) (i : Instr) : Option Word :=
  match i with
  | .nop => some 0
  | i => (encodeGrid cls i).map Grid.pack

/-- The micro-op word of an instruction (12 R314, R315). -/
def encodeUop : Instr → Option Word
  | .uopEnd m => some (encBit m ++ 0#4 ++ 0#59)
  | .uopMac o => some (encBit o.mkr ++ 1#4 ++ o.pl ++ o.aq ++ encBit o.ak ++ o.sq ++ encBit o.sk ++ encFmt o.afmt ++
      (if o.sr then 4#3 else 0#3) ++ o.rb ++ o.rofs ++ o.cg ++ encBit o.ovw ++ encBit o.ri ++ encBit o.w64 ++ o.kr ++ 0#23)
  | .uopLat o => some (encBit o.mkr ++ 2#4 ++ o.pl ++ o.q ++ encBit o.k ++ o.sq ++ encBit o.sk ++ 0#7 ++ o.cr ++ 0#11 ++
      encBit o.ci ++ 0#27)
  | .uopSet o => some (encBit o.mkr ++ 3#4 ++ o.d ++ o.s ++ encBit o.add ++ 0#20 ++ o.imm)
  | .uopLoop o => some (encBit o.mkr ++ 4#4 ++ encBit o.lv ++ encBit o.csrc ++ o.s ++ 0#38 ++ o.imm)
  | .uopEndl o => some (encBit o.mkr ++ 5#4 ++ encBit o.lv ++ 0#58)
  | .uopBrz o => some (encBit o.mkr ++ 6#4 ++ o.s ++ encBit o.nz ++ 0#47 ++ o.tgt)
  | .uopClr o => some (encBit o.mkr ++ 7#4 ++ 0#17 ++ o.rb ++ o.rofs ++ o.nm1 ++ 0#23)
  | .uopAcp o => some (encBit o.mkr ++ 8#4 ++ 0#17 ++ o.rb ++ o.rofs ++ o.dr ++ o.dofs ++ o.nm1 ++ 0#12)
  | .uopNop m => some (encBit m ++ 9#4 ++ 0#59)
  | _ => none

/-! Instructions as the opcode table numbers their bits. The table gives no row any encoding bits, so a row's bits are
those of this manual: a micro-op is one 64-bit word; a slot operation is a bundle of a header with one bit of PRES and
one slot word (08 R196). -/

/-- The first slot present in a header. -/
def firstSlot (pres : BitVec 12) : Option Nat :=
  (List.range 12).find? fun i => (pres.toNat / 2 ^ i) % 2 == 1

/-- The instruction of a one-slot bundle. -/
def decodeOneSlot (hdr w : Word) : Option Instr :=
  match decodeHeader hdr with
  | .error _ => none
  | .ok h =>
    match firstSlot h.pres with
    | none => none
    | some i =>
      if h.pres.toNat = 2 ^ i then
        match decodeSlot (slotClass i) w with
        | .ok ins => some ins
        | .error _ => none
      else none

/-- The instruction whose bits are `w`: a micro-op for at most 64 bits, else a one-slot bundle. -/
def decodeTableWord (nbits w : Nat) : Option Instr :=
  if nbits ≤ 64 then
    match decodeUop (BitVec.ofNat 64 w) with
    | .ok ins => some ins
    | .error _ => none
  else decodeOneSlot (BitVec.ofNat 64 w) (BitVec.ofNat 64 (w / 2 ^ 64))

end Sys2Proof
end

