-- ==== Sys2Proof/Machine/Sampling.lean ====
section
/-!
DEFINITION. Candidate lists and the K slot (14 R343 to R350).
-/

namespace Sys2Proof.Machine

open Sys2Proof

/-- Whether pair x stands strictly before pair y in list order (R343). -/
def pairBefore (x y : Lane × Lane) : Bool :=
  let a := fmtF32.decode x.1.toNat
  let b := fmtF32.decode y.1.toNat
  fltVal b a || (!fltVal a b && x.2.ult y.2)

/-- A pair put into a list after its equals. -/
def pairInsert (x : Lane × Lane) (l : List (Lane × Lane)) : List (Lane × Lane) :=
  match l with
  | [] => [x]
  | y :: t => if pairBefore x y then x :: y :: t else y :: pairInsert x t

/-- `cd.mrg` (R347): new pairs in lane order merged into a list; NaN values are dropped and set IV. -/
def CandList.merge (l : CandList) (new : List (Lane × Lane)) : CandList × Flags :=
  let isNan := fun (p : Lane × Lane) => (fmtF32.decode p.1.toNat).isNan
  let s := (new.filter fun p => !isNan p).foldl (fun a p => pairInsert p a) l.pairs
  ({ l with pairs := s.take l.kcap }, fIf (new.any isNan) fIV)

def Ctx.cand (x : Ctx) (n : Nat) : CandList := mapGet .init x.cds n

def Ctx.setCand (x : Ctx) (n : Nat) (l : CandList) : Ctx := { x with cds := mapSet .init x.cds n l }

/-- Merges lanes into list `n`: those of `sel`, with indexes from `base`. -/
def State.mergeList (s : State) (n : Nat) (base : Nat) (sel : List Nat) (f : Nat → Nat) : State :=
  let new := sel.map fun i => (BitVec.ofNat 32 (f i), BitVec.ofNat 32 (base + i))
  let (l, fl) := (s.me.cand n).merge new
  (s.upd fun x => x.setCand n l).flag fl

/-- `rng.set` (R345). -/
def execRngSet (o : OpRngSet) (s : State) : Host.Outcome State Fault Refusal :=
  guarded s o.gd skip fun s => do
    let a ← s.rdS o.a
    let b ← s.rdS o.b
    return s.updRegs fun r => { r with seedk := if o.wk then a else r.seedk, cgctr := if o.wc then b else r.cgctr }

/-- `cd.clr` (R346). -/
def execCdClr (o : OpCdClr) (s : State) : Host.Outcome State Fault Refusal :=
  guarded s o.gd skip fun s => do
    let a ← s.rdS o.a
    let cap := if 1 ≤ a.toNat && a.toNat ≤ 63 then a.toNat else 64
    return s.upd fun x => x.setCand o.cd.toNat ⟨[], cap, false⟩

/-- `cd.mrg` (R347). -/
def execCdMrg (o : OpCdMrg) (s : State) : Host.Outcome State Fault Refusal :=
  guarded s o.gd (fun s => s.drop o.a) fun s => do
    let (a, s) ← s.src o.a
    let b ← s.rdS o.b
    let m := s.mask o.msk
    return s.mergeList o.cd.toNat b.toNat ((List.range 64).filter fun i => m.getLsbD i) (lane a)

/-- `cd.top` (R348). -/
def execCdTop (o : OpCdTop) (s : State) : Host.Outcome State Fault Refusal :=
  guarded s o.gd (fun s => s.zeros o.d 2) fun s =>
    let l := (s.me.cand o.cd.toNat).pairs
    let at' := fun (i : Nat) => l.getD i (0x7FC00000, 0xFFFFFFFF)
    s.dsts o.d [ofLanes ((List.range 64).map fun i => (at' i).1.toNat), ofLanes ((List.range 64).map fun i => (at' i).2.toNat)]

/-- The Gumbel variate of a column or an index (03 R98), with key, tag and index base as the bundle was dispatched. -/
def State.noise (s : State) (kind i : Nat) : Nat :=
  let d : DrawSrc := { key := s.old.r.seedk, tag := wbits s.old.r.cgctr 40 24, kind := kind, round := 0, hop := 0 }
  gumbel (d.gen (wbits s.old.r.cgctr 0 40 + i))

/-- `cd.arg` (R349). -/
def execCdArg (o : OpCdArg) (s : State) : Host.Outcome State Fault Refusal :=
  guarded s o.gd skip fun s =>
    let l := s.me.cand o.cd.toNat
    let s' : State :=
      if l.pairs.isEmpty || l.void then (s.wrS o.d (BitVec.allOnes 64)).wrG o.gp false
      else
        let ys := l.pairs.map fun p => if o.gum then fmtF32.add .rne 0 p.1.toNat (s.noise 3 p.2.toNat) else ⟨p.1.toNat, 0⟩
        let y := fun (i : Nat) => fmtF32.decode ((ys.getD i ⟨0, 0⟩).bits)
        let q := (List.range l.pairs.length).foldl (fun b i => if fltVal (y b) (y i) then i else b) 0
        let (v, i) := l.pairs.getD q (0, 0)
        ((s.wrS o.d (v ++ i)).wrG o.gp true).flag (joinFlags ys)
    .ok (if o.adv then s'.consume (2 ^ 24) else s')

/-- Whether the exact sum v + t is below v0 (R350); none for −∞ + ∞. -/
def relBelow (v t v0 : FVal) : Option Bool :=
  match v, t with
  | .inf true, .inf false => none
  | .inf n, _ => some (fltVal (.inf n) v0)
  | _, .inf n => some (fltVal (.inf n) v0)
  | .fin n1 m1 e1, .fin n2 m2 e2 => some (fltVal (addFin .rne n1 m1 e1 n2 m2 e2) v0)
  | _, _ => some false

/-- `cd.thr` (R350). -/
def execCdThr (o : OpCdThr) (s : State) : Host.Outcome State Fault Refusal :=
  guarded s o.gd skip fun s => do
    let a ← s.rdS o.a
    let t := fmtF32.decode (a.toNat % 2 ^ 32)
    let l := s.me.cand o.cd.toNat
    let bad := t.isNan || (o.relt && fltVal t (.fin false 0 0))
    let v0 := fmtF32.decode ((l.pairs.headD (0, 0)).1.toNat)
    let below := fun (p : Lane × Lane) =>
      let v := fmtF32.decode p.1.toNat
      if o.relt then relBelow v t v0 else some (fltVal v t)
    let keep := if bad then l.pairs else l.pairs.filter fun p => below p != some true
    let iv := bad || l.pairs.any fun p => below p == none
    let s := s.upd fun x => x.setCand o.cd.toNat { l with pairs := keep }
    return (s.wrS o.d (BitVec.ofNat 64 keep.length)).flag (fIf iv fIV)

end Sys2Proof.Machine
end

