-- ==== Sys2Proof/Machine/Crypto.lean ====
section
/-!
DEFINITION. SHA-384 and ECDSA over P-384, by which microprogram images are verified (09 R253, 19 R435). The manual names both by
their standards (FIPS 180-4, FIPS 186-5), whose constants these are.
-/

namespace Sys2Proof.Machine

open Sys2Proof

/-! SHA-384. Its constants are fractions of the roots of the first primes (FIPS 180-4, 4.2.3 and 5.3.4). -/

/-- The primes below 410: the first eighty. -/
def firstPrimes : List Nat :=
  (List.range 410).filter fun n => decide (2 ≤ n) && (List.range 21).all fun d => d < 2 || n ≤ d || n % d ≠ 0

/-- The greatest number whose `k`-th power is at most `n`, of `bits` bits. -/
def rootOf (k n bits : Nat) : Nat :=
  (List.range bits).foldl (fun r i =>
    let more := r + 2 ^ (bits - 1 - i)
    if more ^ k ≤ n then more else r) 0

/-- The first 64 bits of the fraction of the `k`-th root of `p`. -/
def rootFraction (k p : Nat) : Word := BitVec.ofNat 64 (rootOf k (p * 2 ^ (64 * k)) 69)

def shaK : List Word := firstPrimes.map (rootFraction 3)

def shaInit : List Word := ((firstPrimes.drop 8).take 8).map (rootFraction 2)

/-- The message, a one bit, zeros, and its length in bits, to whole blocks of 128 bytes. -/
def shaPad (m : List Byte) : List Byte :=
  m ++ [0x80] ++ List.replicate ((239 - m.length % 128) % 128) 0 ++ (leBytes 16 (8 * m.length)).reverse

/-- A big-endian number of bytes. -/
def beNat (bs : List Byte) : Nat := leNat bs.reverse

/-- The exclusive or of a word turned right by each of some amounts. -/
def turns (rs : List Nat) (x : Word) : Word := rs.foldl (fun acc r => acc ^^^ x.rotateRight r) 0

/-- Bit by bit, `x` where `sel` is 1 and `y` where it is 0. -/
def choose (sel x y : Word) : Word := y ^^^ (sel &&& (x ^^^ y))

/-- Bit by bit, the value that at least two of three words have. -/
def most (x y z : Word) : Word := choose (x ^^^ y) z x

/-- A block's schedule goes on from its last sixteen words, the oldest first. -/
def scheduleStep (w : List Word) : List Word :=
  let at' := fun i => w.getD i 0
  w.drop 1 ++ [at' 0 + (turns [1, 8] (at' 1) ^^^ at' 1 >>> 7) + at' 9 + (turns [19, 61] (at' 14) ^^^ at' 14 >>> 6)]

/-- The eight working words, in two fours, as a round finds and leaves them. -/
structure ShaRegs where
  lo : List Word
  hi : List Word

/-- A round: both fours move by one word, each with a new word at its front. -/
def shaRound (r : ShaRegs) (k w : Word) : ShaRegs :=
  let l := fun i => r.lo.getD i 0
  let u := fun i => r.hi.getD i 0
  let mix := k + w + u 3 + choose (u 0) (u 1) (u 2) + turns [14, 18, 41] (u 0)
  { lo := (mix + most (l 0) (l 1) (l 2) + turns [28, 34, 39] (l 0)) :: r.lo.take 3, hi := (l 3 + mix) :: r.hi.take 3 }

/-- The rounds of a block, one for each constant, the schedule moving beside them. -/
def shaRounds (ks w : List Word) (r : ShaRegs) : ShaRegs :=
  match ks with
  | [] => r
  | k :: rest => shaRounds rest (scheduleStep w) (shaRound r k (w.getD 0 0))

/-- One block of 128 bytes. -/
def shaBlock (h : List Word) (m : List Byte) : List Word :=
  let w := (List.range 16).map fun j => BitVec.ofNat 64 (beNat ((m.drop (8 * j)).take 8))
  let r := shaRounds shaK w { lo := h.take 4, hi := h.drop 4 }
  List.zipWith (· + ·) h (r.lo ++ r.hi)

/-- All blocks. -/
def shaBlocks (fuel : Nat) (h : List Word) (m : List Byte) : List Word :=
  match fuel with
  | 0 => h
  | n + 1 => if m.isEmpty then h else shaBlocks n (shaBlock h (m.take 128)) (m.drop 128)

/-- SHA-384 as its 48 bytes. -/
def sha384 (m : List Byte) : List Byte :=
  let p := shaPad m
  ((shaBlocks (p.length / 128) shaInit p).flatMap fun w => (leBytes 8 w.toNat).reverse).take 48

/-! P-384 and ECDSA. Points are affine, none at infinity. -/

def ecP : Nat := 2 ^ 384 - 2 ^ 128 - 2 ^ 96 + 2 ^ 32 - 1
def ecB : Nat :=
  0xb3312fa7e23ee7e4988e056be3f82d19181d9c6efe8141120314088f5013875ac656398d8a2ed19d2a85c8edd3ec2aef
def ecN : Nat :=
  0xffffffffffffffffffffffffffffffffffffffffffffffffc7634d81f4372ddf581a0db248b0a77aecec196accc52973
def ecG : Nat × Nat :=
  (0xaa87ca22be8b05378eb1c71ef320ad746e1d3b628ba79b9859f741e082542a385502f25dbf55296c3a545e3872760ab7,
   0x3617de4a96262c6f5d9e98bf9292dc29f8f41dbd289a147ce9da3113b5f0b8c00a60b1ce1d7e819d7a431d7c90ea0e5f)

/-- Modular power by squaring, over the bits of the exponent. -/
def powMod (fuel m b e : Nat) : Nat :=
  match fuel with
  | 0 => 1
  | f + 1 => if e = 0 then 1 else
      let h := powMod f m (b * b % m) (e / 2)
      if e % 2 = 1 then h * b % m else h

/-- The inverse modulo a prime. -/
def invMod (m a : Nat) : Nat := powMod 385 m (a % m) (m - 2)

/-- Sum of two points. -/
def ecAdd (a b : Option (Nat × Nat)) : Option (Nat × Nat) :=
  match a, b with
  | none, b => b
  | a, none => a
  | some (x1, y1), some (x2, y2) =>
    if x1 = x2 && (y1 + y2) % ecP = 0 then none
    else
      let l := if x1 = x2 then (3 * x1 * x1 + (ecP - 3)) * invMod ecP (2 * y1) % ecP
        else (y2 + ecP - y1) * invMod ecP (x2 + ecP - x1) % ecP
      let x := (l * l + 2 * ecP - x1 - x2) % ecP
      some (x, (l * (x1 + ecP - x) + ecP - y1) % ecP)

/-- Multiple of a point. -/
def ecMul (fuel k : Nat) (a : Option (Nat × Nat)) : Option (Nat × Nat) :=
  match fuel with
  | 0 => none
  | f + 1 => if k = 0 then none else
      let h := ecMul f (k / 2) (ecAdd a a)
      if k % 2 = 1 then ecAdd h a else h

/-- Whether a point is on the curve. -/
def ecOn (x y : Nat) : Bool :=
  decide (x < ecP) && decide (y < ecP) && (y * y) % ecP == (x * x * x + (ecP - 3) * x + ecB) % ecP

/-- Whether (r, s) is a signature of a digest under a public key (FIPS 186-5, 6.4.2). -/
def ecdsaOk (key : Nat × Nat) (digest : List Byte) (r s : Nat) : Bool :=
  let z := beNat digest
  if !ecOn key.1 key.2 || r = 0 || s = 0 || decide (r ≥ ecN) || decide (s ≥ ecN) then false
  else
    let w := invMod ecN s
    match ecAdd (ecMul 385 (z * w % ecN) (some ecG)) (ecMul 385 (r * w % ecN) (some key)) with
    | none => false
    | some (x, _) => x % ecN == r

end Sys2Proof.Machine
end

