-- ==== Sys2Proof/Machine/Image.lean ====
section
/-!
DEFINITION. Admission to a tile (07 R186), the image of a saved task (17 R409, R410), and requests to a running task (16 R391,
R459). The packing of the fields that R409 does not place inside their bytes is log entry 18.
-/

namespace Sys2Proof.Machine

open Sys2Proof

/-! Admission. -/

/-- The least base of a free range of `n` units below `limit` (log entry 17). -/
def freeRange (used : List (Nat × Nat)) (n limit : Nat) : Option Nat :=
  if n = 0 then some 0
  else
    let fits := fun (b : Nat) => decide (b + n ≤ limit) && used.all fun u => u.2 == 0 || decide (b + n ≤ u.1) || decide (u.1 + u.2 ≤ b)
    let cands := (0 :: used.map fun u => u.1 + u.2).filter fits
    cands.foldl (fun o b => some (match o with
      | none => b
      | some a => min a b)) none

/-- Whether the tile is in service in a domain (16 R386). -/
def Core.inDomain (c : Core) (d t : Nat) : Bool := (c.tile t).dom == some d && (c.tile t).serv && decide (t < Config.tiles)

/-- The scratchpad and accumulator bases a task would get on a tile, when its claims fit (07 R186). -/
def Core.fits (c : Core) (t : Nat) (i : Ident) : Option (Nat × Nat) :=
  let q := (c.tile t).queue
  let lanes := q.foldl (fun a x => a ||| x.id.flanes) (c.tile t).lanesOut.toNat
  if q.length ≥ 8 || (q.map fun x => x.id.hctx).sum + i.hctx > 6 || lanes &&& i.flanes != 0 then none
  else
    match freeRange (q.map fun x => (x.r.scrb, x.id.claimBytes)) i.claimBytes 0x400000,
      freeRange (q.map fun x => (x.r.accb, x.id.accr)) i.accr 256 with
    | some s, some a => some (s, a)
    | _, _ => none

/-- A task put at the tail of a tile's queue with its ranges. -/
def Core.enqueue (c : Core) (t : Nat) (x : Ctx) (bases : Nat × Nat) : Core :=
  c.updTile t fun tl => { tl with queue := tl.queue ++ [{ x with r := { x.r with scrb := bases.1, accb := bases.2 } }] }

/-! Words and bytes of an image. -/

/-- Bytes padded with zeros to a length. -/
def padTo (n : Nat) (bs : List Byte) : List Byte := (bs ++ List.replicate n 0).take n

def wordsOf (ws : List Nat) : List Byte := ws.flatMap (leBytes 8)

/-- The bytes of `n` values, each of `k` bytes. -/
def eachBytes (n k : Nat) (f : Nat → Nat) : List Byte := (List.range n).flatMap fun i => leBytes k (f i)

/-- The number of `k` bytes at an offset. -/
def numAt (img : List Byte) (off k : Nat) : Nat := leNat ((img.drop off).take k)

def wordAt (img : List Byte) (off : Nat) : Word := BitVec.ofNat 64 (numAt img off 8)

/-- A candidate list in its window layout (14 R343). -/
def candBytes (l : CandList) : List Byte :=
  eachBytes 64 8 fun p => match l.pairs[p]? with
    | some (v, i) => v.toNat + i.toNat * 2 ^ 32
    | none => 0x7FC00000 + 0xFFFFFFFF * 2 ^ 32

/-- Stream code of a format and code of a block size (10 R254). -/
def fmtCode (f : MxFmt) : Nat :=
  match f with
  | .e2m1 => 1 | .e2m3 => 2 | .e3m2 => 3 | .e4m3 => 4 | .e5m2 => 5 | .int4 => 6 | .int6 => 7 | .int8 => 8

def blkCodeOf (b : Blk) : Nat :=
  match b with
  | .b24 => 1
  | .b32 => 2

def fmtOfCode (n : Nat) : MxFmt :=
  match n with
  | 2 => .e2m3 | 3 => .e3m2 | 4 => .e4m3 | 5 => .e5m2 | 6 => .int4 | 7 => .int6 | 8 => .int8 | _ => .e2m1

def modeCode (m : FMode) : Nat :=
  match m with
  | .fp32 => 0
  | .bf16 => 1
  | .scp => 2

/-- The scope of a code (05 R129). -/
def scopeOf (n : Nat) : Option Scope :=
  match n with
  | 0 => some .ctx | 1 => some .tile | 2 => some .quad | 3 => some .die | 4 => some .side | 5 => some .mod
  | 6 => some .host | 7 => some .pod | 8 => some .span | 9 => some .sys | _ => none

/-! Control registers as words. -/

def Regs.verpol (r : Regs) : Word :=
  BitVec.ofNat 64 (scopeCode r.polScope * 16 + (if r.polPend then 8 else 0) + (if r.polAuto then 4 else 0) + r.polMode.toNat)

def Regs.crctl (r : Regs) : Word := BitVec.ofNat 64 (r.crpos.toNat * 2 ^ 48 + r.crwi.toNat * 2 ^ 16 + r.crlog.toNat)

def Regs.adjoff (r : Regs) : Word := BitVec.ofNat 64 ((if r.blost then 256 else 0) + r.ofs.toNat)

/-- mp register n: mp7 shows the routine's progress (12 R313). -/
def Ctx.mpReg (x : Ctx) (n : Nat) : Word := mapGet 0 x.r.mp n

/-- What mp register n keeps of a word: mp7 has reserved bits (12 R313). -/
def mpField (n : Nat) (v : Word) : Word := if n = 7 then v &&& 0x80FFFFFFFFFFFFFF else v

/-! Writing an image. -/

/-- Bytes of an image (17 R410). -/
def Ident.imageLen (i : Ident) : Nat := 0x20000 + 0x1000 * i.accr + 0x400 * i.scrk

/-- The header (17 R410). `flags` and `part` are those of word 0 and word 10; word 11 keeps the bundle address, for which
R410 names no place (log entry 18). -/
def headerBytes (tl : Tile) (x : Ctx) (flags len part : Nat) : List Byte :=
  let w0 := 0x5A564349 * 2 ^ 32 + 65536 + flags
  let words := wordsOf [w0, len, x.kid.toNat, x.id.taskid.toNat, x.id.tcoord.toNat, x.id.tcnt.toNat, x.id.targs.toNat,
    x.r.twgt.toNat, x.id.descVA.toNat, x.id.ep * 256 + (if x.id.side then 1 else 0), part, x.pc.toNat]
  let valid := (List.range 256).foldl (fun a r =>
    if r < x.id.accr && (mapGet AccRow.init tl.acc (x.r.accb + r)).valid then a + 2 ^ r else a) 0
  let planes := (List.range 4).flatMap fun n =>
    let p := mapGet Plane.init x.planes n
    leBytes 8 (fmtCode p.fmt + 256 * blkCodeOf p.blk) ++ leBytes 8 p.psrc.toNat
  let uc := match x.uc with
    | none => []
    | some u => leBytes 8 u.va.toNat ++ leBytes 4 u.id.toNat ++ leBytes 4 u.ver.toNat ++ leBytes 96 u.sig.toNat
  let cds := eachBytes 8 8 fun n =>
    let l := mapGet CandList.init x.cds n
    l.pairs.length + 256 * l.kcap + (if l.void then 65536 else 0)
  padTo 0x1000 (padTo 0x100 words ++ padTo 0x100 (wordsBytes x.id.desc) ++ leBytes 32 valid ++ planes ++ padTo 0x80 uc ++ cds)

/-- VERPOL in an image: bits [11:8] keep the scope of an armed adoption and bit 12 that the next record carries ADOPTED
(log entry 18). -/
def Ctx.polWord (x : Ctx) : Word :=
  x.r.verpol ||| BitVec.ofNat 64 (scopeCode x.creel.armed * 256 + (if x.creel.adopted then 4096 else 0))

/-- The register region. -/
def regBytes (x : Ctx) : List Byte :=
  let r := x.r
  padTo 0x1000 (
    eachBytes 64 8 (fun n => (r.getS n).toNat) ++ leBytes 8 (eachBits 16 fun n => r.getG n) ++
    eachBytes 16 8 (fun n => (r.getM n).toNat) ++ leBytes 8 r.ev.toNat ++
    wordsBytes [r.cyc, r.limit, r.fpsf.zeroExtend 64, r.seedk, r.cgctr, r.adjoff, r.tver.zeroExtend 64, x.polWord, r.crbase,
      r.crctl, r.crseq.zeroExtend 64] ++
    (List.range 8).flatMap (fun n => let v := mapGet VScal.init x.vs n; leBytes 8 v.value.toNat ++ leBytes 8 v.tag.toNat) ++
    eachBytes 8 8 (fun n => (x.mpReg n).toNat) ++ eachBytes 12 8 (fun n => (mapGet 0 x.sticky n).toNat) ++
    wordsOf [x.owners.toNat, x.rep, x.ctp, modeCode x.fmode, (x.rout.map fun u => u.key.toNat).getD 0,
      (x.rout.map fun u => u.tag.toNat).getD 0])
where
  eachBits (n : Nat) (f : Nat → Bool) : Nat := (List.range n).foldl (fun a i => if f i then a + 2 ^ i else a) 0

/-- A loop register in 32 bytes. -/
def loopBytes (l : LoopReg) : List Byte :=
  wordsOf [(if l.act then 1 else 0) + 2 * l.order.toNat + (if l.pend.isSome then 8 else 0) + l.count.toNat * 2 ^ 32,
    ((l.pend.map fun p => p.toNat).getD 0), l.start.toNat, l.stop.toNat]

/-- The landed data of a queue entry. -/
def QEnt.bits (e : QEnt) : Nat := (e.data.map fun d => d.toNat).getD 0

/-- The stream, loop and queue-count region. -/
def streamBytes (x : Ctx) : List Byte :=
  padTo 0x1000 (
    eachBytes 16 32 (fun n => (mapGet Stream.init x.a n).desc.toNat) ++
    eachBytes 16 16 (fun n =>
      let a := mapGet Stream.init x.a n
      a.i0.toNat + a.i1.toNat * 2 ^ 16 + a.i2.toNat * 2 ^ 32 + a.nel.toNat * 2 ^ 48) ++
    (List.range 4).flatMap (fun n => loopBytes (mapGet LoopReg.init x.lp n)) ++
    (List.range 2).flatMap (fun n =>
      let l := x.queue (32 + n)
      eachBytes 8 4 (fun i => ((l[i]?.map QEnt.bits).getD 0) % 2 ^ 32) ++ leBytes 8 l.length) ++
    eachBytes 32 8 (fun n => (x.queue n).length))

/-- One entry of the replay region, 320 bytes. -/
def parkedBytes (p : Parked) : List Byte :=
  leBytes 8 p.va.toNat ++ leBytes 32 p.mask.toNat ++ leBytes 8 p.order ++ leBytes 8 (if p.dead then 1 else 0) ++
    leBytes 256 p.data.toNat ++ leBytes 8 0

/-- The phases of a pair in the order of their codes in an image (log entry 18). -/
def phases : List PairPhase :=
  [.prologueP, .prologueC, .loopP, .loopC, .check, .joined, .sharedRelease, .epilogueP, .epilogueC, .refusedP, .refusedW,
   .refusedC, .refusedE]

/-- A held write of a pair: PA, length, mask and bytes of each line it meets. -/
def heldBytes (m : StoreMsg) : List Byte :=
  leBytes 8 m.pa ++ leBytes 8 m.bytes.length ++ leBytes 16 (maskOf m.bytes).toNat ++ padTo 128 (m.bytes.map fun b => b.getD 0)

/-- The splice record of a pair and C's renumbering map (17 R409), then what the manual gives no place: how far the pair has
come (log entry 18). -/
def spliceBytes (p : Pair) : List Byte :=
  padTo 0xC00 (p.recs.flatMap fun b => b.flatMap fun s => leBytes 4 (s.own * 2 ^ 30 + s.bofs % 2 ^ 24)) ++
    eachBytes 32 1 (fun n => mapGet n p.qmap n) ++
    padTo 0xE0 (wordsOf [phases.findIdx fun x => x = p.phase, p.ploop.toNat, p.pbody.toNat, p.plabel.toNat, p.cloop.toNat,
      p.cbody.toNat, p.clabel.toNat,
      p.pos, p.count.toNat, p.pq, p.cq, p.ebits, p.depth, if p.linked then 1 else 0, p.pre, p.fwd, p.recs.length, p.sig.length]) ++
    p.sig.flatMap heldBytes

/-- The whole image of the task at a reference. `pair` is given for the producer's image of a pair. -/
def Core.imageBytes (c : Core) (r : CtxRef) (flags len part : Nat) (pair : Option Pair) : List Byte :=
  let tl := c.tile r.tile
  let x := c.ctx r
  headerBytes tl x flags len part ++ regBytes x ++ streamBytes x ++
    padTo 0x1000 ((List.range 8).flatMap fun n => candBytes (mapGet CandList.init x.cds n)) ++
    eachBytes 64 32 (fun n => (mapGet 0 x.shapes n).toNat) ++
    padTo 0x1800 (x.replay.flatMap parkedBytes) ++
    padTo 0x1000 ((pair.map spliceBytes).getD []) ++
    eachBytes 144 256 (fun n => (mapGet 0 x.ct n).toNat) ++
    (List.range 32).flatMap (fun q => padTo 0x800 ((x.queue q).flatMap fun e => leBytes 256 e.bits)) ++
    (List.range x.id.accr).flatMap (fun i =>
      let row := mapGet AccRow.init tl.acc (x.r.accb + i)
      eachBytes 1024 4 fun n => if row.valid then (mapGet 0 row.cols n).toNat else 0) ++
    readRun tl.win x.r.scrb (0x400 * x.id.scrk)

/-- FLAGS of word 0 of the header. -/
def Ctx.imageFlags (x : Ctx) (pair : Bool) : Nat :=
  (if pair then 1 else 0) + (if x.rout.isSome then 2 else 0) + (if x.budPend then 4 else 0) +
    (if x.life = .fresh then 8 else 0) + (if x.budDone then 16 else 0)

/-! Reading an image. -/

/-- A Map of the values that differ from the default. -/
def mapOf {α : Type} [DecidableEq α] (d : α) (n : Nat) (f : Nat → α) : Map α :=
  (List.range n).foldl (fun m i => mapSet d m i (f i)) []

/-- The registers of an image. -/
def readRegs (img : List Byte) : Regs :=
  let w := fun (n : Nat) => wordAt img (0x1000 + 8 * n)
  let pol := w 89
  let ctl := w 91
  { Regs.init with
    s := mapOf 0 64 fun n => if n = 0 then 0 else w n
    g := (w 64).extractLsb' 0 16 &&& 0xFFFC
    m := mapOf 0 16 fun n => if n < 2 then 0 else w (65 + n)
    ev := (w 81).extractLsb' 0 16
    cyc := w 82, limit := w 83, fpsf := (w 84).extractLsb' 0 8, seedk := w 85, cgctr := w 86
    blost := wbits (w 87) 8 1 == 1, ofs := (w 87).extractLsb' 0 8, tver := (w 88).extractLsb' 0 16
    polScope := (scopeOf (wbits pol 4 4)).getD .mod, polPend := wbits pol 3 1 == 1, polAuto := wbits pol 2 1 == 1
    polMode := pol.extractLsb' 0 2
    crbase := w 90, crlog := ctl.extractLsb' 0 5, crwi := ctl.extractLsb' 16 32, crpos := ctl.extractLsb' 48 16
    crseq := (w 92).extractLsb' 0 32
    mp := mapOf 0 8 fun n => mpField n (w (109 + n))
    twgt := (wordAt img 56).extractLsb' 0 48 }

/-- Entries of a queue from an image, numbered 0: they have landed. -/
def readQueue (img : List Byte) (q : Nat) : List QEnt :=
  if q < 32 then
    (List.range (min 8 (numAt img (0x2000 + 0x3D0 + 8 * q) 8))).map fun e =>
      ⟨0, some (BitVec.ofNat 2048 (numAt img (0x10000 + 0x800 * q + 0x100 * e) 256))⟩
  else
    let base := 0x2000 + 0x380 + 40 * (q - 32)
    (List.range (min 8 (numAt img (base + 32) 8))).map fun e => ⟨0, some (BitVec.ofNat 2048 (numAt img (base + 4 * e) 4))⟩

def readStream (img : List Byte) (n : Nat) : Stream :=
  let h := numAt img (0x2200 + 16 * n) 16
  { Stream.init with
    desc := BitVec.ofNat 256 (numAt img (0x2000 + 32 * n) 32)
    i0 := BitVec.ofNat 16 h, i1 := BitVec.ofNat 16 (h / 2 ^ 16), i2 := BitVec.ofNat 16 (h / 2 ^ 32), nel := BitVec.ofNat 40 (h / 2 ^ 48) }

def readLoop (img : List Byte) (n : Nat) : LoopReg :=
  let b := 0x2300 + 32 * n
  let w := wordAt img b
  { act := wbits w 0 1 == 1, order := w.extractLsb' 1 2, count := w.extractLsb' 32 32
    pend := if wbits w 3 1 == 1 then some (BitVec.ofNat 32 (numAt img (b + 8) 4)) else none
    start := (wordAt img (b + 16)).setWidth 57, stop := (wordAt img (b + 24)).setWidth 57 }

def readCand (img : List Byte) (n : Nat) : CandList :=
  let w := wordAt img (0x2E0 + 8 * n)
  { pairs := (List.range (min 64 (wbits w 0 8))).map fun p =>
      (BitVec.ofNat 32 (numAt img (0x3000 + 512 * n + 8 * p) 4), BitVec.ofNat 32 (numAt img (0x3000 + 512 * n + 8 * p + 4) 4))
    kcap := wbits w 8 8, void := wbits w 16 1 == 1 }

/-- A parked store of an image. Its record and how far its retry has come stay with the domain (`Domain.keep`); of an image for which
nothing is kept, it raises NOTMAPPED and may be retried (log entry 18). -/
def readParked (img : List Byte) (i : Nat) : Parked :=
  let b := 0x4800 + 320 * i
  { va := wordAt img b, mask := BitVec.ofNat 256 (numAt img (b + 8) 32), order := numAt img (b + 40) 8
    dead := numAt img (b + 48) 8 % 2 == 1, data := BitVec.ofNat 2048 (numAt img (b + 56) 256), resumed := true, inved := true, bofs := 0
    rep := 0, info := { mkTrap kPage cNotmapped with addr := wordAt img b } }

/-- The plane's format, block size and PSRC; its contents are rebuilt when the task resumes (12 R306). -/
def readPlane (img : List Byte) (n : Nat) : Plane :=
  { Plane.init with fmt := fmtOfCode (numAt img (0x220 + 16 * n) 1), psrc := wordAt img (0x228 + 16 * n)
                    blk := if numAt img (0x221 + 16 * n) 1 = 1 then .b24 else .b32 }

def readUc (img : List Byte) : Option UcRec :=
  if wordAt img 0x260 = 0 then none
  else some { va := wordAt img 0x260, id := BitVec.ofNat 32 (numAt img 0x268 4), ver := BitVec.ofNat 32 (numAt img 0x26C 4)
              sig := BitVec.ofNat 768 (numAt img 0x270 96) }

/-- A paused routine continues at mp7.PC with the loop fields of mp7 (12 R320); its number and ENTRY stay with the domain (log entry 18). -/
def readRoutine (img : List Byte) (flags : Nat) : Option Routine :=
  if flags / 2 % 2 = 0 then none
  else
    let p := wordAt img (0x1000 + 8 * 116)
    some { num := 0, entry := p.extractLsb' 0 8, pc := p.extractLsb' 0 8, lc0 := p.extractLsb' 24 16, lc1 := p.extractLsb' 40 16
           ls0 := p.extractLsb' 8 8, ls1 := p.extractLsb' 16 8, key := wordAt img (0x1000 + 8 * 133)
           tag := (wordAt img (0x1000 + 8 * 134)).extractLsb' 0 24, paused := true, faulted := none }

/-- The pair of a producer's image; its held write is the given tile's. -/
def readPair (img : List Byte) (tile : Nat) : Pair :=
  let w := fun (n : Nat) => numAt img (0x6C20 + 8 * n) 8
  let slot := fun (k : Nat) =>
    let v := numAt img (0x6000 + 4 * k) 4
    (⟨v / 2 ^ 30, v % 2 ^ 24⟩ : PairSlot)
  let held := fun (k : Nat) =>
    let b := 0x6D00 + 160 * k
    let mask := numAt img (b + 16) 16
    let bytes := (List.range (min 128 (numAt img (b + 8) 8))).map fun i =>
      if nbits mask i 1 = 1 then some (BitVec.ofNat 8 (numAt img (b + 32 + i) 1)) else none
    ({ id := 0, tile := tile, place := .primary, pa := numAt img b 8, bytes := bytes, tag := none, dev := isIodPa (numAt img b 8) } : StoreMsg)
  { phase := phases.getD (w 0) .epilogueC, ploop := BitVec.ofNat 64 (w 1), pbody := BitVec.ofNat 64 (w 2)
    plabel := BitVec.ofNat 64 (w 3), cloop := BitVec.ofNat 64 (w 4), cbody := BitVec.ofNat 64 (w 5), clabel := BitVec.ofNat 64 (w 6)
    pos := w 7, count := BitVec.ofNat 16 (w 8), pq := w 9, cq := w 10
    ebits := w 11, depth := w 12, linked := w 13 % 2 == 1, pre := w 14, fwd := w 15
    qmap := (List.range 32).foldl (fun m n => mapSet n m n (numAt img (0x6C00 + n) 1)) []
    recs := (List.range (min 64 (w 16))).map fun i => (List.range 12).map fun k => slot (12 * i + k)
    sig := (List.range (min 4 (w 17))).map held }

/-- The identity of an image: what the header and the descriptor copy hold, the rest from its launch. -/
def Domain.identOf (d : Domain) (img : List Byte) : Ident :=
  let h := fun (n : Nat) => wordAt img (8 * n)
  let base := ((mapGet none d.launches (serialOf (h 3))).map fun l => l.ident).getD Ident.init
  { base with taskid := h 3, tcoord := h 4, tcnt := h 5, targs := h 6, descVA := h 8
              desc := (List.range 32).map fun i => wordAt img (0x100 + 8 * i)
              side := wbits (h 9) 0 1 == 1, ep := wbits (h 9) 8 3 }

/-- The header names an image of this format whose length and kernel id match (09 R250, 17 R410). -/
def imageOk (img : List Byte) (i : Ident) : Bool :=
  let w0 := wordAt img 0
  let fresh := wbits w0 3 1 == 1
  wbits w0 32 32 == 0x5A564349 && wbits w0 16 16 == 1 && wbits w0 5 11 == 0 &&
    (wordAt img 8).toNat == (if fresh then 0x1000 else i.imageLen) && (wordAt img 16).toNat == descW i.desc 1 0 32

/-- The context of an image. -/
def readImage (img : List Byte) (i : Ident) : Ctx :=
  let flags := wbits (wordAt img 0) 0 5
  if flags / 8 % 2 = 1 then { Ctx.init with id := i, r := { Regs.init with twgt := (wordAt img 56).extractLsb' 0 48 } }
  else
    let replay := ((List.range 16).map (readParked img)).filter fun p => p.mask != 0
    { Ctx.init with
      id := i, life := .loaded, started := true, pc := wordAt img 88, r := readRegs img
      q := mapOf [] 34 (readQueue img), a := mapOf .init 16 (readStream img), lp := mapOf .init 4 (readLoop img)
      planes := mapOf .init 4 (readPlane img)
      vs := mapOf .init 8 fun n =>
        ⟨wordAt img (0x1000 + 8 * (93 + 2 * n)), (wordAt img (0x1000 + 8 * (94 + 2 * n))).extractLsb' 0 16, none⟩
      cds := mapOf .init 8 (readCand img), shapes := mapOf 0 64 fun n => BitVec.ofNat 256 (numAt img (0x4000 + 32 * n) 32)
      ct := mapOf 0 144 fun n => BitVec.ofNat 2048 (numAt img (0x7000 + 256 * n) 256)
      ctp := numAt img (0x1000 + 8 * 131) 8
      fmode := match numAt img (0x1000 + 8 * 132) 1 % 4 with
        | 0 => .fp32
        | 1 => .bf16
        | _ => .scp
      sticky := mapOf 0 12 fun n => wordAt img (0x1000 + 8 * (117 + n))
      owners := BitVec.ofNat 24 (numAt img (0x1000 + 8 * 129) 8), rep := numAt img (0x1000 + 8 * 130) 8
      creel := ⟨(scopeOf (wbits (wordAt img (0x1000 + 8 * 89)) 8 4)).getD .mod, wbits (wordAt img (0x1000 + 8 * 89)) 12 1 == 1⟩
      replay := replay, order := replay.foldl (fun m p => max m (p.order + 1)) 0
      uc := readUc img, rout := readRoutine img flags
      budPend := flags / 4 % 2 == 1, budDone := flags / 16 % 2 == 1 }

/-- The rows and scratchpad of an image written to the tile it is placed on (17 R409). -/
def Core.restoreClaims (c : Core) (t : Nat) (img : List Byte) (i : Ident) (bases : Nat × Nat) : Core :=
  let valid := numAt img 0x200 32
  c.updTile t fun tl =>
    { tl with
      acc := (List.range i.accr).foldl (fun m r =>
        mapSet .init m (bases.2 + r) (if valid / 2 ^ r % 2 = 1 then
          ⟨true, mapOf 0 1024 fun n => BitVec.ofNat 32 (numAt img (0x20000 + 0x1000 * r + 4 * n) 4)⟩ else AccRow.init)) tl.acc
      win := writeRun tl.win bases.1 ((img.drop (0x20000 + 0x1000 * i.accr)).take (0x400 * i.scrk)) }

end Sys2Proof.Machine
end

