-- ==== Sys2Proof/Machine/Registers.lean ====
section
/-!
DEFINITION. Control registers (08 R223, 09 R233): their fields, what each kind of context may read and write, and the effect of a
write; the operations `ctl.rd` and `ctl.wr`, and the register writes that the opcode table lists as steps of their own.
-/

namespace Sys2Proof.Machine

open Sys2Proof

/-- The writable bits of a domain register (01 R20, 02 R60, R69, 06 R169, 07 R192, 16 R389, 18 R428). -/
def ctlMask (n : Nat) : Word :=
  if n = 0x40 || n = 0x41 then 0x000FFFFFFFFFE001
  else if n = 0x42 then 1
  else if 0x48 ≤ n && n < 0x50 then 0xFFFFFFFFFFFF0001
  else if 0x50 ≤ n && n < 0x58 then 0x000FFFFFFFFF0001
  else if 0x58 ≤ n && n < 0x60 then 0x1FFFFFFFFFFF0F00
  else if n = 0x60 then 0x01FFFFFFFFFF8001
  else if n = 0x61 then 0x00000000FFFFFFFE
  else if n = 0x68 then 0x0000000081FF81FF
  else if n = 0x69 || n = 0x6A then 0xFFFFFFFFFFFFFFFF
  else 0x00000000FFFFFFFF

/-- Numbers of registers held per domain. -/
def isDomainReg (n : Nat) : Bool := 0x40 ≤ n && n ≤ 0x71

/-- Numbers that a task context may not name (01 R20, 02 R60, R69, 06 R169, 07 R192). -/
def isClosedReg (n : Nat) : Bool := 0x40 ≤ n && n ≤ 0x6A

/-- The KV pool's page count (06 R169). -/
def Domain.kvCount (d : Domain) : Nat := wbits (mapGet 0 d.ctl 0x61) 1 31

def Domain.kvOn (d : Domain) : Bool := wbits (mapGet 0 d.ctl 0x60) 0 1 == 1

/-- A domain register as it reads. -/
def Core.domainReg (c : Core) (d n : Nat) : Word :=
  let dm := c.dom d
  let v := mapGet 0 dm.ctl n
  if 0x58 ≤ n && n < 0x60 then wset v 12 4 (c.waysGranted d (n - 0x58))
  else if n = 0x61 then
    wset (wset v 0 1 (if dm.kvBadf then 1 else 0)) 32 32 (if dm.kvOn then dm.kvCount - dm.kvHeld.length else 0)
  else v

/-- A register of the acting context as it reads; a handler context reads 0 from one it lacks (09 R233, 07 R174). -/
def State.contextReg (s : State) (n : Nat) : Word :=
  let x := s.old
  let t := s.ref.tile
  let own := fun (w : Word) => if s.ref.isHc then 0 else w
  match n with
  | 0x00 => own x.id.taskid
  | 0x01 => BitVec.ofNat 64 (s.toCore.domOf t % 4 * 512 + t)
  | 0x02 => if (if s.ref.isHc then (s.toCore.tile t).learner else x.id.side) then 1 else 0
  | 0x03 => own x.id.tcoord
  | 0x04 => own x.id.tcnt
  | 0x05 => own x.id.targs
  | 0x06 => own (x.r.twgt.zeroExtend 64)
  | 0x07 => own (BitVec.ofNat 64 x.r.scrb)
  | 0x08 => x.r.cyc
  | 0x09 => s.ftick
  | 0x0A => own x.r.limit
  | 0x10 => x.r.fpsf.zeroExtend 64
  | 0x11 => x.r.seedk
  | 0x12 => x.r.cgctr
  | 0x13 => own x.r.adjoff
  | 0x18 => own (x.r.tver.zeroExtend 64)
  | 0x19 => own x.r.verpol
  | 0x1C => own x.r.crbase
  | 0x1D => own x.r.crctl
  | 0x1E => own (x.r.crseq.zeroExtend 64)
  | 0x20 => match x.hc with
    | some h => h.record.getD h.selF.toNat 0
    | none => 0
  | 0x21 => match x.hc with
    | some h => leWord (readRun (s.toCore.tile t).win (slotBase + 256 * h.slot + 8 * h.selH.toNat) 8)
    | none => 0
  | _ => 0

/-- `ctl.rd` of a register (09 R233): PRIV for a register closed to the context. -/
def State.ctlRead (s : State) (n : Nat) : Op Word :=
  if 0x80 ≤ n then
    if s.old.isSup then .ok (mapGet 0 s.mc.hband (n - 0x80)) else raise privTrap
  else if isDomainReg n then
    if isClosedReg n && !s.old.isSup then raise privTrap else .ok (s.toCore.domainReg (s.toCore.domOf s.ref.tile) n)
  else .ok (s.contextReg n)

/-- `ctl.rd` (09 R233). -/
def execCtlRd (o : OpCtlRd) (s : State) : Host.Outcome State Fault Refusal :=
  guarded s o.gd skip fun s => do
    let v ← s.ctlRead o.num.toNat
    return s.wrS o.d v

/-! Writes. -/

/-- Whether a register has a field that the context can write (09 R233). -/
def ctlWritable (hc sup : Bool) (n : Nat) : Bool :=
  if 0x80 ≤ n then false
  else if isDomainReg n then sup
  else if n = 0x10 || n = 0x11 || n = 0x12 then true
  else if n = 0x20 || n = 0x21 then hc
  else if n = 0x13 || n = 0x19 || n = 0x1C || n = 0x1D || n = 0x1E then !hc
  else false

/-- VERPOL written (06 R160, R161). -/
def Ctx.writeVerpol (x : Ctx) (v : Word) : Ctx :=
  let mode := wbits v 0 2
  { x with r := { x.r with
      polScope := (scopeOf (wbits v 4 4)).getD x.r.polScope
      polAuto := wbits v 2 1 == 1
      polMode := if mode = 3 then x.r.polMode else BitVec.ofNat 2 mode
      polPend := if mode = 3 then x.r.polPend else false } }

/-- CRBASE or CRCTL written: WI and POS become 0 (06 R163). -/
def Ctx.writeRing (x : Ctx) (ctl : Bool) (v : Word) : Ctx :=
  let r := { x.r with crwi := 0, crpos := 0 }
  { x with r := if ctl then { r with crlog := v.extractLsb' 0 5 } else { r with crbase := v &&& 0x01FFFFFFFFFFFFC0 } }

/-- HMSG.SEL (07 R191). -/
def Ctx.writeHmsg (x : Ctx) (v : Word) : Ctx := { x with hc := x.hc.map fun h => { h with selH := v.extractLsb' 0 5 } }

/-- FLTREC: SEL, and KILL, which stays armed (17 R405). -/
def Ctx.writeFltrec (x : Ctx) (v : Word) : Ctx :=
  { x with hc := x.hc.map fun h => { h with selF := v.extractLsb' 0 3, kill := h.kill || wbits v 8 1 == 1 } }

/-- A register of a context written. -/
def Ctx.writeReg (x : Ctx) (n : Nat) (v : Word) : Ctx :=
  match n with
  | 0x10 => { x with r := { x.r with fpsf := clearFlags x.r.fpsf v } }
  | 0x11 => { x with r := { x.r with seedk := v } }
  | 0x12 => { x with r := { x.r with cgctr := v } }
  | 0x13 => { x with r := { x.r with ofs := v.extractLsb' 0 8, blost := x.r.blost && wbits v 8 1 == 0 } }
  | 0x19 => x.writeVerpol v
  | 0x1C => x.writeRing false v
  | 0x1D => x.writeRing true v
  | 0x1E => { x with r := { x.r with crseq := v.extractLsb' 0 32 } }
  | 0x20 => x.writeFltrec v
  | 0x21 => x.writeHmsg v
  | _ => x

/-- Whether a domain's replica pool on a die holds a frame for a page, or has taken one for it (02 R60, R61). -/
def Core.poolUses (c : Core) (d die page : Nat) : Bool :=
  (c.reps.any fun r => r.die == die && r.dom == d && r.page == page) ||
    (c.page page).asking.any fun a => a.die == die && a.dom == d

/-- DREPn written (02 R60): clearing EN drops every replica on the die and withdraws what the die asked for (R64). -/
def Core.writeDrep (c : Core) (d n : Nat) (v : Word) : Core :=
  let was := c.ctl d (0x48 + n)
  let c := c.updDom d fun dm => { dm with ctl := mapSet 0 dm.ctl (0x48 + n) (v &&& ctlMask (0x48 + n)) }
  if wbits was 0 1 == 1 && wbits v 0 1 == 0 then
    c.dropPages fun die page => die == n && c.poolUses d n page
  else c

/-- A residency register written (02 R69); the grants follow (R70). -/
def Core.writeHr (c : Core) (d n : Nat) (v : Word) : Core :=
  c.updDom d fun dm => { dm with ctl := mapSet 0 dm.ctl n (v &&& ctlMask n) }

/-- KVPOOL0 or KVPOOL1 written (06 R169): VBASE and COUNT stay while EN = 1; EN 0 to 1 frees every page. -/
def Domain.writeKv (d : Domain) (n : Nat) (v : Word) : Domain :=
  if n = 0 then
    let old := mapGet 0 d.ctl 0x60
    let en := wbits v 0 1
    let d := if !d.kvOn && en == 1 then { d with kvHeld := [] } else d
    let base := if wbits old 0 1 == 1 then old else v &&& ctlMask 0x60
    { d with ctl := mapSet 0 d.ctl 0x60 (wset base 0 1 en) }
  else
    let d := if wbits v 0 1 == 1 then { d with kvBadf := false } else d
    if d.kvOn then d else { d with ctl := mapSet 0 d.ctl 0x61 (v &&& ctlMask 0x61) }

/-- A register of a domain written. -/
def Core.writeDomainReg (c : Core) (d n : Nat) (v : Word) : Core :=
  if 0x48 ≤ n && n < 0x50 then c.writeDrep d (n - 0x48) v
  else if 0x50 ≤ n && n < 0x60 then c.writeHr d n v
  else if n = 0x60 || n = 0x61 then c.updDom d fun dm => dm.writeKv (n - 0x60) v
  else c.updDom d fun dm => { dm with ctl := mapSet 0 dm.ctl n (v &&& ctlMask n) }

/-- A control register written by a context. -/
def Core.writeCtl (c : Core) (r : CtxRef) (n : Nat) (v : Word) : Core :=
  if isDomainReg n then c.writeDomainReg (c.domOf r.tile) n v else c.updCtx r fun x => x.writeReg n v

/-- A change of BASE or COUNT of a replica pool of which a replica holds a frame, or a request that took it (02 R60, R61). -/
def Core.drepInUse (c : Core) (d n : Nat) (v : Word) : Bool :=
  let old := mapGet 0 (c.dom d).ctl n
  0x48 ≤ n && n < 0x50 && (wset old 0 1 0 != wset (v &&& ctlMask n) 0 1 0) &&
    ((c.reps.map (·.page)) ++ c.pages.map (·.1)).any fun page => c.poolUses d (n - 0x48) page

/-- `ctl.wr` (09 R233). FPSF is cleared before the flags of the bundle are set (03 R76); any other write holds from the next
bundle on. -/
def execCtlWr (o : OpCtlWr) (s : State) : Host.Outcome State Fault Refusal :=
  guarded s o.gd skip fun s => do
    let n := o.num.toNat
    if !ctlWritable s.ref.isHc s.old.isSup n then raise privTrap
    let v ← s.rdS o.a
    if s.toCore.drepInUse (s.toCore.domOf s.ref.tile) n v then
      raise { mkTrap kPerm cInuse with addr := BitVec.ofNat 64 n }
    if n = 0x10 then return s.upd fun x => x.writeReg n v
    return { s with bundle := s.bundle.map fun b => { b with late := b.late ++ [(s.ref, n, v)] } }

/-! The register writes that are steps of the table. -/

/-- VERPOL_WRITE (06 R160, R161). -/
def execVerpolWrite (s : State) : Host.Outcome State Fault Refusal :=
  match s.event with
  | some (.verpolWrite r v) => .next { s with toCore := s.toCore.writeCtl r 0x19 v }
  | _ => .next s

/-- CREEL_RING_REG_WRITE (06 R163). -/
def execCreelRingRegWrite (s : State) : Host.Outcome State Fault Refusal :=
  match s.event with
  | some (.creelRingRegWrite r ctl v) => .next { s with toCore := s.toCore.writeCtl r (if ctl then 0x1D else 0x1C) v }
  | _ => .next s

/-- HMSG_WRITE (07 R191). -/
def execHmsgWrite (s : State) : Host.Outcome State Fault Refusal :=
  match s.event with
  | some (.hmsgWrite r v) => .next { s with toCore := s.toCore.writeCtl r 0x21 v }
  | _ => .next s

/-- FLTREC_WRITE (17 R405). -/
def execFltrecWrite (s : State) : Host.Outcome State Fault Refusal :=
  match s.event with
  | some (.fltrecWrite r v) => .next { s with toCore := s.toCore.writeCtl r 0x20 v }
  | _ => .next s

/-- DREP_WRITE (02 R60): refused with the register unchanged while the old pool is in use. -/
def execDrepWrite (s : State) : Host.Outcome State Fault Refusal :=
  match s.event with
  | some (.drepWrite d n v) =>
    if s.toCore.drepInUse d (0x48 + n) v then .next s else .next { s with toCore := s.toCore.writeDrep d n v }
  | _ => .next s

/-- HRCTL_WRITE (02 R69, R70). -/
def execHrctlWrite (s : State) : Host.Outcome State Fault Refusal :=
  match s.event with
  | some (.hrctlWrite d n ctl v) => .next { s with toCore := s.toCore.writeHr d ((if ctl then 0x58 else 0x50) + n) v }
  | _ => .next s

/-- KVPOOL_WRITE (06 R169). -/
def execKvpoolWrite (s : State) : Host.Outcome State Fault Refusal :=
  match s.event with
  | some (.kvpoolWrite d n v) => .next { s with toCore := s.toCore.updDom d fun dm => dm.writeKv n v }
  | _ => .next s

/-- HBAND_WRITE: the management controller writes a band register (01 R31). -/
def execHbandWrite (s : State) : Host.Outcome State Fault Refusal :=
  match s.event with
  | some (.hbandWrite n v) => .next { s with toCore := { s.toCore with mc := { s.mc with hband := mapSet 0 s.mc.hband n v } } }
  | _ => .next s

end Sys2Proof.Machine
end

