-- ==== Sys2Proof/Machine/System.lean ====
section
/-!
DEFINITION. The privileged operations that act on a domain (09 R247, R248, R251 to R253): `tlb.inv`, `tile.pre`, `brd.mov` and
`uc.vfy`. `ctx.sv` and `ctx.ld` are with the saved contexts.
-/

namespace Sys2Proof.Machine

open Sys2Proof

/-- A privileged operation under its guard (09 R247, 08 R221). -/
def privileged (s : State) (g : Guard) (f : State → Op State) : Host.Outcome State Fault Refusal :=
  guarded s g skip fun s => if s.old.isSup then f s else raise privTrap

/-- A read of these bytes acquires: it waits for the forced publish of a narrow release (05 R131, R133). -/
def State.acquirePart (s : State) (va : Word) (n : Nat) : Op Unit :=
  match s.toCore.translate (s.toCore.who s.ref) (.load 3) va with
  | .ok l => do
    let pl ← s.toCore.placeOf (s.toCore.who s.ref) (.load 3) l
    s.acquired pl l n
  | .error _ => .ok ()

/-- Operand memory of a privileged operation, page by page: none when a page faults (R247). -/
def State.readOperand (s : State) (va : Word) (n : Nat) (acq : Bool) : Nat → Op (Option (List Byte) × State)
  | 0 => .ok (some [], s)
  | fuel + 1 =>
    let k := min n (65536 - va.toNat % 65536)
    if n = 0 then .ok (some [], s)
    else
      match s.loadPart (.load 3) va k false true with
      | .error (.trap _) => .ok (none, s)
      | .error (.wait w) => .error (.wait w)
      | .ok (bs, _, s) => do
        if acq then s.acquirePart va k
        let (r, s) ← s.readOperand (va + BitVec.ofNat 64 k) (n - k) acq fuel
        return (r.map fun t => bs ++ t, s)

/-- The least of the codes that apply. -/
def leastOf (cs : List (Bool × Nat)) : Option Nat :=
  lowestCause ((cs.filter fun c => c.1).map fun c => c.2)

/-- Writes a status; the request the operation made is answered. -/
def State.status (s : State) (d : BitVec 6) (n : Nat) : State :=
  (s.upd fun x => { x with hc := x.hc.map fun h => { h with asked := none } }).wrS d (BitVec.ofNat 64 n)

/-! `tlb.inv`. -/

/-- Whether `tlb.inv` of a kind removes a translation of `n` pages of 64 KiB from page `vp` (R248). -/
def invHits (kind : Nat) (a b : Word) (vp n : Nat) : Bool :=
  let lo := a.toNat / 65536
  let hi := (a.toNat + b.toNat - 1) % 2 ^ 64 / 65536
  match kind with
  | 0 => true
  | 1 => decide (vp ≤ lo) && decide (lo < vp + n)
  | 2 => if b = 0 then false
         else if lo ≤ hi then decide (vp ≤ hi) && decide (lo < vp + n)
         else decide (lo < vp + n) || decide (vp ≤ hi)
  | _ => false

def TlbEnt.first (e : TlbEnt) : Nat := e.vpage / szPages e.sz * szPages e.sz

/-- Whether an invalidation removes a translation. -/
def TlbEnt.hit (e : TlbEnt) (d kind : Nat) (a b : Word) : Bool := e.dom == d && invHits kind a b e.first (szPages e.sz)

/-- The translations that tiles hold, in their TLBs and for their streams (01 R38, R40). -/
def Core.translations (c : Core) : List TlbEnt :=
  c.tiles.flatMap fun t => t.2.tlb ++
    (t.2.queue ++ t.2.hcs.filterMap (·.2)).flatMap fun x => x.a.flatMap fun p => p.2.cur.toList ++ p.2.nxt.toList

/-- Whether an invalidation removes the translation by which a REPL page was asked for: of its VA alone, of the leaf that the tables
give for that VA, or one that a tile holds of the page (R68). -/
def Core.invPage (c : Core) (d kind : Nat) (a b : Word) (va page : Nat) : Bool :=
  let walked := match c.walk d (BitVec.ofNat 64 (va * 65536)) with
    | .ok f => invHits kind a b (va / szPages f.sz * szPages f.sz) (szPages f.sz)
    | .error _ => false
  invHits kind a b va 1 || walked || c.translations.any fun e =>
    let p0 := leafPa e.leaf e.sz 0 / 65536
    e.hit d kind a b && wbits e.leaf 8 1 == 1 && decide (p0 ≤ page % 2 ^ 48) && decide (page % 2 ^ 48 < p0 + szPages e.sz)

/-- The pages of this module's dies that an invalidation concerns: those with a replica, and those asked for (R68). -/
def Core.invPages (c : Core) (d kind : Nat) (a b : Word) : List Nat :=
  let held := (c.reps.filter fun r => r.die < 8 && r.dom == d).map fun r => (r.va, r.page)
  let asked := c.pages.flatMap fun e => (e.2.asking.filter fun k => k.die < 8 && k.dom == d).map fun k => (k.va, e.1)
  let coming := c.msgs.filterMap fun m => match m with
    | .replicaRequest _ page dom va => if dom = d then some (va, page) else none
    | _ => none
  ((held ++ asked ++ coming).filter fun e => c.invPage d kind a b e.1 e.2).map (·.2)

/-- A stream whose pre-translations an invalidation removes (01 R40, R45): it makes them anew. -/
def Stream.inv (x : Stream) (d kind : Nat) (a b : Word) : Stream :=
  let hit := fun (o : Option TlbEnt) => o.any fun e => e.hit d kind a b
  if kind = 3 then x
  else { x with
    page := if hit x.cur || hit x.nxt || x.failed then none else x.page
    cur := if hit x.cur then none else x.cur
    nxt := if hit x.nxt then none else x.nxt
    failed := false }

/-- A parked store after an invalidation (05 R147). -/
def Parked.afterInv (p : Parked) : Parked := if p.resumed then { p with inved := true } else p

/-- Every translation of the domain that an invalidation names is gone (01 R45). A parked store that waited for it may be
performed again (05 R147). -/
def Core.invalidate (c : Core) (d kind : Nat) (a b : Word) : Core :=
  let c := c.updDom d fun dm => { dm with heldPark := dm.heldPark.map fun e => (e.1, e.2.afterInv) }
  { c with tiles := c.tiles.map fun e =>
      if e.2.dom != some d then e
      else
        let ctx := fun (x : Ctx) =>
          { x with a := x.a.map fun p => (p.1, p.2.inv d kind a b)
                   replay := x.replay.map Parked.afterInv }
        let tl := e.2
        (e.1, { tl with
          tlb := tl.tlb.filter fun t => !t.hit d kind a b
          walks := tl.walks.filter fun vp => !invHits kind a b vp 1
          walkBad := tl.walkBad.filter fun w => !invHits kind a b w.1 1
          regions := if kind = 0 || kind = 3 then [] else tl.regions
          queue := tl.queue.map ctx
          hcs := tl.hcs.map fun h => (h.1, h.2.map ctx) }) }

/-- `tlb.inv` (R248): a release at .mod, the removal, and the drop of the replicas of removed REPL leaves (02 R68). -/
def execTlbInv (o : OpTlbInv) (s : State) : Host.Outcome State Fault Refusal :=
  privileged s o.gd fun s => do
    let a ← s.rdS o.a
    let b ← s.rdS o.b
    let s ← s.release .mod
    let d := s.toCore.domOf s.ref.tile
    let kind := o.kind.toNat
    let pages := s.toCore.invPages d kind a b
    if !pages.isEmpty then .error (.wait (.drop pages))
    return { s with toCore := s.toCore.invalidate d kind a b }

/-! `tile.pre` and `brd.mov`. -/

/-- Whether the request of the acting handler context has been made, and whether it was answered. -/
def State.asked (s : State) : Option Bool := (s.me.hc.bind fun h => h.asked)

/-- Whether a request for an aligned boundary of a tile's running task is pending. -/
def Core.hasReq (c : Core) (t : Nat) (q : Req) : Bool :=
  match (c.tile t).queue with
  | x :: _ => x.reqs.contains q
  | [] => false

/-- `tile.pre` (R251). -/
def execTilePre (o : OpRR) (s : State) : Host.Outcome State Fault Refusal :=
  privileged s o.gd fun s => do
    let a ← s.rdS o.a
    let t := wbits a 0 9
    match s.asked with
    | some ok =>
      if ok || !s.toCore.hasReq t .pre then return s.status o.d 0 else .error (.wait (.pre t))
    | none =>
      if (s.toCore.tile t).dom != some (s.toCore.domOf s.ref.tile) then return s.status o.d 1
      else if !s.toCore.running t then return s.status o.d (if (s.toCore.tile t).stage = .draining then 0 else 2)
      else .error (.wait (.pre t))

/-- Statuses of `brd.mov` (R252). -/
def Core.movStatus (c : Core) (d : Nat) (mask : Option (List Byte)) (b : Word) : Option Nat :=
  let learner := wbits b 0 1 == 1
  let named := match mask with
    | none => []
    | some m => (List.range Config.tiles).filter fun t => (m.getD (t / 8) 0).getLsbD (t % 8)
  let changing := named.filter fun t => c.inDomain d t && (c.tile t).learner != learner
  let left := (List.range Config.tiles).any fun t => c.inDomain d t && (c.tile t).learner != learner && !changing.contains t
  let dup := (c.dom d).move.isSome
  leastOf [(named.any fun t => !c.inDomain d t, 1), (mask.isSome && changing.isEmpty, 2),
    (!changing.isEmpty && !left, 3), (dup, 4), (mask.isNone, 5), (wbits b 1 63 != 0, 6)]

/-- `brd.mov` (R252). -/
def execBrdMov (o : OpRRR) (s : State) : Host.Outcome State Fault Refusal :=
  privileged s o.gd fun s => do
    let a ← s.rdS o.a
    let b ← s.rdS o.b
    let d := s.toCore.domOf s.ref.tile
    let learner := wbits b 0 1 == 1
    match s.asked with
    | some ok =>
      if ok || (s.toCore.dom d).move.isNone then return s.status o.d 0
      else .error (.wait (.move [] learner))
    | none =>
      let (mask, s) ← s.readOperand a 64 false 3
      match s.toCore.movStatus d mask b with
      | some n => return s.status o.d n
      | none =>
        let m := mask.getD []
        let ts := (List.range Config.tiles).filter fun t =>
          (m.getD (t / 8) 0).getLsbD (t % 8) && (s.toCore.tile t).learner != learner
        .error (.wait (.move ts learner))

/-! `uc.vfy`. -/

/-- The checks of a microprogram image of 2,160 bytes by iod0's key (R253). -/
def Core.imageSigned (c : Core) (img : List Byte) : Bool :=
  match c.mc.ukey with
  | none => false
  | some k => ecdsaOk k (sha384 (img.take 2064)) (beNat ((img.drop 2064).take 48)) (beNat ((img.drop 2112).take 48))

/-- `uc.vfy` (R253). -/
def execUcVfy (o : OpRR) (s : State) : Host.Outcome State Fault Refusal :=
  privileged s o.gd fun s => do
    let a ← s.rdS o.a
    let (img, s) ← s.readOperand a 2160 false 3
    let n := match img with
      | none => leastOf [(true, 3), (a.toNat % 64 != 0, 4)]
      | some img =>
        leastOf [(!s.toCore.imageSigned img, 1), (((img.drop 8).take 8).any fun b => b != 0, 2), (a.toNat % 64 != 0, 4)]
    return s.status o.d (n.getD 0)

end Sys2Proof.Machine
end

