-- ==== Sys2Proof/Machine/Matrix.lean ====
section
/-!
DEFINITION. The matrix unit (12 R301 to R326): planes, accumulator rows, the M slot, the sequencer's micro-ops, and its pauses and
faults.
-/

namespace Sys2Proof.Machine

open Sys2Proof

/-! Planes (R303 to R305). -/

/-- Columns N of a plane in a format (R301). -/
def mxCols (f : MxFmt) : Nat :=
  match f with
  | .e2m1 => 1024
  | .int6 | .int8 => 256
  | _ => 512

/-- Scales of a column that nothing has written: 127 in every byte. -/
def scl0 : BitVec 32 := 0x7F7F7F7F

def Ctx.plane (x : Ctx) (n : Nat) : Plane := mapGet .init x.planes n

def Ctx.setPlane (x : Ctx) (n : Nat) (p : Plane) : Ctx := { x with planes := mapSet .init x.planes n p }

/-- A column written from an element entry and a scale entry (R305). -/
def Plane.column (p : Plane) (n : Nat) (e : Entry) (s : Entry) : Plane :=
  let k := n % mxCols p.fmt
  { p with cols := mapSet 0 p.cols k (BitVec.ofNat 768 (e.toNat % 2 ^ (96 * p.fmt.width)))
           scl := mapSet scl0 p.scl k (s.extractLsb' 0 32) }

/-! Accumulator rows (R307, R308). -/

/-- The trap of a row beyond the claim. -/
def rowTrap : TrapInfo := mkTrap kPerm cWindow

def Core.accRow (c : Core) (t r : Nat) : AccRow := mapGet .init (c.tile t).acc r

def Core.setAccRow (c : Core) (t r : Nat) (a : AccRow) : Core :=
  c.updTile t fun tl => { tl with acc := mapSet .init tl.acc r a }

/-- Column `k` of a row, +0 when it is not valid. -/
def AccRow.get (a : AccRow) (k : Nat) : Nat := if a.valid then (mapGet 0 a.cols k).toNat else 0

/-- A row about to be written: valid, its uncovered columns +0 when it was not (R307). -/
def AccRow.open (a : AccRow) : AccRow := if a.valid then a else ⟨true, []⟩

def AccRow.put (a : AccRow) (k v : Nat) : AccRow := { a with cols := mapSet 0 a.cols k (BitVec.ofNat 32 v) }

/-- An accumulator element as a word of its format: `r` is the first physical row, `valid` that of the row. -/
def Core.accGet (c : Core) (t r : Nat) (w64 : Bool) (k : Nat) : Nat :=
  if w64 then
    if (c.accRow t r).valid && (c.accRow t (r + 1)).valid then
      let a := c.accRow t (r + k / 512)
      a.get (2 * (k % 512)) + a.get (2 * (k % 512) + 1) * 2 ^ 32
    else 0
  else (c.accRow t r).get k

/-- Writes an accumulator element of a row made valid before. -/
def Core.accPut (c : Core) (t r : Nat) (w64 : Bool) (k v : Nat) : Core :=
  if w64 then
    let q := r + k / 512
    c.setAccRow t q (((c.accRow t q).put (2 * (k % 512)) (v % 2 ^ 32)).put (2 * (k % 512) + 1) (v / 2 ^ 32))
  else c.setAccRow t r ((c.accRow t r).put k v)

/-- The physical row of a logical row within the claim (R308). -/
def Ctx.physRow (x : Ctx) (w64 : Bool) (r : Nat) : Op Nat :=
  if w64 then (if r < x.id.accr / 2 then .ok (x.r.accb + 2 * r) else raise rowTrap)
  else if r < x.id.accr then .ok (x.r.accb + r)
  else raise rowTrap

/-- A run of rows within the claim; an empty run names none. -/
def Ctx.physRun (x : Ctx) (r n : Nat) : Op Nat :=
  if n = 0 || r + n ≤ x.id.accr then .ok (x.r.accb + r) else raise rowTrap

/-- The window offset of a column of a row. -/
def accOfs (w64 : Bool) (r k : Nat) : Nat := 0x400000 + r * 4096 + k * (if w64 then 8 else 4)

/-- The marks of `n` bytes of the accumulators that are written over. -/
def Core.cleanRows (c : Core) (t off n : Nat) : Core :=
  if c.poison = [] then c else c.cleanse (winBase t + off) (List.replicate n (some 0))

/-- An operation that reads poisoned accumulator bytes raises the data-error trap (17 R412). -/
def State.rowsSound (s : State) (off n : Nat) : Op Unit :=
  if s.toCore.windowPoisoned s.ref.tile off n then raise (unitTrap 2 s.ref.tile) else .ok ()

def Core.clearRows (c : Core) (t r n : Nat) : Core :=
  (List.range n).foldl (fun c i => c.setAccRow t (r + i) .init) (c.cleanRows t (accOfs false r 0) (n * 4096))

/-- Copies rows as though all were read first (R325). -/
def Core.copyRows (c : Core) (t src dst n : Nat) : Core :=
  (List.range n).foldl (fun d i => d.setAccRow t (dst + i) (c.accRow t (src + i))) (c.cleanRows t (accOfs false dst 0) (n * 4096))

/-! The M slot (R309 to R312, R324, R325). -/

/-- An M operation issues when no routine of the context runs (R310); its bundle waits with it (log entry 7). -/
def matrixSlot (s : State) (g : Guard) (off on : State → Op State) : Host.Outcome State Fault Refusal :=
  if s.old.rout.isSome then finish s (.error (.wait .mx)) else guarded s g off on

/-- An operation on accumulator rows waits for results that have not landed (R318). -/
def State.rowsLanded (s : State) : Op Unit := if s.old.macs.isEmpty then .ok () else .error (.wait .mx)

/-- mp register n written. -/
def Ctx.setMp (x : Ctx) (n : Nat) (v : Word) : Ctx := { x with r := { x.r with mp := mapSet 0 x.r.mp n (mpField n v) } }

/-- `mp.wr` (R311). -/
def execMpWr (o : OpMpWr) (s : State) : Host.Outcome State Fault Refusal :=
  matrixSlot s o.gd skip fun s => do
    let a ← s.rdS o.a
    return s.upd fun x => x.setMp o.d.toNat a

/-- `mp.rd`, `mp.rd.base` (R311). -/
def execMpRd (o : OpMpRd) (s : State) : Host.Outcome State Fault Refusal :=
  matrixSlot s o.gd skip fun s => .ok (match o.a with
    | some n => s.wrS o.d (s.old.mpReg n.toNat)
    | none => s.wrS o.d (BitVec.ofNat 64 s.old.r.accb))

/-- mp7 of a routine (R313). -/
def Routine.mp7 (u : Routine) (run : Bool) : Word :=
  BitVec.ofNat 64 ((if run then 2 ^ 63 else 0) + u.lc1.toNat * 2 ^ 40 + u.lc0.toNat * 2 ^ 24 + u.ls1.toNat * 2 ^ 16 +
    u.ls0.toNat * 256 + u.pc.toNat)

/-- `mx.call` (R312). -/
def execMxCall (o : OpMxCall) (s : State) : Host.Outcome State Fault Refusal :=
  matrixSlot s o.gd skip fun s =>
    let (i, c) := s.toCore.fresh
    let s := { s with toCore := c }
    let u : Routine := { num := i, entry := o.entry, pc := o.entry, lc0 := 0, lc1 := 0, ls0 := 0, ls1 := 0,
                         key := s.old.r.seedk, tag := s.old.r.cgctr.extractLsb' 40 24, paused := false, faulted := none }
    .ok (s.upd fun x => ({ x with rout := some u }).setMp 7 (u.mp7 true))

/-- `mx.lat` (R305). -/
def execMxLat (o : OpMxLat) (s : State) : Host.Outcome State Fault Refusal :=
  matrixSlot s o.gd
    (fun s => do
      let s ← s.drop o.b
      let (_, s) ← s.readQ (32 + o.c.toNat) false
      return s)
    (fun s => do
      let a ← s.rdS o.a
      let (e, s) ← s.src o.b
      let (g, s) ← s.readQ (32 + o.c.toNat) false
      return s.upd fun x => x.setPlane o.d.toNat ((x.plane o.d.toNat).column (wbits a 0 10) e g))

/-- `mx.prm` (R304). -/
def execMxPrm (o : OpMxPrm) (s : State) : Host.Outcome State Fault Refusal :=
  matrixSlot s o.gd skip fun s => do
    let a ← s.rdS o.a
    return s.upd fun x => x.setPlane o.d.toNat { fmt := o.fmt, blk := o.blk, psrc := a, cols := [], scl := [] }

/-- The 256 micro-ops of an image. -/
def imageUcode (img : List Byte) : Map Word := mapOf 0 256 fun n => wordAt img (16 + 8 * n)

/-- The record of an image at a VA (R322). -/
def imageRec (va : Word) (img : List Byte) : UcRec :=
  { va := va, id := BitVec.ofNat 32 (numAt img 0 4), ver := BitVec.ofNat 32 (numAt img 4 4)
    sig := BitVec.ofNat 768 (numAt img 2064 96) }

/-- Whether two records name the same image, wherever it lies. -/
def UcRec.same (a b : UcRec) : Bool := a.id == b.id && a.ver == b.ver && a.sig == b.sig

/-- The status of loading an image (R322, R253): 0 at once for the image the store holds. -/
def Core.loadStatus (c : Core) (held : Option UcRec) (va : Word) (img : Option (List Byte)) : Nat :=
  match img with
  | none => (leastOf [(true, 3), (va.toNat % 64 != 0, 4)]).getD 0
  | some img =>
    let same := match held with
      | some h => h.same (imageRec va img) && va.toNat % 64 == 0
      | none => false
    if same then 0
    else (leastOf [(!c.imageSigned img, 1), (((img.drop 8).take 8).any fun b => b != 0, 2), (va.toNat % 64 != 0, 4)]).getD 0

/-- Loads a verified image into a tile's store. -/
def Core.loadStore (c : Core) (t : Nat) (va : Word) (img : List Byte) : Core :=
  c.updTile t fun tl => { tl with ucode := imageUcode img, ucHeld := some (imageRec va img) }

/-- `mx.ucw` (R322). -/
def execMxUcw (o : OpRR) (s : State) : Host.Outcome State Fault Refusal :=
  matrixSlot s o.gd skip fun s => do
    let a ← s.rdS o.a
    let (img, s) ← s.readOperand a 2160 false 3
    let n := s.toCore.loadStatus (s.toCore.tile s.ref.tile).ucHeld a img
    let s := match n, img with
      | 0, some img =>
        let s := { s with toCore := s.toCore.loadStore s.ref.tile a img }
        s.upd fun x => { x with uc := some (imageRec a img) }
      | _, _ => s
    return s.landS o.d (BitVec.ofNat 64 n) false

/-- One element of `acc.rd` (R324). -/
def accRead (conv : AccConv) (rm : Rnd) (scale : Option Nat) (x : Nat) : FRes :=
  let f := if conv = .f64 then fmtF64 else fmtF32
  let m : FRes := match scale with
    | none => ⟨x, 0⟩
    | some t => f.finish .rne 0 (mulVal (f.decode x) (fmtF32.decode t))
  let y : FRes := match conv with
    | .f32 => m
    | .f64 => fmtF32.ofVal rm 0 (fmtF64.decode m.bits)
    | .bf16 => fmtBf16.ofVal rm 0 (fmtF32.decode m.bits)
    | .scp => toScp (fmtF32.decode m.bits)
  ⟨y.bits, m.fl ||| y.fl⟩

/-- `acc.rd` (R324). -/
def execAccRd (o : OpAccRd) (s : State) : Host.Outcome State Fault Refusal :=
  matrixSlot s o.gd (fun s => s.zeros o.d 1) fun s => do
    s.rowsLanded
    let a ← s.rdS o.a
    let b ← s.rdS o.b
    let c ← s.rdS o.c
    let w64 := decide (o.conv = .f64)
    let r ← s.old.physRow w64 (wbits a 0 8)
    let seg := wbits b 0 4
    s.rowsSound (accOfs w64 r (64 * seg)) (if w64 then 512 else 256)
    let rs := (List.range 64).map fun i =>
      let col := 64 * seg + i
      let y := accRead o.conv o.rm (if o.tmp then some (wbits c 0 32) else none) (s.toCore.accGet s.ref.tile r w64 col)
      if o.gum then
        let z := fmtF32.add .rne 0 y.bits (s.noise 2 col)
        ⟨z.bits, y.fl ||| z.fl⟩
      else y
    let e := ofLanes (rs.map fun r => r.bits)
    let s := s.flag (joinFlags rs)
    let s := if o.sort then s.mergeList o.cd.toNat (wbits c 32 32 + 64 * seg) (List.range 64) (lane e) else s
    s.dst o.d e

/-- `acc.clr` (R325). -/
def execAccClr (o : OpAccClr) (s : State) : Host.Outcome State Fault Refusal :=
  matrixSlot s o.gd skip fun s => do
    s.rowsLanded
    let a ← s.rdS o.a
    let b ← s.rdS o.b
    let n := wbits b 0 9
    let r ← s.old.physRun (wbits a 0 8) n
    return { s with toCore := s.toCore.clearRows s.ref.tile r n }

/-- `acc.cp` (R325). -/
def execAccCp (o : OpAccCp) (s : State) : Host.Outcome State Fault Refusal :=
  matrixSlot s o.gd skip fun s => do
    s.rowsLanded
    let a ← s.rdS o.a
    let b ← s.rdS o.b
    let c ← s.rdS o.c
    let n := wbits c 0 9
    let r ← s.old.physRun (wbits a 0 8) n
    let q ← s.old.physRun (wbits b 0 8) n
    s.rowsSound (accOfs false r 0) (n * 4096)
    return { s with toCore := s.toCore.copyRows s.ref.tile r q n }

/-! Block results (03 R101 to R103). -/

/-- The result of one block: codes of A and B with their scales. DESIGN CHOICE (log entry 47): a partial that is exactly zero is converted to
+0, whatever the signs of its products. -/
def blockResult (f : FFmt) (rm : Rnd) (draw : Nat) (fa fb : MxFmt) (sa sb : Nat) (xs : List (Nat × Nat)) : FRes :=
  let vs := xs.map fun p => (fa.decode p.1, fb.decode p.2)
  if sa = 255 || sb = 255 || vs.any fun p => p.1.isNan || p.2.isNan then ⟨f.nan, 0⟩
  else if vs.any fun p => p.1.isInf || p.2.isInf then
    let infs := vs.filter fun p => p.1.isInf || p.2.isInf
    let neg := infs.any fun p => p.1.neg != p.2.neg
    let pos := infs.any fun p => p.1.neg == p.2.neg
    if (infs.any fun p => p.1.isZero || p.2.isZero) || (neg && pos) then ⟨f.nan, fIV⟩ else ⟨f.inf neg, 0⟩
  else
    let p : Int := vs.foldl (fun (a : Int) v => match v with
      | (.fin n1 m1 e1, .fin n2 m2 e2) =>
        let x : Int := (m1 * m2 * 2 ^ (e1 - fa.lexp + (e2 - fb.lexp)).toNat : Nat)
        if n1 == n2 then a + x else a - x
      | _ => a) 0
    f.round rm draw (p < 0) p.natAbs (fa.lexp + fb.lexp + (sa : Int) - 127 + (sb : Int) - 127) false

/-- The block results of one column. -/
def columnParts (f : FFmt) (rm : Rnd) (draw : Nat → Nat) (fa : MxFmt) (p : Plane) (a : Entry) (sa : Entry) (n : Nat) :
    List FRes :=
  let col := (mapGet 0 p.cols n).toNat
  let scl := (mapGet scl0 p.scl n).toNat
  (List.range p.blk.count).map fun j =>
    blockResult f rm (draw j) fa p.fmt (nbits sa.toNat (8 * j) 8) (nbits scl (8 * j) 8)
      ((List.range p.blk.size).map fun i =>
        let k := j * p.blk.size + i
        (unpackBits fa.width a.toNat k, unpackBits p.fmt.width col k))

/-- The landing of a MAC (R316): each column's block results added in ascending K. -/
def Core.landMac (c : Core) (t : Nat) (m : MacOp) : Core × Flags :=
  let f := if m.w64 then fmtF64 else fmtF32
  let start := fun (k : Nat) => if m.ovw then 0 else c.accGet t m.row m.w64 k
  let sums := m.parts.mapIdx fun i ps =>
    ps.foldl (fun (a : FRes) p => let y := f.add .rne 0 a.bits p; ⟨y.bits, a.fl ||| y.fl⟩) ⟨start (m.col + i), 0⟩
  let valid := !m.w64 || ((c.accRow t m.row).valid && (c.accRow t (m.row + 1)).valid)
  let opened := fun (c : Core) (q : Nat) => c.setAccRow t q (if valid then (c.accRow t q).open else ⟨true,
    if (c.accRow t q).valid then (c.accRow t q).cols else []⟩)
  let c' := if m.ovw then c.cleanRows t (accOfs m.w64 m.row m.col) (sums.length * if m.w64 then 8 else 4) else c
  let d := if m.w64 then opened (opened c' m.row) (m.row + 1) else opened c' m.row
  ((sums.mapIdx fun i r => (m.col + i, r.bits)).foldl (fun d e => d.accPut t m.row m.w64 e.1 e.2) d, joinFlags sums)

/-- MAC_RESULT_LAND: the oldest MAC of a task on the tile lands (R318). -/
def execMacResultLand (s : State) : Host.Outcome State Fault Refusal :=
  match s.event with
  | some (.macResultLand t) =>
    match (s.toCore.tile t).queue.findIdx? fun x => !x.macs.isEmpty with
    | none => .next s
    | some p =>
      let r := CtxRef.task t p
      match (s.toCore.ctx r).macs with
      | [] => .next s
      | m :: rest =>
        let (c, fl) := s.toCore.landMac t m
        .next { s with toCore := c.updCtx r fun x => { x with macs := rest, r := { x.r with fpsf := x.r.fpsf ||| fl } } }
  | _ => .next s

/-! The sequencer (R313 to R321). -/

def State.rout (s : State) : Routine :=
  s.me.rout.getD { num := 0, entry := 0, pc := 0, lc0 := 0, lc1 := 0, ls0 := 0, ls1 := 0, key := 0, tag := 0, paused := false, faulted := none }

def State.setRout (s : State) (u : Routine) : State := s.upd fun x => { x with rout := some u }

/-- The UCODE fault (R321). -/
def ucodeTrap : TrapInfo := mkTrap kIllegal cUcode

/-- The sequencer stops before the step (R320, R321). -/
def State.stopRoutine (s : State) : State :=
  let u := s.rout
  s.upd fun x => ({ x with rout := some { u with paused := true } }).setMp 7 (u.mp7 true)

/-- A routine fault (R321): the sequencer stops before the step and the trap is raised at the oldest bundle that has not
committed; while an earlier trap of the task is outstanding, it stops there until the task resumes. -/
def State.routineFault (s : State) (t : TrapInfo) : State :=
  if s.me.status = .suspended then s.stopRoutine
  else
    let u := s.rout
    let t := { t with flags := t.flags ||| flRoutine, rent := u.entry.toNat, rstep := u.pc.toNat, slot := 8 }
    let s := s.upd fun x => ({ x with rout := some { u with faulted := some t } }).setMp 7 (u.mp7 true)
    { s with toCore := takeTrap s.toCore s.ref t }

/-- A queue entry popped by the routine (R319): an empty queue waits while dispatch goes on, which a bundle that waits for the routine
stops, or `halt` (log entry 7). -/
def State.routineQ (s : State) (q : Nat) (peek : Bool) : Op (Entry × State) :=
  if (s.entries q).isEmpty && !s.me.id.isRemote q && s.me.status ≠ .waiting .mx && s.me.life == .live then .error (.wait .entry)
  else s.readQ q peek

/-- Control passes to the next micro-op; past index 255 the micro-op was malformed (R317). -/
def State.uopNext (s : State) : Op State :=
  let u := s.rout
  if u.pc = 255 then raise ucodeTrap else .ok (s.setRout { u with pc := u.pc + 1 })

/-- A micro-op: the marker writes mp7, then its effect; a fault leaves no effect and stops the sequencer, and so does a wait
of a suspended task, which nothing can end before it resumes. -/
def uop (s : State) (mkr : Bool) (f : State → Op State) : Host.Outcome State Fault Refusal :=
  match s.me.rout with
  | none => .next s
  | some u =>
    let s0 := if mkr then s.upd fun x => x.setMp 7 (u.mp7 true) else s
    match f s0 with
    | .ok s' => .next s'
    | .error (.trap t) => .next (s0.routineFault t)
    | .error (.wait _) => .next (if s0.me.status = .suspended then s0.stopRoutine else s0)

/-- END (R313). -/
def execUopEnd (mkr : Bool) (s : State) : Host.Outcome State Fault Refusal :=
  uop s mkr fun s => .ok (s.upd fun x => ({ x with rout := none }).setMp 7 (s.rout.mp7 false))

/-- The row named by a base register and an offset (R315). -/
def State.uopRow (s : State) (rb : BitVec 3) (ofs : BitVec 8) : Nat := ((s.me.mpReg rb.toNat).toNat + ofs.toNat) % 256

/-- Adds 1 to a working register. -/
def State.uopBump (s : State) (n : BitVec 3) (yes : Bool) : State :=
  if yes then s.upd fun x => x.setMp n.toNat (x.mpReg n.toNat + 1) else s

/-- MAC (R316): the partial results wait in order to land. -/
def execUopMac (o : UMac) (s : State) : Host.Outcome State Fault Refusal :=
  uop s o.mkr fun s => do
    let p := s.me.plane o.pl.toNat
    let n := mxCols p.fmt
    if n * (o.cg.toNat + 1) > 1024 then raise ucodeTrap
    let row := s.uopRow o.rb o.rofs
    let r ← s.me.physRow o.w64 row
    if !o.ovw then s.rowsSound (accOfs o.w64 r (o.cg.toNat * n)) (n * if o.w64 then 8 else 4)
    let (a, s) ← s.routineQ o.aq.toNat o.ak
    let (sa, s) ← s.routineQ (32 + o.sq.toNat) o.sk
    let f := if o.w64 then fmtF64 else fmtF32
    let u := s.rout
    let src : DrawSrc := { key := u.key, tag := u.tag.toNat, kind := 5, round := 0, hop := 0 }
    let k := wbits (s.me.mpReg o.kr.toNat) 0 18
    let parts := (List.range n).map fun i =>
      let col := o.cg.toNat * n + i
      columnParts f (if o.sr then .sr else .rne)
        (fun j => if o.sr then src.draw16 (k * 2 ^ 22 + col * 4096 + row * 16 + j * 4) else 0) o.afmt p a sa i
    let s := s.flag (joinFlags parts.flatten)
    let m : MacOp := { row := r, w64 := o.w64, ovw := o.ovw, col := o.cg.toNat * n, parts := parts.map fun l => l.map fun x => x.bits }
    let s := s.upd fun x => { x with macs := x.macs ++ [m] }
    (s.uopBump o.rb o.ri).uopNext

/-- LAT (R315). -/
def execUopLat (o : ULat) (s : State) : Host.Outcome State Fault Refusal :=
  uop s o.mkr fun s => do
    let (e, s) ← s.routineQ o.q.toNat o.k
    let (g, s) ← s.routineQ (32 + o.sq.toNat) o.sk
    let col := wbits (s.me.mpReg o.cr.toNat) 0 10
    let s := s.upd fun x => x.setPlane o.pl.toNat ((x.plane o.pl.toNat).column col e g)
    (s.uopBump o.cr o.ci).uopNext

/-- SET (R314). -/
def execUopSet (o : USet) (s : State) : Host.Outcome State Fault Refusal :=
  uop s o.mkr fun s =>
    let v := o.imm.signExtend 64 + if o.add then s.me.mpReg o.s.toNat else 0
    (s.upd fun x => x.setMp o.d.toNat v).uopNext

def Routine.lc (u : Routine) (lv : Bool) : BitVec 16 := if lv then u.lc1 else u.lc0
def Routine.ls (u : Routine) (lv : Bool) : BitVec 8 := if lv then u.ls1 else u.ls0
def Routine.setLc (u : Routine) (lv : Bool) (n : BitVec 16) : Routine := if lv then { u with lc1 := n } else { u with lc0 := n }
def Routine.setLs (u : Routine) (lv : Bool) (n : BitVec 8) : Routine := if lv then { u with ls1 := n } else { u with ls0 := n }

/-- Index of the next ENDL of a level after an index. -/
def findEndl (ucode : Map Word) (lv : Bool) (pc : Nat) : Option Nat :=
  (List.range 256).find? fun i => decide (pc < i) && (match decodeUop (mapGet 0 ucode i) with
    | .ok (.uopEndl o) => o.lv == lv
    | _ => false)

/-- LOOP (R317). -/
def execUopLoop (o : ULoop) (s : State) : Host.Outcome State Fault Refusal :=
  uop s o.mkr fun s => do
    let u := s.rout
    let n : BitVec 16 := if o.csrc then (s.me.mpReg o.s.toNat).extractLsb' 0 16 else o.imm
    let v := (u.setLs o.lv (u.pc + 1)).setLc o.lv n
    if n = 0 then
      match findEndl (s.toCore.tile s.ref.tile).ucode o.lv u.pc.toNat with
      | none => raise ucodeTrap
      | some j => (s.setRout { v with pc := BitVec.ofNat 8 j }).uopNext
    else (s.setRout v).uopNext

/-- ENDL (R317). -/
def execUopEndl (o : UEndl) (s : State) : Host.Outcome State Fault Refusal :=
  uop s o.mkr fun s => do
    let u := s.rout
    if u.lc o.lv = 0 then raise ucodeTrap
    let n := u.lc o.lv - 1
    let v := u.setLc o.lv n
    if n = 0 then (s.setRout v).uopNext else return s.setRout { v with pc := u.ls o.lv }

/-- BRZ (R317). -/
def execUopBrz (o : UBrz) (s : State) : Host.Outcome State Fault Refusal :=
  uop s o.mkr fun s =>
    if (s.me.mpReg o.s.toNat == 0) != o.nz then .ok (s.setRout { s.rout with pc := o.tgt }) else s.uopNext

/-- A micro-op that reads or clears rows waits for results that have not landed (R318). -/
def State.stepLanded (s : State) : Op Unit := if s.me.macs.isEmpty then .ok () else .error (.wait .mx)

/-- CLR (R314). -/
def execUopClr (o : UClr) (s : State) : Host.Outcome State Fault Refusal :=
  uop s o.mkr fun s => do
    s.stepLanded
    let n := o.nm1.toNat + 1
    let r ← s.me.physRun (s.uopRow o.rb o.rofs) n
    ({ s with toCore := s.toCore.clearRows s.ref.tile r n }).uopNext

/-- ACP (R314). -/
def execUopAcp (o : UAcp) (s : State) : Host.Outcome State Fault Refusal :=
  uop s o.mkr fun s => do
    s.stepLanded
    let n := o.nm1.toNat + 1
    let r ← s.me.physRun (s.uopRow o.rb o.rofs) n
    let q ← s.me.physRun (s.uopRow o.dr o.dofs) n
    s.rowsSound (accOfs false r 0) (n * 4096)
    ({ s with toCore := s.toCore.copyRows s.ref.tile r q n }).uopNext

/-- NOP (R314). -/
def execUopNop (mkr : Bool) (s : State) : Host.Outcome State Fault Refusal := uop s mkr fun s => s.uopNext

/-- The task on a tile whose routine the sequencer runs. -/
def Core.routineOn (c : Core) (t : Nat) : Option CtxRef :=
  ((c.tile t).queue.findIdx? fun x => x.rout.isSome && x.life != .preempted && x.life != .loaded).map fun p => .task t p

/-- ROUTINE_PAUSE (R320): mp7 is written before the marked micro-op, and the sequencer stops. -/
def execRoutinePause (s : State) : Host.Outcome State Fault Refusal :=
  match s.event with
  | some (.routinePause t) =>
    match s.toCore.routineOn t with
    | none => .next s
    | some r => .next { s with toCore := s.toCore.updCtx r fun x =>
        match x.rout with
        | none => x
        | some u => ({ x with rout := some { u with paused := true } }).setMp 7 (u.mp7 true) }
  | _ => .next s

/-- ROUTINE_FAULT (R321): the fault of a micro-op that the sequencer reached. -/
def execRoutineFault (s : State) : Host.Outcome State Fault Refusal :=
  match s.event with
  | some (.routineFault t kind cause detail) =>
    match s.toCore.routineOn t with
    | none => .next s
    | some r =>
      let s' := ({ s with ref := r }).routineFault { mkTrap kind cause with detail := detail }
      .next { s' with ref := s.ref }
  | _ => .next s

end Sys2Proof.Machine
end

