-- ==== Sys2Proof/Machine/Walks.lean ====
section
/-!
DEFINITION. The steps of translation and of remote-fed queues: page walks (01 R39), pre-translation (R40), region descriptors
(R41), the retry of parked stores (05 R147), and whether a queue takes a push (01 R36).
-/

namespace Sys2Proof.Machine

open Sys2Proof

/-- A translation put into a TLB of 512 entries; which entry a full one gives up is open (R38). -/
def Core.tlbInstall (c : Core) (t : Nat) (e : TlbEnt) : Core :=
  let c := c.updTile t fun tl =>
    { tl with tlb := (if tl.tlb.length < 512 then tl.tlb else tl.tlb.eraseIdx (Config.tlbVictim c.seq % 512)) ++ [e] }
  { c with seq := c.seq + 1 }

/-- A walk of one page for a tile: the leaf is installed, and its A bit set (R26), or the fault is noted. -/
def Core.walkFor (c : Core) (t vpage : Nat) : Except Nat Core :=
  let d := c.domOf t
  match c.walk d (BitVec.ofNat 64 (vpage * 65536)) with
  | .error k => .error k
  | .ok f =>
    let e : TlbEnt := { dom := d, vpage := vpage, sz := f.sz, leaf := f.word, leafPA := f.pa }
    if ((c.tile t).tlbFind d vpage).isSome then .ok c else .ok ((c.tlbInstall t e).setLeafBits d t e leafA)

/-- PAGE_WALK_COMPLETE (R39). -/
def execPageWalkComplete (s : State) : Host.Outcome State Fault Refusal :=
  match s.event with
  | some (.pageWalkComplete t vpage) =>
    let c := s.toCore
    if !(c.tile t).walks.contains vpage then .next s
    else
      let c := c.updTile t fun tl => { tl with walks := tl.walks.filter (· != vpage) }
      match c.walkFor t vpage with
      | .ok c => .next { s with toCore := c }
      | .error k => .next { s with toCore := c.updTile t fun tl => { tl with walkBad := tl.walkBad ++ [(vpage, k)] } }
  | _ => .next s

/-! The page that a stream reads next (R40), found from the shape of its address sequence. -/

/-- Pages of 64 KiB of an address. -/
def pageOf (a : Int) : Int := a / 65536

/-- Steps of stride `s`, from 1 on, until an address leaves its page; none when it never does. -/
def leaves (a s : Int) : Option Nat :=
  if s = 0 then none
  else if 0 < s then some ((65536 - a % 65536 + s - 1) / s).toNat
  else some (a % 65536 / (-s) + 1).toNat

/-- The first of `n` repetitions at stride `s`, from 1 on, in which one of some addresses is outside a page. -/
def firstOut (page : Int) (corners : List Int) (s : Int) (n : Nat) : Option Nat :=
  let one := fun (a : Int) => if pageOf (a + s) ≠ page then some 1 else (leaves (a + s) s).map (· + 1)
  match (corners.filterMap one).foldl (fun (o : Option Nat) k => some (match o with | none => k | some j => min j k)) none with
  | some k => if k ≤ n then some k else none
  | none => none

/-- The page outside `page` that `n` addresses of stride `s` from `a` on reach first. -/
def rowOut (page a s : Int) (n : Nat) : Option Int :=
  if pageOf a ≠ page then some (pageOf a)
  else (leaves a s).bind fun j => if j < n then some (pageOf (a + j * s)) else none

/-- The same over `n` rows at stride `t`, the rows of `k` addresses. -/
def rowsOut (page a s : Int) (k : Nat) (t : Int) (n : Nat) : Option Int :=
  match firstOut page [a, a + (k - 1 : Nat) * s] t n with
  | some r => rowOut page (a + r * t) s k
  | none => none

/-- The page after the current one in a stream's address sequence; none when the stream stays in its page. -/
def Stream.nextPage (x : Stream) : Option Int :=
  let (s0, s1, s2) : Int × Int × Int := (8 * x.str0, 8 * x.str1, 8 * x.str2)
  let (i0, i1, i2) := (x.i0.toNat, x.i1.toNat, x.i2.toNat)
  let here := x.base + x.offset
  let page := pageOf here
  let row := here - i0 * s0
  let plane := row - i1 * s1
  let planeOut := fun (a : Int) => (rowOut page a s0 x.cnt0).or (rowsOut page a s0 x.cnt0 s1 (x.cnt1 - 1))
  let corners := fun (a : Int) =>
    let w := (x.cnt0 - 1 : Nat) * s0
    let h := (x.cnt1 - 1 : Nat) * s1
    [a, a + w, a + h, a + w + h]
  let planes := fun (a : Int) (n : Nat) => (firstOut page (corners a) s2 n).bind fun r => planeOut (a + r * s2)
  (rowOut page here s0 (x.cnt0 - i0)).or <| (rowsOut page row s0 x.cnt0 s1 (x.cnt1 - 1 - i1)).or <|
    (planes plane (x.cnt2 - 1 - i2)).or (planes (plane - (i2 + 1) * s2) (i2 + 1))

/-- The translation of a page for a stream: the tile's, or that of a walk of its own; none when the page has none, or needs none
(01 R19, R41). -/
def Core.lookPage (c : Core) (t vpage : Nat) : Option TlbEnt × Bool × Core :=
  let d := c.domOf t
  let va : Word := BitVec.ofNat 64 (vpage * 65536)
  if !canonical va || Config.aliasBase ≤ vpage * 65536 || ((c.dom d).regionOf va).isSome then (none, false, c)
  else match (c.tile t).tlbFind d vpage with
    | some e => (some e, false, c)
    | none => match c.walk d va with
      | .error _ => (none, true, c)
      | .ok f =>
        let e : TlbEnt := { dom := d, vpage := vpage, sz := f.sz, leaf := f.word, leafPA := f.pa }
        (some e, false, c.setLeafBits d t e leafA)

/-- STREAM_PRE_TRANSLATION (R40): the page being read and the next one; a fault only marks the next page failed. -/
def execStreamPreTranslation (s : State) : Host.Outcome State Fault Refusal :=
  match s.event with
  | some (.streamPreTranslation r a) =>
    let c := s.toCore
    let x := (c.ctx r).stream a.toNat
    let page := x.addr.toNat / 65536
    let (cur, _, c) := c.lookPage r.tile page
    let (nxt, bad, c) := match (if canonical x.addr then x.nextPage else none) with
      | some vp => c.lookPage r.tile ((wordOfInt (vp * 65536)).toNat / 65536)
      | none => (none, false, c)
    let c := c.updCtx r fun y =>
      y.setStream a.toNat { y.stream a.toNat with page := some page, cur := cur, nxt := nxt, failed := bad }
    .next { s with toCore := c }
  | _ => .next s

/-- REGION_DESCRIPTOR_FETCH: a tile caches 16 descriptors (R41). -/
def execRegionDescriptorFetch (s : State) : Host.Outcome State Fault Refusal :=
  match s.event with
  | some (.regionDescriptorFetch t r) =>
    let c := s.toCore.updTile t fun tl =>
      if tl.regions.contains r then tl else { tl with regions := (r :: tl.regions).take 16 }
    .next { s with toCore := c }
  | _ => .next s

/-! Parked stores (05 R147). -/

/-- The parked store of a context that may be performed now: the oldest of its page. -/
def Ctx.retryable (x : Ctx) : Option Parked :=
  x.replay.find? fun p => p.resumed && p.inved && !p.dead &&
    (x.replay.all fun e => e.dead || e.order ≥ p.order || vpageOf e.va != vpageOf p.va)

/-- Bytes of a parked store. -/
def Parked.bytes (p : Parked) : List (Option Byte) :=
  (List.range 256).map fun i => if p.mask.getLsbD i then some (p.data.extractLsb' (8 * i) 8) else none

/-- The location of a parked store, every 4 KiB of it checked; a scalar one must be aligned (01 R44). -/
def Core.parkedLoc (c : Core) (w : Who) (p : Parked) (n : Nat) : Except TrapInfo Loc :=
  match c.translateNow w (.store 3) p.va with
  | .error t => .error t
  | .ok l =>
    let bad := (spanVas p.va n).findSome? fun v => match c.translateNow w (.store 3) v with
      | .error t => some t
      | .ok _ => none
    match bad with
    | some t => .error t
    | none =>
      if p.info.detail / 4096 = 1 && p.va.toNat % 2 ^ (p.info.detail / 256 % 16) ≠ 0 then .error (accTrap (.store 3) p.va l.pa cAlign)
      else .ok l

/-- PARKED_STORE_RETRY: the store takes its place in home order now, and what waited for room enters the queue. One that faults again is
parked again, with a record of its own. -/
def execParkedStoreRetry (s : State) : Host.Outcome State Fault Refusal :=
  match s.event with
  | some (.parkedStoreRetry r) =>
    let c := s.toCore
    let x := c.ctx r
    match x.retryable with
    | none => .next s
    | some p =>
      let w := c.who r
      let n := 256 - ((List.range 256).map (255 - ·)).findIdx fun i => p.mask.getLsbD i
      let park := fun (t : TrapInfo) =>
        let peer := fun (e : Parked) => vpageOf e.va == vpageOf p.va && !e.dead
        let t := { t with detail := p.info.detail, flags := flParked, slot := p.info.slot
                          aux1 := BitVec.ofNat 64 (x.replay.filter peer).length }
        let back := fun (e : Parked) => if peer e then { e with resumed := false, inved := false, info := t } else e
        let c := c.updCtx r fun x => { x with replay := x.replay.map back }
        let q : QFault := ⟨parkRecord c r p t, true, false, some x.id.taskid⟩
        c.updTile r.tile fun tl => { tl with faults := tl.faults ++ [q] }
      match c.parkedLoc w p n with
      | .error t => .next { s with toCore := park t }
      | .ok l =>
        match c.placeOf w (.store 3) l with
        | .error (.wait (.replica die page va)) => .next { s with toCore := c.sendOnce (.replicaRequest die page w.dom va) }
        | .error (.wait _) => .next s
        | .error (.trap t) => .next { s with toCore := park t }
        | .ok pl =>
          let c := match l.leaf with
            | some e => c.setLeafBits w.dom w.tile e leafAD
            | none => c
          let (ms, c) := c.mkStores w.tile pl l x.ftag (p.bytes.take n)
          let c := c.updCtx r fun x => { x with replay := x.replay.filter fun e => e.order != p.order }
          .next { s with toCore := (ms.foldl (fun c m => c.commitStore r m) c).enterLate r x.late.length }
  | _ => .next s

/-! Remote-fed queues (01 R36). -/

/-- Whether a tile's running task takes pushes into a queue. -/
def Core.takesPush (c : Core) (t q : Nat) : Bool :=
  match (c.tile t).queue with
  | x :: _ => x.life == .live && x.id.isRemote q
  | [] => false

/-- Whether the running task's queue has room. -/
def Core.pushRoom (c : Core) (t q : Nat) : Bool :=
  match (c.tile t).queue with
  | x :: _ => decide ((x.queue q).length < x.id.qdepth q)
  | [] => false

/-- A pushed entry lands in the running task's queue. -/
def Core.landPush (c : Core) (t q : Nat) (e : Entry) : Core :=
  let (i, c) := c.fresh
  c.updCtx (.task t 0) fun x => x.setQueue q (x.queue q ++ [⟨i, some e⟩])

end Sys2Proof.Machine
end

