-- ==== Sys2Proof/Machine/Engine.lean ====
section
/-!
DEFINITION. The engine commands (14 R351 to R361, R364, R365; 05 R144, R145): their issue, their progress piece by piece, their
completion and faults, and link transfers (18 R428, R429). A posted operation is issued by its slot; with no bundle in
progress the same row is the next piece of work of the command that `State.slot` numbers (log entry 21).
-/

namespace Sys2Proof.Machine

open Sys2Proof

/-! Engine accesses (R354, 01 R34). -/

/-- One byte of a tile window as engines see it. The candidate lists are those of the running task (14 R343). -/
def Core.windowByte (c : Core) (t off : Nat) : Byte :=
  if off < 0x400000 then mapGet 0 (c.tile t).win off
  else if off < 0x500000 then
    let k := off - 0x400000
    BitVec.ofNat 8 ((c.accRow t (k / 4096)).get (k % 4096 / 4) >>> (8 * (k % 4)))
  else if off < 0x520000 then
    let k := off - 0x500000
    BitVec.ofNat 8 ((mapGet 0 (c.tile t).banks (k / 4)).toNat >>> (8 * (k % 4)))
  else
    let k := off - 0x520000
    let x := match (c.tile t).queue with
      | x :: _ => x.cand (k / 512)
      | [] => .init
    (candBytes x).getD (k % 512) 0

/-- Engine writes into a tile window: a write to an accumulator row sets its valid bit (01 R34). -/
def Core.windowPut (c : Core) (t off : Nat) (b : Byte) : Core :=
  let lane := fun (v : Nat) (k : Nat) => v - ((v >>> (8 * k)) % 256) <<< (8 * k) + b.toNat <<< (8 * k)
  if off < 0x400000 then c.updTile t fun tl => { tl with win := mapSet 0 tl.win off b }
  else if off < 0x500000 then
    let k := off - 0x400000
    let a := (c.accRow t (k / 4096)).open
    c.setAccRow t (k / 4096) (a.put (k % 4096 / 4) (lane (a.get (k % 4096 / 4)) (k % 4)))
  else if off < 0x520000 then
    let k := off - 0x500000
    c.updTile t fun tl =>
      { tl with banks := mapSet 0 tl.banks (k / 4) (BitVec.ofNat 32 (lane (mapGet 0 tl.banks (k / 4)).toNat (k % 4))) }
  else c

def Core.windowPuts (c : Core) (t off : Nat) (bytes : List (Option Byte)) : Core :=
  (givenBytes bytes off).foldl (fun c e => c.windowPut t e.1 e.2) (c.cleanse (winBase t + off) bytes)

/-- The rights of a command: those of its issuer; only `cp` and `cp.gt` reach an offload window (18 R422). -/
def Core.cmdWho (c : Core) (t : Nat) (m : Cmd) : Who :=
  { tile := t, dom := c.domOf t, sup := m.sup, tver := m.tver, claim := m.claim,
    offl := decide (m.kind = .cp) || decide (m.kind = .gt) }

/-- Translation for an engine, which waits for its own walks. -/
def Core.engineLoc (c : Core) (w : Who) (acc : Acc) (va : Word) : Op Loc :=
  match c.translateNow w acc va with
  | .ok l => .ok l
  | .error t => raise t

/-- The bytes an engine reads at a location, within one page: at the home, or at the replica home of its die (02 R51). A line that its
home recalls is waited for (R57). -/
def Core.engineBytes (c : Core) (w : Who) (l : Loc) (n : Nat) : Op (Place × List Byte) :=
  match paRegion l.pa with
  | .win t off => .ok (.primary, (List.range n).map fun i => c.windowByte t (off + i))
  | _ => do
    let pl ← c.placeOf w .engRd l
    if (l.lines n).any fun line => (c.homeLine pl line).recalled then .error (.wait .acks)
    return (pl, c.placeBytes pl l.pa n)

/-- What a read of `n` bytes within 4 KiB gives: its bytes, none from the first poisoned one on, and the fault with its
offset. -/
def Core.engineRead (c : Core) (w : Who) (va : Word) (n : Nat) : Op (List (Option Byte) × Option (Nat × TrapInfo)) :=
  match c.engineLoc w .engRd va with
  | .error (.trap t) => .ok (List.replicate n none, some (0, t))
  | .error (.wait v) => .error (.wait v)
  | .ok l =>
    match c.engineBytes w l n with
    | .error (.trap t) => .ok (List.replicate n none, some (0, t))
    | .error (.wait v) => .error (.wait v)
    | .ok (pl, bs) =>
      let at0 := c.placePa pl l.pa
      match (List.range n).find? fun i => c.poisoned (at0 + i) 1 with
      | none => .ok (bs.map some, none)
      | some i => .ok ((bs.take i).map some ++ List.replicate (n - i) none,
          some (i, accTrap .engRd (va + BitVec.ofNat 64 i) (l.pa + i) cUncorr))

/-- A read of at most 4 KiB that may cross into another 4 KiB, where something else may hold (01 R19, R33, R34). -/
def Core.engineRun (c : Core) (w : Who) (va : Word) (n : Nat) : Op (List (Option Byte) × Option (Nat × TrapInfo)) := do
  let k := min n (4096 - va.toNat % 4096)
  let (b1, f1) ← c.engineRead w va k
  if k = n then return (b1, f1)
  else
    let (b2, f2) ← c.engineRead w (va + BitVec.ofNat 64 k) (n - k)
    return (b1 ++ b2, match f1 with
      | some f => some f
      | none => f2.map fun f => (k + f.1, f.2))

/-- The VAs of a run at which its first byte and its further lines stand. -/
def lineVas (va : Word) (n : Nat) : List Word :=
  let first := 128 - va.toNat % 128
  va :: (List.range ((n - first + 127) / 128)).map fun k => va + BitVec.ofNat 64 (first + 128 * k)

/-- What the reads of an engine leave behind: their walks set A of the leaves they find (01 R26), and their lines' home slices have been
reached (02 R71). -/
def Core.markReads (c : Core) (w : Who) (runs : List (Word × Nat)) : Core :=
  (runs.flatMap fun e => lineVas e.1 e.2).foldl (fun (c : Core) va =>
    match c.translateNow w .engRd va with
    | .error _ => c
    | .ok l =>
      let c := match l.leaf with
        | some e => c.setLeafBits w.dom w.tile e leafA
        | none => c
      let pl := c.placeNow w .engRd l
      (c.touch pl l.pa false).useReplica pl (l.pa / 65536)) c

/-- What an engine asks for when it waits: the replica of a page. -/
def Core.engineAsk (c : Core) (w : Who) (v : Wait) : Core :=
  match v with
  | .replica die page va => c.sendOnce (.replicaRequest die page w.dom va)
  | _ => c

/-- All of the bytes, when none of them faults. -/
def allGiven (bs : List (Option Byte)) : Option (List Byte) :=
  if bs.all Option.isSome then some (bs.map fun b => b.getD 0) else none

/-! Shapes of the commands. -/

/-- Source and destination widths of `cp.rs` (R358). -/
def rsWidths (k : RsKind) : Nat × Nat :=
  match k with
  | .f32 => (4, 4) | .bf => (2, 4) | .hf => (2, 4) | .f64 => (4, 8) | .i32 => (4, 4) | .i64 => (8, 8)

/-- The operand of the atomic that updates a destination element of `cp.rs`, in the destination's format: every conversion is exact
(R358). -/
def rsOperand (k : RsKind) (x : Nat) : Nat :=
  match k with
  | .bf => (fmtF32.ofVal .rne 0 (fmtBf16.decode x)).bits
  | .hf => (fmtF32.ofVal .rne 0 (fmtF16.decode x)).bits
  | .f64 => (fmtF64.ofVal .rne 0 (fmtF32.decode x)).bits
  | _ => x

/-- The atomic that updates a destination element of `cp.rs` (R358). -/
def rsAtomic (k : RsKind) : AtmKind :=
  match k with
  | .i32 | .i64 => .add
  | _ => .addf

/-- The new destination element of `cp.rs` (R358). -/
def rsApply (k : RsKind) (old x : Nat) : Nat :=
  let n := 8 * (rsWidths k).2
  (atmApply (rsAtomic k) n false old (rsOperand k x) 0).getD 0

/-- ESZ of `cp.gt` (R360). -/
def Cmd.esz (m : Cmd) : Nat := 2 ^ wbits (m.desc.getD 3 0) 32 4

/-- LEN of a link transfer in source bytes (R361). -/
def Cmd.linkMode (m : Cmd) : Nat := wbits (m.desc.getD 4 0) 32 2
def Cmd.linkLen (m : Cmd) : Nat :=
  let n := wbits (m.desc.getD 4 0) 0 32
  if m.linkMode = 0 then n else 25 * n
def Cmd.linkPort (m : Cmd) : Nat := wbits (m.desc.getD 2 0) 0 6

/-- The tiles that `cp.bc` names, ascending: the mask of R359, read when the command starts, is kept after the descriptor. -/
def Cmd.named (m : Cmd) : List Nat :=
  (List.range Config.tiles).filter fun t => wbits (m.desc.getD (8 + t / 64) 0) (t % 64) 1 == 1

/-- Bytes that a command reads. -/
def Cmd.srcLen (m : Cmd) : Nat :=
  match m.kind with
  | .cp => m.b.toNat
  | .rs k => m.b.toNat * (rsWidths k).1
  | .bc => wbits (m.desc.getD 2 0) 0 32
  | .gt => wbits (m.desc.getD 3 0) 0 32 * m.esz
  | .lk => m.linkLen
  | .msg n => match n with
    | .b64 => 64 | .b128 => 128 | .b256 => 256
  | .evt _ => 0

/-- Bytes that a command writes here. -/
def Cmd.dstLen (m : Cmd) : Nat :=
  match m.kind with
  | .cp => m.b.toNat
  | .rs k => m.b.toNat * (rsWidths k).2
  | .bc => m.named.length * wbits (m.desc.getD 2 0) 0 32
  | .gt => m.srcLen
  | _ => 0

/-- The run of the destination that a byte lies in (R355, R359). -/
def Cmd.run (m : Cmd) (p : Nat) : CmdRun :=
  match m.kind with
  | .bc =>
    let n := wbits (m.desc.getD 2 0) 0 32
    let i := p / n
    ⟨true, BitVec.ofNat 64 (winBase (m.named.getD i 0) + wbits (m.desc.getD 1 0) 0 24), i * n, n⟩
  | .gt => ⟨false, m.desc.getD 0 0, 0, m.dstLen⟩
  | _ => ⟨false, m.d, 0, m.dstLen⟩

/-- The element of a destination byte (R144). -/
def Cmd.element (m : Cmd) (p : Nat) : Nat :=
  match m.kind with
  | .gt => p / m.esz
  | .rs k => p / (rsWidths k).2
  | _ => p

/-- The first destination byte of an element. -/
def Cmd.elementAt (m : Cmd) (e : Nat) : Nat :=
  match m.kind with
  | .gt => e * m.esz
  | .rs k => e * (rsWidths k).2
  | _ => e

/-- Notes a fault of an element; the lowest element's is kept, and at one element the lower kind (R356, 17 R404). -/
def Cmd.fail (m : Cmd) (e : Nat) (t : TrapInfo) : Cmd :=
  match m.bad with
  | none => { m with bad := some (e, t) }
  | some (f, u) =>
    if e < f || (e = f && (t.kind * 256 + t.cause < u.kind * 256 + u.cause)) then { m with bad := some (e, t) } else m

/-! Commands on their tile. -/

def Core.cmd? (c : Core) (t id : Nat) : Option Cmd := (c.tile t).cmds.find? fun m => m.id == id

def Core.setCmd (c : Core) (t : Nat) (m : Cmd) : Core :=
  c.updTile t fun tl => { tl with cmds := tl.cmds.map fun x => if x.id = m.id then m else x }

def Core.dropCmd (c : Core) (t id : Nat) : Core := c.updTile t fun tl => { tl with cmds := tl.cmds.filter fun x => x.id != id }

/-- The context that issued a command: a handler context of its tile, or its task on whatever tile of the domain it is now. -/
def Core.issuer (c : Core) (t : Nat) (m : Cmd) : Option CtxRef :=
  match m.hc with
  | some k => if (mapGet none (c.tile t).hcs k).isSome then some (.hc t k) else none
  | none =>
    (c.tiles.find? fun e => e.2.dom == (c.tile t).dom && (findTask e.2 m.taskid).isSome).bind fun e =>
      (findTask e.2 m.taskid).map fun p => .task e.1 p

/-- Whether a push has not landed: on its way, or held (01 R36). -/
def Core.pushWaits (c : Core) (id : Nat) : Bool :=
  (c.msgs.any fun e => match e with
    | .remoteQueuePush _ _ _ _ i => i == id
    | _ => false) || c.tiles.any fun e => e.2.pushBuf.any fun p => p.id == id

/-- Whether a written store, atomic, push or message of a command has not been performed. -/
def Core.idWaits (c : Core) (id : Nat) : Bool :=
  c.pushWaits id ||
  (c.msgs.any fun e => match e with
    | .storeAtHome x => x.id == id
    | .forwardedAtomic _ i _ _ _ _ _ _ _ _ => i == id
    | .messageSlotWrite _ _ _ _ _ _ _ i => i == id
    | _ => false) ||
  (c.pages.any fun p => p.2.queued.any fun x => x.id == id) ||
  (c.diffs.any fun d => d.id == id && isFar (d.page * 65536) && d.left != 0) ||
  c.tiles.any fun e => (e.2.held.any fun h => h.id == id) || e.2.devOut.any fun x => x.id == id

/-- The scope of a command's release: a narrow one is made at .mod (log entry 16). -/
def relScope (q : Scope) : Scope := if scopeCode q < 5 then .mod else q

/-- Whether the command's start waits for a release of its issuer: ACQ (05 R144), or REL of a signal, a message or a link
transfer, whose write is a release of the issuer (R364, R365, R361). -/
def Cmd.holds (m : Cmd) : Bool :=
  m.fl.acq || (m.fl.rel && match m.kind with
    | .evt _ | .msg _ | .lk => true
    | _ => false)

/-- Starts a release in progress for a command. -/
def Core.cmdRelease (c : Core) (r : CtxRef) (m : Cmd) (need : List Nat) : Core :=
  c.addRelease r (.cmd m.id) m.taskid (relScope m.fl.scope) need []

def Core.cmdRel (c : Core) (m : Cmd) : Option Release := c.rels.find? fun x => decide (x.kind = .cmd m.id)

def Core.dropRel (c : Core) (id : Nat) : Core := { c with rels := c.rels.filter fun x => x.id != id }

/-- Whether the issuer's earlier stores, routine and forest operation let the command's release begin (05 R144, 12 R326,
13 R342). While the issuer is saved, its image keeps what they wait for. -/
def Core.acquireReady (c : Core) (t : Nat) (m : Cmd) : Bool :=
  match c.issuer t m with
  | none =>
    let d := c.dom (c.domOf t)
    m.hc.isSome || !((d.savedCtx (idKey m.taskid)).isSome || d.away.any fun x => idKey x == idKey m.taskid)
  | some r =>
    let x := c.ctx r
    (x.replay.all fun p => p.dead || p.order ≥ m.orders) &&
      (m.rout.isNone || x.rout.map (fun u => u.num) != m.rout) && x.macs.isEmpty && x.fo.isNone

/-- Hands a command to the engines as its bundle commits (R352, 08 R210). -/
def Core.issueCmd (c : Core) (r : CtxRef) (m : Cmd) : Core :=
  let x := c.ctx r
  let m := { m with orders := x.order, rout := x.rout.map fun u => u.num
                    phase := if m.holds then .acquiring else .starting }
  c.updTile r.tile fun tl => { tl with cmds := tl.cmds ++ [m] }

/-! Starting (R356, R359 to R361, R365). -/

/-- The barrier named by a register field; s0 names none (R353). -/
def State.barField (s : State) (f : BitVec 6) : Op (Option Word) :=
  if f = 0 then .ok none else do
    let v ← s.rdS f
    return some v

/-- Whether a descriptor keeps the limits of its table. -/
def Cmd.descOk (m : Cmd) : Bool :=
  let w := fun n => m.desc.getD n 0
  let zero := fun (l : List Nat) => l.all fun n => w n == 0
  match m.kind with
  | .bc => wbits (w 1) 24 40 == 0 && wbits (w 2) 32 32 == 0 && wbits (w 2) 0 32 ≤ 2 ^ 24 - wbits (w 1) 0 24 &&
      wbits (w 3) 0 6 == 0 && zero [4, 5, 6, 7]
  | .gt => wbits (w 2) 0 2 == 0 && wbits (w 3) 36 28 == 0 && wbits (w 3) 32 4 ≤ 8 && zero [4, 5, 6, 7]
  | .lk => wbits (w 2) 6 10 == 0 && wbits (w 2) 32 8 == 0 && wbits (w 4) 34 30 == 0 && m.linkMode ≤ 2 && m.linkPort < 36
  | _ => true

/-- Whether a link command is refused with a handler (R356, 18 R429): no rounds, a port of another domain, or one that is OFF
or DOWN. -/
def Core.linkRefused (c : Core) (t : Nat) (m : Cmd) : Bool :=
  let p := mapGet Port.init c.mc.ports m.linkPort
  wbits (c.ctl (c.domOf t) 0x71) 0 32 == 0 || p.dom.toNat != c.domOf t || p.state == 0#2 || p.state == 3#2

/-- The fault of an address that must be aligned (R358), or of a lower cause that its translation has (01 R44). -/
def Core.alignFault (c : Core) (w : Who) (acc : Acc) (va : Word) (n : Nat) : Option TrapInfo :=
  if va.toNat % n = 0 then none
  else match c.translateNow w acc va with
    | .error t => some (if t.kind < kAlign then t else accTrap acc va 0 cAlign)
    | .ok l => some (accTrap acc va l.pa cAlign)

/-- A fault noted, when there is one. -/
def Cmd.failIf (m : Cmd) (e : Nat) (t : Option TrapInfo) : Cmd :=
  match t with
  | some t => m.fail e t
  | none => m

/-- The start of a command whose issuer's release is done: its descriptor, its checks, and the phase that follows. -/
def Core.cmdStart (c : Core) (t : Nat) (m : Cmd) : Core :=
  let w := c.cmdWho t m
  let go := fun (c : Core) (m : Cmd) => c.setCmd t { m with phase := .reading }
  let need := match m.kind with
    | .bc | .gt | .lk => true
    | _ => false
  match m.kind with
  | .evt ev => (c.dropCmd t m.id).send (.eventSignalDeliver (c.domOf t) m.a ev)
  | .msg _ =>
    let m := if m.a.toNat < Config.tiles && (c.tile m.a.toNat).dom == some (c.domOf t) then m
      else m.fail 0 { mkTrap kPerm cDomain with detail := Acc.engWr.detail }
    let m := if m.b.toNat ≤ 239 then m else m.fail 0 { mkTrap kPerm cWindow with detail := Acc.engWr.detail }
    go c m
  | .rs k =>
    let (ws, wd) := rsWidths k
    if m.b = 0 then go c m
    else
      let m := (m.failIf 0 (c.alignFault w .engRd m.a ws)).failIf 0 (c.alignFault w .engWr m.d wd)
      if m.bad.isSome then c.setCmd t { m with phase := .faulted } else go c m
  | _ =>
    if !need then go c m
    else if m.a.toNat % 64 ≠ 0 then c.setCmd t { m with phase := .refused false }
    else
      match c.engineRun w m.a 64 with
      | .error (.wait v) => c.engineAsk w v
      | .error (.trap _) => c.setCmd t { m with phase := .refused false }
      | .ok (bs, _) =>
        match allGiven bs with
        | none => c.setCmd t { m with phase := .refused false }
        | some bs =>
          let c := c.markReads w [(m.a, 64)]
          let m := { m with desc := (List.range 8).map fun i => leWord ((bs.drop (8 * i)).take 8) }
          if !m.descOk then c.setCmd t { m with phase := .refused false }
          else
            match m.kind with
            | .lk => if c.linkRefused t m then c.setCmd t { m with phase := .refused true } else go c m
            | .bc =>
              match c.engineRun w (m.desc.getD 3 0) 64 with
              | .error (.wait v) => c.engineAsk w v
              | .error (.trap e) => c.setCmd t { (m.fail 0 e) with phase := .faulted }
              | .ok (bs, f) =>
                match f with
                | some f =>
                  let m := m.fail 0 f.2
                  c.setCmd t { m with phase := .faulted }
                | none =>
                  let c := c.markReads w [(m.desc.getD 3 0, 64)]
                  let mask := (List.range 8).map fun i => leWord (((bs.map fun b => b.getD 0).drop (8 * i)).take 8)
                  go c { m with desc := m.desc ++ mask }
            | _ => go c m

/-! Reading. -/

/-- The runs of bytes that the next read of a command from source offset `p` reads. -/
def Core.cmdReads (c : Core) (t : Nat) (m : Cmd) (p : Nat) : List (Word × Nat) :=
  let plain := fun (base : Word) =>
    let va := base + BitVec.ofNat 64 p
    [(va, min (m.srcLen - p) (128 - va.toNat % 128))]
  match m.kind with
  | .gt =>
    let ix := m.desc.getD 2 0 + BitVec.ofNat 64 (4 * (p / m.esz))
    match c.engineRun (c.cmdWho t m) ix 4 with
    | .ok (bs, none) => [(ix, 4), (m.desc.getD 1 0 + BitVec.ofNat 64 (leNat (bs.map fun b => b.getD 0) * m.esz), m.esz)]
    | _ => [(ix, 4)]
  | .bc | .lk => plain (m.desc.getD 0 0)
  | .msg _ => plain (m.bar.getD 0)
  | _ => plain m.a

/-- The next read of a command from source offset `p`: its bytes and its fault with the byte at which it lies. -/
def Core.cmdRead (c : Core) (t : Nat) (m : Cmd) (p : Nat) : Op (List (Option Byte) × Option (Nat × TrapInfo)) :=
  let w := c.cmdWho t m
  let plain := fun (base : Word) =>
    let va := base + BitVec.ofNat 64 p
    c.engineRead w va (min (m.srcLen - p) (128 - va.toNat % 128))
  match m.kind with
  | .gt => do
    let i := p / m.esz
    let (ix, f) ← c.engineRun w (m.desc.getD 2 0 + BitVec.ofNat 64 (4 * i)) 4
    match f with
    | some f => return (List.replicate m.esz none, some (0, f.2))
    | none => c.engineRun w (m.desc.getD 1 0 + BitVec.ofNat 64 (leNat (ix.map fun b => b.getD 0) * m.esz)) m.esz
  | .bc | .lk => plain (m.desc.getD 0 0)
  | .msg _ => match m.bar with
    | some va => plain va
    | none => plain 0
  | _ => plain m.a

/-- The element of a source byte. -/
def Cmd.srcElement (m : Cmd) (p : Nat) : Nat :=
  match m.kind with
  | .gt => p / m.esz
  | .rs k => p / (rsWidths k).1
  | _ => p

/-- One read of a command. After a fault the bytes above may still be read, as a free value says (R356). -/
def Core.cmdReading (c : Core) (t : Nat) (m : Cmd) : Core :=
  let p := m.src.length
  let next := fun (m : Cmd) => match m.kind with
    | .lk => { m with phase := if m.bad.isSome then .faulted else .linkWait }
    | .msg _ => { m with phase := if m.bad.isSome then .faulted else .writing }
    | _ => { m with phase := .writing }
  if p ≥ m.srcLen then c.setCmd t (next m)
  else if m.bad.isSome && !Config.wroteAbove c.seq then
    let c := c.setCmd t (next m)
    { c with seq := c.seq + 1 }
  else
    match c.cmdRead t m p with
    | .error (.wait v) => c.engineAsk (c.cmdWho t m) v
    | .error (.trap e) => c.setCmd t (m.fail (m.srcElement p) e)
    | .ok (bs, f) =>
      let m := { m with src := m.src ++ bs }
      let m := match f with
        | none => m
        | some (k, tr) => m.fail (m.srcElement (p + k)) tr
      let c := (c.markReads (c.cmdWho t m) (c.cmdReads t m p)).setCmd t m
      { c with seq := c.seq + 1 }

/-! Writing. -/

/-- The location of a written byte: translated, or a window named by its tile (R359). -/
def Core.cmdLoc (c : Core) (w : Who) (g : CmdRun) (k : Nat) : Op Loc :=
  if g.phys then
    let pa := g.addr.toNat + k
    checked .engWr { va := 0, pa := pa, mt := 1, repl := false, leaf := none } (c.paCause w .engWr pa)
  else c.engineLoc w .engWr (g.addr + BitVec.ofNat 64 k)

/-- Where a write of a run may go in a window of a tile, with the bytes of its next write (R355). -/
inductive WinShape where
  | bytes
  | message (slot off : Nat)
  | push (q : Nat)

def Core.winShape (c : Core) (t off : Nat) (g : CmdRun) (k : Nat) : Except Nat WinShape :=
  if off < 0x530000 then .ok .bytes
  else if off < 0x540000 then
    let start := off - k
    if (g.len = 64 || g.len = 128 || g.len = 256) && start % g.len = 0 && k = 0 then
      .ok (.message ((start - 0x530000) / 256) (start % 256))
    else .error cWindow
  else if (off - k) % 256 = 0 && g.len % 256 = 0 then
    let q := (off - 0x540000) / 0x800
    if c.takesPush t q then .ok (.push q) else .error cNotarget
  else .error cWindow

/-- One write of a command from destination byte `p`, of the bytes given: how many bytes it covers, and the numbers of the
stores that are on their way. While a push of the command is held its transfer stalls (01 R36). -/
def Core.cmdPut (c : Core) (t : Nat) (m : Cmd) (p most : Nat) (bytes : Nat → Nat → List (Option Byte)) :
    Op (Nat × List Nat × List Nat × Core) := do
  let w := c.cmdWho t m
  let g := m.run p
  let k := p - g.ofs
  let l ← c.cmdLoc w g k
  let line := min most (min (g.len - k) (128 - l.pa % 128))
  match paRegion l.pa with
  | .win u off =>
    match c.winShape u off g k with
    | .error e => raise (accTrap .engWr l.va l.pa e)
    | .ok .bytes => return (line, [], [], c.windowPuts u off (bytes p line))
    | .ok (.message slot o) =>
      match allGiven (bytes p g.len) with
      | none => return (g.len, [], [], c)
      | some bs =>
        let (i, c) := c.fresh
        return (g.len, [i], [], c.send (.messageSlotWrite u slot o bs (BitVec.ofNat 32 t) m.sup false i))
    | .ok (.push q) =>
      match allGiven (bytes p 256) with
      | none => return (256, [], [], c)
      | some bs =>
        if m.unacked.any c.pushWaits then .error (.wait .remote)
        let (i, c) := c.fresh
        return (256, [i], [], c.send (.remoteQueuePush u q (BitVec.ofNat 2048 (leNat bs)) t i))
  | .offl port _ => return (line, [], [port], c.putBytes l.pa (bytes p line))
  | _ => do
    let pl ← c.placeOf w .engWr l
    let c := match l.leaf with
      | some e => c.setLeafBits w.dom t e leafAD
      | none => c
    let (ms, c) := c.mkStores t pl l none (bytes p line)
    return (line, ms.map fun x => x.id, [], ms.foldl (fun c x => c.startStore x) c)

/-- One element of `cp.rs`: an atomic without a role at the destination's home (R358), or on its way there (02 R65). -/
def Core.cmdReduce (c : Core) (t : Nat) (m : Cmd) (k : RsKind) (e : Nat) (x : Nat) : Op (List Nat × Core) := do
  let w := c.cmdWho t m
  let wd := (rsWidths k).2
  let va := m.d + BitVec.ofNat 64 (e * wd)
  let l ← c.engineLoc w .engWr va
  if l.isDevice then raise (accTrap .engWr va l.pa cNoatom)
  if c.poisoned l.pa wd then raise (accTrap .engWr va l.pa cUncorr)
  match paRegion l.pa with
  | .win u off =>
    match c.winShape u off (m.run (e * wd)) (e * wd) with
    | .ok .bytes =>
      let old := leNat ((List.range wd).map fun i => c.windowByte u (off + i))
      return ([], c.windowPuts u off ((leBytes wd (rsApply k old x)).map some))
    | _ => raise (accTrap .engWr va l.pa cWindow)
  | _ =>
    if c.recallBusy l.pa then .error (.wait .acks)
    let c := match l.leaf with
      | some f => c.setLeafBits w.dom t f leafAD
      | none => c
    let (i, c) := c.fresh
    return ([i], if c.atomicFar t l.pa then
        c.sendAtomic t i l (rsAtomic k) (wd == 8) false (BitVec.ofNat 64 (rsOperand k x)) 0 none none
      else (c.atomicAt t i l.pa wd none fun b => some (leBytes wd (rsApply k (leNat b) x))).2)

/-- Source bytes for destination bytes `p` to `p + n - 1`. -/
def Cmd.given (m : Cmd) (p n : Nat) : List (Option Byte) :=
  let at0 := match m.kind with
    | .bc => p % wbits (m.desc.getD 2 0) 0 32
    | _ => p
  let bs := (m.src.drop at0).take n
  bs ++ List.replicate (n - bs.length) none

/-- The end of the writes: the fault of a command that had one, its release, or its completion. -/
def Core.cmdWritten (c : Core) (t : Nat) (m : Cmd) : Core :=
  match m.kind with
  | .msg _ => c.setCmd t { m with phase := .done }
  | _ =>
    if m.bad.isSome then c.setCmd t { m with phase := .faulted }
    else if m.fl.rel then
      let r := (c.issuer t m).getD (.task t 8)
      (c.cmdRelease r m m.unacked).setCmd t { m with phase := .releasing }
    else c.setCmd t { m with phase := .done }

/-- One write of a command. Above the lowest faulting byte a free value says what is still written (R356). -/
def Core.cmdWriting (c : Core) (t : Nat) (m : Cmd) : Core :=
  let p := m.wrote
  match m.kind with
  | .msg _ =>
    let (i, c) := c.fresh
    let bs := m.src.map fun b => b.getD 0
    (c.send (.messageSlotWrite m.a.toNat m.b.toNat 0 bs (BitVec.ofNat 32 t) m.sup false i)).cmdWritten t
      { m with unacked := m.unacked ++ [i] }
  | _ =>
    let total := m.dstLen
    if p ≥ total then c.cmdWritten t m
    else
      let limit := match m.bad with
        | some (e, _) => m.elementAt e
        | none => total
      let above := decide (limit ≤ p)
      let c : Core := if above then { c with seq := c.seq + 2 } else c
      if above && !Config.wroteAbove (c.seq - 1) then c.cmdWritten t m
      else
        let skipIt := above && !Config.wroteAbove (c.seq - 2)
        let most := if above then total - p else limit - p
        match m.kind with
        | .rs k =>
          let (ws, wd) := rsWidths k
          let e := p / wd
          let x := allGiven ((m.src.drop (e * ws)).take ws)
          let m' := { m with wrote := p + wd }
          match (if skipIt then none else x) with
          | none => c.setCmd t m'
          | some x =>
            if x.length < ws then c.setCmd t m'
            else
              match c.cmdReduce t m k e (leNat x) with
              | .ok (ids, c) => c.setCmd t { m' with unacked := m.unacked ++ ids }
              | .error (.wait _) => c
              | .error (.trap tr) => c.setCmd t (if above then m' else m.fail e tr)
        | _ =>
          match c.cmdPut t m p most fun p n => if skipIt then List.replicate n none else m.given p n with
          | .ok (n, ids, ports, c) =>
            c.setCmd t { m with wrote := p + n, unacked := m.unacked ++ ids, ports := m.ports ++ ports }
          | .error (.wait v) => c.engineAsk (c.cmdWho t m) v
          | .error (.trap tr) =>
            if above then c.setCmd t { m with wrote := p + min most (128 - (m.run p).addr.toNat % 128) }
            else c.setCmd t (m.fail (m.element p) tr)

/-! Progress. -/

/-- What a command does next, by its phase. -/
def Core.cmdStep (c : Core) (t id : Nat) : Core :=
  match c.cmd? t id with
  | none => c
  | some m =>
    match m.phase with
    | .acquiring =>
      match c.cmdRel m with
      | some x =>
        match x.ended with
        | none => c
        | some true =>
          let q := m.fl.scope
          match (if m.fl.acq && scopeCode q ≥ 4 then c.tagDie t else none) with
          | some die => (c.dirtyReps die (c.domOf t)).foldl (fun c r => c.publish r) c
          | none => (c.dropRel x.id).setCmd t { m with phase := .starting }
        | some false => (c.dropRel x.id).setCmd t { m with phase := .lost }
      | none =>
        if !c.acquireReady t m then c
        else
          let r := (c.issuer t m).getD (.task t 8)
          c.cmdRelease r m (match c.issuer t m with
            | some r => (c.ctx r).unacked
            | none => [])
    | .starting => c.cmdStart t m
    | .reading => c.cmdReading t m
    | .writing => c.cmdWriting t m
    | .linkWait =>
      let p := mapGet Port.init c.mc.ports m.linkPort
      if p.state == 0#2 || p.state == 3#2 then c.setCmd t { m with phase := .lost } else c
    | .linkSent =>
      let p := mapGet Port.init c.mc.ports m.linkPort
      if p.state == 0#2 || p.state == 3#2 then c.setCmd t { m with phase := .lost } else c
    | .releasing =>
      match c.cmdRel m with
      | none => c.setCmd t { m with phase := .done }
      | some x =>
        match x.ended with
        | none => c
        | some false => (c.dropRel x.id).setCmd t { m with phase := .lost }
        | some true =>
          let c := c.dropRel x.id
          if scopeCode m.fl.scope < 6 || m.ports.isEmpty then c.setCmd t { m with phase := .done }
          else
            let c : Core := { c with mc := { c.mc with flush := c.mc.flush ++ m.ports.eraseDups.map fun p => (p, m.id) } }
            c.setCmd t { m with phase := .flushing }
    | .flushing => if c.mc.flush.any fun e => e.2 == m.id then c else c.setCmd t { m with phase := .done }
    | .event =>
      let here := c.msgs.any fun e => match e with
        | .barrierUpdateAtHome _ ops => ops.any fun o => match o with
          | .upd u true _ _ _ _ => u == t
          | _ => false
        | _ => false
      if here then c
      else
        let c := c.dropCmd t id
        match c.issuer t m with
        | some r => c.updCtx r fun x => x.setEv m.fl.evn.toNat
        | none => if m.hc.isSome then c else c.send (.eventSignalDeliver (c.domOf t) m.taskid m.fl.evn)
    | .done | .faulted | .lost | .refused _ => c

/-- Whether a command has work that it can do now. -/
def Core.cmdReady (c : Core) (t : Nat) (m : Cmd) : Bool := decide (c.cmdStep t m.id ≠ c)

/-- Whether the last write of a command has been performed (R354). -/
def Core.cmdDone (c : Core) (m : Cmd) : Bool :=
  (decide (m.phase = .done) && m.unacked.all fun i => !c.idWaits i) || decide (m.phase = .lost)

/-! Completion and faults. -/

/-- The record of an engine fault (17 R406, R407): SLOT is the A slot's, AUX0 the command's slot word, AUX1 the element. -/
def Core.cmdRecord (c : Core) (t : Nat) (m : Cmd) (tr : TrapInfo) (elem : Nat) : List Word :=
  let tr := { tr with slot := 11, flags := flEngine, aux0 := m.word, aux1 := BitVec.ofNat 64 elem }
  recordWords c t (if m.hc.isSome then 0 else m.kid) m.bofs (if m.hc.isSome then 0 else m.taskid) m.rep tr

/-- Starts the handler of an engine fault, or reports it when a handler context issued the command (R356). -/
def Core.cmdReport (c : Core) (t : Nat) (m : Cmd) (tr : TrapInfo) (elem : Nat) : Core :=
  let rc := c.cmdRecord t m tr elem
  if m.hc.isSome then c.faultMsg (c.domOf t) rc
  else c.updTile t fun tl => { tl with faults := tl.faults ++ [⟨rc, false, true, some m.taskid⟩] }

/-- A command's signals to its barrier (05 R138). One whose barrier cannot be reached faults, and one whose barrier lies in a place that
R134 does not admit, with the record of that misuse (log entry 21). -/
def Core.cmdBar (c : Core) (t : Nat) (m : Cmd) (ops : List BarOp) : Core :=
  match m.bar, m.kind with
  | _, .msg _ => c
  | none, _ => c
  | some va, _ =>
    let w := c.cmdWho t m
    if va.toNat % 16 ≠ 0 then c.cmdReport t m (accTrap .engWr va 0 cAlign) (m.element m.wrote)
    else
      match c.translateNow w (.atomic 4) va with
      | .error tr => c.cmdReport t m { tr with detail := Acc.engWr.detail } (m.element m.wrote)
      | .ok l =>
        if barPlace l then (c.markLeaf w (.atomic 4) va leafAD).send (.barrierUpdateAtHome l.pa ops)
        else c.cmdReport t m (barTrap 5 va 0) (m.element m.wrote)

/-- ENGINE_COMMAND_COMPLETE (R354): one arrival at the barrier, then the event. A command whose link failed sets LOST too, and
sends no event (05 R149). -/
def execEngineCommandComplete (s : State) : Host.Outcome State Fault Refusal :=
  match s.event with
  | some (.engineCommandComplete t id) =>
    let c := s.toCore
    match c.cmd? t id with
    | none => .next s
    | some m =>
      if !c.cmdDone m then .next s
      else
      let n := if m.fl.byt && m.kind ≠ .lk then m.wrote else 0
      if m.phase = .lost then
        .next { s with toCore := (c.cmdBar t m [.lost t, .upd t true 1 0 0 (n : Int)]).dropCmd t id }
      else
        let c := c.cmdBar t m [.upd t true 1 0 0 (n : Int)]
        .next { s with toCore := if m.fl.eve then c.setCmd t { m with phase := .event } else c.dropCmd t id }
  | _ => .next s

/-- ENGINE_COMMAND_FAULT (R356): ERR at the barrier, no event, and a handler for a fault or a refused link. -/
def execEngineCommandFault (s : State) : Host.Outcome State Fault Refusal :=
  match s.event with
  | some (.engineCommandFault t id) =>
    let c := s.toCore
    match c.cmd? t id with
    | none => .next s
    | some m =>
      match m.phase with
      | .faulted =>
        let c := (c.cmdBar t m [.err t]).dropCmd t id
        match m.bad with
        | some (e, tr) => .next { s with toCore := c.cmdReport t m tr e }
        | none => .next { s with toCore := c }
      | .refused link =>
        let c := (c.cmdBar t m [.err t]).dropCmd t id
        let tr := { mkTrap kLink 0 with detail := m.linkPort, addr := m.a }
        .next { s with toCore := if link then c.cmdReport t m tr 0 else c }
      | _ => .next s
  | _ => .next s

/-! Link rounds (18 R428, R429) and landings (R361). -/

/-- Whether a link transfer's round has begun and its port is up. -/
def Core.roundOpen (c : Core) (t : Nat) (m : Cmd) : Bool :=
  let len := max 1024 (wbits (c.ctl (c.domOf t) 0x71) 0 32)
  decide (m.phase = .linkWait) && decide ((m.desc.getD 3 0).toNat * len ≤ c.ftick.toNat) &&
    (mapGet Port.init c.mc.ports m.linkPort).state == 1#2

/-- LINK_ROUND_SEND: the beats leave on VC-G. -/
def execLinkRoundSend (s : State) : Host.Outcome State Fault Refusal :=
  match s.event with
  | some (.linkRoundSend t id) =>
    match s.toCore.cmd? t id with
    | none => .next s
    | some m =>
      if s.toCore.roundOpen t m then .next { s with toCore := s.toCore.setCmd t { m with phase := .linkSent } } else .next s
  | _ => .next s

/-- One block of an incoming reduction (R361): the sums with the local partial. -/
def linkSums (codes : List Byte) (scale : Nat) (part : List Nat) : List Nat :=
  (List.range 24).map fun k =>
    (fmtF32.finish .rne 0 (addVal .rne (mxValue .e4m3 (codes.getD k 0).toNat scale) (fmtF32.decode (part.getD k 0)))).bits

/-- The image that an incoming transfer writes: its data; requantised, the codes of all blocks and then their scales; or the sums. -/
def linkImage (mode : Nat) (key : Word) (tag hop round n : Nat) (data : List Byte) (part : List Nat) : List Byte :=
  let sums := fun (j : Nat) => linkSums ((data.drop (24 * j)).take 24) (data.getD (24 * n + j) 0).toNat ((part.drop (24 * j)).take 24)
  let scale := fun (j : Nat) => blockScale .e4m3 ((sums j).map fmtF32.decode)
  let d : DrawSrc := { key := key, tag := tag, kind := 4, round := round, hop := hop }
  match mode with
  | 0 => data
  | 1 =>
    ((List.range n).flatMap fun j => (sums j).mapIdx fun k y =>
      BitVec.ofNat 8 (quantise .e4m3 (scale j) .sr (d.draw16 (24 * j + k)) (fmtF32.decode y)).bits) ++
    (List.range n).map fun j => BitVec.ofNat 8 (scale j)
  | _ => (List.range n).flatMap fun j => (sums j).flatMap fun y => leBytes 4 y

/-- The rights of a link transfer at its receiver: a task's of the domain, on no tile (log entry 15). -/
def linkWho (d : Nat) : Who := { deviceWho d with sup := false }

/-- The sender of a link transfer's messages. -/
def linkSender : BitVec 32 := 0xFFFFFFFF

/-- Bytes written from outside at one location and the locations that follow it, home by home, with the numbers of the writes and the
fault that ended them: everything below it is written. A page that another home holds, and a busy home, are waited for. Pushes and
messages go on their way, the latter with their sender (07 R187). -/
def Core.outsidePut (c : Core) (w : Who) (sender : BitVec 32) (find : Core → Word → Op Loc) (va : Word) (bytes : List Byte)
    (ids : List Nat) : Nat → Op (Core × List Nat × Option TrapInfo)
  | 0 => .ok (c, ids, none)
  | fuel + 1 =>
    if bytes.isEmpty then .ok (c, ids, none)
    else match find c va with
    | .error (.wait v) => .error (.wait v)
    | .error (.trap t) => .ok (c, ids, some t)
    | .ok l =>
      let n := min bytes.length (128 - l.pa % 128)
      let bs := (bytes.take n).map some
      let next := va + BitVec.ofNat 64 n
      match paRegion l.pa with
      | .win u off =>
        match c.winShape u off ⟨false, va, 0, bytes.length⟩ 0 with
        | .error e => .ok (c, ids, some (accTrap .engWr l.va l.pa e))
        | .ok .bytes => (c.windowPuts u off bs).outsidePut w sender find next (bytes.drop n) ids fuel
        | .ok (.message slot o) =>
          let (i, c) := c.fresh
          .ok (c.send (.messageSlotWrite u slot o bytes sender w.sup (sender != linkSender) i), ids ++ [i], none)
        | .ok (.push q) =>
          let src := if sender = linkSender then Config.tiles else sender.toNat
          let (i, c) := c.fresh
          let c := c.send (.remoteQueuePush u q (BitVec.ofNat 2048 (leNat (bytes.take 256))) src i)
          c.outsidePut w sender find (va + 256) (bytes.drop 256) (ids ++ [i]) fuel
      | _ =>
        match c.placeOf w .engWr l with
        | .error (.wait v) => .error (.wait v)
        | .error (.trap t) => .ok (c, ids, some t)
        | .ok pl =>
          if (c.homeLine pl (l.pa / 128)).recalled || (c.page (l.pa / 65536)).mode == .draining then .error (.wait .acks)
          else
            let c := match l.leaf with
              | some e => c.setLeafBits w.dom w.tile e leafAD
              | none => c
            let (i, c) := c.fresh
            let m : StoreMsg := { id := i, tile := Config.tiles, place := pl, pa := l.pa, bytes := bs, tag := none, dev := false }
            ((c.storeAt m).setTags m).outsidePut w sender find next (bytes.drop n) (ids ++ [i]) fuel

/-- Whether a store from outside has not reached every sharer and replica of this module, or of others. -/
def Core.storeTravels (c : Core) (id : Nat) (away : Bool) : Bool :=
  (c.home.any fun e => e.2.sent.any fun x => x.1 == id) || c.diffs.any fun d => d.id == id && (d.left != 0 || (away && d.away != 0))

/-- Whether the arrival that follows a landed transfer has to wait: until its writes are performed, and for a release until its scope
has them (14 R361, 05 R130, R145). -/
def Core.landingWaits (c : Core) (dom : Nat) (rel : Option Scope) (ids : List Nat) : Bool :=
  ids.any c.idWaits || match rel with
    | none => false
    | some q =>
      let n := scopeCode q
      (ids.any fun i => c.storeTravels i (decide (7 ≤ n))) || (c.reps.any fun r => r.dom == dom && isFar (r.page * 65536) && !r.dirty.isEmpty) ||
        (decide (6 ≤ n) && !(c.cxlDirty.isEmpty && c.backInv.isEmpty))

/-- The local partials of an incoming reduction (R361). -/
def Core.linkPart (c : Core) (w : Who) (pva : Word) (n : Nat) : Op (List Nat) :=
  (List.range n).mapM fun i => do
    let (bs, f) ← c.engineRun w (pva + BitVec.ofNat 64 (4 * i)) 4
    match f with
    | some e => raise e.2
    | none => return leNat (bs.map fun b => b.getD 0)

/-- LINK_TRANSFER_LAND (R361): the receiver's arithmetic and its writes, then, once they are performed, one arrival at RBAR; or, for a
transfer of this module, the local arrival that follows the remote one. -/
def execLinkTransferLand (s : State) : Host.Outcome State Fault Refusal :=
  match s.event with
  | some (.linkTransferLand x) =>
    let c := s.toCore
    match x with
    | .remoteDone t id =>
      match c.cmd? t id with
      | none => .next s
      | some m => if m.phase = .linkSent then .next { s with toCore := c.setCmd t { m with phase := .done } } else .next s
    | .incoming dom mode byt dst rbar pva key tag hop round len data rel =>
      let w := linkWho dom
      let again := fun (v : Wait) => (c.engineAsk w v).send (.linkTransferLand x)
      let land := fun (c : Core) (n : Nat) (ids : List Nat) (bad : Bool) =>
        c.send (.linkTransferLand (.landed dom rbar (if byt then n else 0) rel ids bad))
      match (if mode = 0 then .ok [] else c.linkPart w pva (24 * len)) with
      | .error (.wait v) => .next { s with toCore := again v }
      | .error (.trap _) => .next { s with toCore := land c 0 [] true }
      | .ok part =>
        let img := linkImage mode.toNat key tag.toNat hop.toNat round.toNat len data part
        let c' := if mode = 0 || len = 0 then c else c.markReads w [(pva, 96 * len)]
        match c'.outsidePut w linkSender (fun c va => c.engineLoc w .engWr va) dst img [] (img.length / 64 + 3) with
        | .error (.wait v) => .next { s with toCore := again v }
        | .error (.trap _) => .next { s with toCore := land c 0 [] true }
        | .ok (c, ids, bad) => .next { s with toCore := land c img.length ids bad.isSome }
    | .landed dom rbar n rel ids bad =>
      let c := if rel.any fun q => decide (6 ≤ scopeCode q) then c.cxlDirty.foldl Core.writeBack c else c
      if c.landingWaits dom rel ids then .next { s with toCore := c.send (.linkTransferLand x) }
      else if rbar = 0 then .next { s with toCore := c }
      else .next { s with toCore := c.barSend (linkWho dom) rbar (if bad then .err Config.tiles else .upd Config.tiles true 1 0 0 (n : Int)) }
  | _ => .next s

/-! Remote-fed queues (01 R36). -/

/-- A record of the device that names no task and no tile: a host access (18 R418), a classified unit (17 R415). -/
def Core.deviceRecord (c : Core) (d : Nat) (t : TrapInfo) : List Word :=
  match recordWords c Config.tiles 0 0 0 0 { t with slot := 0xF } with
  | w0 :: w1 :: w2 :: w3 :: _ :: rest => w0 :: w1 :: w2 :: w3 :: BitVec.ofNat 64 (d * 512) :: rest
  | l => l

/-- A push that its queue does not take: NOTARGET at its writer, a command, a link transfer or a host. -/
def Core.pushRefused (c : Core) (t q src id : Nat) : Core :=
  let pa := winBase t + 0x540000 + q * 0x800
  if src < Config.tiles then
    match (c.tile src).cmds.find? fun m => m.unacked.contains id with
    | none => c
    | some m =>
      let p := m.wrote - 256
      let g := m.run p
      let va := if g.phys then 0 else g.addr + BitVec.ofNat 64 (p - g.ofs)
      let m := { (m.fail (m.element p) (accTrap .engWr va pa cNotarget)) with
        phase := .faulted, unacked := m.unacked.filter (· != id) }
      Core.setCmd { c with rels := c.rels.filter fun x => !decide (x.kind = .cmd m.id) } src m
  else if src = Config.tiles then
    { c with msgs := c.msgs.map fun e => match e with
        | .linkTransferLand (.landed dom rbar n rel ids bad) => .linkTransferLand (.landed dom rbar n rel ids (bad || ids.contains id))
        | e => e }
  else c.faultMsg (c.domOf t) (c.deviceRecord (c.domOf t) (accTrap .engWr 0 pa cNotarget))

/-- A push at its tile: it lands, is refused, or is held while its queue is full. -/
def execRemoteQueuePush (s : State) : Host.Outcome State Fault Refusal :=
  match s.event with
  | some (.remoteQueuePush t q e src id) =>
    let c := s.toCore
    if !c.takesPush t q then .next { s with toCore := c.pushRefused t q src id }
    else if c.pushRoom t q && !((c.tile t).pushBuf.any fun p => p.q == q) then
      .next { s with toCore := (c.landPush t q e).acked src id }
    else .next { s with toCore := c.updTile t fun tl => { tl with pushBuf := tl.pushBuf ++ [⟨q, e, src, id⟩] } }
  | _ => .next s

/-- The oldest held push that can go on: its queue has room, or takes it no longer. -/
def Core.pushReady (c : Core) (t : Nat) : Option PushEnt :=
  (c.tile t).pushBuf.find? fun p => !c.takesPush t p.q || c.pushRoom t p.q

/-- PUSH_BUFFER_DRAIN: the oldest held push that can go on lands, or is refused. -/
def execPushBufferDrain (s : State) : Host.Outcome State Fault Refusal :=
  match s.event with
  | some (.pushBufferDrain t) =>
    let c := s.toCore
    match c.pushReady t with
    | none => .next s
    | some p =>
      let c := c.updTile t fun tl => { tl with pushBuf := tl.pushBuf.erase p }
      .next { s with toCore := if c.takesPush t p.q then (c.landPush t p.q p.data).acked p.src p.id else c.pushRefused t p.q p.src p.id }
  | _ => .next s

/-! The A slot's posted operations (R352, R353). -/

/-- A command as its slot issues it. -/
def State.mkCmd (s : State) (k : CmdKind) (fl : CmdFlags) (d a b : Word) (bar : Option Word) : Cmd :=
  let x := s.me
  let w := s.toCore.who s.ref
  { id := 0, kind := k, word := (s.bundle.map fun b => mapGet 0 b.words s.slot).getD 0
    hc := match s.ref with
      | .hc _ k => some k
      | .task .. => none
    taskid := x.id.taskid, kid := x.kid, bofs := x.bofs, rep := (s.bundle.map fun b => b.rep).getD 0
    sup := w.sup, tver := w.tver, claim := w.claim, d := d, a := a, b := b, bar := bar, fl := fl, phase := .starting
    orders := 0, rout := none, desc := [], src := [], wrote := 0, unacked := [], ports := [], bad := none }

/-- A posted operation (R352): issued, or waiting for room in the tile's queue of 64; with ACQ, or with a release of the
issuer, dead stores raise their trap here (05 R147). With no bundle in progress, the next piece of work of a command. -/
def posted (s : State) (g : Guard) (f : State → Op Cmd) : Host.Outcome State Fault Refusal :=
  match s.bundle with
  | none => .next { s with toCore := s.toCore.cmdStep s.ref.tile s.slot }
  | some b =>
    guarded s g skip fun s => do
      let m ← f s
      match (if m.holds then s.me.deadTrap else none) with
      | some t => raise t
      | none => pure ()
      if (s.toCore.tile s.ref.tile).cmds.length + b.cmds.length ≥ 64 then .error (.wait .cmdq)
      let (i, c) := s.toCore.fresh
      return { s with toCore := c, bundle := s.bundle.map fun b => { b with cmds := b.cmds ++ [(s.ref, { m with id := i })] } }

/-- `cp` (R357). -/
def execCp (o : OpCp) (s : State) : Host.Outcome State Fault Refusal :=
  posted s o.gd fun s => do
    let d ← s.rdS o.d
    let a ← s.rdS o.a
    let b ← s.rdS o.b
    let bar ← s.barField o.c
    return s.mkCmd .cp o.fl d a b bar

/-- `cp.rs` (R358). -/
def execCpRs (o : OpCpRs) (s : State) : Host.Outcome State Fault Refusal :=
  posted s o.gd fun s => do
    let d ← s.rdS o.d
    let a ← s.rdS o.a
    let b ← s.rdS o.b
    let bar ← s.barField o.c
    return s.mkCmd (.rs o.rk) o.fl d a b bar

/-- A command named by a descriptor. -/
def State.descCmd (s : State) (k : CmdKind) (o : OpCpDesc) : Op Cmd := do
  let a ← s.rdS o.a
  let bar ← s.barField o.c
  return s.mkCmd k o.fl 0 a 0 bar

/-- `cp.bc` (R359). -/
def execCpBc (o : OpCpDesc) (s : State) : Host.Outcome State Fault Refusal := posted s o.gd fun s => s.descCmd .bc o

/-- `cp.gt` (R360). -/
def execCpGt (o : OpCpDesc) (s : State) : Host.Outcome State Fault Refusal := posted s o.gd fun s => s.descCmd .gt o

/-- `cp.lk` (R361). -/
def execCpLk (o : OpCpDesc) (s : State) : Host.Outcome State Fault Refusal := posted s o.gd fun s => s.descCmd .lk o

/-- `evt.sg` (R364). -/
def execEvtSg (o : OpEvtSg) (s : State) : Host.Outcome State Fault Refusal :=
  posted s o.gd fun s => do
    let a ← s.rdS o.a
    let fl : CmdFlags := { byt := false, evn := 0, eve := false, rel := o.rel, acq := false, scope := o.scope }
    return s.mkCmd (.evt o.evn) fl 0 a 0 none

/-- `msg` (R365): the source VA stands where a copy names its barrier. -/
def execMsg (o : OpMsg) (s : State) : Host.Outcome State Fault Refusal :=
  posted s o.gd fun s => do
    let a ← s.rdS o.a
    let b ← s.rdS o.b
    let v ← s.rdS o.c
    let fl : CmdFlags := { byt := false, evn := 0, eve := false, rel := o.rel, acq := o.acq, scope := o.scope }
    return s.mkCmd (.msg o.len) fl 0 a b (some v)

/-- EVENT_SIGNAL_DELIVER (05 R142): the bit is set wherever the task is, held for its start, or the signal is dropped. -/
def execEventSignalDeliver (s : State) : Host.Outcome State Fault Refusal :=
  match s.event with
  | some (.eventSignalDeliver d id ev) =>
    .next { s with toCore := s.toCore.signal d id (fun x => x.setEv ev.toNat) fun dm =>
      { dm with heldEv := dm.heldEv ++ [(idKey id, ev)] } }
  | _ => .next s

end Sys2Proof.Machine
end

