-- ==== Sys2Proof/Machine/Launch.lean ====
section
/-!
DEFINITION. Barrier operations (05 R134 to R141, 14 R362, R363), launches, spawns and weights (07 R176 to R194, 14 R366,
16 R388).
-/

namespace Sys2Proof.Machine

open Sys2Proof

/-! Barriers. -/

/-- The object of a barrier operation: aligned to 16, in a place that R134 admits. -/
def State.barLoc (s : State) (acc : Acc) (va : Word) : Op Loc := do
  let l ← s.toCore.translateAligned (s.toCore.who s.ref) acc va 16
  if !barPlace l then raise (barTrap 5 va 0)
  return l

/-- An update of an object by an instruction (05 R135 to R137): a release at its scope, then one atomic at the primary home or in the
scratchpad, behind the dirty bytes of its die that it overlaps (02 R65); or the misuse trap with the object unchanged. The release covers
the stores of older bundles (log entry 46). -/
def State.barUpdate (s : State) (va : Word) (q : Scope) (f : Bar → Option Bar) : Op State := do
  let l ← s.barLoc (.atomic 4) va
  let s ← s.release q
  let tile := s.ref.tile
  if s.toCore.overDirty (dieOf tile) l.pa 16 then .error (.wait (.publish (dieOf tile)))
  if s.toCore.storesOver tile l.pa 16 || s.older.atomicBusy tile l.pa 16 || s.toCore.recallBusy l.pa ||
      (s.toCore.page (l.pa / 65536)).mode == .draining then .error (.wait .acks)
  if s.toCore.poisoned l.pa 16 then raise (s.toCore.dataTrap l)
  let obj := leNat (s.toCore.homeBytes l.pa 16)
  match f (Bar.read obj) with
  | none => raise (barTrap 1 va obj)
  | some b =>
    let s := s.dirtyLeaf l
    let (i, c) := s.toCore.fresh
    let c := match paRegion l.pa with
      | .win _ _ => c
      | _ => c.updCtx s.ref fun x => { x with unacked := x.unacked ++ [i] }
    return { s with toCore := (c.atomicAt tile i l.pa 16 ((s.relTag q).or s.me.ftag) fun _ => some (leBytes 16 b.image)).2 }

/-- `bar.init` (R362, 05 R137). -/
def execBarInit (o : OpBarInit) (s : State) : Host.Outcome State Fault Refusal :=
  guarded s o.gd skip fun s => do
    let a ← s.rdS o.a
    let b ← s.rdS o.b
    let n ← s.rdS o.c
    s.barUpdate a o.scope fun _ => if n = 0 || n.toNat > 65535 then none else some (Bar.start b.toNat n.toNat)

/-- `bar.arr` (R362). -/
def execBarArr (o : OpBarUpd) (s : State) : Host.Outcome State Fault Refusal :=
  guarded s o.gd skip fun s => do
    let a ← s.rdS o.a
    let n ← s.rdS o.b
    s.barUpdate a o.scope fun x => if n = 0 || n.toNat > 65535 then none else x.update n.toNat 0 0 0

/-- `bar.ard` (R362). -/
def execBarArd (o : OpBarUpd) (s : State) : Host.Outcome State Fault Refusal :=
  guarded s o.gd skip fun s => do
    let a ← s.rdS o.a
    let n ← s.rdS o.b
    s.barUpdate a o.scope fun x => if n = 0 || n.toNat > 65535 then none else x.update n.toNat n.toNat 0 0

/-- `bar.exp` (R362): the byte count is a signed 32-bit value. -/
def execBarExp (o : OpBarUpd) (s : State) : Host.Outcome State Fault Refusal :=
  guarded s o.gd skip fun s => do
    let a ← s.rdS o.a
    let b ← s.rdS o.b
    let n := b.toInt
    s.barUpdate a o.scope fun x => if n < -2147483648 || n > 2147483647 then none else x.update 0 0 n 0

/-- How a wait on an object stands (05 R139). -/
inductive BarEnd where
  | err
  | lost
  | reached
  | retired
  | waits
deriving DecidableEq, Repr

def Bar.waitEnd (x : Bar) (target : BitVec 16) : BarEnd :=
  if x.err then .err
  else if x.lost then .lost
  else if decide (sext16 ((BitVec.ofNat 16 x.phase - target).toNat) ≥ 0) then .reached
  else if x.ret then .retired
  else .waits

/-- Whether forwarded bytes of a page are on their way to the replica of a die. -/
def Core.forwarding (c : Core) (die page : Nat) : Bool :=
  c.msgs.any fun m => match m with
    | .forwardedDiffApply d x => d == die && x.page == page
    | _ => false

/-- `bar.wt` (R363): an acquire at the scope, whose synchronising read is the read of PHASE at the object's home (05 R135). It waits until
what it may read there has arrived at the tile (04 R112). -/
def execBarWt (o : OpBarWt) (s : State) : Host.Outcome State Fault Refusal :=
  guarded s o.gd skip fun s => do
    let a ← s.rdS o.a
    let b ← s.rdS o.b
    let w := s.toCore.who s.ref
    let l ← s.barLoc (.load 4) a
    match paRegion l.pa with
    | .win t _ => if t != w.tile then raise (barTrap 5 a 0)
    | _ => pure ()
    let c := s.toCore
    if s.older.lineBusy w.tile (c.l1Place w.tile (l.pa / 128)) l 16 true || s.older.forwarding (dieOf w.tile) (l.pa / 65536) then
      .error (.wait .acks)
    if c.poisoned l.pa 16 then raise (c.dataTrap l)
    let obj := leNat (c.readLoc w.tile .primary l 16 true)
    let x := Bar.read obj
    s.acquired .primary l 16
    match x.waitEnd (b.extractLsb' 0 16) with
    | .err => raise (barTrap 2 a obj)
    | .lost => raise (lostTrap s.toCore w.dom)
    | .reached => return s.wrS o.d (BitVec.ofNat 64 x.phase)
    | .retired => raise (barTrap 3 a obj)
    | .waits => .error (.wait (.bar l.pa (b.extractLsb' 0 16)))

/-- BARRIER_UPDATE_AT_HOME (05 R136, R138): signals of engines and of the device. One on a line that is being recalled, or on
a page that drains, waits (02 R57, R62). -/
def execBarrierUpdateAtHome (s : State) : Host.Outcome State Fault Refusal :=
  match s.event with
  | some (.barrierUpdateAtHome pa ops) =>
    let c := s.toCore
    if c.recallBusy pa || (c.page (pa / 65536)).mode == .draining then
      .next { s with toCore := c.send (.barrierUpdateAtHome pa ops) }
    else .next { s with toCore := c.barApply Config.tiles 0 pa ops }
  | _ => .next s

/-- Whether the object a context waits on lets its wait end. -/
def Core.barOver (c : Core) (pa : Nat) (target : BitVec 16) : Bool := (c.barAt pa).waitEnd target != .waits

/-- BARRIER_WAIT_SATISFIED: a waiter whose object has reached an end issues again. -/
def execBarrierWaitSatisfied (s : State) : Host.Outcome State Fault Refusal :=
  match s.event with
  | some (.barrierWaitSatisfied r) =>
    match (s.toCore.ctx r).status with
    | .waiting (.bar pa target) =>
      if s.toCore.barOver pa target then .next { s with toCore := (s.toCore.endWait r).updCtx r fun x => { x with status := .ready } } else .next s
    | _ => .next s
  | _ => .next s

/-! Descriptors (07 R176 to R178, 16 R388). -/

/-- Loop level l of a descriptor: KIND and COUNT. -/
def lvlKind (desc : List Word) (l : Nat) : Nat := descW desc (2 + l) 32 2
def lvlCount (desc : List Word) (l : Nat) : Nat := descW desc (2 + l) 0 16
def lvlNum (desc : List Word) : Nat := descW desc 1 42 3

def isSpatial (k : Nat) : Bool := k == 1 || k == 2

/-- The spatial levels in use, outermost first. -/
def spatial (desc : List Word) : List Nat := (List.range (min 4 (lvlNum desc))).filter fun l => isSpatial (lvlKind desc l)

/-- Tasks of a launch (R178). -/
def taskCount (desc : List Word) : Nat := (spatial desc).foldl (fun n l => n * lvlCount desc l) 1

/-- Invalid for a reason other than a range (R177). -/
def descBad (desc : List Word) : Bool :=
  let f := fun i lo n => descW desc i lo n != 0
  f 1 45 19 || f 1 40 2 || f 1 32 4 || f 6 38 26 || f 9 32 32 || f 10 61 3 || f 12 32 32 ||
  ((List.range 4).any fun l => f (2 + l) 34 30 || f (2 + l) 16 16) ||
  ((List.range 19).any fun i => desc.getD (13 + i) 0 != 0) ||
  decide (4 < lvlNum desc) ||
  ((List.range 4).any fun l => if l < lvlNum desc then lvlCount desc l == 0 || lvlKind desc l == 3 else desc.getD (2 + l) 0 != 0) ||
  decide (1 < ((List.range (min 4 (lvlNum desc))).filter fun l => lvlKind desc l == 2).length) ||
  decide (2 ^ 24 < taskCount desc) || descW desc 12 0 32 == 0 ||
  ((List.range 32).any fun q => { Ident.init with desc := desc }.isRemote q && { Ident.init with desc := desc }.qdepth q == 0)

/-- The statuses of a descriptor's ranges and of its side (16 R388), `dies` the dies its tasks may run on. -/
def Core.descCodes (c : Core) (d : Nat) (side : Bool) (desc : List Word) (dies : List (List Nat)) : List (Bool × Nat) :=
  let i : Ident := { Ident.init with desc := desc }
  let mine := (List.range Config.tiles).filter fun t => c.inDomain d t && (c.tile t).learner == side
  let has := fun (ts : List Nat) => ts.any fun t => (c.tile t).lanesOut.toNat &&& i.flanes == 0
  [(descBad desc, 3), (decide (4096 < i.scrk), 4), (decide (256 < i.accr), 5),
    (((List.range 32).any fun q => decide (8 < i.qdepth q)), 6), (decide (6 < i.hctx), 7),
    (i.flanes != 0 && !(dies.all fun ds => has (mine.filter fun t => ds.isEmpty || ds.contains (dieOf t))), 8),
    (mine.isEmpty, 10)]

/-- The counts of the temporal levels (07 R180 TCNT). -/
def tcntOf (desc : List Word) : Word :=
  let ts := (List.range (min 4 (lvlNum desc))).filter fun l => !isSpatial (lvlKind desc l)
  BitVec.ofNat 64 (packBits 16 (ts.map fun l => lvlCount desc l))

/-- The coordinates of task `index` (R178): level l in bits [16l+15:16l]. -/
def tcoordOf (desc : List Word) (index : Nat) : Word :=
  let (_, w) := (spatial desc).reverse.foldl (fun (a : Nat × Nat) l =>
    (a.1 / lvlCount desc l, a.2 + a.1 % lvlCount desc l * 2 ^ (16 * l))) (index, 0)
  BitVec.ofNat 64 w

/-- The level of KIND 2. -/
def dieLevel (desc : List Word) : Option Nat := (spatial desc).find? fun l => lvlKind desc l == 2

/-- D of a launch (R179). -/
def Core.sideDies (c : Core) (d : Nat) (side : Bool) : List Nat :=
  (List.range 8).filter fun k => (List.range 64).any fun i =>
    (c.tile (64 * k + i)).dom == some d && (c.tile (64 * k + i)).learner == side

/-- The dies on which the tasks of a descriptor run, one list for each die that its level of KIND 2 names, else none named. -/
def Core.namedDies (c : Core) (d : Nat) (side : Bool) (desc : List Word) : List (List Nat) :=
  let dies := c.sideDies d side
  match dieLevel desc with
  | none => [[]]
  | some l => if dies.isEmpty then [[8]]
      else (List.range (min (lvlCount desc l) dies.length)).map fun k => [dies.getD (k % dies.length) 8]

/-- The words of readable operand memory. -/
def wordsIn (bs : List Byte) (n : Nat) : List Word := (List.range n).map fun i => leWord ((bs.drop (8 * i)).take 8)

/-! `lnch` (R182 to R184). -/

/-- The root exchange's place, when it would not fault. -/
def State.rootLoc (s : State) (root : Word) : Op (Option Loc) :=
  if root = 0 then .ok none
  else
    match s.toCore.translateAligned (s.toCore.who s.ref) (.atomic 3) root 8 with
    | .ok l => if l.isDevice || s.toCore.poisoned l.pa 8 then .ok none else .ok (some l)
    | .error (.trap _) => .ok none
    | .error (.wait w) => .error (.wait w)

/-- The identity of a launch's tasks, its index excepted. -/
def launchIdent (d : Domain) (rc desc : List Word) : Ident :=
  let w1 := rc.getD 1 0
  { taskid := BitVec.ofNat 64 (d.serial.toNat * 2 ^ 40), tcoord := 0, tcnt := tcntOf desc, targs := rc.getD 4 0
    descVA := rc.getD 0 0, desc := desc, side := wbits w1 3 1 == 1, prio := wbits w1 0 3, ep := wbits w1 0 3
    rootVA := rc.getD 6 0, cpen := wbits w1 9 1 == 1, cbar := rc.getD 3 0, seed := rc.getD 5 0 }

/-- Key of a launch queue. -/
def lqKey (side : Bool) (q : Nat) : Nat := (if side then 16 else 0) + q

/-- The launch accepted (R183, R193); one without a dependence barrier has no wait to end (R185). -/
def Domain.accept (d : Domain) (rc desc : List Word) (dies : List Nat) (now : Nat) : Domain :=
  let w1 := rc.getD 1 0
  let i := launchIdent d rc desc
  let n := taskCount desc
  let l : Launch :=
    { ident := i, side := i.side, lq := wbits w1 4 4, dpen := wbits w1 8 1 == 1, dphase := w1.extractLsb' 48 16, dbar := rc.getD 2 0
      dies := dies, n := n, next := 0, ready := wbits w1 8 1 != 1, since := now, root := BitVec.ofNat 64 (n * 2 ^ 24), spawns := 0, live := n }
  let key := lqKey i.side l.lq
  { d with serial := d.serial + 1, launches := mapSet none d.launches d.serial.toNat (some l)
           lqs := mapUpd [] d.lqs key fun q => q ++ [d.serial.toNat] }

/-- `lnch` (R366): a release at .mod; accepted, or a status (16 R388). -/
def execLnch (o : OpLnch) (s : State) : Host.Outcome State Fault Refusal :=
  guarded s o.gd skip fun s => do
    let a ← s.rdS o.a
    let s ← s.release .mod
    let d := s.toCore.domOf s.ref.tile
    let refuse := fun (s : State) (n : Nat) => (s.wrG o.gp false).wrS o.d (BitVec.ofNat 64 n)
    let (rc, s) ← if a.toNat % 64 ≠ 0 then Except.ok (none, s) else s.readOperand a 64 false 3
    match rc with
    | none => return refuse s 1
    | some rcb =>
      let rc := wordsIn rcb 8
      let va := rc.getD 0 0
      let (db, s) ← if va.toNat % 256 ≠ 0 then Except.ok (none, s) else s.readOperand va 256 false 3
      match db with
      | none => return refuse s 1
      | some db =>
        let desc := wordsIn db 32
        let w1 := rc.getD 1 0
        let side := wbits w1 3 1 == 1
        let root := rc.getD 6 0
        let rl ← s.rootLoc root
        let dies := s.toCore.sideDies d side
        let full := decide (32 ≤ (mapGet [] (s.toCore.dom d).lqs (lqKey side (wbits w1 4 4))).length)
        match leastOf ([(root != 0 && rl.isNone, 1), (wbits w1 10 38 != 0 || rc.getD 7 0 != 0, 2), (full, 9)] ++
            s.toCore.descCodes d side desc (s.toCore.namedDies d side desc)) with
        | some n => return refuse s n
        | none =>
          let n := taskCount desc * 2 ^ 24
          let s ← match rl with
            | none => Except.ok s
            | some l =>
              if s.toCore.overDirty (dieOf s.ref.tile) l.pa 8 then .error (.wait (.publish (dieOf s.ref.tile)))
              else if s.toCore.recallBusy l.pa || s.toCore.storesOver s.ref.tile l.pa 8 ||
                  (s.toCore.page (l.pa / 65536)).mode == .draining then .error (.wait .acks)
              else
                let s := s.dirtyLeaf l
                let (i, c) := s.toCore.fresh
                let (_, c) := c.atomicAt s.ref.tile i l.pa 8 none fun _ => some (leBytes 8 n)
                let c := if l.isScratch s.ref.tile then c else c.updCtx s.ref fun x => { x with unacked := x.unacked ++ [i] }
                .ok { s with toCore := c }
          let s := { s with toCore := s.toCore.updDom d fun dm => dm.accept rc desc dies s.sclk }
          return (s.wrG o.gp true).wrS o.d 0

/-! `spawn` and weights (R193). -/

/-- The child of a spawn. -/
def childIdent (p : Ident) (l : Launch) (seed va coord args : Word) (desc : List Word) : Ident :=
  let k := l.n + l.spawns
  { p with taskid := BitVec.ofNat 64 (serialOf p.taskid * 2 ^ 40 + 2 ^ 31 + k % 2 ^ 31), tcoord := coord, tcnt := tcntOf desc
           targs := args, descVA := va, desc := desc, prio := l.ident.prio, ep := l.ident.prio, seed := seed }

/-- `spawn` (R366, R193): a release at .mod; the child halves the weight. -/
def execSpawn (o : OpSpawn) (s : State) : Host.Outcome State Fault Refusal :=
  guarded s o.gd skip fun s => do
    let a ← s.rdS o.a
    let b ← s.rdS o.b
    let v ← s.rdS o.c
    let s ← s.release .mod
    let d := s.toCore.domOf s.ref.tile
    let x := s.me
    let (db, s) ← if a.toNat % 256 ≠ 0 then Except.ok (none, s) else s.readOperand a 256 false 3
    let desc := wordsIn (db.getD []) 32
    let dm := s.toCore.dom d
    let list := if x.id.side then dm.spawnsL else dm.spawnsA
    let codes := if db.isNone then [] else
      (!(spatial desc).isEmpty, 11) :: (decide (4096 ≤ list.length), 9) :: s.toCore.descCodes d x.id.side desc (s.toCore.namedDies d x.id.side desc)
    match leastOf ((db.isNone, 1) :: (decide (x.r.twgt.toNat < 2), 12) :: codes), mapGet none dm.launches (serialOf x.id.taskid) with
    | some n, _ => return (s.wrG o.gp false).wrS o.d (BitVec.ofNat 64 n)
    | none, none => return (s.wrG o.gp false).wrS o.d 1
    | none, some l =>
      let half := x.r.twgt / 2
      let i := childIdent x.id l s.old.r.seedk a b v desc
      let sp : Spawned := ⟨i, half, s.sclk⟩
      let c := s.toCore.updDom d fun dm =>
        { dm with spawnsL := (if x.id.side then dm.spawnsL ++ [sp] else dm.spawnsL)
                  spawnsA := (if x.id.side then dm.spawnsA else dm.spawnsA ++ [sp])
                  launches := mapSet none dm.launches (serialOf x.id.taskid) (some { l with spawns := l.spawns + 1, live := l.live + 1 }) }
      let s := ({ s with toCore := c }).updRegs fun r => { r with twgt := r.twgt - half }
      return (s.wrG o.gp true).wrS o.d (BitVec.ofNat 64 ((l.n + l.spawns) % 2 ^ 31))

/-- The root of the acting task as it stands. -/
def State.rootWord (s : State) : Word :=
  let d := s.toCore.domOf s.ref.tile
  let l := mapGet none (s.toCore.dom d).launches (serialOf s.me.id.taskid)
  if s.me.id.rootVA = 0 then (l.map fun l => l.root).getD 0
  else match s.toCore.translateNow { deviceWho d with tile := s.ref.tile } (.atomic 3) s.me.id.rootVA with
    | .ok x => s.toCore.homeWord x.pa
    | .error _ => 0

/-- The weight trap (R193, 17 R407). -/
def State.weightTrap (s : State) : TrapInfo :=
  { mkTrap kBarrier 0 with detail := 4, addr := s.me.id.rootVA, aux0 := s.rootWord }

/-- A change of the root and of the task's weight. -/
def State.moveWeight (s : State) (n : Int) : Op State :=
  if s.toCore.rootBusy (s.toCore.domOf s.ref.tile) s.ref.tile s.me.id.rootVA then .error (.wait .acks)
  else
    let d := s.toCore.domOf s.ref.tile
    let c := s.toCore.rootAdd d s.ref.tile s.me.id.taskid s.me.id.rootVA n
    .ok (({ s with toCore := c }).updRegs fun r => { r with twgt := BitVec.ofInt 48 (r.twgt.toNat + n) })

/-- `wt.ret` (R193): a release at .mod. -/
def execWtRet (o : OpWt) (s : State) : Host.Outcome State Fault Refusal :=
  guarded s o.gd skip fun s => do
    let n ← s.rdS o.a
    if n = 0 || n.toNat > s.me.r.twgt.toNat then raise s.weightTrap
    let s ← s.release .mod
    s.moveWeight (-(n.toNat : Int))

/-- `wt.brw` (R193). -/
def execWtBrw (o : OpWt) (s : State) : Host.Outcome State Fault Refusal :=
  guarded s o.gd skip fun s => do
    let n ← s.rdS o.a
    if n = 0 || n.toNat > 2 ^ 24 || s.me.r.twgt.toNat + n.toNat ≥ 2 ^ 48 then raise s.weightTrap
    s.moveWeight (n.toNat : Int)

end Sys2Proof.Machine
end

