-- ==== Sys2Proof/Machine/Creel.lean ====
section
/-!
DEFINITION. Versioned weights (06 R150 to R161), the Creel (R162 to R168) and the KV page pool (R169 to R172), as their
instructions act.
-/

namespace Sys2Proof.Machine

open Sys2Proof

/-! Claims and publications (R154 to R158). -/

/-- Whether a copy is reclaimable (R154): published, present, without readers, not the one LVER selects, not later than LVER. -/
def Domain.reclaimable (d : Domain) (rg : Region) (c : Nat) : Bool :=
  let cp := mapGet Copy.init rg.copies c
  cp.pres && cp.state == 2 && d.readers rg c == 0 && selCopy rg d.lver != some c &&
    decide (sext16 ((d.lver - cp.ver).toNat) ≥ 0)

/-- The copy that a claim takes (R155). -/
def Domain.claimable (d : Domain) (rg : Region) : Option Nat :=
  let free := fun (c : Nat) => let cp := mapGet Copy.init rg.copies c
    cp.pres && cp.state == 0
  match (List.range 4).find? free with
  | some c => some c
  | none => (List.range 4).find? fun c => d.reclaimable rg c

/-- Changes a copy of a region. -/
def Domain.updCopy (d : Domain) (r c : Nat) (f : Copy → Copy) : Domain :=
  { d with regions := mapUpd Region.init d.regions r fun rg => { rg with copies := mapUpd Copy.init rg.copies c f } }

def Domain.region (d : Domain) (r : Nat) : Region := mapGet .init d.regions r

/-- A copy claimed (R155). -/
def Domain.claim (d : Domain) (r c : Nat) : Domain := d.updCopy r c fun cp => { cp with state := 1 }

/-- A copy published (R155). -/
def Domain.publish (d : Domain) (r c : Nat) (v : BitVec 16) (fin : Bool) : Domain :=
  let d := d.updCopy r c fun cp => { cp with state := 2, ver := v }
  let d := { d with regions := mapUpd Region.init d.regions r fun rg => { rg with cur := v } }
  if fin then { d with lver := v } else d

/-- `ver.pub.clm` (R156). -/
def execVerPubClm (o : OpLnch) (s : State) : Host.Outcome State Fault Refusal :=
  guarded s o.gd skip fun s => do
    let a ← s.rdS o.a
    let d := s.toCore.domOf s.ref.tile
    let r := wbits a 0 8
    let dm := s.toCore.dom d
    if !(dm.region r).en then raise (versionTrap r 1 0)
    match dm.claimable (dm.region r) with
    | none => return (s.wrG o.gp false).wrS o.d (BitVec.allOnes 64)
    | some c =>
      let s := { s with toCore := s.toCore.updDom d fun dm => dm.claim r c }
      return (s.wrG o.gp true).wrS o.d (BitVec.ofNat 64 c)

/-- Why a publication is a misuse (R157), by the least code of 17 R407. -/
def Domain.pubCode (d : Domain) (r c : Nat) (v : BitVec 16) (fin : Bool) : Option Nat :=
  let rg := d.region r
  if !rg.en then some 1
  else if (mapGet Copy.init rg.copies c).state != 1 then some 2
  else if decide (sext16 ((v - rg.cur).toNat) ≤ 0) || (fin && decide (sext16 ((v - d.lver).toNat) ≤ 0)) then some 3
  else none

/-- The release of a publication (R157, 18 R430): beyond this module its copy is sent when the module's own writes to it have been
performed, and the release completes when every receiver has acknowledged it. -/
def State.castRelease (s : State) (q : Scope) (region copy : Nat) (v : BitVec 16) (fin : Bool) : Op State := do
  if scopeCode q < 7 then s.release q
  else match s.me.cast with
    | none => do
      let _ ← s.release .mod
      .error (.wait (.cast region copy v fin q))
    | some _ => do
      let s ← s.release q
      return s.upd fun x => { x with cast := none }

/-- `ver.pub` and `ver.pub.fin`: the checks, a release at the scope, then the new state of the copy (R157). -/
def State.publication (s : State) (o : OpVerPub) (fin : Bool) : Op State := do
  let a ← s.rdS o.a
  let b ← s.rdS o.b
  let v ← s.rdS o.c
  let d := s.toCore.domOf s.ref.tile
  let r := wbits a 0 8
  let c := wbits b 0 2
  let v := v.extractLsb' 0 16
  match (s.toCore.dom d).pubCode r c v fin with
  | some n => raise (versionTrap r n 0)
  | none =>
    let s ← s.castRelease (relScope o.scope) r c v fin
    return { s with toCore := s.toCore.updDom d fun dm => dm.publish r c v fin }

/-- `ver.pub` (R157). -/
def execVerPub (o : OpVerPub) (s : State) : Host.Outcome State Fault Refusal :=
  guarded s o.gd skip fun s => s.publication o false

/-- `ver.pub.fin` (R157, R158). -/
def execVerPubFin (o : OpVerPub) (s : State) : Host.Outcome State Fault Refusal :=
  guarded s o.gd skip fun s => s.publication o true

/-! Adoption (R159 to R161). -/

/-- An adoption by a context: TVER takes LVER; the next record carries ADOPTED when it changed; PEND is cleared. -/
def Core.adopt (c : Core) (r : CtxRef) : Core :=
  let d := c.domOf r.tile
  let old := (c.ctx r).r.tver
  let v := (c.dom d).lver
  let c := c.updCtx r fun x => { x with r := { x.r with tver := v, polPend := false },
                                        creel := { x.creel with adopted := x.creel.adopted || old != v } }
  if old = v then c else c.updDom d fun dm => addReaders (addReaders dm old false) v true

/-- The wider of two scopes; .mod when neither contains the other (R161, 00 R13). -/
def widerScope (a b : Scope) : Scope :=
  let odd := fun (x y : Scope) => decide (x = .side) && (decide (y = .quad) || decide (y = .die))
  if odd a b || odd b a then .mod else if scopeCode a < scopeCode b then b else a

/-- The scope of the adoption at a boundary of MODE `m`, when one is made there (R161). -/
def Ctx.boundaryScope (x : Ctx) (m : BitVec 2) : Option Scope :=
  if x.r.polMode != m then none
  else if x.r.polPend && x.r.polAuto then some (widerScope x.creel.armed x.r.polScope)
  else if x.r.polPend then some x.creel.armed
  else if x.r.polAuto then some x.r.polScope
  else none

/-- A boundary: the adoption is an acquire whose synchronising read is the read of LVER, which every publication releases at
.mod or wider. -/
def State.boundary (s : State) (m : BitVec 2) : State :=
  match s.me.boundaryScope m with
  | some _ => { s with toCore := s.toCore.adopt s.ref }
  | none => s

/-- `ver.adp` (R161). -/
def execVerAdp (o : OpScope) (s : State) : Host.Outcome State Fault Refusal :=
  guarded s o.gd skip fun s =>
    if s.me.r.polMode = 0 then .ok { s with toCore := s.toCore.adopt s.ref }
    else .ok (s.upd fun x => { x with r := { x.r with polPend := true }, creel := { x.creel with armed := o.scope } })

/-! The Creel (R162 to R167). -/

/-- Bytes of the ring of the acting context: word at an offset. -/
def Ctx.ringVA (x : Ctx) (ofs : Nat) : Word := x.r.ringBase + BitVec.ofNat 64 ofs

/-- The VA of record i (R162). -/
def Ctx.recordVA (x : Ctx) (i : Nat) : Word := x.ringVA (64 + 32 * (i % 2 ^ x.r.crlog.toNat))

/-- A word of the ring, read past L1. -/
def State.ringWord (s : State) (ofs : Nat) : Op (Word × State) := do
  let (bs, _, s) ← s.loadBytes (.load 3) (s.me.ringVA ofs) 8 false true
  return (leWord bs, s)

/-- `crl.put` (R164, R165). -/
def execCrlPut (o : OpCrlPut) (s : State) : Host.Outcome State Fault Refusal :=
  guarded s o.gd skip fun s => do
    let a ← s.rdS o.a
    let b ← s.rdS o.b
    let v ← s.rdS o.c
    if !s.me.ringOn then raise (versionTrap 0 6 0)
    let (ridx, s) ← s.ringWord 8
    s.acquirePart (s.me.ringVA 8) 8
    let x := s.me
    let n := 2 ^ x.r.crlog.toNat
    if (x.r.crwi.toNat + 2 ^ 32 - wbits ridx 0 32) % 2 ^ 32 ≥ n then return s.wrG o.gp false
    else
      let flags := (if x.r.crpos = 0 then 1 else 0) + (if o.eos then 2 else 0) + (if o.draft then 4 else 0) +
        (if x.creel.adopted then 32 else 0)
      let t := s.ref.tile
      let rc := creelRecord s.ftick (s.toCore.domOf t % 4 * 512 + t) flags (wbits v 0 32) x.r.crseq.toNat x.r.crpos.toNat
        s.old.r.tver.toNat (wbits b 0 32) (wbits a 0 32)
      let s ← s.storeBytes (.store 3) (x.recordVA x.r.crwi.toNat) (rc.map some) true
      let s := s.upd fun x => { x with r := { x.r with crwi := x.r.crwi + 1, crpos := x.r.crpos + 1 },
                                       creel := { x.creel with adopted := false } }
      return (s.boundary 2).wrG o.gp true

/-- Bytes of a context at a VA that its parked stores hold, when they hold all of them (05 R146). -/
def Ctx.parkedRun (x : Ctx) (va : Word) (n : Nat) : Option (List Byte) :=
  let at' := fun (i : Nat) => va + BitVec.ofNat 64 i
  let held := fun (i : Nat) => (x.replay ++ x.late).any fun p =>
    let k := (at' i - p.va).toNat
    decide (k < 256) && p.mask.getLsbD k && !p.dead
  if (List.range n).all held then some ((List.range n).map fun i => x.parkedByte (at' i) 0) else none

/-- A record of the ring as its context reads it: one that is parked has no translation to be read through (R165). -/
def State.readRecord (s : State) (va : Word) : Op (List Byte × State) :=
  match s.me.parkedRun va 32 with
  | some bs => .ok (bs, s)
  | none => do
    let (bs, _, s) ← s.loadBytes (.load 3) va 32 false true
    return (bs, s)

/-- Marks the records of the current sequence from number `i` on, `n` of them, whose position is at least p (R166). -/
def State.markRecords (s : State) (p i : Nat) (any : Bool) : Nat → Op (Bool × State)
  | 0 => .ok (any, s)
  | n + 1 => do
    let va := s.me.recordVA i
    let (bs, s) ← s.readRecord va
    let pos := leNat ((bs.drop 10).take 2)
    let seq := leNat ((bs.drop 12).take 4)
    if pos < p || seq != s.me.r.crseq.toNat then s.markRecords p (i + 1) any n
    else
      let fl := leNat ((bs.drop 20).take 2) ||| 8
      let s ← s.storeBytes (.store 1) (va + 20) ((leBytes 2 fl).map some) true
      s.markRecords p (i + 1) true n

/-- `crl.put.rej` (R166): the records since the last seal are those from WIDX on. -/
def execCrlPutRej (o : OpCrlRej) (s : State) : Host.Outcome State Fault Refusal :=
  guarded s o.gd skip fun s => do
    let a ← s.rdS o.a
    if !s.me.ringOn then raise (versionTrap 0 6 0)
    let (widx, s) ← s.ringWord 0
    let wi := s.me.r.crwi.toNat
    let k := min ((wi + 2 ^ 32 - wbits widx 0 32) % 2 ^ 32) (2 ^ s.me.r.crlog.toNat)
    let (any, s) ← s.markRecords (wbits a 0 16) (wi + 2 ^ 32 - k) false k
    let s := s.updRegs fun r => { r with crpos := a.extractLsb' 0 16 }
    return s.wrG o.gp any

/-- `crl.seal` (R167): it waits for parked records, releases at .mod, and publishes WIDX. -/
def execCrlSeal (g : Guard) (s : State) : Host.Outcome State Fault Refusal :=
  guarded s g skip fun s => do
    if !s.me.ringOn then raise (versionTrap 0 6 0)
    s.replayEmpty
    let s ← s.release .mod
    let s ← s.storeBytes (.store 3) (s.me.ringVA 0) ((leBytes 8 s.me.r.crwi.toNat).map some) false
    let s := s.updRegs fun r => { r with crseq := r.crseq + 1, crpos := 0 }
    return s.boundary 1

/-! The KV page pool (R169 to R172). -/

/-- The alignment fault of a sequence table (R170). -/
def tableTrap (va : Word) (pa : Nat) : TrapInfo := accTrap (.atomic 3) va pa cAlign

/-- An access to a sequence table at its primary home, `n` bytes: `f` gives the bytes it writes, or none. It goes behind the dirty bytes
of its die that it overlaps (02 R65), and waits until what it may read has arrived at the tile (04 R112). -/
def State.tableAtomic (s : State) (va : Word) (n : Nat) (f : List Byte → Option (List Byte)) : Op (List Byte × State) := do
  let size := if n = 8 then 3 else 2
  let l ← s.atomicLoc size va
  let tile := s.ref.tile
  if s.toCore.overDirty (dieOf tile) l.pa n then .error (.wait (.publish (dieOf tile)))
  if s.atomicWaits l n || s.older.forwarding (dieOf tile) (l.pa / 65536) || (s.toCore.page (l.pa / 65536)).mode == .draining then
    .error (.wait .acks)
  if s.toCore.poisoned l.pa n then raise (s.toCore.dataTrap l)
  let s := if (f (s.toCore.homeBytes l.pa n)).isSome then s.dirtyLeaf l else s
  let (i, c) := s.toCore.fresh
  let writes := (f (s.toCore.homeBytes l.pa n)).isSome
  let (old, c) := c.atomicAt tile i l.pa n s.me.ftag f
  let c := match paRegion l.pa with
    | .win _ _ => c
    | _ => if writes then c.updCtx s.ref fun y => { y with unacked := y.unacked ++ [i] } else c
  return (old, { s with toCore := c })

/-- The header of a table (R170): words 0 and 1. -/
structure SeqTable where
  cap : Nat
  npg : Nat
  len : Nat
  tpp : Nat

/-- Whether TPP is a power of two from 1 to 32,768. -/
def tppOk (n : Nat) : Bool := (List.range 16).any fun k => n == 2 ^ k

/-- Reads the header: a misaligned table or a bad TPP is the alignment fault. -/
def State.tableHeader (s : State) (va : Word) : Op (SeqTable × State) := do
  let l ← s.toCore.translateAligned (s.toCore.who s.ref) (.atomic 3) va 64
  let (w0, s) ← s.tableAtomic va 8 fun _ => none
  let (w1, s) ← s.tableAtomic (va + 8) 8 fun _ => none
  let h := leWord w0
  let t : SeqTable := ⟨wbits h 48 16, wbits h 32 16, wbits h 0 32, wbits (leWord w1) 0 16⟩
  if !tppOk t.tpp then raise (tableTrap va l.pa)
  return (t, s)

/-- Writes word 0 of a table. -/
def State.writeHeader (s : State) (va : Word) (t : SeqTable) : Op State := do
  let (_, s) ← s.tableAtomic va 8 fun _ =>
    some (leBytes 8 (t.cap % 65536 * 2 ^ 48 + t.npg % 65536 * 2 ^ 32 + t.len % 2 ^ 32))
  return s

/-- The VA of entry i. -/
def entryVA (va : Word) (i : Nat) : Word := va + BitVec.ofNat 64 (64 + 4 * i)

/-- The VA of KV page p (R169). -/
def Domain.kvVA (d : Domain) (p : Nat) : Word :=
  wordOfInt (sextNat 57 (wbits (mapGet 0 d.ctl 0x60) 15 42 * 0x8000)) + BitVec.ofNat 64 (p * 0x8000)

/-- The first free page at or after p, cyclically. -/
def freePage (held : List Nat) (count p : Nat) : Nat → Option Nat
  | 0 => none
  | n + 1 => if held.contains p then freePage held count ((p + 1) % count) n else some p

/-- The page that an allocation takes (R171): which of the free ones is open. -/
def Core.kvTake (c : Core) (d : Nat) : Option Nat :=
  let dm := c.dom d
  if !dm.kvOn || dm.kvCount ≤ dm.kvHeld.length then none
  else freePage dm.kvHeld dm.kvCount (Config.kvPick c.seq % dm.kvCount) (dm.kvHeld.length + 1)

/-- An allocation (R171): the page's VA, or the status of its failure. -/
def State.kvAlloc (s : State) (va : Word) : Op (Except Nat Word × State) := do
  let (t, s) ← s.tableHeader va
  let d := s.toCore.domOf s.ref.tile
  if t.npg = t.cap then return (.error 1, s)
  else
    match s.toCore.kvTake d with
    | none => return (.error 0, s)
    | some p =>
      let (_, s) ← s.tableAtomic (entryVA va t.npg) 4 fun _ => some (leBytes 4 p)
      let s ← s.writeHeader va { t with npg := t.npg + 1 }
      let c := s.toCore.updDom d fun dm => { dm with kvHeld := dm.kvHeld ++ [p] }
      let c : Core := { c with seq := c.seq + 1 }
      return (.ok ((c.dom d).kvVA p), { s with toCore := c })

/-- `kv.alloc` (R171). -/
def execKvAlloc (o : OpLnch) (s : State) : Host.Outcome State Fault Refusal :=
  guarded s o.gd skip fun s => do
    let a ← s.rdS o.a
    let (r, s) ← s.kvAlloc a
    match r with
    | .ok v => return (s.wrG o.gp true).wrS o.d v
    | .error n => return (s.wrG o.gp false).wrS o.d (BitVec.ofNat 64 n)

/-- `kv.alloc.must` (R171, 17 R407). -/
def execKvAllocMust (o : OpRR) (s : State) : Host.Outcome State Fault Refusal :=
  guarded s o.gd skip fun s => do
    let a ← s.rdS o.a
    let (r, s) ← s.kvAlloc a
    match r with
    | .ok v => return s.wrS o.d v
    | .error n =>
      raise { mkTrap kKvdry 0 with detail := n, addr := a, aux0 := s.toCore.domainReg (s.toCore.domOf s.ref.tile) 0x61 }

/-- A page joins the free list (R171, R172): not held sets BADF; with EN = 0 it is discarded. -/
def Domain.kvFree (d : Domain) (p : Nat) : Domain :=
  if !d.kvOn then d
  else if p < d.kvCount && d.kvHeld.contains p then { d with kvHeld := d.kvHeld.erase p }
  else { d with kvBadf := true }

/-- Frees the entries from k on, `n` of them. -/
def State.kvFreeFrom (s : State) (va : Word) (k : Nat) : Nat → Op State
  | 0 => .ok s
  | n + 1 => do
    let (e, s) ← s.tableAtomic (entryVA va k) 4 fun _ => none
    let d := s.toCore.domOf s.ref.tile
    let s := { s with toCore := s.toCore.updDom d fun dm => dm.kvFree (leNat e) }
    s.kvFreeFrom va (k + 1) n

/-- Shortens a table to `k` pages and LEN tokens; the release at .mod comes first when a page is freed (R171). -/
def State.kvCut (s : State) (va : Word) (t : SeqTable) (k len : Nat) : Op State := do
  let s ← if k < t.npg then s.release .mod else Except.ok s
  let s ← s.kvFreeFrom va k (t.npg - k)
  s.writeHeader va { t with npg := k, len := len }

/-- `kv.trunc` (R171). -/
def execKvTrunc (o : OpKvTrunc) (s : State) : Host.Outcome State Fault Refusal :=
  guarded s o.gd skip fun s => do
    let a ← s.rdS o.a
    let b ← s.rdS o.b
    let (t, s) ← s.tableHeader a
    let want := wbits b 0 32
    let all := t.npg * t.tpp
    let len := min want all
    let s ← s.kvCut a t ((len + t.tpp - 1) / t.tpp) len
    return s.wrG o.gp (decide (want ≤ all))

/-- `kv.free` (R171). -/
def execKvFree (o : OpWt) (s : State) : Host.Outcome State Fault Refusal :=
  guarded s o.gd skip fun s => do
    let a ← s.rdS o.a
    let (t, s) ← s.tableHeader a
    s.kvCut a t 0 0

/-- `kv.map` (R171). -/
def execKvMap (o : OpKvMap) (s : State) : Host.Outcome State Fault Refusal :=
  guarded s o.gd skip fun s => do
    let a ← s.rdS o.a
    let b ← s.rdS o.b
    let (t, s) ← s.tableHeader a
    let i := wbits b 0 32
    if i ≥ t.npg * t.tpp then return (s.wrG o.gp false).wrS o.d 0
    else
      let (e, s) ← s.tableAtomic (entryVA a (i / t.tpp)) 4 fun _ => none
      let v := (s.toCore.dom (s.toCore.domOf s.ref.tile)).kvVA (leNat e) + BitVec.ofNat 64 (i % t.tpp * (0x8000 / t.tpp))
      return (s.wrG o.gp true).wrS o.d v

end Sys2Proof.Machine
end

