-- ==== Sys2Proof/Machine/Handlers.lean ====
section
/-!
DEFINITION. Message slots and handler contexts (07 R187 to R192; 17 R405): writes to slots, the start of a handler, device
messages.
-/

namespace Sys2Proof.Machine

open Sys2Proof

/-! Message slots (R187, R188). -/

/-- The bytes of a message write with SENDER over the sender's bytes (R187). -/
def senderOver (off : Nat) (bytes : List Byte) (sender : BitVec 32) : List Byte :=
  bytes.mapIdx fun i b => if 12 ≤ off + i && off + i < 16 then sender.extractLsb' (8 * (off + i - 12)) 8 else b

/-- A write performed on a FREE slot: one that covers byte 0 completes the message, which waits for a handler context. -/
def Core.slotWrite (c : Core) (t : Nat) (w : HeldWrite) : Core :=
  let c := c.updTile t fun tl =>
    let tl := { tl with win := writeRun tl.win (slotBase + 256 * w.slot + w.off) (senderOver w.off w.bytes w.sender) }
    if w.off = 0 then { (tl.markBusy w.slot) with msgq := tl.msgq ++ [⟨w.slot, w.sup, w.host⟩] } else tl
  if w.id = 0 then c else c.acked w.sender.toNat w.id

/-- MESSAGE_SLOT_WRITE (R188): a write to a BUSY slot, or behind one that is held for the slot, is held. -/
def execMessageSlotWrite (s : State) : Host.Outcome State Fault Refusal :=
  match s.event with
  | some (.messageSlotWrite t slot off bytes sender sup host id) =>
    let w : HeldWrite := ⟨slot, off, bytes, sender, sup, host, id⟩
    let tl := s.toCore.tile t
    if tl.busy.contains slot || tl.held.any fun h => h.slot == slot then
      .next { s with toCore := s.toCore.updTile t fun tl => { tl with held := tl.held ++ [w] } }
    else .next { s with toCore := s.toCore.slotWrite t w }
  | _ => .next s

/-- HELD_SLOT_WRITE_RELEASE: the oldest write held for a slot that is FREE is performed (R188). -/
def execHeldSlotWriteRelease (s : State) : Host.Outcome State Fault Refusal :=
  match s.event with
  | some (.heldSlotWriteRelease t slot) =>
    let tl := s.toCore.tile t
    match tl.held.find? fun h => h.slot == slot with
    | none => .next s
    | some w =>
      if tl.busy.contains slot then .next s
      else .next { s with toCore := (s.toCore.updTile t fun tl => { tl with held := tl.held.erase w }).slotWrite t w }
  | _ => .next s

/-! Handler contexts (R189, R190). -/

/-- Whether a handler context is free. -/
def Tile.hcFree (tl : Tile) (k : Nat) : Bool := (mapGet none tl.hcs k).isNone

/-- H, the contexts that the tasks placed on a tile claim. -/
def Tile.hclaim (tl : Tile) : Nat := (tl.queue.map fun x => x.id.hctx).sum

/-- The word of a slot. -/
def Tile.slotWord (tl : Tile) (slot i : Nat) : Word := leWord (readRun tl.win (slotBase + 256 * slot + 8 * i) 8)

/-- The context that a message takes (R189); a device message takes hc7 only. -/
def Tile.messageHc (tl : Tile) (m : QMsg) : Option Nat :=
  if m.slot = 255 then (if tl.hcFree 7 then some 7 else none)
  else
    let h := min tl.hclaim 7
    let task := wbits (tl.slotWord m.slot 1) 16 1 == 1
    let claimed := if task then (List.range h).find? tl.hcFree else none
    match claimed with
    | some k => some k
    | none => ((List.range 7).filter fun k => decide (h ≤ k)).find? tl.hcFree

/-- The context that a fault takes: hc7, else the lowest free one. -/
def Tile.faultHc (tl : Tile) : Option Nat := if tl.hcFree 7 then some 7 else (List.range 7).find? tl.hcFree

/-- The VA of a slot in the local alias (R190). -/
def slotVA (slot : Nat) : Word := BitVec.ofNat 64 (Config.aliasBase + slotBase + 256 * slot)

/-- A handler context in its zero state, at its start (R190). -/
def handlerCtx (h : HcInfo) (s1 s2 : Word) : Ctx :=
  { Ctx.init with life := .live, pc := h.start, hc := some h, r := { Regs.init with s := mapSet 0 (mapSet 0 [] 1 s1) 2 s2 } }

def Tile.setHc (tl : Tile) (k : Nat) (x : Ctx) : Tile := { tl with hcs := mapSet none tl.hcs k (some x) }

/-- Tiles that DSUP names, and whether each is in service (R192). -/
def Core.dsupTiles (c : Core) (d : Nat) : List Nat :=
  let w := c.ctl d 0x68
  (if wbits w 15 1 == 1 then [wbits w 0 9] else []) ++ (if wbits w 31 1 == 1 then [wbits w 16 9] else [])

/-- The supervisor tile of a domain: the first that is named and in service (R192). -/
def Core.supTile (c : Core) (d : Nat) : Option Nat := (c.dsupTiles d).find? fun t => c.inDomain d t

/-- Starts the fault handler of a fault on hck (R190, 17 R405). -/
def Core.startFault (c : Core) (t k : Nat) (f : QFault) : Core :=
  let slot := 240 + k
  let rc := withHctx f.record k
  let h : HcInfo :=
    { slot := slot, record := rc, fault := true, parked := f.parked, engine := f.engine, serves := f.serves, savedTask := false,
      sup := true, kill := false, selH := 0, selF := 0, start := c.ctl (c.domOf t) 0x6A, asked := none }
  c.updTile t fun tl =>
    let tl := { tl with faults := tl.faults.drop 1, win := writeRun tl.win (slotBase + 256 * slot) (wordsBytes rc) }
    (tl.markBusy slot).setHc k (handlerCtx h (slotVA slot) 0)

/-- Starts the handler of a message on hck (R190). A message is a supervisor's on a tile that DSUP names, when it came from
one (R192). -/
def Core.startMessage (c : Core) (t k : Nat) (m : QMsg) : Core :=
  let d := c.domOf t
  let tl := c.tile t
  let dev := decide (m.slot = 255)
  let h : HcInfo :=
    { slot := m.slot, record := [], fault := false, parked := false, engine := false, serves := none, savedTask := false
      sup := m.sup && (c.dsupTiles d).contains t, kill := false, selH := 0, selF := 0
      start := if dev then c.ctl d 0x69 else tl.slotWord m.slot 0, asked := none }
  -- a device message that carries a fault record shows it through FLTREC (17 R405)
  let recd := dev && wbits (tl.slotWord 255 1) 8 8 == 1
  let h := if recd then { h with record := (List.range 8).map fun i => tl.slotWord 255 (2 + i) } else h
  c.updTile t fun tl =>
    { tl with msgq := tl.msgq.erase m }.setHc k (handlerCtx h (slotVA m.slot) (tl.slotWord m.slot 1))

/-- What a tile may start now: a fault before a message; each context takes the earliest message that it may take (R188,
R189). -/
inductive HandlerPick where
  | fault (k : Nat) (f : QFault)
  | message (k : Nat) (m : QMsg)
  | none
deriving DecidableEq, Repr

def Tile.handlerPick (tl : Tile) : HandlerPick :=
  let msg : HandlerPick := match tl.msgq.findSome? fun m => (tl.messageHc m).map fun k => (k, m) with
    | some (k, m) => .message k m
    | none => .none
  match tl.faults with
  | f :: _ =>
    match tl.faultHc with
    | some k => .fault k f
    | none => .none
  | [] => msg

/-- HANDLER_START. -/
def execHandlerStart (s : State) : Host.Outcome State Fault Refusal :=
  match s.event with
  | some (.handlerStart t) =>
    match (s.toCore.tile t).handlerPick with
    | .fault k f => .next { s with toCore := s.toCore.startFault t k f }
    | .message k m => .next { s with toCore := s.toCore.startMessage t k m }
    | .none => .next s
  | _ => .next s

/-! Device messages (R192). -/

/-- The bytes of slot 255 for a device message. -/
def deviceSlot (handler : Word) (m : DevMsg) : List Byte :=
  leBytes 8 handler.toNat ++ leBytes 8 (0xFFFFFFFF * 2 ^ 32 + m.cls.toNat * 256 + m.payload.length % 256) ++ m.payload.take 240

/-- Whether the oldest device message of a domain can be delivered. -/
def Core.devReady (c : Core) (d : Nat) : Bool :=
  match c.supTile d, (c.dom d).devmsgs with
  | some t, _ :: _ => !(c.tile t).busy.contains 255
  | _, _ => false

/-- DEVICE_MESSAGE_DELIVER: the oldest message of a domain goes to slot 255 of its supervisor tile when that is FREE. -/
def execDeviceMessageDeliver (s : State) : Host.Outcome State Fault Refusal :=
  match s.event with
  | some (.deviceMessageDeliver d) =>
    match s.toCore.supTile d, (s.toCore.dom d).devmsgs with
    | some t, m :: rest =>
      if (s.toCore.tile t).busy.contains 255 then .next s
      else
        let w : HeldWrite := ⟨255, 0, deviceSlot (s.toCore.ctl d 0x69) m, 0xFFFFFFFF, true, false, 0⟩
        .next { s with toCore := (s.toCore.updDom d fun dm => { dm with devmsgs := rest }).slotWrite t w }
    | _, _ => .next s
  | _ => .next s

/-! The flash log (19 R434). -/

/-- FTICK counts nanoseconds (00 R8): the log's time in microseconds. -/
def Core.logAdd (c : Core) (outcome path : BitVec 4) (unit : BitVec 16) (step : BitVec 8) : Core :=
  let e : LogEnt := ⟨(c.ftick - c.mc.resetAt) / 1000, outcome, path, unit, step, c.mc.boot⟩
  let l := c.mc.log ++ [e]
  { c with mc := { c.mc with log := l.drop (l.length - 65536) } }

/-- Whether a device message of the domain has waited more than 1 s without a supervisor tile (19 R438). -/
def Core.unsupervised (c : Core) (d : Nat) : Bool :=
  match (c.dom d).devmsgs with
  | m :: _ => (c.supTile d).isNone && !(c.dom d).unsup && decide ((c.ftick - m.since).toNat > 1000000000)
  | [] => false

/-- UNSUPERVISED_DOMAIN_TIMER (19 R438): the domain is logged; the message goes on waiting. -/
def execUnsupervisedDomainTimer (s : State) : Host.Outcome State Fault Refusal :=
  match s.event with
  | some (.unsupervisedDomainTimer d) =>
    if s.toCore.unsupervised d then
      let c := s.toCore.updDom d fun dm => { dm with unsup := true }
      .next { s with toCore := c.logAdd 0 0 (0xFFF0 + BitVec.ofNat 16 d) 0 }
    else .next s
  | _ => .next s

end Sys2Proof.Machine
end

