-- ==== Sys2Proof/Machine/Vector.lean ====
section
/-!
DEFINITION. The V0 and V1 slots: lane arithmetic, compares, moves, conversion, reduction, BF16 dot, versioned scalars and
the optimiser update (11 R274 to R292).
-/

namespace Sys2Proof.Machine

open Sys2Proof

/-! Shapes. A suppressed operation reads its queues and pushes all-zero entries (08 R206). -/

/-- Two sources, a rounding mode (11 R279). -/
def vecArith (s : State) (o : OpVArith) (f : Rnd → Nat → Nat → Nat → FRes) : Host.Outcome State Fault Refusal :=
  guarded s o.gd
    (fun s => do
      let s ← s.drop o.a
      let s ← s.dropOr o.b
      s.zeros o.d 1)
    (fun s => do
      let (a, s) ← s.src o.a
      let (b, s) ← s.srcOr o.b
      let (dr, s) := s.draws o.rm 64
      let (e, fl) := laneResults (s.mask o.msk) (lane a) fun i => f o.rm (dr i) (lane a i) (b i)
      (s.flag fl).dst o.d e)

/-- Three sources, a rounding mode (11 R279). -/
def vecFma (s : State) (o : OpVFma) (f : Rnd → Nat → Nat → Nat → Nat → FRes) : Host.Outcome State Fault Refusal :=
  guarded s o.gd
    (fun s => do
      let s ← s.drop o.a
      let s ← s.dropOr o.b
      let s ← s.drop o.c
      s.zeros o.d 1)
    (fun s => do
      let (a, s) ← s.src o.a
      let (b, s) ← s.srcOr o.b
      let (c, s) ← s.src o.c
      let (dr, s) := s.draws o.rm 64
      let (e, fl) := laneResults (s.mask o.msk) (lane a) fun i => f o.rm (dr i) (lane a i) (b i) (lane c i)
      (s.flag fl).dst o.d e)

/-- Two sources, no rounding (11 R279, R280). -/
def vecBin (s : State) (o : OpVBin) (f : Nat → Nat → FRes) : Host.Outcome State Fault Refusal :=
  guarded s o.gd
    (fun s => do
      let s ← s.drop o.a
      let s ← s.dropOr o.b
      s.zeros o.d 1)
    (fun s => do
      let (a, s) ← s.src o.a
      let (b, s) ← s.srcOr o.b
      let (e, fl) := laneResults (s.mask o.msk) (lane a) fun i => f (lane a i) (b i)
      (s.flag fl).dst o.d e)

/-- An operation on 32-bit lanes that raises no flag (11 R280). -/
def vecInt (s : State) (o : OpVBin) (f : Lane → Lane → Lane) : Host.Outcome State Fault Refusal :=
  vecBin s o fun a b => ⟨(f (BitVec.ofNat 32 a) (BitVec.ofNat 32 b)).toNat, 0⟩

/-- One source (11 R279, R284). -/
def vecUn (s : State) (o : OpVUn) (f : Nat → FRes) : Host.Outcome State Fault Refusal :=
  guarded s o.gd
    (fun s => do
      let s ← s.drop o.a
      s.zeros o.d 1)
    (fun s => do
      let (a, s) ← s.src o.a
      let (e, fl) := laneResults (s.mask o.msk) (lane a) fun i => f (lane a i)
      (s.flag fl).dst o.d e)

/-- A transcendental (11 R281). -/
def vecTr (s : State) (o : OpVTr) (f : Nat → FRes) : Host.Outcome State Fault Refusal :=
  guarded s o.gd
    (fun s => do
      let s ← s.drop o.a
      s.zeros o.d 1)
    (fun s => do
      let (a, s) ← s.src o.a
      let (e, fl) := laneResults (s.mask o.msk) (lane a) fun i => f (lane a i)
      (s.flag fl).dst o.d e)

/-- A compare into a mask pair (11 R282): an unselected lane is 0 in both masks. -/
def vecCmp (s : State) (o : OpVCmp) (holds : Nat → Nat → Bool) (flags : Nat → Nat → Flags) :
    Host.Outcome State Fault Refusal :=
  guarded s o.gd
    (fun s => do
      let s ← s.drop o.a
      s.dropOr o.b)
    (fun s => do
      let (a, s) ← s.src o.a
      let (b, s) ← s.srcOr o.b
      let m := s.mask o.msk
      let k := bitsOf fun i => m.getLsbD i && holds (lane a i) (b i)
      let fl := joinFlags ((List.range 64).map fun i => ⟨0, if m.getLsbD i then flags (lane a i) (b i) else 0⟩)
      return (s.wrM o.d k (m &&& ~~~k)).flag fl)

def vecFCmp (s : State) (o : OpVCmp) (c : FCond) : Host.Outcome State Fault Refusal :=
  vecCmp s o (fun a b => c.holds (fmtF32.decode a) (fmtF32.decode b)) (fun a b => c.flags (fmtF32.decode a) (fmtF32.decode b))

def vecICmp (s : State) (o : OpVCmp) (c : Cond) : Host.Outcome State Fault Refusal :=
  vecCmp s o (fun a b => c.holds (BitVec.ofNat 32 a) (BitVec.ofNat 32 b)) (fun _ _ => 0)

/-! Lane functions. -/

/-- |a| or −a of a binary32 lane; a NaN gives the canonical NaN without a flag (11 R279). -/
def signLane (neg : Bool) (a : Nat) : FRes :=
  if (fmtF32.decode a).isNan then ⟨fmtF32.nan, 0⟩
  else ⟨if neg then (if a < 2 ^ 31 then a + 2 ^ 31 else a - 2 ^ 31) else a % 2 ^ 31, 0⟩

/-- a + b clamped to 32 bits signed (11 R280). -/
def addSat (a b : Nat) : FRes :=
  let x := sextNat 32 a + sextNat 32 b
  let y := max (-(2 ^ 31)) (min (2 ^ 31 - 1) x)
  ⟨(y % 2 ^ 32).toNat, fIf (x != y) fSAT⟩

/-- The value of a lane of a format (11 R285). -/
def laneValue (f : LFmt) (a : Nat) : FVal :=
  match f with
  | .f32 => fmtF32.decode a
  | .i32 => valOfInt (sextNat 32 a)
  | .u32 => valOfInt a
  | .bf16 => fmtBf16.decode (a % 65536)
  | .f16 => fmtF16.decode (a % 65536)
  | .scp => scpVal a

/-- Whether a format holds integers. -/
def laneIsInt : LFmt → Bool
  | .i32 | .u32 => true
  | _ => false

/-- The range of an integer format. -/
def laneRange : LFmt → Int × Int
  | .u32 => (0, 2 ^ 32 - 1)
  | _ => (-(2 ^ 31), 2 ^ 31 - 1)

/-- An exact value or SCP32 word into a float format (11 R285). -/
def toFloatLane (f : FFmt) (frm : LFmt) (rm : Rnd) (draw a : Nat) : FRes :=
  match frm with
  | .scp => scpToF f a
  | _ => f.ofVal rm draw (laneValue frm a)

/-- A value into an integer format: between the integer formats it saturates with SAT, from others under R92. -/
def toIntLane (tof frm : LFmt) (rm : Rnd) (draw a : Nat) : FRes :=
  let (lo, hi) := laneRange tof
  if laneIsInt frm then
    let x := if frm = LFmt.i32 then sextNat 32 a else (a : Int)
    let y := max lo (min hi x)
    ⟨(y % 2 ^ 32).toNat, fIf (x != y) fSAT⟩
  else
    let (i, fl) := toIntSat (if frm = LFmt.scp then .rne else rm) draw lo hi (laneValue frm a)
    ⟨(i % 2 ^ 32).toNat, fl⟩

/-- `vcvt` of one lane (11 R285). -/
def convertLane (tof frm : LFmt) (rm : Rnd) (draw a : Nat) : FRes :=
  match tof with
  | .f32 => toFloatLane fmtF32 frm rm draw a
  | .bf16 => toFloatLane fmtBf16 frm rm draw a
  | .f16 => toFloatLane fmtF16 frm rm draw a
  | .i32 => toIntLane .i32 frm rm draw a
  | .u32 => toIntLane .u32 frm rm draw a
  | .scp => toScp (laneValue frm a)

/-! The instructions. -/

def execVaddF (o : OpVArith) (s : State) : Host.Outcome State Fault Refusal := vecArith s o fmtF32.add
def execVsubF (o : OpVArith) (s : State) : Host.Outcome State Fault Refusal := vecArith s o fmtF32.sub
def execVmulF (o : OpVArith) (s : State) : Host.Outcome State Fault Refusal := vecArith s o fmtF32.mul
def execVfmaF (o : OpVFma) (s : State) : Host.Outcome State Fault Refusal := vecFma s o fmtF32.fma
def execVfmsF (o : OpVFma) (s : State) : Host.Outcome State Fault Refusal := vecFma s o fmtF32.fms
def execVminF (o : OpVBin) (s : State) : Host.Outcome State Fault Refusal := vecBin s o (fmtF32.minmax false)
def execVmaxF (o : OpVBin) (s : State) : Host.Outcome State Fault Refusal := vecBin s o (fmtF32.minmax true)
def execVabsF (o : OpVUn) (s : State) : Host.Outcome State Fault Refusal := vecUn s o (signLane false)
def execVnegF (o : OpVUn) (s : State) : Host.Outcome State Fault Refusal := vecUn s o (signLane true)
def execVaddI (o : OpVBin) (s : State) : Host.Outcome State Fault Refusal := vecInt s o fun a b => a + b
def execVsubI (o : OpVBin) (s : State) : Host.Outcome State Fault Refusal := vecInt s o fun a b => a - b
def execVmulI (o : OpVBin) (s : State) : Host.Outcome State Fault Refusal := vecInt s o fun a b => a * b
def execVmulhI (o : OpVBin) (s : State) : Host.Outcome State Fault Refusal :=
  vecInt s o fun a b => BitVec.ofInt 32 ((a.toInt * b.toInt) / 2 ^ 32)
def execVminI (o : OpVBin) (s : State) : Host.Outcome State Fault Refusal := vecInt s o fun a b => if b.slt a then b else a
def execVmaxI (o : OpVBin) (s : State) : Host.Outcome State Fault Refusal := vecInt s o fun a b => if a.slt b then b else a
def execVminuI (o : OpVBin) (s : State) : Host.Outcome State Fault Refusal := vecInt s o fun a b => if b.ult a then b else a
def execVmaxuI (o : OpVBin) (s : State) : Host.Outcome State Fault Refusal := vecInt s o fun a b => if a.ult b then b else a
def execVand (o : OpVBin) (s : State) : Host.Outcome State Fault Refusal := vecInt s o fun a b => a &&& b
def execVor (o : OpVBin) (s : State) : Host.Outcome State Fault Refusal := vecInt s o fun a b => a ||| b
def execVxor (o : OpVBin) (s : State) : Host.Outcome State Fault Refusal := vecInt s o fun a b => a ^^^ b
def execVshl (o : OpVBin) (s : State) : Host.Outcome State Fault Refusal := vecInt s o fun a b => a <<< (b.toNat % 32)
def execVshr (o : OpVBin) (s : State) : Host.Outcome State Fault Refusal := vecInt s o fun a b => a >>> (b.toNat % 32)
def execVsra (o : OpVBin) (s : State) : Host.Outcome State Fault Refusal :=
  vecInt s o fun a b => a.sshiftRight (b.toNat % 32)
def execVaddsI (o : OpVBin) (s : State) : Host.Outcome State Fault Refusal := vecBin s o addSat
def execVrcp (o : OpVTr) (s : State) : Host.Outcome State Fault Refusal := vecTr s o trRcp
def execVrsq (o : OpVTr) (s : State) : Host.Outcome State Fault Refusal := vecTr s o trRsq
def execVexp2 (o : OpVTr) (s : State) : Host.Outcome State Fault Refusal := vecTr s o trExp2
def execVlg2 (o : OpVTr) (s : State) : Host.Outcome State Fault Refusal := vecTr s o trLg2
def execVcmpEq (o : OpVCmp) (s : State) : Host.Outcome State Fault Refusal := vecFCmp s o .eq
def execVcmpNe (o : OpVCmp) (s : State) : Host.Outcome State Fault Refusal := vecFCmp s o .ne
def execVcmpLt (o : OpVCmp) (s : State) : Host.Outcome State Fault Refusal := vecFCmp s o .lt
def execVcmpLe (o : OpVCmp) (s : State) : Host.Outcome State Fault Refusal := vecFCmp s o .le
def execVcmpGt (o : OpVCmp) (s : State) : Host.Outcome State Fault Refusal := vecFCmp s o .gt
def execVcmpGe (o : OpVCmp) (s : State) : Host.Outcome State Fault Refusal := vecFCmp s o .ge
def execVcmpUn (o : OpVCmp) (s : State) : Host.Outcome State Fault Refusal := vecFCmp s o .un
def execVicmpEq (o : OpVCmp) (s : State) : Host.Outcome State Fault Refusal := vecICmp s o .eq
def execVicmpNe (o : OpVCmp) (s : State) : Host.Outcome State Fault Refusal := vecICmp s o .ne
def execVicmpLt (o : OpVCmp) (s : State) : Host.Outcome State Fault Refusal := vecICmp s o .lt
def execVicmpGe (o : OpVCmp) (s : State) : Host.Outcome State Fault Refusal := vecICmp s o .ge
def execVicmpLtu (o : OpVCmp) (s : State) : Host.Outcome State Fault Refusal := vecICmp s o .ltu
def execVicmpGeu (o : OpVCmp) (s : State) : Host.Outcome State Fault Refusal := vecICmp s o .geu

/-- `vsel`: the mask selects between the sources (11 R283). -/
def execVsel (o : OpVBin) (s : State) : Host.Outcome State Fault Refusal :=
  guarded s o.gd
    (fun s => do
      let s ← s.drop o.a
      let s ← s.dropOr o.b
      s.zeros o.d 1)
    (fun s => do
      let (a, s) ← s.src o.a
      let (b, s) ← s.srcOr o.b
      let m := s.mask o.msk
      s.dst o.d (ofLanes ((List.range 64).map fun i => if m.getLsbD i then lane a i else b i)))

/-- `vsplat` (11 R284): an unselected lane is 0 (R276). -/
def execVsplat (o : OpVSplat) (s : State) : Host.Outcome State Fault Refusal :=
  guarded s o.gd (fun s => s.zeros o.d 1)
    (fun s => do
      let a ← s.rdS o.a
      let m := s.mask o.msk
      s.dst o.d (ofLanes ((List.range 64).map fun i =>
        if m.getLsbD i then (if o.w64 && i % 2 == 1 then wbits a 32 32 else wbits a 0 32) else 0)))

/-- `viota` (11 R284). -/
def execViota (o : OpVIota) (s : State) : Host.Outcome State Fault Refusal :=
  guarded s o.gd (fun s => s.zeros o.d 1)
    (fun s => do
      let a ← s.rdS o.a
      let b ← s.rdS o.b
      let m := s.mask o.msk
      s.dst o.d (ofLanes ((List.range 64).map fun i => if m.getLsbD i then (a.toNat + i * b.toNat) % 2 ^ 32 else 0)))

/-- `vmov` (11 R284). -/
def execVmov (o : OpVUn) (s : State) : Host.Outcome State Fault Refusal := vecUn s o fun a => ⟨a, 0⟩

/-- `vcvt` (11 R285). -/
def execVcvt (o : OpVCvt) (s : State) : Host.Outcome State Fault Refusal :=
  guarded s o.gd
    (fun s => do
      let s ← s.drop o.a
      s.zeros o.d 1)
    (fun s => do
      let (a, s) ← s.src o.a
      let (dr, s) := s.draws o.rm 64
      let (e, fl) := laneResults (s.mask o.msk) (lane a) fun i => convertLane o.tof o.frm o.rm (dr i) (lane a i)
      (s.flag fl).dst o.d e)

/-! Reduction (03 R100, 11 R286). -/

/-- The identity of a reduction. -/
def redIdentity (op : Nat) : Nat :=
  match op with
  | 0 => 0x80000000
  | 1 => fmtF32.inf true
  | 2 => fmtF32.inf false
  | 4 => 0x80000000
  | 5 => 0x7FFFFFFF
  | 7 => 0xFFFFFFFF
  | _ => 0

/-- One node of a reduction. -/
def redNode (op : Nat) (rm : Rnd) (draw a b : Nat) : FRes :=
  match op with
  | 0 => fmtF32.add rm draw a b
  | 1 => fmtF32.minmax true a b
  | 2 => fmtF32.minmax false a b
  | 3 => ⟨(a + b) % 2 ^ 32, 0⟩
  | 4 => ⟨if sextNat 32 a < sextNat 32 b then b else a, 0⟩
  | 5 => ⟨if sextNat 32 b < sextNat 32 a then b else a, 0⟩
  | 6 => ⟨if a < b then b else a, 0⟩
  | _ => ⟨if b < a then b else a, 0⟩

/-- Joins neighbours; node i draws at `base + i`. -/
def redPairs (op : Nat) (rm : Rnd) (dr : Nat → Nat) (base : Nat) : List Nat → List FRes
  | a :: b :: t => redNode op rm (dr base) a b :: redPairs op rm dr (base + 1) t
  | _ => []

/-- The levels of the tree: level l draws from 64 l. -/
def redLevels (op : Nat) (rm : Rnd) (dr : Nat → Nat) : Nat → Nat → List Nat → Flags → Nat × Flags
  | 0, _, xs, fl => (xs.headD 0, fl)
  | n + 1, l, xs, fl =>
    let rs := redPairs op rm dr (64 * l) xs
    redLevels op rm dr n (l + 1) (rs.map fun r => r.bits) (fl ||| joinFlags rs)

/-- The reduction of an entry under a mask (03 R100). -/
def reduceEntry (op : Nat) (rm : Rnd) (dr : Nat → Nat) (m : Word) (e : Entry) : Nat × Flags :=
  redLevels op rm dr 6 0 ((List.range 64).map fun i => if m.getLsbD i then lane e i else redIdentity op) 0

/-- A 32-bit result as a scalar: sign-extended for OP 3, 4 and 5 (11 R286). -/
def redScalar (op r : Nat) : Word :=
  if 3 ≤ op && op ≤ 5 then wordOfInt (sextNat 32 r) else BitVec.ofNat 64 r

/-- The suppressed `vred`: its queue traffic. -/
def vredOff (o : OpVRed) (s : State) : Op State := do
  let s ← s.drop o.a
  match o.dst with
  | .queue d => s.zeros d 1
  | _ => return s

/-- The reduction of `vred` into a queue or a scalar. -/
def vredNow (o : OpVRed) (s : State) : Op (Nat × State) := do
  let (a, s) ← s.src o.a
  let (dr, s) := s.draws o.rm 384
  let (r, fl) := reduceEntry o.op.toNat o.rm dr (s.mask o.msk) a
  return (r, s.flag fl)

/-- The VALUE of a versioned scalar written now. -/
def Ctx.setVs (x : Ctx) (n : Nat) (v : VScal) : Ctx := { x with vs := mapSet .init x.vs n v }

/-- `vred` into a versioned scalar (11 R289): TAG at issue; VALUE now when the head entry has landed, else when the entry
lands. A second reduction into a register whose VALUE is outstanding waits for it. -/
def vredVersioned (o : OpVRed) (n : BitVec 3) (tagReg : BitVec 6) (s : State) : Op State := do
  let t ← s.rdS tagReg
  let tag := t.extractLsb' 0 16
  let old := mapGet VScal.init s.me.vs n.toNat
  if old.wait.isSome then .error (.wait .reg)
  match s.entries o.a.q.toNat with
  | { id := eid, data := none } :: _ =>
    let d : Deferred :=
      { eid := eid, data := none, bits := s.headBits o.a.q.toNat, op := o.op, rm := o.rm
        mask := s.mask o.msk, key := s.old.r.seedk, ctr := s.me.r.cgctr }
    let s := if o.rm = .sr then s.consume 384 else s
    let s := s.upd fun x => x.setVs n.toNat { value := old.value, tag := tag, wait := some d }
    if o.a.peek then return s else return s.popQ o.a.q.toNat
  | _ =>
    let (r, s) ← vredNow o s
    return s.upd fun x => x.setVs n.toNat { value := BitVec.ofNat 64 r, tag := tag, wait := none }

/-- `vred` (11 R286). -/
def execVred (o : OpVRed) (s : State) : Host.Outcome State Fault Refusal :=
  guarded s o.gd (vredOff o) fun s =>
    match o.dst with
    | .queue d => do
      let (r, s) ← vredNow o s
      s.dst d (BitVec.ofNat 2048 r)
    | .scalar d => do
      let (r, s) ← vredNow o s
      return s.wrS d (redScalar o.op.toNat r)
    | .vs n t => vredVersioned o n t s

/-- A deferred reduction of a context whose entry is here: VALUE and flags (11 R289). -/
def Ctx.reduceDeferred (x : Ctx) (eid : Nat) : Ctx :=
  (List.range 8).foldl (fun x n =>
    let v := mapGet VScal.init x.vs n
    match v.wait with
    | some d =>
      match d.data with
      | some e =>
        if d.eid = eid then
          let src : DrawSrc := { key := d.key, tag := wbits d.ctr 40 24, kind := 1, round := 0, hop := 0 }
          let b := wbits d.ctr 0 40
          let (r, fl) := reduceEntry d.op.toNat d.rm (fun j => src.draw16 (b + j)) d.mask (BitVec.ofNat 2048 (e.toNat % 2 ^ d.bits))
          let x := x.setVs n { v with value := BitVec.ofNat 64 r, wait := none }
          { x with r := { x.r with fpsf := x.r.fpsf ||| fl } }
        else x
      | none => x
    | none => x) x

/-- VRED_DEFERRED_REDUCTION: the entry `id` of the event has landed; the reductions that took it are performed. -/
def execVredDeferredReduction (s : State) : Host.Outcome State Fault Refusal :=
  match s.event with
  | some (.vredDeferredReduction tile id) =>
    .next { s with toCore := s.toCore.updTileCtxs tile fun x => x.reduceDeferred id }
  | _ => .next s

/-! `vdot` (11 R287). -/

/-- a0 × b0 + a1 × b1 + c with one rounding. -/
def dotLane (rm : Rnd) (draw a b c : Nat) : FRes :=
  let p := mulVal (fmtBf16.decode (a % 65536)) (fmtBf16.decode (b % 65536))
  let q := mulVal (fmtBf16.decode (a / 65536)) (fmtBf16.decode (b / 65536))
  let t := addVal rm p.1 q.1
  let u := addVal rm t.1 (fmtF32.decode c)
  fmtF32.finish rm draw (u.1, u.2 ||| t.2 ||| q.2 ||| p.2)

def execVdot (o : OpVDot) (s : State) : Host.Outcome State Fault Refusal :=
  guarded s o.gd
    (fun s => do
      let s ← s.drop o.a
      let s ← s.drop o.b
      let s ← s.drop o.c
      s.zeros o.d 1)
    (fun s => do
      let (a, s) ← s.src o.a
      let (b, s) ← s.src o.b
      let (c, s) ← s.src o.c
      let (dr, s) := s.draws o.rm 64
      let (e, fl) := laneResults (s.mask o.msk) (lane c) fun i => dotLane o.rm (dr i) (lane a i) (lane b i) (lane c i)
      (s.flag fl).dst o.d e)

/-! `vupd` (11 R290 to R292). -/

/-- Entries of `vupd` by mode: 2, 3 or 1. -/
def optCount : OptMode → Nat
  | .mom => 2
  | .adam => 3
  | .sgd => 1

/-- The hyperparameters of `vupd` as binary32 words. -/
structure Hyper where
  lr : Nat
  wd : Nat
  b1 : Nat
  b2 : Nat
  eps : Nat
  bc1 : Nat
  bc2 : Nat
  clip : Nat

/-- The clip factor c and its flags, a signalling NaN among those that are read setting IV (11 R292, 03 R75). -/
def clipFactor (clip g2 : Nat) : FRes :=
  let cv := fmtF32.decode clip
  let gv := fmtF32.decode g2
  if cv.isNan || !fltVal (.fin false 0 0) cv || cv.isInf || gv.isZero then ⟨0x3F800000, fIf cv.isSnan fIV⟩
  else if gv.isNan || fltVal gv (.fin false 0 0) then ⟨fmtF32.nan, fIf gv.isSnan fIV⟩
  else
    let r := trRsq g2
    let t := fmtF32.mul .rne 0 clip r.bits
    ⟨if fltVal (fmtF32.decode t.bits) (fmtF32.decode 0x3F800000) then t.bits else 0x3F800000, r.fl ||| t.fl⟩

/-- The new entries of one lane: w′, and m′, v′ as the mode has them (11 R292). `xs` are the old values. -/
def updLane (mode : OptMode) (h : Hyper) (rm : Rnd) (draw c g : Nat) (xs : List Nat) : List FRes :=
  let w := xs.getD 0 0
  let m := xs.getD 1 0
  let v := xs.getD 2 0
  let f := fmtF32
  let nlr := if h.lr < 2 ^ 31 then h.lr + 2 ^ 31 else h.lr - 2 ^ 31
  let gc := f.mul .rne 0 g c
  match mode with
  | .mom =>
    let gd := f.fma .rne 0 h.wd w gc.bits
    let m' := f.fma .rne 0 h.b1 m gd.bits
    let w' := f.fma rm draw nlr m'.bits w
    [⟨w'.bits, w'.fl ||| m'.fl ||| gd.fl ||| gc.fl⟩, m']
  | .sgd =>
    let gd := f.fma .rne 0 h.wd w gc.bits
    let w' := f.fma rm draw nlr gd.bits w
    [⟨w'.bits, w'.fl ||| gd.fl ||| gc.fl⟩]
  | .adam =>
    let a1 := f.sub .rne 0 0x3F800000 h.b1
    let a2 := f.sub .rne 0 0x3F800000 h.b2
    let t1 := f.mul .rne 0 a1.bits gc.bits
    let m' := f.fma .rne 0 h.b1 m t1.bits
    let t2 := f.mul .rne 0 a2.bits gc.bits
    let t3 := f.mul .rne 0 t2.bits gc.bits
    let v' := f.fma .rne 0 h.b2 v t3.bits
    let t4 := f.mul .rne 0 v'.bits h.bc2
    let t5 := f.sqrt t4.bits
    let d := f.add .rne 0 t5.bits h.eps
    let t6 := f.mul .rne 0 m'.bits h.bc1
    let u := f.div t6.bits d.bits
    let t7 := f.fma .rne 0 h.wd w u.bits
    let w' := f.fma rm draw nlr t7.bits w
    [⟨w'.bits, joinFlags [gc, a1, a2, t1, m', t2, t3, v', t4, t5, d, t6, u, t7, w']⟩, m', v']

/-- Pops `n` entries of a queue. -/
def State.popN (s : State) (q : BitVec 5) (n : Nat) : Op (List Entry × State) :=
  match n with
  | 0 => .ok ([], s)
  | n + 1 => do
    let (e, s) ← s.src ⟨false, q⟩
    let (es, s) ← s.popN q n
    return (e :: es, s)

/-- The queue-imbalance fault of `vupd` (11 R290, 17 R407). -/
def vsTrap (n : Nat) (found required : BitVec 16) : TrapInfo :=
  { mkTrap kImbalance 0 with detail := 0x100 + n, aux0 := found.setWidth 64, aux1 := required.setWidth 64 }

def vupdOn (o : OpVUpd) (s : State) : Op State := do
  let h0 ← s.rdS o.c
  let h1 ← s.rdS (o.c + 1)
  let h2 ← s.rdS (o.c + 2)
  let h3 ← s.rdS (o.c + 3)
  let h4 ← s.rdS (o.c + 4)
  let req : BitVec 16 := h4.extractLsb' 0 16 - 1
  let v := mapGet VScal.init s.old.vs o.vs.toNat
  if v.tag ≠ req then raise (vsTrap o.vs.toNat v.tag req)
  if v.wait.isSome then .error (.wait .reg)
  let (xs, s) ← s.popN o.a (optCount o.mode)
  let (g, s) ← s.src o.b
  let (dr, s) := s.draws o.rm 64
  let lo := fun (w : Word) => wbits w 0 32
  let hi := fun (w : Word) => wbits w 32 32
  let h : Hyper := { lr := lo h0, wd := hi h0, b1 := lo h1, b2 := hi h1, eps := lo h2, bc1 := lo h3, bc2 := hi h3, clip := hi h2 }
  let c := clipFactor h.clip (lo v.value)
  let m := s.mask o.msk
  let rows := (List.range 64).map fun i =>
    if m.getLsbD i then updLane o.mode h o.rm (dr i) c.bits (lane g i) (xs.map fun e => lane e i)
    else xs.map fun e => ⟨lane e i, 0⟩
  let es := (List.range (optCount o.mode)).map fun k => ofLanes (rows.map fun r => (r.getD k ⟨0, 0⟩).bits)
  let fl := c.fl ||| joinFlags (rows.map fun r => r.getD 0 ⟨0, 0⟩)
  (s.flag fl).dsts o.d es

/-- `vupd` (11 R291, R292). -/
def execVupd (o : OpVUpd) (s : State) : Host.Outcome State Fault Refusal :=
  guarded s o.gd
    (fun s => do
      let s ← s.dropN o.a (optCount o.mode)
      let s ← s.drop o.b
      s.zeros o.d (optCount o.mode))
    (vupdOn o)

end Sys2Proof.Machine
end

