-- ==== Sys2Proof/Machine/Fetch.lean ====
section
/-!
DEFINITION. What the operations of a bundle name (08 R200, R205, R209, R214), which of them are once operations (R202), and the
reading and checking of a bundle (R196, R220).
-/

namespace Sys2Proof.Machine

open Sys2Proof

/-! What an operation names. -/

/-- The queue sources of an operation in field order, each with its K bit; the queues it pushes into, in order; and the
destination registers that R209 compares. Keys 32 and 33 are the scale queues. -/
structure Uses where
  srcs : List (Nat × Bool)
  dsts : List Nat
  s : Option Nat
  g : Option Nat
  m : Option Nat
  mp : Option Nat
  a : Option Nat
deriving DecidableEq, Repr

def Uses.none : Uses := ⟨[], [], .none, .none, .none, .none, .none⟩

def useQ (q : QSrc) : List (Nat × Bool) := [(q.q.toNat, q.peek)]

def useOr (q : QorS) : List (Nat × Bool) :=
  match q with
  | .queue f => useQ f
  | .scalar _ => []

def useD (d : QDst) (n : Nat) : List Nat :=
  match d with
  | .none => []
  | some q => List.replicate n q.toNat

def useS (d : BitVec 6) : Uses := { Uses.none with s := some d.toNat }
def useSG (d : BitVec 6) (k : BitVec 3) : Uses := { Uses.none with s := some d.toNat, g := some k.toNat }
def useG (k : BitVec 3) : Uses := { Uses.none with g := some k.toNat }
def useSD (srcs : List (Nat × Bool)) (d : QDst) (n : Nat) : Uses := { Uses.none with srcs := srcs, dsts := useD d n }
def usesArith (o : OpVArith) : Uses := useSD (useQ o.a ++ useOr o.b) o.d 1
def usesBin (o : OpVBin) : Uses := useSD (useQ o.a ++ useOr o.b) o.d 1
def usesFma (o : OpVFma) : Uses := useSD (useQ o.a ++ useOr o.b ++ useQ o.c) o.d 1
def usesUn (o : OpVUn) : Uses := useSD (useQ o.a) o.d 1
def usesTr (o : OpVTr) : Uses := useSD (useQ o.a) o.d 1
def usesCmp (o : OpVCmp) : Uses := { Uses.none with srcs := useQ o.a ++ useOr o.b, m := some o.d.toNat }

/-- What an operation of the S, C and A slots names. -/
def usesSca : Instr → Uses
  | .add o | .sub o | .mul o | .mulh o | .mulhu o | .divu o | .and o | .or o | .xor o | .shl o | .shr o | .sra o
  | .min o | .max o | .minu o | .maxu o => useS o.d
  | .clz o | .pcnt o => useS o.d
  | .bfx o | .bfxS o => useS o.d
  | .bfi o => useS o.d
  | .addi o | .muli o | .andi o | .ori o | .xori o | .lih o => useS o.d
  | .shli o | .shri o | .srai o => useS o.d
  | .cmpEq o | .cmpNe o | .cmpLt o | .cmpGe o | .cmpLtu o | .cmpGeu o => useG o.d
  | .cmpiEq o | .cmpiNe o | .cmpiLt o | .cmpiGe o | .cmpiLtu o | .cmpiGeu o => useG o.d
  | .sel o => useS o.d
  | .li o => useS o.d
  | .ctlRd o => useS o.d
  | .call _ => useS 63
  | .evtWt o => useS o.d
  | .ctxSv o | .tilePre o | .ucVfy o => useS o.d
  | .ctxLd o | .brdMov o => useS o.d
  | .barWt o => useS o.d
  | .spawn o => useSG o.d o.gp
  | .lnch o | .verPubClm o | .kvAlloc o => useSG o.d o.gp
  | .crlPut o => useG o.gp
  | .crlPutRej o => useG o.gp
  | .kvAllocMust o => useS o.d
  | .kvTrunc o => useG o.gp
  | .kvMap o => useSG o.d o.gp
  | _ => Uses.none

/-- What an operation of the LA, LB and ST slots names. -/
def usesMem : Instr → Uses
  | .sdLd o => { Uses.none with a := some o.d.toNat }
  | .ldQ o => { Uses.none with dsts := useD o.d 1 ++ (o.sq.map fun q => [32 + q.toNat]).getD [] }
  | .ldSc o => { Uses.none with dsts := [32 + o.d.toNat] }
  | .ldG o => { Uses.none with dsts := useD o.d 1 }
  | .ldS o => useS o.d
  | .ldAcq o => useS o.d
  | .stQ o => { Uses.none with srcs := useQ o.b }
  | .stCt o => { Uses.none with srcs := useQ o.c }
  | .stX o => { Uses.none with srcs := useQ o.b ++ useQ o.c }
  | .atmAdd o | .atmAnd o | .atmOr o | .atmXchg o | .atmCas o => useS o.d
  | .atmMin o | .atmMax o => useS o.d
  | .redAdd o => { Uses.none with srcs := useQ o.b }
  | _ => Uses.none

/-- What an operation of the V0, V1 and P slots names. -/
def usesVec : Instr → Uses
  | .vaddF o | .vsubF o | .vmulF o => usesArith o
  | .vfmaF o | .vfmsF o => usesFma o
  | .vminF o | .vmaxF o | .vaddI o | .vsubI o | .vmulI o | .vmulhI o | .vminI o | .vmaxI o | .vminuI o | .vmaxuI o
  | .vand o | .vor o | .vxor o | .vshl o | .vshr o | .vsra o | .vaddsI o | .vsel o => usesBin o
  | .vabsF o | .vnegF o | .vmov o => usesUn o
  | .vrcp o | .vrsq o | .vexp2 o | .vlg2 o => usesTr o
  | .vcmpEq o | .vcmpNe o | .vcmpLt o | .vcmpLe o | .vcmpGt o | .vcmpGe o | .vcmpUn o | .vicmpEq o | .vicmpNe o
  | .vicmpLt o | .vicmpGe o | .vicmpLtu o | .vicmpGeu o => usesCmp o
  | .vsplat o => useSD [] o.d 1
  | .viota o => useSD [] o.d 1
  | .vcvt o => useSD (useQ o.a) o.d 1
  | .vred o =>
    match o.dst with
    | .queue d => useSD (useQ o.a) d 1
    | .scalar d => { useS d with srcs := useQ o.a }
    | .vs _ _ => { Uses.none with srcs := useQ o.a }
  | .vdot o => useSD (useQ o.a ++ useQ o.b ++ useQ o.c) o.d 1
  | .vupd o => useSD (List.replicate (optCount o.mode) (o.a.toNat, false) ++ useQ o.b) o.d (optCount o.mode)
  | .pkMx o => useSD (useQ o.a ++ useQ o.b) o.d 1
  | .upkMx o => useSD (useQ o.a) o.d 2
  | .shf o => useSD (useQ o.a ++ useQ o.b) o.d 1
  | .xpo o => useSD (useQ o.a) o.d 1
  | .bct o => useSD (useQ o.a) o.d 1
  | .scGet o =>
    match o.dst with
    | .scalar d => { useS d with srcs := useQ o.a }
    | .sq d => { Uses.none with srcs := useQ o.a, dsts := [32 + d.toNat] }
  | .zip o | .unzip o => useSD (useQ o.a ++ useQ o.b) o.d 2
  | .pkH o => useSD (useQ o.a ++ useQ o.b) o.d 1
  | .upkH o => useSD (useQ o.a) o.d 2
  | _ => Uses.none

/-- What an operation of the M, K and F slots names. -/
def usesMkf : Instr → Uses
  | .mpWr o => { Uses.none with mp := some o.d.toNat }
  | .mpRd o => useS o.d
  | .mxLat o => { Uses.none with srcs := useQ o.b ++ [(32 + o.c.toNat, false)] }
  | .mxUcw o => useS o.d
  | .accRd o => useSD [] o.d 1
  | .cdMrg o => { Uses.none with srcs := useQ o.a }
  | .cdTop o => useSD [] o.d 2
  | .cdArg o => useSG o.d o.gp
  | .cdThr o => useS o.d
  | .foShp o => { Uses.none with srcs := useQ o.a }
  | .foLd o => { Uses.none with srcs := useQ o.a }
  | .foSt o => useSD [] o.d 1
  | .foUp o => useSD [] o.d 1
  | _ => Uses.none

/-- What the operation of a slot names. -/
def usesOf (slot : Nat) (i : Instr) : Uses :=
  if slot < 2 || slot = 11 then usesSca i
  else if slot < 5 then usesMem i
  else if slot < 8 then usesVec i
  else usesMkf i

/-- Read ports that an operation needs (R205): one for each vector queue source field; the A field of `vupd` is one field. -/
def portsOf (i : Instr) (u : Uses) : Nat :=
  match i with
  | .vupd _ => 2
  | _ => (u.srcs.filter fun e => e.1 < 32).length

/-! Once operations and operations closed to a kind of context. -/

/-- A once operation (R202). -/
def onceOp (slot : Nat) (i : Instr) : Bool :=
  if slot = 1 || slot = 11 then decide (i ≠ .nop)
  else match i with
    | .ctlRd _ | .ctlWr _ | .sdLd _ | .fenceRw _ | .fenceAcq _ | .fenceRel _ | .mpWr _ | .mpRd _ | .mxUcw _ | .rngSet _
    | .foMd _ | .foShp _ => true
    | _ => false

/-- An operation that a handler bundle may not hold (R174, R220; 09 R237; 14 R353). -/
def closedToHandler : Instr → Bool
  | .halt _ | .loop _ | .lbrk _ | .spawn _ | .wtRet _ | .wtBrw _ | .crlPut _ | .crlSeal _ | .crlPutRej _ | .verAdp _ => true
  | _ => false

/-- An operation that a task bundle may not hold (R220). -/
def closedToTask : Instr → Bool
  | .hret _ => true
  | _ => false

/-! Reading a bundle (R196). -/

/-- A bundle as read: its header, its length in bytes, and its slot words. -/
structure Fetched where
  hdr : Word
  head : Header
  len : Nat
  words : List (Nat × Word)

/-- Slots present in a header, ascending. -/
def presSlots (h : Header) : List Nat := (List.range 12).filter fun i => h.pres.getLsbD i

/-- The bytes of a fetch within one page, as the context sees them. -/
def Core.fetchPart (c : Core) (r : CtxRef) (va : Word) (n : Nat) : Op (List Byte) := do
  let w := c.who r
  let l ← c.translate w .fetch va
  let pl ← c.placeOf w .fetch l
  if c.poisoned (c.placePa pl l.pa) n then raise (c.dataTrap l)
  return (c.readLoc w.tile pl l n true).mapIdx fun i b =>
    (c.ctx r).parkedByte (va + BitVec.ofNat 64 i) (c.heldByte r (l.pa + i) b)

/-- Words fetched from an address, page by page (01 R43). -/
def Core.fetchWords (c : Core) (r : CtxRef) (va : Word) (n : Nat) : Op (List Word) := do
  let first := min (8 * n) (65536 - va.toNat % 65536)
  let b1 ← c.fetchPart r va first
  if first = 8 * n then return wordsIn b1 n
  else
    let b2 ← c.fetchPart r (va + BitVec.ofNat 64 first) (8 * n - first)
    return wordsIn (b1 ++ b2) n

/-- The illegal-bundle trap (17 R407): the header and the offending slot word, 0 for a header fault. -/
def illegal (hdr w : Word) (slot : Nat) : TrapInfo := { mkTrap kIllegal 0 with aux0 := hdr, aux1 := w, slot := slot }

/-- The bundle at an address. -/
def readBundle (fetch : Word → Nat → Op (List Word)) (pc : Word) : Op Fetched := do
  let hw ← fetch pc 1
  let hdr := hw.headD 0
  match decodeHeader hdr with
  | .error _ => raise (illegal hdr 0 0xF)
  | .ok h =>
    let ps := presSlots h
    let ws ← if ps.isEmpty then Except.ok [] else fetch (pc + 8) ps.length
    return { hdr := hdr, head := h, len := 8 + 8 * ps.length, words := ps.mapIdx fun i s => (s, ws.getD i 0) }

/-- The operation of a slot word; none for an illegal one. -/
def slotInstr (slot : Nat) (w : Word) : Option Instr :=
  match decodeSlot (slotClass slot) w with
  | .ok i => some i
  | .error _ => none

/-- The operation of a word that is known to be legal. -/
def slotOp (slot : Nat) (w : Word) : Instr := (slotInstr slot w).getD .nop

end Sys2Proof.Machine
end

