-- ==== Sys2Proof/Machine/Splice.lean ====
section
/-!
DEFINITION. The start of a task (07 R180, 06 R159, 12 R307, 13 R328) and the Splicer (15 R368 to R382): the reading and checking
of a pair, the splice point, the shared release.
-/

namespace Sys2Proof.Machine

open Sys2Proof

/-! The start of a task. -/

/-- The claimed lanes of a task cleared (13 R328). -/
def Tile.clearLanes (tl : Tile) (x : Ctx) : Tile := { tl with banks := tl.banks.filter fun e => nbits x.id.flanes (e.1 / 4096) 1 == 0 }

/-- The claimed rows and lanes of a starting task cleared (12 R307, 13 R328). -/
def Tile.clearClaims (tl : Tile) (x : Ctx) : Tile :=
  { tl.clearLanes x with acc := tl.acc.filter fun e => !(decide (x.r.accb ≤ e.1) && decide (e.1 < x.r.accb + x.id.accr)) }

/-- The first bundle of a task: what was written to its lanes before it is lost (13 R328). -/
def Core.firstBundle (c : Core) (r : CtxRef) : Core :=
  let x := c.ctx r
  if x.first then (c.updTile r.tile fun tl => tl.clearLanes x).updCtx r fun x => { x with first := false } else c

/-- A task put in its zero state at its start (07 R180), with what was held for it (05 R142, 16 R396). -/
def Core.startCtx (c : Core) (t p : Nat) : Core :=
  let x := c.ctx (.task t p)
  let d := c.domOf t
  let dm := c.dom d
  let r : Regs := { Regs.init with seedk := x.id.seed, limit := x.id.budget, tver := dm.lver, twgt := x.r.twgt
                                   scrb := x.r.scrb, accb := x.r.accb }
  let y : Ctx := { Ctx.init with id := x.id, life := .live, started := true, first := true, pc := x.id.desc.getD 0 0, r := r }
  let c := c.updDom d fun dm =>
    { ((addReaders dm dm.lver true).dropHeld x.id.taskid) with
                                        slotUsed := dm.slotUsed.filter fun k => !(dm.resuming.contains (x.id.taskid, k))
                                        resuming := dm.resuming.filter fun e => e.1 != x.id.taskid }
  (c.updTile t fun tl => tl.clearClaims x).setCtx (.task t p) (dm.applyHeld y)

/-! A kernel as the Splicer reads it (R369, R370). -/

/-- Words of code read as a bundle fetch reads them, by a unit that waits for its own walks. -/
def Core.codeWords (c : Core) (r : CtxRef) (va : Word) (n : Nat) : Op (List Word) := do
  let w := c.who r
  let part := fun (va : Word) (k : Nat) => match c.translateNow w .fetch va with
    | .error t => raise t
    | .ok l =>
      let at0 := c.placePa (c.placeNow w .fetch l) l.pa
      if c.poisoned at0 k then raise (c.dataTrap l) else Except.ok (c.homeBytes at0 k)
  let first := min (8 * n) (65536 - va.toNat % 65536)
  let b1 ← part va first
  if first = 8 * n then return wordsIn b1 n
  else
    let b2 ← part (va + BitVec.ofNat 64 first) (8 * n - first)
    return wordsIn (b1 ++ b2) n

/-- The bundle at an address, when it can be read and each of its words is an operation. -/
def Core.codeBundle (c : Core) (r : CtxRef) (pc : Word) : Option Fetched :=
  match readBundle (c.codeWords r) pc with
  | .ok f => if f.words.all fun e => (slotInstr e.1 e.2).isSome then some f else none
  | .error _ => none

/-- The word a bundle presents for a slot. -/
def Fetched.word? (f : Fetched) (slot : Nat) : Option Word := (f.words.find? fun e => e.1 == slot).map fun e => e.2

/-- A splice-marked kernel: the bundles before the loop bundle, the loop bundle and its address, the body with its addresses,
and the label. -/
structure Kernel where
  prologue : List Fetched
  loopPc : Word
  loop : Fetched
  body : List (Word × Fetched)
  label : Word

/-- Bundles up to the first that holds a C-slot word. -/
def readPrologue (read : Word → Option Fetched) (fuel : Nat) (pc : Word) (acc : List Fetched) : Option (List Fetched × Word × Fetched) :=
  match fuel with
  | 0 => none
  | n + 1 =>
    match read pc with
    | none => none
    | some f =>
      if (f.word? 1).isSome then some (acc.reverse, pc, f) else readPrologue read n (pc + BitVec.ofNat 64 f.len) (f :: acc)

/-- At most `fuel` bundles, without a C-slot word, up to an address. -/
def readBody (read : Word → Option Fetched) (fuel : Nat) (pc label : Word) : Option (List (Word × Fetched)) :=
  if pc = label then some []
  else
    match fuel with
    | 0 => none
    | n + 1 =>
      match read pc with
      | none => none
      | some f =>
        if (f.word? 1).isSome then none
        else (readBody read n (pc + BitVec.ofNat 64 f.len) label).map fun l => (pc, f) :: l

/-- The three parts of a kernel (R369). -/
def readKernel (read : Word → Option Fetched) (entry : Word) : Option Kernel := do
  let (pro, pc, f) ← readPrologue read (2 ^ 61) entry []
  match slotOp 1 ((f.word? 1).getD 0) with
  | .loop o =>
    if o.lp != 0 || o.gd.neg || o.gd.reg != 0 then none
    else
      let label := pc + (o.imm.signExtend 64) * 8
      let body ← readBody read 64 (pc + BitVec.ofNat 64 f.len) label
      if body.isEmpty then none else some { prologue := pro, loopPc := pc, loop := f, body := body, label := label }
  | _ => none

/-- The innermost temporal count of a descriptor (R369). -/
def tripCount (desc : List Word) : Option Nat :=
  (((List.range (min 4 (lvlNum desc))).reverse).find? fun l => lvlKind desc l == 0).map fun l => lvlCount desc l

/-! Effective operations (R201, R202). -/

/-- The sticky words after a bundle. -/
def stickyAfter (st : List Word) (f : Fetched) : List Word :=
  st.mapIdx fun i w => match f.word? i with
    | some v => if onceOp i (slotOp i v) then 0 else v
    | none => w

/-- The effective words of a bundle. -/
def effWords (st : List Word) (f : Fetched) : List Word := st.mapIdx fun i w => (f.word? i).getD w

/-- The effective words of each bundle of a body from given sticky words, and the sticky words after it. -/
def effPass (st : List Word) (bs : List Fetched) : List (List Word) × List Word :=
  match bs with
  | [] => ([], st)
  | f :: t =>
    let (l, e) := effPass (stickyAfter st f) t
    (effWords st f :: l, e)

def Kernel.bundles (k : Kernel) : List Fetched := k.body.map fun e => e.2

/-- The sticky words with which the body is entered: those that the straight-line code before it leaves. -/
def Kernel.entrySticky (k : Kernel) : List Word := (k.prologue ++ [k.loop]).foldl stickyAfter (List.replicate 12 0)

/-- The effective words of the first and of every later pass through the body. -/
def Kernel.passes (k : Kernel) : List (List (List Word)) :=
  let (a, e) := effPass k.entrySticky k.bundles
  [a, (effPass e k.bundles).1]

/-- Whether the prologue or body names a scale queue, or calls a routine (R373). -/
def Kernel.scales (k : Kernel) : Bool :=
  (k.prologue ++ k.loop :: k.bundles).any fun f => f.words.any fun e =>
    let i := slotOp e.1 e.2
    let u := usesOf e.1 i
    (u.srcs.any fun x => x.1 ≥ 32) || (u.dsts.any fun x => x ≥ 32) || (match i with
      | .mxCall _ => true
      | _ => false)

/-! Checks of a pair (R370 to R373). -/

/-- The matched operations found: bundle index and the queue they move. -/
structure Matched where
  bundle : Nat
  q : Nat

def gdAlways (g : Guard) : Bool := !g.neg && g.reg == 0

/-- What a slot word is as a store of stream `par`, or a load of stream `car`: its queue, and whether its form is admitted. -/
def matchedWord (load : Bool) (reg slot : Nat) (w : Word) : Option (Nat × Bool) :=
  match slotOp slot w with
  | .stQ o => if !load && slot = 4 && o.a.toNat = reg then some (o.b.q.toNat, gdAlways o.gd && o.msk == 0) else none
  | .ldQ o =>
    if load && (slot = 2 || slot = 3) && o.a.toNat = reg then
      some ((o.d.map fun q => q.toNat).getD 0, gdAlways o.gd && o.sq.isNone && o.d.isSome)
    else none
  | _ => none

/-- The one matched operation of a body (R371). -/
def Kernel.matched (k : Kernel) (load : Bool) (reg : Nat) : Option Matched :=
  let bs := k.bundles
  let found := bs.mapIdx fun i f => f.words.filterMap fun e => (matchedWord load reg e.1 e.2).map fun m => (i, e.1, m)
  match found.flatten with
  | [(i, slot, q, good)] =>
    match bs[i]?, bs[(i + 1) % bs.length]? with
    | some f, some g => if good && f.head.rep == 0 && (g.word? slot).isSome then some ⟨i, q⟩ else none
    | _, _ => none
  | _ => none

/-- The owner of a slot in a combined bundle (R372): 1 P, 2 C, 0 none. -/
def slotOwner (p k : Kernel) (slot i : Nat) : Nat :=
  let n := p.body.length
  let pres := fun (x : Kernel) (j : Nat) => match x.bundles[j % n]? with
    | some f => (f.word? slot).isSome
    | none => false
  match (List.range n).find? fun back => pres p (i + n - back) || pres k (i + n - back) with
  | some back => if pres p (i + n - back) then 1 else 2
  | none =>
    if p.entrySticky.getD slot 0 != 0 then 1 else if k.entrySticky.getD slot 0 != 0 then 2 else 0

/-- Whether the slots of a combined bundle can be merged (R372). -/
def slotsMerge (p k : Kernel) (i : Nat) : Bool :=
  (List.range 12).all fun slot =>
    let pp := ((p.bundles[i]?).bind fun f => f.word? slot).isSome
    let pk := ((k.bundles[i]?).bind fun f => f.word? slot).isSome
    let own := slotOwner p k slot i
    let quiet := fun (x : Kernel) => x.passes.all fun l => (l.getD i []).getD slot 0 == 0
    !(pp && pk) && (own == 1 || quiet p) && (own == 2 || quiet k)

/-- The read ports that each combined bundle needs (R370, R205), on a first and a later pass. -/
def combinedPorts (p k : Kernel) (i : Nat) : List Nat :=
  (p.passes.zip k.passes).map fun e => ((List.range 12).map fun slot =>
    let w := match slotOwner p k slot i with
      | 1 => (e.1.getD i []).getD slot 0
      | 2 => (e.2.getD i []).getD slot 0
      | _ => 0
    let x := slotOp slot w
    portsOf x (usesOf slot x)).sum

/-- Whether the two bodies are of one shape (R370, code 3). -/
def sameShape (p k : Kernel) : Bool :=
  p.body.length == k.body.length &&
    ((p.bundles.zip k.bundles).all fun e => e.1.head.rep == e.2.head.rep)

/-- Queues a descriptor declares. -/
def Ident.declared (i : Ident) : List Nat := (List.range 32).filter fun q => i.qdepth q != 0

/-- C's renumbering (R373): the matched load's queue takes P's matched store's number, every other declared queue the lowest
number that P does not declare and no earlier queue took. -/
def renumber (p k : Ident) (pq cq : Nat) : Map Nat :=
  let rest := k.declared.filter fun q => q != cq
  (rest.foldl (fun (a : Map Nat × List Nat) q =>
    match a.2 with
    | n :: t => (mapSet q a.1 q n, t)
    | [] => a) (mapSet cq [] cq pq, (List.range 32).filter fun n => !p.declared.contains n && n != pq)).1

/-- The checks made before any bundle of C issues (R370, codes 1 to 6), in order: the reason of the refusal, or the pair. -/
def Core.plan (c : Core) (t : Nat) : Except Nat Pair := do
  let p := (c.ctx (.task t 0)).id
  let k := (c.ctx (.task t 1)).id
  if descW p.desc 1 37 1 = 0 || descW k.desc 1 38 1 = 0 || descW k.desc 10 24 24 ≠ descW p.desc 10 0 24 || p.logit || k.logit ||
      k.remote ≠ 0 || (c.ctx (.task t 1)).life ≠ .fresh then .error 1
  if (tripCount p.desc).isNone || (tripCount k.desc).isNone || tripCount p.desc ≠ tripCount k.desc then .error 2
  let kp := readKernel (c.codeBundle (.task t 0)) (p.desc.getD 0 0)
  let kc := readKernel (c.codeBundle (.task t 1)) (k.desc.getD 0 0)
  match kp, kc with
  | some kp, some kc =>
    if !sameShape kp kc then .error 3
    match kp.matched false (descW p.desc 10 53 4), kc.matched true (descW k.desc 10 57 4) with
    | some ms, some ml =>
      let n := kp.body.length
      if ms.bundle > ml.bundle then .error 3
      if (kp.scales && kc.scales) || !(List.range n).all (slotsMerge kp kc) then .error 4
      if (List.range n).any fun i => (combinedPorts kp kc i).any fun x => x > 6 then .error 5
      if p.declared.length + k.declared.length - 1 > 32 then .error 6
      let ofs := fun (x : Kernel) (entry : Word) (i : Nat) => (((x.body[i]?).map fun e => (e.1 - entry).toNat).getD 0)
      let entryOf := fun (i slot : Nat) => match slotOwner kp kc slot i with
        | 1 => (⟨1, ofs kp (p.desc.getD 0 0) i⟩ : PairSlot)
        | 2 => ⟨2, ofs kc (k.desc.getD 0 0) i⟩
        | _ => ⟨0, 0⟩
      return { phase := if p.desc.getD 0 0 = kp.loopPc then .prologueC else .prologueP
               ploop := kp.loopPc, pbody := kp.loopPc + BitVec.ofNat 64 kp.loop.len, plabel := kp.label
               cloop := kc.loopPc, cbody := kc.loopPc + BitVec.ofNat 64 kc.loop.len, clabel := kc.label
               recs := (List.range n).map fun i => (List.range 12).map (entryOf i)
               pos := 0, count := BitVec.ofNat 16 ((tripCount p.desc).getD 0), qmap := renumber p k ms.q ml.q, pq := ms.q, cq := ml.q
               ebits := 2048, depth := max (p.qdepth ms.q) (k.qdepth ml.q), linked := false, pre := 0, fwd := 0, sig := [] }
    | _, _ => .error 3
  | _, _ => .error 3

/-- A refusal counted (R382). -/
def Core.spliceRefused (c : Core) (t reason : Nat) : Core :=
  c.updDom (c.domOf t) fun d =>
    { d with spref := d.spref + 1, spreg := d.spreg + (if reason = 6 then 1 else 0), lreason := BitVec.ofNat 4 reason
             lkid := (c.ctx (.task t 0)).kid }

/-- The consideration of R368 at the start of a head task. -/
def Core.consider (c : Core) (t : Nat) : Core :=
  match (c.tile t).queue with
  | x :: y :: _ =>
    if descW x.id.desc 1 37 1 = 0 && descW y.id.desc 1 38 1 = 0 then c
    else match c.plan t with
      | .ok p => c.updTile t fun tl => { tl with pair := some p }
      | .error n => c.spliceRefused t n
  | _ => c

/-! TASK_START. -/

/-- The tile of a unit (17 R414). -/
def unitTile (u : UnitKind) (i : Nat) : Option Nat :=
  match u with
  | .scratchpad | .accumulator | .queueFile | .matrixArray | .sort | .l1 => some i
  | .forestLane => some (i / 8)
  | .homeSlice | .hbmRow | .walePort => none

/-- The unit of a tile whose self-test is due. -/
def Core.testWanted (c : Core) (t : Nat) : Option UnitKind :=
  (c.mc.testing.find? fun e => unitTile e.1 e.2.1 == some t).map fun e => e.1

/-- A self-test is due on a tile on which no task runs (17 R413). -/
def Core.testIdle (c : Core) (t : Nat) : Bool := (c.tile t).testing.isNone && (c.testWanted t).isSome && !c.running t

/-- The position of the task that a tile can start now: a head that has not started, or the consumer of a pair whose
prologue is next. -/
def Core.startable (c : Core) (t : Nat) : Option Nat :=
  let tl := c.tile t
  if tl.dom.isNone || !tl.serv || tl.testing.isSome || (c.testWanted t).isSome then none
  else match tl.pair with
    | some p => if p.phase = .prologueC && decide ((c.ctx (.task t 1)).life = .fresh) && tl.queue.length ≥ 2 then some 1 else none
    | none =>
      match tl.queue with
      | x :: _ => if x.life = .fresh && !tl.closed then some 0 else none
      | [] => none

/-- The pair goes on to its next phase when the member that runs has reached its loop bundle (R374). -/
def Core.pairReach (c : Core) (t : Nat) : Core :=
  match (c.tile t).pair with
  | none => c
  | some p =>
    let pc := fun (n : Nat) => (c.ctx (.task t n)).pc
    let to' := if p.phase = .prologueP && pc 0 = p.ploop then some PairPhase.prologueC
      else if p.phase = .prologueC && (c.ctx (.task t 1)).life = .live && pc 1 = p.cloop then some PairPhase.loopP
      else none
    match to' with
    | none => c
    | some ph => c.updTile t fun tl => { tl with pair := some { p with phase := ph } }

/-- TASK_START (07 R180, 15 R368): the head starts, and the Splicer considers it with the next; or the consumer of a pair
starts. -/
def execTaskStart (s : State) : Host.Outcome State Fault Refusal :=
  match s.event with
  | some (.taskStart t) =>
    match s.toCore.startable t with
    | none => .next s
    | some p =>
      let c := s.toCore.startCtx t p
      .next { s with toCore := if p = 0 then c.consider t else c.pairReach t }
  | _ => .next s

/-! The splice point (R374). -/

/-- Whether the matched streams agree: the TAGs, the visible bits but ALLOC, the hidden counters. -/
def streamsAgree (p c : Stream) (ptag ctag : Nat) : Bool :=
  let seen := fun (x : Stream) => x.desc &&& ~~~((1 : BitVec 256) <<< 57)
  p.tag == ptag && c.tag == ctag && seen p == seen c && p.i0 == c.i0 && p.i1 == c.i1 && p.i2 == c.i2 && p.nel == c.nel

/-- The joined loop entered (R374, R375, R378). -/
def Core.join (c : Core) (t : Nat) (p : Pair) (eb : Nat) : Core :=
  let l := (c.ctx (.task t 1)).queue p.cq
  let n := p.count.toNat
  let c := c.updCtx (.task t 0) fun x =>
    let x := x.enterLoop 0 n p.pbody p.plabel
    { (x.setQueue p.pq (l ++ x.queue p.pq)) with pc := p.pbody }
  let c := c.updCtx (.task t 1) fun x =>
    let x := x.enterLoop 0 n p.cbody p.clabel
    { (x.setQueue p.cq []) with pc := p.cbody }
  let c := c.updTile t fun tl =>
    { tl with pair := some { p with phase := .joined, pos := 0, linked := true, pre := l.length, fwd := 0, ebits := 8 * eb } }
  c.updDom (c.domOf t) fun d => { d with spdone := d.spdone + 1 }

/-- SPLICE_POINT_CHECK. -/
def execSplicePointCheck (s : State) : Host.Outcome State Fault Refusal :=
  match s.event with
  | some (.splicePointCheck t) =>
    match (s.toCore.tile t).pair with
    | some p =>
      if p.phase ≠ .check then .next s
      else
        let x := s.toCore.ctx (.task t 0)
        let y := s.toCore.ctx (.task t 1)
        let a := x.stream (descW x.id.desc 10 53 4)
        let b := y.stream (descW y.id.desc 10 57 4)
        if streamsAgree a b (descW x.id.desc 10 0 24) (descW y.id.desc 10 24 24) then
          .next { s with toCore := s.toCore.join t p b.eb }
        else
          let c := s.toCore.updTile t fun tl => { tl with pair := some { p with phase := .refusedP } }
          .next { s with toCore := c.spliceRefused t 7 }
    | none => .next s
  | _ => .next s

/-! The shared release (R376). -/

/-- SPLICE_SHARED_RELEASE: P's release at SSCOPE, then the held last write of the matched store. -/
def execSpliceSharedRelease (s : State) : Host.Outcome State Fault Refusal :=
  match s.event with
  | some (.spliceSharedRelease t) =>
    match (s.toCore.tile t).pair with
    | some p =>
      if p.phase ≠ .sharedRelease then .next s
      else
        let s := { s with ref := .task t 0, slot := 4 }
        let q := (scopeOf (descW s.me.id.desc 10 48 4)).getD .mod
        finish s (do
          let s ← s.release q
          let tag := s.relTag q
          let c := p.sig.foldl (fun (c : Core) m =>
            let (i, c) := c.fresh
            let m := { m with id := i, tag := tag }
            c.commitStore (.task t 0) m) s.toCore
          let c := c.updCtx (.task t 0) fun x => { x with status := .ready }
          let c := c.updTile t fun tl => { tl with pair := some { p with phase := .epilogueP, sig := [] } }
          return { s with toCore := c })
    | none => .next s
  | _ => .next s

end Sys2Proof.Machine
end

