-- ==== Sys2Proof/Machine/Saving.lean ====
section
/-!
DEFINITION. Saving and loading tasks (09 R249, R250; 16 R398, R399; 17 R409 to R411, R414): images in memory, save slots, and
what a context is given back when it resumes.
-/

namespace Sys2Proof.Machine

open Sys2Proof

/-! Images. -/

/-- Bytes of a context's image. -/
def Ctx.imgLen (x : Ctx) : Nat := if x.life = .fresh then 0x1000 else x.id.imageLen

/-- The image of one context of a tile, `len` and `part` as its header shows them (17 R410). -/
def Core.ctxImage (c : Core) (r : CtxRef) (len part : Nat) (pair : Option Pair) : List Byte :=
  let x := c.ctx r
  let flags := x.imageFlags pair.isSome
  if x.life = .fresh then headerBytes (c.tile r.tile) x flags len part else c.imageBytes r flags len part pair

/-- The image of the task at a position, and of its consumer after it (17 R409). -/
def Core.taskImage (c : Core) (t p : Nat) (pair : Option Pair) : List Byte :=
  let x := c.ctx (.task t p)
  if Pair.members pair = 2 then
    let y := c.ctx (.task t (p + 1))
    c.ctxImage (.task t p) (x.imgLen + y.imgLen) x.imgLen pair ++ c.ctxImage (.task t (p + 1)) y.imgLen 0 none
  else c.ctxImage (.task t p) x.imgLen 0 pair

/-- Writes bytes at their homes: the numbers of the stores, whose UPDs go out. -/
def Core.writeHome (c : Core) (tile : Nat) (pl : Place) (l : Loc) (bytes : List Byte) : List Nat × Core :=
  let (ms, c) := c.mkStores tile pl l none (bytes.map some)
  (ms.map fun m => m.id, ms.foldl (fun c m =>
    (c.ownL1 tile m.id (m.pa / 128) (givenBytes m.bytes (m.pa % 128))).storeArrives m) c)

/-- Physical memory as a location. -/
def Loc.at (pa : Nat) : Loc := { va := 0, pa := pa, mt := 0, repl := false, leaf := none }

/-! `ctx.sv` (R249). -/

/-- The suspended task whose record a handler context holds, not yet saved: its position. -/
def Core.suspended (c : Core) (r : CtxRef) : Option Nat :=
  match (c.ctx r).hc with
  | some h =>
    if h.fault && !h.parked && !h.engine && !h.savedTask then
      match h.serves with
      | some id => (findTask (c.tile r.tile) id).bind fun p =>
          if (c.ctx (.task r.tile p)).status = .suspended then some p else none
      | none => none
    else none
  | none => none

/-- Translates the pages of a buffer for a write: where each is, or none when one cannot be written. -/
def Core.bufferPages (c : Core) (r : CtxRef) (va : Word) : Nat → Op (Option (List (Loc × Place)))
  | 0 => .ok (some [])
  | n + 1 =>
    let w := c.who r
    match (do let l ← c.translate w (.store 3) va; let pl ← c.placeOf w (.store 3) l; return (l, pl) : Op (Loc × Place)) with
    | .error (.trap _) => .ok none
    | .error (.wait w) => .error (.wait w)
    | .ok p => do
      let ps ← c.bufferPages r (va + 65536) n
      return ps.map fun t => p :: t

/-- Whether a task's units stand still: its routine has paused or ended, and nothing of the matrix unit or the forest is on its way (16
R391). -/
def Ctx.paused (x : Ctx) : Bool :=
  x.late.isEmpty && x.macs.isEmpty && x.fo.isNone && (match x.rout with
    | some u => u.paused || u.faulted.isSome
    | none => true)

/-- Whether the task, and its routine, can be imaged now: what it awaits has landed as well (09 R249). -/
def Ctx.still (x : Ctx) : Bool := x.paused && x.readsDone && x.vs.all fun e => e.2.wait.isNone

/-- What `ctx.sv` of a handler context saves: the pair at the head of its tile, or one task, and the contexts. -/
def Core.saves (c : Core) (t p : Nat) : Option Pair × List CtxRef :=
  -- the pair at the head: its producer is at position 0
  let pair := if p < 2 then (c.tile t).pair else none
  let p := if Pair.members pair = 2 then 0 else p
  (pair, (List.range (Pair.members pair)).map fun k => CtxRef.task t (p + k))

/-- The pages of the image of some contexts. -/
def Core.imagePages (c : Core) (refs : List CtxRef) : Nat := (((refs.map fun r => (c.ctx r).imgLen).sum) + 65535) / 65536

/-- The image that a waiting `ctx.sv` writes, once, before its release (R249): in whole pages, each line at its home at once (log entry
19). The bundle is then issued again, and waits for the release. -/
def Core.beginSave (c : Core) (r : CtxRef) : Core :=
  match (c.ctx r).status, (c.ctx r).hc, c.suspended r with
  | .waiting (.save va), some h, some p =>
    if h.asked.isSome then c
    else
      let (pair, refs) := c.saves r.tile p
      match c.bufferPages r va (c.imagePages refs) with
      | .ok (some ps) =>
        let img := c.taskImage r.tile (refs.headD (.task r.tile 0)).pos pair
        let put := fun (z : List Nat × Core × List Byte) (e : Loc × Place) =>
          let (i, d) := (z.2.1.markLeaf (c.who r) (.store 3) e.1.va leafAD).writeHome r.tile e.2 e.1 (z.2.2.take 65536)
          (z.1 ++ i, d, z.2.2.drop 65536)
        let (ids, d, _) := ps.foldl put ([], c.updCtx r fun x => { x with hc := some { h with asked := some false } }, img)
        d.updCtx r fun x => { x with unacked := x.unacked ++ ids }
      | _ => c
  | _, _, _ => c

/-- Takes a saved task out of its tile, and the pair with it. -/
def Core.takeSaved (c : Core) (t p : Nat) (pair : Option Pair) : Core :=
  let c := if Pair.members pair = 2 then c.removeTask t (p + 1) else c
  let c := if p < 2 && pair.isSome then c.updTile t fun tl => { tl with pair := none } else c
  c.removeTask t p

/-- What is kept of contexts that are saved (05 R142, R147). -/
def Core.keepAll (c : Core) (d : Nat) (refs : List CtxRef) : Core :=
  refs.foldl (fun (c : Core) r => c.updDom d fun dm => dm.keep (c.ctx r)) c

/-- The claims of saved tasks freed, and the tasks named among those that the supervisor holds (R249 step 4). -/
def Core.freeSaved (c : Core) (t : Nat) (pair : Option Pair) (refs : List CtxRef) : Core :=
  let gone := refs.map fun r => (c.ctx r).id.taskid
  let c := (c.keepAll (c.domOf t) refs).takeSaved t (refs.headD (.task t 0)).pos pair
  c.updDom (c.domOf t) fun d => { d with away := d.away ++ gone }

/-- `ctx.sv` (R249): the task's reservations land, the image is written, a release at .mod covers it, and the claims are freed. With
nothing to save, the buffer is that of the shortest image (log entry 19). -/
def execCtxSv (o : OpRR) (s : State) : Host.Outcome State Fault Refusal :=
  privileged s o.gd fun s => do
    let a ← s.rdS o.a
    let code := fun (n : Nat) => BitVec.ofNat 64 (2 ^ 40 + n)
    let t := s.ref.tile
    if a.toNat % 65536 ≠ 0 then return s.wrS o.d (code 1)
    else match s.toCore.suspended s.ref with
    | none =>
      let pages ← s.toCore.bufferPages s.ref a 2
      return s.wrS o.d (code (if pages.isNone then 2 else 3))
    | some p =>
      let (pair, refs) := s.toCore.saves t p
      if (s.me.hc.bind fun h => h.asked).isSome then
        s.replayEmpty
        s.unitsIdle
        if !s.releasedNow .mod then .error (.wait (.save a))
        let len := (refs.map fun r => (s.toCore.ctx r).imgLen).sum
        let c := (s.toCore.freeSaved t pair refs).updCtx s.ref fun x =>
          { x with hc := x.hc.map fun h => { h with savedTask := true, asked := none } }
        return ({ s with toCore := c }).wrS o.d (BitVec.ofNat 64 len)
      else
        if refs.any fun r => !(s.toCore.ctx r).still || !s.toCore.released r .mod then .error (.wait .task)
        let pages ← s.toCore.bufferPages s.ref a (s.toCore.imagePages refs)
        if pages.isNone then return s.wrS o.d (code 2)
        .error (.wait (.save a))

/-! `ctx.ld` (R250). -/

/-- A context of an image put at the tail of a tile's queue with its claims' contents. -/
def Core.loadTask (c : Core) (t : Nat) (img : List Byte) (x : Ctx) (bases : Nat × Nat) : Core :=
  let c := c.enqueue t x bases
  if x.life = .fresh then c else c.restoreClaims t img x.id bases

/-- The claims of a task, and of the consumer placed behind it, on a tile. -/
def Core.fitsBoth (c : Core) (t : Nat) (i : Ident) (mate : Option Ident) : Bool :=
  match c.fits t i with
  | none => false
  | some b =>
    match mate with
    | none => true
    | some j => ((c.enqueue t { Ctx.init with id := i } b).fits t j).isSome

/-- The part of an image that is a pair's consumer. -/
def imageMate (img : List Byte) : Option (List Byte) :=
  if wbits (wordAt img 0) 0 1 = 1 && numAt img 80 8 ≠ 0 then some (img.drop (numAt img 80 8)) else none

/-- Whether an image, of the length its header gives, is of this format and its lengths and kernel ids match. -/
def Domain.imageSound (d : Domain) (img : List Byte) : Bool :=
  let i := d.identOf img
  match imageMate img with
  | none => imageOk img i
  | some m =>
    let len := numAt img 80 8
    imageOk ((leBytes 8 (numAt img 0 8)) ++ leBytes 8 len ++ img.drop 16) i && imageOk m (d.identOf m) &&
      numAt img 8 8 == len + numAt m 8 8

/-- `ctx.ld` (R250): the reads of the image acquire at .mod; the signals that came since the save are applied (05 R142). -/
def execCtxLd (o : OpRRR) (s : State) : Host.Outcome State Fault Refusal :=
  privileged s o.gd fun s => do
    let a ← s.rdS o.a
    let b ← s.rdS o.b
    let t := wbits b 0 9
    let d := s.toCore.domOf s.ref.tile
    let (hd, s) ← s.readOperand a 0x1000 true 3
    let most := 2 * (0x20000 + 0x1000 * 256 + 0x400 * 4096)
    let len := match hd with
      | some h => numAt h 8 8
      | none => 0
    let (rest, s) ← if hd.isSome && len ≤ most then s.readOperand a len true 200 else Except.ok (none, s)
    let dm := s.toCore.dom d
    let img := rest.getD []
    let sound := rest.isSome && dm.imageSound img
    let i := dm.identOf img
    let mate := imageMate img
    let tl := s.toCore.tile t
    let n := leastOf [(!s.toCore.inDomain d t, 1), (sound && tl.learner != i.side, 2),
      (sound && !s.toCore.fitsBoth t i (mate.map fun m => dm.identOf m), 3), (!sound, 4), (tl.closed, 5)]
    match n with
    | some n => return s.status o.d n
    | none =>
      let saved := fun (x : Ctx) => if x.life = .fresh then x else dm.applyHeld x
      let x := saved (readImage img i)
      let x := if wbits (wordAt img 0) 0 1 = 1 then { x with pair := some (readPair img t) } else x
      let c := s.toCore.loadTask t img x ((s.toCore.fits t i).getD (0, 0))
      let c := match mate with
        | none => c
        | some m => c.loadTask t m (saved (readImage m (dm.identOf m))) ((c.fits t (dm.identOf m)).getD (0, 0))
      let ids := idKey i.taskid :: (match mate with
        | some m => [idKey (dm.identOf m).taskid]
        | none => [])
      let started := (c.tile t).queue.filter fun y => ids.contains (idKey y.id.taskid) && y.life != .fresh
      let c := c.updDom d fun dm => started.foldl (fun (dm : Domain) y => dm.dropHeld y.id.taskid)
        { dm with away := dm.away.filter fun w => !ids.contains (idKey w) }
      return ({ s with toCore := c }).status o.d 0

/-! What a resuming context is given back. -/

/-- Bytes of one page as a read of a context that has no bundle in progress returns them: its own stores on their way, held and parked
ones included (04 R114, 05 R146). -/
def Core.contextBytes (c : Core) (r : CtxRef) (acc : Acc) (va : Word) (n : Nat) : Except TrapInfo (List Byte) := do
  let w := c.who r
  let l ← c.translateNow w acc va
  let pl := c.placeNow w acc l
  if c.poisoned (c.placePa pl l.pa) n then .error (c.dataTrap l)
  return (c.readLoc r.tile pl l n true).mapIdx fun i b => (c.ctx r).parkedByte (va + BitVec.ofNat 64 i) (c.heldByte r (l.pa + i) b)

/-- Such a read, page by page (01 R43). -/
def Core.contextRead (c : Core) (r : CtxRef) (acc : Acc) (va : Word) (n : Nat) : Except TrapInfo (List Byte) := do
  let first := min n (65536 - va.toNat % 65536)
  let a ← c.contextBytes r acc va first
  if first = n then return a
  else
    let b ← c.contextBytes r acc (va + BitVec.ofNat 64 first) (n - first)
    return a ++ b

/-- PLANE_REBUILD of one plane from the stream at PSRC (12 R306): the columns in order, or what stops it. -/
def Core.planeFrom (c : Core) (r : CtxRef) (p : Plane) : Except TrapInfo Plane := do
  let read := c.contextRead r
  if p.psrc.toNat % 32 ≠ 0 then .error (accTrap (.load 3) p.psrc 0 cAlign)
  let bs ← read (.load 3) p.psrc 32
  let x : Stream := { Stream.init with desc := BitVec.ofNat 256 (leNat bs) }
  if !descOk x.desc || x.mx.isNone then .error (streamTrap p.psrc)
  let (q, _) ← (List.range (mxCols p.fmt)).foldlM (fun (a : Plane × Stream) n => (do
    let e ← read (.stRd 0) a.2.addr a.2.eb
    let g ← read (.stRd 0) a.2.saddr a.2.nb
    return (a.1.column n (BitVec.ofNat 2048 (leNat e)) (BitVec.ofNat 2048 (leNat g)), a.2.step) : Except TrapInfo (Plane × Stream)))
    ({ p with cols := [], scl := [] }, x)
  return q

/-- The planes of a context rebuilt (12 R306), and the faults met. -/
def Core.rebuild (c : Core) (r : CtxRef) : Core × List TrapInfo :=
  (List.range 4).foldl (fun (a : Core × List TrapInfo) n =>
    let p := (a.1.ctx r).plane n
    let blank : Plane := { p with cols := [], scl := [] }
    if p.psrc = 0 then (a.1.updCtx r fun x => x.setPlane n blank, a.2)
    else match a.1.planeFrom r p with
      | .ok q => (a.1.updCtx r fun x => x.setPlane n q, a.2)
      | .error t => (a.1.updCtx r fun x => x.setPlane n blank, a.2 ++ [t])) (c, [])

/-- MICROCODE_RELOAD (12 R323): the store reloaded when the recorded image differs, and the fault of a reload that fails. -/
def Core.reloadStore (c : Core) (r : CtxRef) : Core × List TrapInfo :=
  match (c.ctx r).uc with
  | none => (c, [])
  | some u =>
    if (match (c.tile r.tile).ucHeld with
      | some h => h.same u
      | none => false) then (c, [])
    else
      match c.contextRead r (.load 3) u.va 2160 with
      | .ok i =>
        if c.loadStatus none u.va (some i) = 0 then
          ((c.loadStore r.tile u.va i).updCtx r fun x => { x with uc := some (imageRec u.va i) }, [])
        else (c, [ucodeTrap])
      | .error _ => (c, [ucodeTrap])

/-- The trap of the least kind and, within it, the least cause (17 R404). -/
def leastTrap (ts : List TrapInfo) : Option TrapInfo :=
  ts.foldl (fun (o : Option TrapInfo) t => some (match o with
    | none => t
    | some u => if t.kind < u.kind || (t.kind = u.kind && t.cause < u.cause) then t else u)) none

/-- A context from its save slot (16 R399): the image, its new bases, and the signals that came since. -/
def Core.fromSlot (c : Core) (t p : Nat) (img : List Byte) : Core :=
  let x := c.ctx (.task t p)
  if wbits (wordAt img 0) 3 1 = 1 then c.updCtx (.task t p) fun x => { x with life := .fresh }
  else
    let y := readImage img x.id
    let r := { y.r with scrb := x.r.scrb, accb := x.r.accb, ev := y.r.ev ||| x.r.ev }
    let cds := (List.range 8).foldl (fun m n => if (mapGet CandList.init x.cds n).void then
      mapUpd CandList.init m n fun l => { l with void := true } else m) y.cds
    let pair := if wbits (wordAt img 0) 0 1 = 1 then some (readPair img t) else none
    let d := c.domOf t
    let c := c.setCtx (.task t p) ((c.dom d).applyHeld { y with r := r, cds := cds, pair := pair, status := x.status })
    (c.updDom d fun dm => dm.dropHeld x.id.taskid).restoreClaims t img x.id (x.r.scrb, x.r.accb)

/-- PA of a save slot (16 R397). -/
def Domain.slotPa (d : Domain) (k : Nat) : Nat := wbits d.bbase 24 28 * 2 ^ 24 + k * 2 ^ 24

/-- The image in a save slot read back into the task at the head and its consumer; the slot is free. -/
def Core.takeSlot (c : Core) (t : Nat) : Core :=
  let d := c.domOf t
  let x := c.ctx (.task t 0)
  match (c.dom d).resuming.find? fun e => e.1 == x.id.taskid with
  | none => c
  | some e =>
    let pa := (c.dom d).slotPa e.2
    let c := c.updDom d fun dm =>
      { dm with resuming := dm.resuming.filter fun y => y.1 != x.id.taskid, slotUsed := dm.slotUsed.filter (· != e.2) }
    let img := c.homeBytes pa (leNat (c.homeBytes (pa + 8) 8) % 2 ^ 24)
    let mate := x.pair.isSome && Pair.members x.pair = 2
    let c := c.fromSlot t 0 img
    if mate then c.fromSlot t 1 (img.drop (numAt img 80 8)) else c

/-- What a context that resumes is given back, wherever it was: its planes and its microprogram store; the faults met (12 R306, R323). -/
def Core.giveBack (c : Core) (r : CtxRef) : Core × List TrapInfo :=
  let (c, e1) := c.rebuild r
  let (c, e2) := c.reloadStore r
  (c, e1 ++ e2)

/-- A task that its handler lets resume (09 R246): a fault is raised at its first bundle again. -/
def Core.handBack (c : Core) (t : Nat) (taskid : Word) : Core :=
  match findTask (c.tile t) taskid with
  | none => c
  | some p =>
    let (c, es) := c.giveBack (.task t p)
    match leastTrap es with
    | some e => takeTrap c (.task t p) e
    | none => c

/-- One context resumes (16 R399): banks and BLOST of a saved one, planes, microcode; the faults met. -/
def Core.resumeCtx (c : Core) (t p : Nat) : Core × List TrapInfo :=
  let r := CtxRef.task t p
  let x := c.ctx r
  if x.life = .fresh then (c, [])
  else
    let c := if x.life = .loaded then
        (c.updTile t fun tl => { tl with banks := tl.banks.filter fun e => nbits x.id.flanes (e.1 / 4096) 1 == 0 }).updCtx r fun x =>
          { x with r := { x.r with blost := true } }
      else c
    let c := c.updCtx r fun x =>
      { x with life := .live, status := .ready, pair := none, rout := x.rout.map fun u => { u with paused := false } }
    c.giveBack r

/-- Whether the head of a tile resumes now. -/
def Core.resumable (c : Core) (t : Nat) : Bool :=
  let tl := c.tile t
  tl.dom.isSome && tl.serv && tl.testing.isNone && (c.testWanted t).isNone && !tl.closed && tl.pair.isNone && (match tl.queue with
    | x :: _ => x.life == .preempted || x.life == .loaded
    | [] => false)

/-- TASK_RESUME (16 R399, R387): the head resumes at its saved bundle, its pair with it; a fault is raised at its first
bundle. -/
def execTaskResume (s : State) : Host.Outcome State Fault Refusal :=
  match s.event with
  | some (.taskResume t) =>
    if !s.toCore.resumable t then .next s
    else
      let c := s.toCore.takeSlot t
      let pair := (c.ctx (.task t 0)).pair
      let (c, e1) := c.resumeCtx t 0
      let (c, e2) := if Pair.members pair = 2 then c.resumeCtx t 1 else (c, [])
      let c := c.updTile t fun tl => { tl with pair := pair }
      match leastTrap e1, leastTrap e2 with
      | some e, _ => .next { s with toCore := takeTrap c (.task t 0) e }
      | none, some e => .next { s with toCore := takeTrap c (.task t 1) e }
      | none, none => .next { s with toCore := c }
  | _ => .next s

end Sys2Proof.Machine
end

