-- ==== Sys2Proof/Machine/Schedule.lean ====
section
/-!
DEFINITION. The launch scheduler (16 R383 to R388, 25 R456), aligned boundaries, yields, the watchdog and budgets (16 R389 to
R394, R459), and the Border (16 R397 to R400, 24 R453; 17 R414).
-/

namespace Sys2Proof.Machine

open Sys2Proof

/-! Dependence waits (07 R185). -/

/-- How the dependence of a launch stands: ended, failed, waiting, or waiting for the forced publish of a die (05 R133). -/
inductive DepEnd where
  | ended
  | failed
  | waits
  | publish (die : Nat)
deriving DecidableEq, Repr

def Core.depEnd (c : Core) (d : Nat) (l : Launch) : DepEnd :=
  if !l.dpen then .ended
  else if l.dbar.toNat % 16 ≠ 0 then .failed
  else
    match c.translateNow (deviceWho d) (.load 4) l.dbar with
    | .error _ => .failed
    | .ok x =>
      if !barPlace x || c.poisoned x.pa 16 then .failed
      else match c.widen d Config.tiles .primary x.pa 16 with
        | some die => .publish die
        | none =>
          match (c.barAt x.pa).waitEnd l.dphase with
          | .reached => .ended
          | .waits => .waits
          | _ => .failed

/-- A launch taken out of its queue; the one that becomes head is eligible from now on when its wait has ended (R385). -/
def Core.leaveQueue (c : Core) (d key ser : Nat) : Core :=
  c.updDom d fun dm =>
    let q := mapGet [] dm.lqs key
    let rest := q.filter (· != ser)
    let dm := { dm with lqs := mapSet [] dm.lqs key rest }
    match rest with
    | h :: _ =>
      if q.head? = some h then dm
      else match mapGet none dm.launches h with
        | some l => { dm with launches := mapSet none dm.launches h (some { l with since := c.sclk }) }
        | none => dm
    | [] => dm

/-- The launch of a queue whose dependence wait is next: the first not ended of the first two (R384, 25 R456). -/
def Domain.depNext (d : Domain) (key : Nat) : Option (Nat × Launch × Bool) :=
  let q := mapGet [] d.lqs key
  ((q.take 2).mapIdx fun i ser => (mapGet none d.launches ser).bind fun l =>
    if l.ready then none else some (ser, l, decide (i = 0))).findSome? id

/-- DEPENDENCE_WAIT_END: the wait is over, or the launch is discarded with ERR at its completion barrier (R185). -/
def execDependenceWaitEnd (s : State) : Host.Outcome State Fault Refusal :=
  match s.event with
  | some (.dependenceWaitEnd d side lq) =>
    let key := lqKey side lq
    match (s.toCore.dom d).depNext key with
    | none => .next s
    | some (ser, l, head) =>
      match s.toCore.depEnd d l with
      | .waits => .next s
      | .publish die => .next { s with toCore := (s.toCore.dirtyReps die d).foldl (fun c r => c.publish r) s.toCore }
      | .ended =>
        let l' := some { l with ready := true, since := s.sclk }
        .next { s with toCore := s.toCore.updDom d fun dm => { dm with launches := mapSet none dm.launches ser l' } }
      | .failed =>
        if !head then .next s
        else
          let c := s.toCore.leaveQueue d key ser
          let c := c.updDom d fun dm => { dm with launches := mapSet none dm.launches ser none }
          .next { s with toCore := if l.ident.cpen then c.barSend (deviceWho d) l.ident.cbar (.err Config.tiles) else c }
  | _ => .next s

/-! Candidates (R384, R385). -/

/-- What a candidate is: a saved task, a spawned one, the next task of the head launch of a queue. -/
inductive CandSrc where
  | saved (i : Nat)
  | spawn (i : Nat)
  | launch (q ser : Nat)
deriving DecidableEq, Repr

structure Cand where
  ep : Nat
  src : CandSrc
  ident : Ident
  die : Option Nat
  mate : Option Ident

/-- EP of R385. -/
def agedEp (prio w : Nat) : Nat := min 7 (prio + w / 2 ^ 20)

/-- The die that R179 names for a task. -/
def Domain.taskDie (d : Domain) (i : Ident) : Option Nat :=
  match dieLevel i.desc, mapGet none d.launches (serialOf i.taskid) with
  | some l, some la => some (la.dies.getD (wbits i.tcoord (16 * l) 16 % la.dies.length) 8)
  | _, _ => none

/-- The identity of a launch's task (07 R178, R180). -/
def Launch.task (l : Launch) (ser index ep : Nat) : Ident :=
  { l.ident with taskid := BitVec.ofNat 64 (ser * 2 ^ 40 + index), tcoord := tcoordOf l.ident.desc index, ep := ep }

/-- The candidates of a side in the order of service within one EP. -/
def Core.candidates (c : Core) (d : Nat) (side : Bool) : List Cand :=
  let dm := c.dom d
  let saved := (dm.saved.mapIdx fun i x =>
    if x.handed && x.ident.side == side then
      [{ ep := agedEp x.ident.ep (c.sclk - x.since), src := CandSrc.saved i, ident := x.ident, die := dm.taskDie x.ident
         mate := x.mate.map fun y => y.id : Cand }]
    else []).flatten
  let spawn := (if side then dm.spawnsL else dm.spawnsA).mapIdx fun i x =>
    { ep := agedEp x.ident.prio (c.sclk - x.since), src := CandSrc.spawn i, ident := x.ident, die := dm.taskDie x.ident
      mate := none : Cand }
  let heads := (List.range 16).filterMap fun q =>
    match mapGet [] dm.lqs (lqKey side q) with
    | ser :: _ => (mapGet none dm.launches ser).bind fun l =>
        if l.ready && decide (l.next < l.n) then
          let ep := agedEp l.ident.prio (c.sclk - l.since)
          let i := l.task ser l.next ep
          some { ep := ep, src := CandSrc.launch q ser, ident := i, die := dm.taskDie i, mate := none : Cand }
        else none
    | [] => none
  saved ++ spawn ++ heads

/-- The candidates in the order of service (R385): highest EP first; launch queues round robin from the one after the last
served at that EP. -/
def Core.served (c : Core) (d : Nat) (side : Bool) : List Cand :=
  let cs := c.candidates d side
  ((List.range 8).reverse.map fun ep =>
    let here := cs.filter fun x => x.ep == ep
    let start := mapGet 0 (c.dom d).rr ((if side then 8 else 0) + ep)
    let queue := fun (q : Nat) => here.filter fun x => match x.src with
      | .launch k _ => k == q
      | _ => false
    (here.filter fun x => match x.src with
      | .launch .. => false
      | _ => true) ++ ((List.range 16).map fun k => queue ((start + k) % 16)).flatten).flatten

/-! Placement (R386). -/

/-- Whether a waiting task may use a tile at all. -/
def Core.usable (c : Core) (d : Nat) (side : Bool) (x : Cand) (t : Nat) : Bool :=
  c.inDomain d t && (c.tile t).learner == side && (match x.die with
    | some k => k == dieOf t
    | none => true) && (c.tile t).lanesOut.toNat &&& x.ident.flanes == 0

/-- The tile that R386 gives a candidate, outside the tiles kept from it. -/
def Core.tileFor (c : Core) (d : Nat) (side : Bool) (x : Cand) (kept : List Nat) : Option Nat :=
  let ts := (List.range Config.tiles).filter fun t =>
    c.usable d side x t && !(c.tile t).closed && !kept.contains t && c.fitsBoth t x.ident x.mate
  ts.foldl (fun (o : Option Nat) t => match o with
    | none => some t
    | some u => if (c.tile t).queue.length < (c.tile u).queue.length then some t else some u) none

/-- The candidate that the next decision places, and its tile: a task that fits no tile keeps the tiles it may use from
those of lower EP. -/
def Core.choose (c : Core) (d : Nat) (side : Bool) (cs : List Cand) (kept : List (Nat × Nat)) : Option (Cand × Nat) :=
  match cs with
  | [] => none
  | x :: rest =>
    let mine := (kept.filter fun k => x.ep < k.1).map fun k => k.2
    match c.tileFor d side x mine with
    | some t => some (x, t)
    | none =>
      let all := (List.range Config.tiles).filter fun t => c.usable d side x t
      let fitsNone := all.all fun t => (c.tile t).closed || !c.fitsBoth t x.ident x.mate
      c.choose d side rest (if fitsNone then kept ++ all.map fun t => (x.ep, t) else kept)

/-- A task that has not started, as it stands in a tile's queue. -/
def freshCtx (i : Ident) (twgt : Nat) : Ctx := { Ctx.init with id := i, r := { Regs.init with twgt := BitVec.ofNat 48 twgt } }

/-- Puts a context at the tail of a tile with the ranges that it fits. -/
def Core.putTask (c : Core) (t : Nat) (x : Ctx) : Core := c.enqueue t x ((c.fits t x.id).getD (0, 0))

/-- One more task of a launch placed; a launch with none left leaves its queue (R383). -/
def Core.launched (c : Core) (d key ser : Nat) : Core :=
  match mapGet none (c.dom d).launches ser with
  | none => c
  | some l =>
    let c := c.updDom d fun dm => { dm with launches := mapSet none dm.launches ser (some { l with next := l.next + 1 }) }
    if l.next + 1 < l.n then c else c.leaveQueue d key ser

/-- The splice-marked consumer of the next launch of a queue, when it may be placed with a producer just placed (25 R456). -/
def Core.partner (c : Core) (d : Nat) (side : Bool) (key ser t : Nat) (p : Ident) : Option (Nat × Ident) :=
  let q := mapGet [] (c.dom d).lqs key
  match q with
  | a :: b :: _ =>
    if a ≠ ser || descW p.desc 1 37 1 = 0 then none
    else (mapGet none (c.dom d).launches b).bind fun l =>
      let i := l.task b l.next (agedEp l.ident.prio 0)
      let x : Cand := { ep := 0, src := .launch 0 b, ident := i, die := (c.dom d).taskDie i, mate := none }
      if l.ready && descW i.desc 1 38 1 = 1 && descW i.desc 10 24 24 = descW p.desc 10 0 24 && l.next = wbits p.taskid 0 31 &&
          decide (l.next < l.n) && c.usable d side x t && (c.fits t i).isSome then some (b, i) else none
  | _ => none

/-- Places a candidate on a tile. -/
def Core.place (c : Core) (d : Nat) (side : Bool) (x : Cand) (t : Nat) : Core :=
  match x.src with
  | .saved i =>
    match (c.dom d).saved[i]? with
    | none => c
    | some y =>
      let c := c.updDom d fun dm =>
        { dm with saved := dm.saved.eraseIdx i, resuming := dm.resuming ++ [(y.ident.taskid, y.slot)] }
      let c := c.putTask t { y.hold with id := { y.ident with ep := x.ep } }
      match y.mate with
      | none => c
      | some m => c.putTask t m
  | .spawn i =>
    match (if side then (c.dom d).spawnsL else (c.dom d).spawnsA)[i]? with
    | none => c
    | some y =>
      let c := c.updDom d fun dm =>
        { dm with spawnsL := (if side then dm.spawnsL.eraseIdx i else dm.spawnsL)
                  spawnsA := (if side then dm.spawnsA else dm.spawnsA.eraseIdx i) }
      c.putTask t (freshCtx { y.ident with ep := x.ep } y.twgt.toNat)
  | .launch q ser =>
    let key := lqKey side q
    let c := c.putTask t (freshCtx x.ident (2 ^ 24))
    let c := c.updDom d fun dm => { dm with rr := mapSet 0 dm.rr ((if side then 8 else 0) + x.ep) ((q + 1) % 16) }
    let mate := c.partner d side key ser t x.ident
    let c := c.launched d key ser
    match mate with
    | none => c
    | some (b, i) => (c.putTask t (freshCtx i (2 ^ 24))).launched d key b

/-- PLACEMENT_DECISION: one task is placed, with its consumer where R456 allows. -/
def execPlacementDecision (s : State) : Host.Outcome State Fault Refusal :=
  match s.event with
  | some (.placementDecision d side) =>
    match s.toCore.choose d side (s.toCore.served d side) [] with
    | none => .next s
    | some (x, t) => .next { s with toCore := s.toCore.place d side x t }
  | _ => .next s

/-! Aligned boundaries (R391, R459). -/

/-- The contexts that run on a tile now: the head, or both of a pair, or its consumer alone (15 R378). -/
def Tile.runners (tl : Tile) : List Nat :=
  match tl.pair with
  | none => [0]
  | some p =>
    match p.phase with
    | .prologueC | .loopC => [1]
    | .joined => [0, 1]
    | _ => [0]

/-- Whether a context stands at an aligned boundary: it is not in the middle of a bundle, or waits in one that is withdrawn, or
for the routine that has paused, which cannot end before (R320). What it has reserved may land later (08 R212). -/
def Ctx.aligned (x : Ctx) : Bool :=
  x.life == .live && x.paused && (match x.status with
    | .ready => true
    | .waiting w => w.withdrawn || (w == .mx && x.rout.isSome)
    | .suspended => false)

/-- Whether the running contexts of a tile have counted to ABINT. -/
def Core.expired (c : Core) (t : Nat) : Bool := (c.tile t).runners.any fun p => (c.ctx (.task t p)).expired

/-- Whether the boundary requested on a tile is reached before the count reaches ABINT. -/
def Core.boundaryDue (c : Core) (t : Nat) : Bool :=
  let tl := c.tile t
  let n := Pair.members tl.pair
  match tl.queue with
  | x :: _ =>
    !x.reqs.isEmpty && !c.expired t && tl.testing.isNone && !(tl.pair.any fun p => p.phase = .sharedRelease || p.phase = .check) &&
      (List.range n).all fun k => match tl.queue[k]? with
        | some y => y.aligned || (k = 1 && y.life == .fresh)
        | none => false
  | [] => false

/-- The head, with its pair set aside in it, as it leaves the head of the queue. -/
def Tile.setAside (tl : Tile) : List Ctx :=
  (tl.queue.take tl.headCount).mapIdx fun k x =>
    { x with life := if x.life = .fresh then .fresh else .preempted, status := .ready, reqs := [], reqEnd := 0
             pair := if k = 0 then tl.pair else none }

/-- The head task, or pair, moved to the tail of its queue, keeping its claims. -/
def Core.rotate (c : Core) (t : Nat) : Core :=
  c.updTile t fun tl => { tl with queue := tl.queue.drop tl.headCount ++ tl.setAside, pair := none }

/-- The head stopped where it stands, to be saved. -/
def Core.stopHead (c : Core) (t : Nat) : Core :=
  c.updTile t fun tl => { tl with queue := tl.setAside ++ tl.queue.drop tl.headCount, pair := none }

/-- Drops requests of the running task; with the last of them a paused routine goes on. -/
def Core.dropReqs (c : Core) (t : Nat) (qs : List Req) : Core :=
  let left := (c.ctx (.task t 0)).reqs.filter fun q => !qs.contains q
  let c := c.updCtx (.task t 0) fun x => { x with reqs := left }
  if !left.isEmpty then c
  else (List.range (c.tile t).headCount).foldl (fun (c : Core) p => c.updCtx (.task t p) fun x =>
    { x with reqEnd := 0, rout := x.rout.map fun u => { u with paused := false } }) c

/-- ALIGNED_BOUNDARY_REACHED: the requests are performed in the order of R459: a self-test, during which the task stays in
place; else a Border move; else a `tile.pre`, else a yield. A yield on a closing tile, or of a task alone in its queue, is
dropped (R390, R400). A tile on which no task runs is tested at once. -/
def execAlignedBoundaryReached (s : State) : Host.Outcome State Fault Refusal :=
  match s.event with
  | some (.alignedBoundaryReached t) =>
    let c := s.toCore
    if c.testIdle t then .next { s with toCore := c.updTile t fun tl => { tl with testing := c.testWanted t } }
    else if !c.boundaryDue t then .next s
    else if c.hasReq t .selfTest then
      .next { s with toCore := (c.dropReqs t [.selfTest]).updTile t fun tl => { tl with testing := c.testWanted t } }
    else if c.hasReq t .move then
      .next { s with toCore := (c.stopHead t).answered (.pre t) }
    else if c.hasReq t .pre then
      .next { s with toCore := (c.rotate t).answered (.pre t) }
    else if (c.tile t).closed || (c.tile t).queue.length ≤ (c.tile t).headCount then
      .next { s with toCore := c.dropReqs t [.yield] }
    else .next { s with toCore := c.rotate t }
  | _ => .next s

/-! Yields (R389, R390). -/

/-- A running context of a tile that waits in `evt.wt` or `bar.wt`. -/
def Core.idleRunner (c : Core) (t : Nat) : Option Nat :=
  (c.tile t).runners.find? fun p => match (c.ctx (.task t p)).status with
    | .waiting w => w.withdrawn
    | _ => false

/-- Whether a running context of a tile waits in a way that counts schedule cycles, and none of them in a freeze (08 R217). -/
def Core.counting (c : Core) (t : Nat) : Bool :=
  let waits := (c.tile t).runners.filterMap fun p => match (c.ctx (.task t p)).status with
    | .waiting w => some w.freezes
    | _ => none
  !waits.isEmpty && waits.all (!·)

/-- Whether a running context of a tile is frozen. -/
def Core.frozen (c : Core) (t : Nat) : Bool :=
  (c.tile t).runners.any fun p => match (c.ctx (.task t p)).status with
    | .waiting w => w.freezes
    | _ => false

/-- Whether a running task may have waited long enough to yield before its budget ends. -/
def Core.yieldDue (c : Core) (t : Nat) : Bool :=
  let n := wbits (c.ctl (c.domOf t) 0x70) 0 32
  match c.idleRunner t with
  | some p =>
    let x := c.ctx (.task t p)
    n != 0 && x.life == .live && x.id.yieldable && !(c.ctx (.task t 0)).reqs.contains .yield &&
      (x.r.limit == 0 || x.budDone || decide (x.r.cyc.toNat + n < x.r.limit.toNat))
  | none => false

/-- YIELD: one wait has lasted CYC schedule cycles. A task alone in its queue waits on, and its count restarts: of the cycles of a wait,
each full interval is counted here and the rest when it ends. -/
def execYield (s : State) : Host.Outcome State Fault Refusal :=
  match s.event with
  | some (.yield t) =>
    if !s.toCore.yieldDue t then .next s
    else
      let n := wbits (s.toCore.ctl (s.toCore.domOf t) 0x70) 0 32
      let c := s.toCore.addCycles ((s.toCore.tile t).runners.map fun p => .task t p) n
      if (c.tile t).queue.length ≤ (c.tile t).headCount || (c.tile t).closed then .next { s with toCore := c }
      else .next { s with toCore := c.addReq t .yield }
  | _ => .next s

/-! The watchdog (R392) and budgets (R394). -/

/-- DETAIL of the watchdog trap: the first pending request. -/
def reqCode (q : Req) : Nat :=
  match q with
  | .pre => 1
  | .move => 2
  | .yield => 3
  | .selfTest => 4

/-- Whether the count of a request has reached ABINT, or schedule cycles pass on a tile without a boundary being reached: the task's
bundle waits without a freeze, or its routine has not paused. -/
def Core.watchdogDue (c : Core) (t : Nat) : Bool :=
  let x := c.ctx (.task t 0)
  let run := (c.tile t).runners.map fun p => c.ctx (.task t p)
  x.life == .live && !x.reqs.isEmpty && (run.any fun y => y.reqEnd != 0) && (c.tile t).testing.isNone &&
    (run.all fun y => y.status != .suspended) &&
    (c.expired t || (!c.boundaryDue t && !c.frozen t && (c.counting t || run.any fun y => y.rout.any fun u => !u.paused && u.faulted.isNone)))

/-- ABINT_WATCHDOG (R392): a running routine stops before its next micro-op. The request is then performed in place of the resume, and
counts no more. -/
def execAbintWatchdog (s : State) : Host.Outcome State Fault Refusal :=
  match s.event with
  | some (.abintWatchdog t) =>
    if !s.toCore.watchdogDue t then .next s
    else
      let tl := s.toCore.tile t
      let p := tl.runners.headD 0
      let x := s.toCore.ctx (.task t 0)
      let rs := tl.runners.map fun p => CtxRef.task t p
      let c := s.toCore.addCycles rs tl.abint
      if !c.expired t then .next { s with toCore := c }
      else
        let stop := fun (y : Ctx) => match y.rout with
          | some u => ({ y with rout := some { u with paused := true } }).setMp 7 (u.mp7 true)
          | none => y
        let c := rs.foldl (fun (c : Core) r => c.updCtx r stop) c
        let tr := { mkTrap kWatchdog 0 with detail := (x.reqs.head?.map reqCode).getD 0, aux0 := BitVec.ofNat 64 tl.abint
                                            aux1 := BitVec.ofNat 64 tl.abint }
        let c := (List.range tl.headCount).foldl (fun (c : Core) p => c.updCtx (.task t p) fun z => { z with reqEnd := 0 }) c
        .next { s with toCore := takeTrap c (.task t p) tr }
  | _ => .next s

/-- The schedule cycles that a running context has left before its budget is reached. -/
def Ctx.budLeft (x : Ctx) : Option Nat :=
  if x.r.limit = 0 || x.budDone || x.life != .live || x.status = .suspended then none else some (x.r.limit.toNat - x.r.cyc.toNat)

/-- Whether a wait on a tile yields before some schedule cycles have passed (R390). -/
def Core.yieldsBefore (c : Core) (t n : Nat) : Bool := c.yieldDue t && decide (wbits (c.ctl (c.domOf t) 0x70) 0 32 < n)

/-- The running context of a tile whose budget is reached first, now or while the tile waits in a way that counts (R394). -/
def Core.overrun (c : Core) (t : Nat) : Option Nat :=
  let left := (c.tile t).runners.filterMap fun p => (c.ctx (.task t p)).budLeft.map fun n => (p, n)
  let least := left.foldl (fun (o : Option (Nat × Nat)) e => match o with
    | some k => if e.2 < k.2 then some e else o
    | none => some e) none
  match least with
  | some (p, n) => if n = 0 || (c.counting t && !c.yieldsBefore t n) then some p else none
  | none => none

/-- BUDGET_OVERRUN (R394): once in the task's life, when CYC reaches LIMIT. -/
def execBudgetOverrun (s : State) : Host.Outcome State Fault Refusal :=
  match s.event with
  | some (.budgetOverrun t) =>
    match s.toCore.overrun t with
    | none => .next s
    | some p =>
      let n := ((s.toCore.ctx (.task t p)).budLeft).getD 0
      let c := s.toCore.addCycles ((s.toCore.tile t).runners.map fun q => .task t q) n
      let x := c.ctx (.task t p)
      if x.r.cyc.toNat < x.r.limit.toNat then .next { s with toCore := c }
      else
      let c := c.updCtx (.task t p) fun x => { x with budDone := true, budPend := false }
      let tr := { mkTrap kBudget 0 with aux0 := x.r.limit, aux1 := x.r.cyc }
      .next { s with toCore := takeTrap c (.task t p) tr }
  | _ => .next s

/-! The Border (R397 to R400, R453, 17 R414). -/

/-- The lowest free save slot (R397, R453); none while EN = 0. -/
def Domain.freeSlot (d : Domain) : Option Nat :=
  if wbits d.bbase 0 1 = 0 then none else (List.range d.slots.toNat).find? fun k => !d.slotUsed.contains k

/-- A saved task put in the order of R453. -/
def insertSaved (l : List SavedTask) (x : SavedTask) : List SavedTask :=
  match l with
  | [] => [x]
  | y :: t => if x.batch < y.batch || (x.batch = y.batch && x.left < y.left) then x :: y :: t else y :: insertSaved t x

/-- The cause for which an image cannot be written to a run of PAs, with the PA. -/
def Core.slotFault (c : Core) (d pa len : Nat) : Option (Nat × Nat) :=
  (List.range ((len + 65535) / 65536)).findSome? fun k =>
    (lowestCause (c.paCause (deviceWho d) (.store 3) (pa + 65536 * k))).map fun e => (e, pa + 65536 * k)

/-- Kills the head of a closed tile, and its consumer with it, with a record (R398, 17 R414). -/
def Core.killHead (c : Core) (t : Nat) (tr : TrapInfo) : Core :=
  let x := c.ctx (.task t 0)
  let rec0 := fun (p : Nat) => let y := c.ctx (.task t p); recordWords c t y.kid y.bofs y.id.taskid y.rep tr
  let c' := c.updCtx (.task t 0) fun x => { x with pair := none }
  if Pair.members x.pair = 2 then
    (c'.killAt t 1 (partnerRecord (c.ctx (.task t 1)) ((x.pair.map fun p => p.bofsOf 1).getD 0) (rec0 0)) (flKilled + flSpliced)).killAt t 0 (rec0 0) flKilled
  else c'.killAt t 0 (rec0 0) flKilled

/-- What is kept of a saved context: its identity, its weight and version, and the signals to come. -/
def Ctx.held (x : Ctx) : Ctx :=
  { Ctx.init with id := x.id, life := if x.life = .fresh then .fresh else .loaded, started := x.started, pair := x.pair
                  r := { Regs.init with twgt := x.r.twgt, tver := x.r.tver } }

/-- The order number of a save: that of the move, or its own. -/
def Core.batch (c : Core) (t : Nat) : Nat :=
  match (c.dom (c.domOf t)).move with
  | some m => if m.tiles.contains t then m.id else c.nid
  | none => c.nid

/-- The head of a tile being emptied is saved into a slot, or handed back to the scheduler from the slot it still holds. -/
def Core.saveHead (c : Core) (t k : Nat) (write : Bool) : Core :=
  let d := c.domOf t
  let x := c.ctx (.task t 0)
  let two := Pair.members x.pair = 2
  let (ids, c) := if write then c.writeHome t .primary (.at ((c.dom d).slotPa k)) (c.taskImage t 0 x.pair) else ([], c)
  let c := if write then c.keepAll d ((List.range (Pair.members x.pair)).map fun p => .task t p) else c
  let mate := if two then some (c.ctx (.task t 1)).held else none
  let sv : SavedTask := { ident := x.id, slot := k, since := c.sclk, fresh := decide (x.life = .fresh), batch := c.batch t, left := t
                          handed := false, hold := x.held, mate := mate }
  let c := c.updDom d fun dm =>
    { dm with saved := insertSaved dm.saved sv, slotUsed := if write then dm.slotUsed ++ [k] else dm.slotUsed
              resuming := dm.resuming.filter fun e => e.1 != x.id.taskid }
  let c := c.updTile t fun tl => { tl with stage := .saving, saving := tl.saving ++ ids }
  let c := if two then c.removeTask t 1 else c
  { c.removeTask t 0 with nid := c.nid + 1 }

/-- The saved tasks of a tile handed to the scheduler. -/
def Domain.handOver (d : Domain) (t : Nat) : Domain :=
  { d with saved := d.saved.map fun x => if x.left = t then { x with handed := true } else x }

/-- FLIPPED (R398): the tile opens on its new side; the last tile completes the move. A tile out of service stays closed. -/
def Core.flipTile (c : Core) (t : Nat) : Core :=
  let d := c.domOf t
  let moved := match (c.dom d).move with
    | some m => if m.tiles.contains t then some m else none
    | none => none
  let c := c.updTile t fun tl =>
    { tl with stage := .active, closed := !tl.serv, learner := (moved.map fun m => m.side).getD tl.learner }
  let c := c.updDom d fun dm => dm.handOver t
  match moved with
  | some m =>
    if m.tiles.all fun u => (c.tile u).stage = .active then c.updDom d fun dm => { dm with move := none, nmove := dm.nmove + 1 } else c
  | none => c

/-- The stores of a tile's handler contexts and engines that have not been performed everywhere: its own release at .mod covers them
(R398, 05 R128). -/
def Tile.outstanding (tl : Tile) : List Nat :=
  (tl.hcs.filterMap (·.2)).flatMap (·.unacked) ++ tl.cmds.flatMap (·.unacked)

/-- The next step of emptying a tile (R398, 17 R414): the head takes a slot, or is killed; with none left the tile makes its release,
and flips. -/
def Core.saveStep (c : Core) (t : Nat) : Core :=
  let tl := c.tile t
  let dm := c.dom (c.domOf t)
  if tl.stage = .active then c
  else
    match tl.queue with
    | [] =>
      if tl.stage != .releasing then c.updTile t fun tl => { tl with stage := .releasing, saving := tl.saving ++ tl.outstanding }
      else if tl.saving.isEmpty && c.clean (dieOf t) (c.domOf t) then c.flipTile t
      else c
    | x :: _ =>
      let n := Pair.members x.pair
      let refs := (List.range n).map fun k => CtxRef.task t k
      if x.life = .live || x.life = .ending || x.life = .dying || tl.pair.isSome then c
      else match dm.resuming.find? fun e => e.1 == x.id.taskid with
        | some e => c.saveHead t e.2 false
        | none =>
          if refs.any fun r => (c.ctx r).life != .fresh && (!(c.ctx r).still || !c.released r .mod) then c
          else match dm.freeSlot with
            | none => if tl.serv then c else c.killHead t { mkTrap kData cUncorr with flags := 0 }
            | some k =>
              match c.slotFault (c.domOf t) (dm.slotPa k) (c.taskImage t 0 x.pair).length with
              | some (cause, pa) =>
                let tr := { accTrap (.store 3) 0 pa cause with addr := 0, slot := 0xF }
                c.killHead t tr
              | none => c.saveHead t k true

/-- BORDER_SAVE_COMPLETE: one step of a tile that is being emptied. -/
def execBorderSaveComplete (s : State) : Host.Outcome State Fault Refusal :=
  match s.event with
  | some (.borderSaveComplete t) => .next { s with toCore := s.toCore.saveStep t }
  | _ => .next s

/-- BORDER_BLOCK_WRITE (R397): BSAVE and BSCNT, discarded while a move is in progress. -/
def execBorderBlockWrite (s : State) : Host.Outcome State Fault Refusal :=
  match s.event with
  | some (.borderBlockWrite d word v) =>
    let dm := s.toCore.dom d
    if dm.move.isSome then .next s
    else if word = 16 then
      .next { s with toCore := s.toCore.setDom d { dm with bbase := BitVec.ofNat 64 (wbits v 24 28 * 2 ^ 24 + wbits v 0 1) } }
    else if word = 17 then .next { s with toCore := s.toCore.setDom d { dm with slots := v.extractLsb' 0 16 } }
    else .next s
  | _ => .next s

end Sys2Proof.Machine
end

