-- ==== Sys2Proof/Machine/Bundle.lean ====
section
/-!
DEFINITION. Bundles (08 R196 to R220): the reading of a bundle, the checks and the queue accounting of dispatch, and commit;
the combined bundles of a spliced pair (15 R372, R375, R378).
-/

namespace Sys2Proof.Machine

open Sys2Proof

/-! What is dispatched. -/

/-- How a context's bundle is dispatched: whole; without its C slot, or its C slot alone (15 R374); combined. -/
inductive Form where
  | whole
  | noC
  | onlyC
  | joined
deriving DecidableEq, Repr

def Core.form (c : Core) (r : CtxRef) : Form :=
  match r, (c.tile r.tile).pair with
  | .task _ 0, some p => match p.phase with
    | .loopP => .noC
    | .refusedP | .refusedC => .onlyC
    | .joined => .joined
    | _ => .whole
  | .task _ 1, some p => if p.phase = .loopC then .noC else .whole
  | _, _ => .whole

/-- A bundle of one context in what is dispatched. -/
structure Part where
  r : CtxRef
  f : Fetched

/-- What is dispatched: the parts, the header that reports name, each slot's owner as the index of a part, and the slots that
issue. -/
structure Dispatched where
  parts : List Part
  hdr : Word
  owner : Nat → Nat
  slots : List Nat

/-- The effective word of a slot (R201). -/
def Part.eff (c : Core) (p : Part) (slot : Nat) : Word :=
  match p.f.word? slot with
  | some w => w
  | none => mapGet 0 (c.ctx p.r).sticky slot

/-- The header of a combined bundle (15 R372): PORTS is allotted to the slots in order. -/
def combinedHdr (a b : Header) (need : List Nat) : Word :=
  let owners := (need.mapIdx fun slot n => List.replicate n slot).flatten
  let ports := (List.range 6).foldl (fun v p => v + owners.getD p 0xE * 16 ^ p) 0
  ({ ports := BitVec.ofNat 24 ports, align := a.align ||| b.align, rep := a.rep, pres := a.pres ||| b.pres } : Header).pack

/-! Checks at dispatch (R220). -/

/-- The effective owner of each port (R205). -/
def effOwners (old : BitVec 24) (h : Header) : BitVec 24 :=
  BitVec.ofNat 24 ((List.range 6).foldl (fun v p =>
    let n := portNibble h.ports p
    v + (if n = 0xF then portNibble old p else n) * 16 ^ p) 0)

def ownedPorts (owners : BitVec 24) (slot : Nat) : Nat := ((List.range 6).filter fun p => portNibble owners p == slot).length

/-- Two operations of one bundle that write one register (R209), or load one stream register (10 R257 to R261). -/
def clash (a b : Uses) : Bool :=
  let both := fun (x y : Option Nat) (zero : Bool) => match x, y with
    | some i, some j => i == j && !(zero && i == 0)
    | _, _ => false
  both a.s b.s true || both a.g b.g true || both a.m b.m true || both a.mp b.mp false || both a.a b.a false

/-- A loop whose label does not follow its body's first bundle (09 R238). -/
def badLoop (i : Instr) (len : Nat) : Bool :=
  match i with
  | .loop o => o.imm.toInt * 8 ≤ (len : Int)
  | _ => false

/-- Whether the effective operation of a slot is an illegal encoding in any bundle that holds it (R220); `mine` are the slots of its
context. -/
def Core.slotBad (c : Core) (p : Part) (mine : Nat → Bool) (slot : Nat) : Bool :=
  let w := p.eff c slot
  let present := (p.f.word? slot).isSome
  match slotInstr slot w with
  | none => true
  | some i =>
    let u := usesOf slot i
    let x := c.ctx p.r
    let below := ((List.range slot).filter mine).map fun k => usesOf k (slotOp k (p.eff c k))
    (present && p.f.head.rep != 0 && onceOp slot i) ||
    (if p.r.isHc then closedToHandler i else closedToTask i) ||
    (u.dsts.any fun q => x.id.isRemote q) ||
    (below.any fun v => clash v u)

/-- Whether it breaks a rule of a bundle as the program wrote it: its loop's label, its read ports (R205, 09 R238). A combined bundle keeps
both (15 R372). -/
def Core.slotAlone (c : Core) (p : Part) (owners : BitVec 24) (slot : Nat) : Bool :=
  let i := slotOp slot (p.eff c slot)
  badLoop i p.f.len || decide (ownedPorts owners slot < portsOf i (usesOf slot i))

/-- The first illegal encoding of a bundle: the slot and its word (R220, 17 R407). -/
def Core.illegalAt (c : Core) (p : Part) (owners : BitVec 24) (slots : List Nat) : Option (Nat × Word) :=
  if p.r.isHc && (presSlots p.f.head).any fun s => 2 ≤ s && s ≤ 10 then some (0xF, 0)
  else (slots.find? fun s => c.slotBad p (fun _ => true) s || c.slotAlone p owners s).map fun s => (s, p.eff c s)

/-- The first illegal encoding of a combined bundle: the context that owns the slot, the slot and its word (15 R378). -/
def Core.illegalJoined (c : Core) (d : Dispatched) : Option (CtxRef × Nat × Word) :=
  d.slots.findSome? fun slot => (d.parts[d.owner slot]?).bind fun p =>
    if c.slotBad p (fun k => d.owner k == d.owner slot) slot then some (p.r, slot, p.eff c slot) else none

/-- The first illegal encoding of what is dispatched. -/
def Core.illegalIn (c : Core) (d : Dispatched) (form : Form) : Option (CtxRef × Nat × Word) :=
  if form = .joined then c.illegalJoined d
  else d.parts.findSome? fun p =>
    (c.illegalAt p (effOwners (c.ctx p.r).owners p.f.head) (if form = .onlyC then [1] else List.range 12)).map fun e => (p.r, e)

/-- The slots of what is dispatched whose word it presents. -/
def Dispatched.presents (d : Dispatched) : List Nat :=
  d.slots.filter fun slot => (d.parts[d.owner slot]?).any fun p => (p.f.word? slot).isSome

/-! Queue accounting (R213, R214, R218, R219). -/

/-- Counts of queues as dispatch goes through a bundle, and the first trap of each kind. -/
structure Account where
  counts : List ((CtxRef × Nat) × Nat)
  under : Option TrapInfo
  excess : Option TrapInfo
  imbal : Option TrapInfo

def Account.count (a : Account) (c : Core) (k : CtxRef × Nat) : Nat :=
  match a.counts.find? fun e => decide (e.1 = k) with
  | some e => e.2
  | none => ((c.ctx k.1).queue k.2).length

def Account.set (a : Account) (k : CtxRef × Nat) (n : Nat) : Account :=
  { a with counts := (k, n) :: a.counts.filter fun e => decide (e.1 ≠ k) }

/-- One pop or peek. -/
def Account.pop (a : Account) (c : Core) (r : CtxRef) (slot q : Nat) (peek : Bool) : Account :=
  let k := c.qref r q
  let n := a.count c k
  if n = 0 then
    if (c.ctx r).id.isRemote q then a
    else if q < 32 then
      { a with under := a.under.or (some { mkTrap kUnderflow 0 with detail := c.qname r q, slot := slot }) }
    else { a with imbal := a.imbal.or (some { mkTrap kImbalance 0 with detail := c.qname r q, slot := slot }) }
  else if peek then a else a.set k (n - 1)

/-- One reservation. -/
def Account.push (a : Account) (c : Core) (r : CtxRef) (slot q : Nat) : Account :=
  let k := c.qref r q
  let n := a.count c k
  let a := if n ≥ c.qdepth r q then { a with excess := a.excess.or (some { (overflowTrap (c.qname r q) n) with slot := slot }) } else a
  a.set k (n + 1)

/-- The queue traffic of one operation: pops before pushes. The matched operations of a joined loop have none (15 R375). -/
def Account.op (a : Account) (c : Core) (r : CtxRef) (slot : Nat) (i : Instr) (present : Bool) : Account :=
  let quiet : Bool := match i with
    | .stQ o => (c.matched r present false o.a).isSome
    | .ldQ o => (c.matched r present true o.a).isSome
    | _ => false
  if quiet then a
  else
    let u := usesOf slot i
    let a := u.srcs.foldl (fun a e => a.pop c r slot e.1 e.2) a
    u.dsts.foldl (fun a q => a.push c r slot q) a

/-- The queue trap of a bundle, in the order of 17 R404. -/
def Core.queueTrap (c : Core) (pres : List Nat) (ops : List (Nat × CtxRef × Instr)) : Option TrapInfo :=
  let a := ops.foldl (fun (a : Account) e => a.op c e.2.1 e.1 e.2.2 (pres.contains e.1)) ⟨[], none, none, none⟩
  (a.under.or a.excess).or a.imbal

/-! BUNDLE_DISPATCH. -/

/-- A trap found at dispatch, precise at the bundle (R220, R218). -/
def State.dispatchTrap (s : State) (old : Core) (own : Map Nat) (t : TrapInfo) : State :=
  let b : Bundle := { r := s.ref, pc := 0, hdr := t.aux0, len := 0, rep := 0, todo := [], pres := [], words := mapSet 0 [] t.slot t.aux1, own := own
                      target := none, ends := false, outs := [], sigs := [], cmds := [], late := [], lateA := [] }
  ({ s with slot := t.slot, bundle := some b, saved := some old }).trap t

/-- The parts of what a context dispatches. -/
def Core.readParts (c : Core) (r : CtxRef) : Except (CtxRef × Stop) (List Part) :=
  let one := fun (r : CtxRef) => match readBundle (c.fetchWords r) (c.ctx r).pc with
    | .ok f => Except.ok ({ r := r, f := f } : Part)
    | .error e => .error (r, e)
  if c.form r = .joined then do
    let a ← one r
    let b ← one (.task r.tile 1)
    return [a, b]
  else do
    let a ← one r
    return [a]

/-- What the parts make together. -/
def Core.compose (c : Core) (r : CtxRef) (ps : List Part) : Dispatched :=
  let all := List.range 12
  match ps with
  | [a, b] =>
    let rc := ((((c.tile r.tile).pair.map fun p => p.recs.getD p.pos []).getD []).map fun e => e.own)
    let owner := fun (slot : Nat) => rc.getD slot 0 - 1
    let need := all.map fun slot =>
      let p := if owner slot = 1 then b else a
      let i := slotOp slot (p.eff c slot)
      portsOf i (usesOf slot i)
    { parts := ps, hdr := combinedHdr a.f.head b.f.head need, owner := owner, slots := all }
  | a :: _ =>
    let slots := match c.form r with
      | .noC => all.filter (· != 1)
      | .onlyC => [1]
      | _ => all
    { parts := ps, hdr := a.f.hdr, owner := fun _ => 0, slots := slots }
  | [] => { parts := [], hdr := 0, owner := fun _ => 0, slots := [] }

/-- A context that issues: the image that a waiting `ctx.sv` asked for is written, and a wait of `evt.wt` is over. -/
def Core.issuing (c : Core) (r : CtxRef) : Core :=
  let c := c.beginSave r
  let c := match (c.ctx r).status with
    | .waiting (.evt _) => c.endWait r
    | _ => c
  c.updCtx r fun x => { x with status := .ready }

/-- BUNDLE_DISPATCH: the bundle at the context's pc is read and checked, its queue traffic counted, and its operations become
due in slot order. Beyond one schedule cycle how many it counts is open: those that a consumer waits for a fixed-latency result, those after
a control transfer (09 R227, R234). -/
def execBundleDispatch (s : State) : Host.Outcome State Fault Refusal :=
  match s.event with
  | some (.bundleDispatch r) =>
    match s.toCore.ctx? r with
    | none => .next s
    | some x =>
      if x.life ≠ .live || x.status = .suspended then .next s
      else
        let joined := decide (s.toCore.form r = .joined)
        let refs := if joined then [r, .task r.tile 1] else [r]
        let old := refs.foldl Core.issuing s.toCore
        let own0 : Map Nat := if joined then [(0, 0)] else []
        let c := old.addCycles refs (1 + (Config.cycles (4 * s.seq + 1)).toNat)
        let s := { s with toCore := c, ref := r, slot := 0xF }
        match c.readParts r with
        | .error (r, .trap t) => .next (({ s with ref := r }).dispatchTrap old own0 t)
        | .error (r, .wait w) => .next (({ s with ref := r, saved := some old }).wait w)
        | .ok ps =>
          let old := refs.foldl Core.firstBundle old
          let c := refs.foldl Core.firstBundle c
          let s := { s with toCore := c }
          let d := c.compose r ps
          match c.illegalIn d (c.form r) with
          | some (r, slot, w) => .next (({ s with ref := r }).dispatchTrap old own0 (illegal d.hdr w slot))
          | none =>
            let ops := d.slots.filterMap fun slot => (ps[d.owner slot]?).bind fun p =>
              let w := p.eff c slot
              if w = 0 then none else some (slot, p.r, w)
            match c.queueTrap d.presents (ops.map fun e => (e.1, e.2.1, slotOp e.1 e.2.2)) with
            | some t =>
              let who := ((ops.find? fun e => e.1 == t.slot).map fun e => e.2.1).getD r
              .next (({ s with ref := who }).dispatchTrap old own0 t)
            | none =>
              let pos := fun (q : CtxRef) => match q with
                | .task _ n => n
                | .hc .. => 0
              let b : Bundle :=
                { r := r, pc := x.pc, hdr := d.hdr, len := (ps.head?.map fun p => p.f.len).getD 8, rep := x.rep
                  todo := ops.map fun e => e.1, pres := d.presents, words := ops.foldl (fun m e => mapSet 0 m e.1 e.2.2) []
                  own := if joined then ops.foldl (fun m e => mapIns e.1 (pos e.2.1) m) own0 else []
                  target := none, ends := false, outs := [], sigs := [], cmds := [], late := [], lateA := [] }
              .next { s with bundle := some b, saved := some old }
  | _ => .next s

/-! BUNDLE_COMMIT (R201, R202, R210). -/

/-- The sticky words after a bundle that was dispatched whole or in part. -/
def stickyMap (m : Map Word) (f : Fetched) (slots : List Nat) : Map Word :=
  (f.words.filter fun e => slots.contains e.1).foldl (fun m e =>
    mapSet 0 m e.1 (if onceOp e.1 (slotOp e.1 e.2) then 0 else e.2)) m

/-- A context after one of its bundles: sticky words, port owners, repetitions, loops and the pc. -/
def Ctx.advance (x : Ctx) (f : Fetched) (slots : List Nat) (owners : BitVec 24) (target : Option Word) (stay : Bool) : Ctx :=
  let x := { x with sticky := stickyMap x.sticky f slots, owners := owners }
  if stay then x
  else if x.rep < f.head.rep.toNat then { x with rep := x.rep + 1 }
  else
    let x := { x with rep := 0 }
    match target with
    | some a => { x with pc := a }
    | none =>
      let (x, a) := x.boundary 5 (x.pc + BitVec.ofNat 64 f.len)
      { x with pc := a }

/-- The committed effects that were held: control registers, streams, stores, release stores, commands. A held write of CGCTR wins over the
advance of the bundle's own draws, and a `ctl.wr` over a `rng.set` (log entry 48). -/
def Core.commitHeld (c : Core) (b : Bundle) : Core :=
  let c := b.late.foldl (fun (c : Core) e => c.writeCtl e.1 e.2.1 e.2.2) c
  let c := b.lateA.foldl (fun (c : Core) e => c.updCtx e.1 fun x =>
    x.setStream e.2.1 { Stream.init with desc := e.2.2 }) c
  let c := b.outs.foldl (fun (c : Core) e => c.commitStore e.1 e.2) c
  let c := b.sigs.foldl (fun (c : Core) e => c.releaseLater e.1 .store e.2.1 [e.2.2]) c
  b.cmds.foldl (fun (c : Core) e => c.issueCmd e.1 e.2) c

/-- The phase of a pair after a bundle of it (15 R374, R378). -/
def Core.pairNext (c : Core) (t : Nat) (form : Form) : Core :=
  match (c.tile t).pair with
  | none => c
  | some p =>
    let put := fun (c : Core) (p : Pair) => c.updTile t fun tl => { tl with pair := some p }
    match p.phase with
    | .loopP => put c { p with phase := .loopC }
    | .loopC => put c { p with phase := .check }
    | .refusedP => put c { p with phase := .refusedW }
    | .refusedC => put c { p with phase := .refusedE }
    | .joined =>
      let x := c.ctx (.task t 0)
      if form ≠ .joined || x.rep ≠ 0 then c
      else if (x.loopReg 0).act then put c { p with pos := if x.pc = p.pbody then 0 else p.pos + 1 }
      else
        let shared := descW x.id.desc 10 52 1 = 1
        (put c { p with phase := if shared then .sharedRelease else .epilogueP, pos := 0 }).unforward t
    | _ => c.pairReach t

/-- The end of a context whose `halt` or `hret` commits (07 R181, 09 R246, 17 R408). A task that resumes is given back its planes and its
microprogram store (12 R306, R323). -/
def Core.endCtx (c : Core) (r : CtxRef) : Core :=
  match r with
  | .task t p => (c.updCtx r fun x => { x with life := .ending }).tryEnd t p
  | .hc t k =>
    match (c.ctx r).hc with
    | some h =>
      let c := (c.endHandler t k).handlerOutcome t h
      match h.serves with
      | some id => if h.fault && !(h.engine || h.parked || h.savedTask || h.kill) then c.handBack t id else c
      | none => c
    | none => c

/-- BUNDLE_COMMIT: the bundle whose operations have all issued takes effect. -/
def execBundleCommit (s : State) : Host.Outcome State Fault Refusal :=
  match s.bundle with
  | none => .next s
  | some b =>
    let t := b.r.tile
    let form := s.toCore.form b.r
    let before := s.older
    match before.readParts b.r with
    | .error _ => .next s.rollback
    | .ok ps =>
      let d := before.compose b.r ps
      let h : BitVec 24 := b.hdr.extractLsb' 32 24
      let c := ps.foldl (fun (c : Core) p =>
        let slots := if form = .joined then List.range 12 else d.slots
        c.updCtx p.r fun x =>
          let owners := if form = .joined then h else if form = .onlyC then x.owners else effOwners x.owners p.f.head
          x.advance p.f slots owners b.target (form = .noC)) s.toCore
      let c := (c.commitHeld b).pairNext t form
      let c := if b.ends then c.endCtx b.r else c
      .next { s with toCore := c, bundle := none, saved := none }

end Sys2Proof.Machine
end

