-- ==== Sys2Proof/Machine/Devices.lean ====
section
/-!
DEFINITION. Stores at their homes, the tables of the I/O dies that programs write (06 R151, R152, 18 R431, 19 R439), the host
ports (18 R416 to R423) and the Wale fabric (18 R424 to R432).
-/

namespace Sys2Proof.Machine

open Sys2Proof

/-- STORE_AT_HOME (02 R55). -/
def execStoreAtHome (s : State) : Host.Outcome State Fault Refusal :=
  match s.event with
  | some (.storeAtHome m) => .next { s with toCore := s.toCore.storeArrives m }
  | _ => .next s

/-! The version table (06 R151, R152). -/

/-- Whether two regions overlap. -/
def Region.overlaps (a b : Region) : Bool :=
  decide ((a.base - b.base).toNat < b.npg.toNat * 65536) || decide ((b.base - a.base).toNat < a.npg.toNat * 65536)

/-- Whether an enable is refused (R152). -/
def Domain.enableRefused (d : Domain) (r : Nat) (rg : Region) : Bool :=
  let copies := (List.range 4).map fun c => mapGet Copy.init rg.copies c
  rg.npg == 0 || (copies.any fun c => c.pres && c.state == 3) || !(copies.any fun c => c.pres && c.state == 2) ||
    d.regions.any fun e => e.1 != r && e.2.en && e.2.overlaps rg

/-- A word of a region entry stored while EN = 0 (R151). -/
def Region.write (rg : Region) (word : Nat) (v : Word) : Region :=
  if word = 0 then { rg with vbase := BitVec.ofNat 41 (wbits v 16 41), merr := rg.merr && wbits v 1 1 == 0 }
  else if word = 1 then { rg with cur := BitVec.ofNat 16 (wbits v 48 16), npg := BitVec.ofNat 32 (wbits v 0 32) }
  else if word < 8 || 16 ≤ word then rg
  else
    let f := fun (c : Copy) =>
      if word % 2 = 0 then
        { c with cbase := BitVec.ofNat 36 (wbits v 16 36), state := BitVec.ofNat 2 (wbits v 1 2), pres := wbits v 0 1 == 1 }
      else { c with ver := BitVec.ofNat 16 (wbits v 48 16) }
    { rg with copies := mapUpd Copy.init rg.copies ((word - 8) / 2) f }

/-- A store to a word of a region entry (R151, R152). -/
def Domain.storeRegion (d : Domain) (r word : Nat) (v : Word) : Domain :=
  let rg := mapGet Region.init d.regions r
  let rg :=
    if rg.en then
      if word = 0 then { rg with en := wbits v 0 1 == 1, merr := rg.merr && wbits v 1 1 == 0 } else { rg with merr := true }
    else
      let rg := rg.write word v
      if word = 0 && wbits v 0 1 == 1 then
        if d.enableRefused r rg then { rg with merr := true } else { rg with en := true }
      else rg
  { d with regions := mapSet Region.init d.regions r rg }

/-- REGION_ENTRY_STORE, and a store to LVER in the header of the version table (06 R150, log entry 22). -/
def execRegionEntryStore (s : State) : Host.Outcome State Fault Refusal :=
  match s.event with
  | some (.regionEntryStore d r word v) => .next { s with toCore := s.toCore.updDom d fun dm =>
      if r = headerEntry then { dm with lver := v.setWidth 16 } else dm.storeRegion r word v }
  | _ => .next s

/-! Replica groups (18 R431). -/

/-- The writable bits of a word of a replica-group entry. -/
def groupFields (word : Nat) : Word :=
  match word with
  | 0 => 0x01FFFFFFFFFF0001
  | 1 => 0x00000000FFFFFFFF
  | 2 => 0x0000000000FFFFFF
  | _ => 0

/-- A store to a word of a replica-group entry: while EN = 1 it writes only EN; a SCOPE other than .pod, .span and .sys leaves
EN at 0. -/
def Domain.storeGroup (d : Domain) (g word : Nat) (v : Word) : Domain :=
  let w0 := mapGet 0 d.groups (4 * g)
  let put := fun (n : Nat) (w : Word) => { d with groups := mapSet 0 d.groups (4 * g + n) w }
  if wbits w0 0 1 = 1 then (if word = 0 then put 0 (wset w0 0 1 (wbits v 0 1)) else d)
  else
    let v := v &&& groupFields word
    let scope := wbits (mapGet 0 d.groups (4 * g + 2)) 20 4
    if word = 0 && !(7 ≤ scope && scope ≤ 9) then put 0 (wset v 0 1 0) else put word v

/-- REPLICA_GROUP_ENTRY_STORE. -/
def execReplicaGroupEntryStore (s : State) : Host.Outcome State Fault Refusal :=
  match s.event with
  | some (.replicaGroupEntryStore d g word v) => .next { s with toCore := s.toCore.updDom d fun dm => dm.storeGroup g word v }
  | _ => .next s

/-! Ports (18 R425, R426, R432). -/

def Core.port (c : Core) (p : Nat) : Port := mapGet .init c.mc.ports p

def Core.updPort (c : Core) (p : Nat) (f : Port → Port) : Core :=
  { c with mc := { c.mc with ports := mapUpd Port.init c.mc.ports p f } }

/-- After a port changed: each release in progress waits on the ports that it needs now, since it first did; one of which a route is down
has failed, iod0 lists the missing peers, and the operation or command ends under 05 R149. -/
def Core.reroute (c : Core) : Core :=
  (c.rels.filter fun x => x.ended.isNone).foldl (fun (c : Core) x =>
    let c : Core := { c with rels := c.rels.map fun y => if y.id = x.id then { y with ports := c.waitPorts y } else y }
    match c.lostRoute x.r x.scope x.kind.cmd? with
    | none => c
    | some ps => (c.missingPeers (c.domOf x.r.tile) ps).endRelease x false) c

/-- A port goes DOWN or OFF: the flits in flight on it are dropped (R432). -/
def Core.portDown (c : Core) (p : Nat) (off : Bool) : Core :=
  let c : Core := { c with msgs := c.msgs.filter fun e => match e with
    | .flitReceive f => f.port != p
    | _ => true }
  (c.updPort p fun x => { x with state := if off then 3 else 0, since := c.ftick, retries := 0, rxSeq := [], got := [] }).reroute

/-- A port starts to retrain: what is in progress across it waits on it from now on (05 R149). -/
def Core.portRetrain (c : Core) (p : Nat) : Core :=
  (c.updPort p fun x => { x with state := 2, since := c.ftick, retries := 0 }).reroute

/-- The module at the far end of a torus port (R424, R425); another port's is found by training. -/
def Core.peerOf (c : Core) (p : Nat) : BitVec 20 :=
  if 24 ≤ p then Config.peer p
  else
    let lo := 8 - 4 * (p / 8)
    let m := c.mc.modnum.toNat
    let v := m >>> lo % 16
    let w := if p / 4 % 2 = 0 then (v + 1) % 16 else (v + 15) % 16
    BitVec.ofNat 20 (m - (m >>> lo % 16) <<< lo + w <<< lo)

/-- A port has trained: nothing waits on it any more. -/
def Core.portUp (c : Core) (p : Nat) : Core :=
  (c.updPort p fun x => { x with state := 1, peer := c.peerOf p, pport := Config.peerPort p, since := c.ftick, retries := 0 }).reroute

/-- PORT_LINK_FAIL (R432). -/
def execPortLinkFail (s : State) : Host.Outcome State Fault Refusal :=
  match s.event with
  | some (.portLinkFail p) =>
    if (s.toCore.port p).state = 1 then .next { s with toCore := s.toCore.portRetrain p } else .next s
  | _ => .next s

/-- PORT_TRAINED (R432): within 2,000,000 FTICK of the entry to RETRAIN. -/
def execPortTrained (s : State) : Host.Outcome State Fault Refusal :=
  match s.event with
  | some (.portTrained p) =>
    let x := s.toCore.port p
    if x.state = 2 && (s.ftick - x.since).toNat ≤ 2000000 then .next { s with toCore := s.toCore.portUp p } else .next s
  | _ => .next s

/-- RETRAIN_TIMEOUT (R432). -/
def execRetrainTimeout (s : State) : Host.Outcome State Fault Refusal :=
  match s.event with
  | some (.retrainTimeout p) =>
    let x := s.toCore.port p
    if x.state = 2 && 2000000 ≤ (s.ftick - x.since).toNat then .next { s with toCore := s.toCore.portDown p false } else .next s
  | _ => .next s

/-- The management controller writes EN and DOM of a port (R426, R432). A port classed LASTING stays out of service. -/
def Core.writePort (c : Core) (p : Nat) (v : Word) : Core :=
  let en := wbits v 2 1 == 1
  let was := (c.port p).state
  let c := c.updPort p fun x => { x with en := en, dom := BitVec.ofNat 2 (wbits v 0 2) }
  if !en then (if was = 3 then c else c.portDown p true)
  else if (was = 3 || was = 0) && !(c.port p).lasting then c.portRetrain p
  else if was = 3 then c.portDown p false
  else c

/-- PORT_BLOCK_WRITE (R426). -/
def execPortBlockWrite (s : State) : Host.Outcome State Fault Refusal :=
  match s.event with
  | some (.portBlockWrite p v) => if p < 36 then .next { s with toCore := s.toCore.writePort p v } else .next s
  | _ => .next s

/-! Flits (18 R427). -/

def chanCode (v : VChan) : Nat :=
  match v with
  | .g => 0
  | .w => 1
  | .m => 2
  | .c => 3

/-- The message that a flit completes: for this module, or passed on to its own. -/
def Core.takeFlit (c : Core) (f : Flit) : Core :=
  match f.body with
  | none => c
  | some m =>
    if f.dest != c.mc.modnum then c.sendOut f.dest.toNat m
    else match m with
      | .weights src dom region ver fin id data =>
        c.send (.weightBroadcastReceive { dom := dom, region := region, ver := ver, fin := fin, port := f.port, src := src, id := id, data := data, put := none })
      | m => c.fromModule m

/-- FLIT_RECEIVE (R427): a flit whose CRC fails is resent, and the sixteenth failure in a row fails the link (R432); a flit that
is next in its channel is delivered; another is a copy of one that was. -/
def execFlitReceive (s : State) : Host.Outcome State Fault Refusal :=
  match s.event with
  | some (.flitReceive f) =>
    let x := s.toCore.port f.port
    let k := chanCode f.chan
    if x.state ≠ 1 then .next s
    else if !f.crcOk then
      if x.retries + 1 ≥ 16 then .next { s with toCore := s.toCore.portRetrain f.port }
      else .next { s with toCore := s.toCore.updPort f.port fun x => { x with retries := x.retries + 1 } }
    else if f.seq = mapGet 0 x.rxSeq k then
      .next { s with toCore := (s.toCore.updPort f.port fun x =>
        { x with retries := 0, rxSeq := mapUpd 0 x.rxSeq k (· + 1), got := mapUpd 0 x.got k (· + 1) }).takeFlit f }
    else .next { s with toCore := s.toCore.updPort f.port fun x => { x with retries := 0 } }
  | _ => .next s

/-! Weight broadcasts (18 R430). -/

/-- What a receiver does with a broadcast: discards it, holds it, waits for a home, or has claimed and written a copy. -/
inductive WTake where
  | discard
  | hold
  | busy
  | taken (c : Core) (copy : Nat) (ids : List Nat)

/-- The lines of a broadcast's bytes at their places in the copy. -/
def wbLines (cbase : Nat) (data : List (Nat × Byte)) : List (Nat × List (Option Byte)) :=
  (byLine cbase data).map fun e => (e.1 * 128, (List.range 128).map fun i => (e.2.find? fun x => x.1 == i).map fun x => x.2)

/-- The acknowledgement of a broadcast, to its sender (R430). -/
def Core.ackBroadcast (c : Core) (b : WBcast) : Core := c.sendOut b.src (.weightsDone b.id c.mc.modnum.toNat)

/-- Whether a region takes a version: it has EN = 1, and its CUR is older (R430). -/
def Region.takes (rg : Region) (v : BitVec 16) : Bool := rg.en && decide (0 < sext16 ((v - rg.cur).toNat))

/-- A broadcast at its version table: discarded when EN = 0 or CUR is not older; else a copy is claimed and written. -/
def Core.takeBroadcast (c : Core) (b : WBcast) : WTake :=
  let dm := c.dom b.dom
  let rg := dm.region b.region
  if !rg.takes b.ver then .discard
  else
    match dm.claimable rg with
    | none => .hold
    | some k =>
      let ls := wbLines (mapGet Copy.init rg.copies k).cbase.toNat b.data
      if ls.any fun l => c.recallBusy l.1 || (c.page (l.1 / 65536)).mode == .draining then .busy
      else
        let c := c.updDom b.dom fun dm => dm.claim b.region k
        let (c, ids) := ls.foldl (fun (e : Core × List Nat) l =>
          let (i, c) := e.1.fresh
          let m : StoreMsg := { id := i, tile := Config.tiles, place := .primary, pa := l.1, bytes := l.2, tag := none, dev := false }
          ((c.storeAt m).setTags m, e.2 ++ [i])) (c, [])
        .taken c k ids

/-- A claimed copy that has been written is published with the broadcast's version and FIN; when the region takes that version no longer,
the copy is free again. -/
def Core.publishBroadcast (c : Core) (b : WBcast) (k : Nat) : Core :=
  let rg := (c.dom b.dom).region b.region
  if (mapGet Copy.init rg.copies k).state != 1 then c
  else if rg.takes b.ver then c.updDom b.dom fun dm => dm.publish b.region k b.ver b.fin
  else c.updDom b.dom fun dm => dm.updCopy b.region k fun cp => { cp with state := 0 }

/-- Whether a broadcast's writes have not all been performed at every place. -/
def Core.weightsWait (c : Core) (b : WBcast) : Bool :=
  match b.put with
  | some (_, ids) => ids.any fun i => c.idWaits i || c.storeTravels i false
  | none => false

/-- WEIGHT_BROADCAST_RECEIVE (R430): behind a held broadcast of its port it is held; a copy that has been written is published, and the
broadcast acknowledged, once its writes have been performed. -/
def execWeightBroadcastReceive (s : State) : Host.Outcome State Fault Refusal :=
  match s.event with
  | some (.weightBroadcastReceive b) =>
    match b.put with
    | some (k, _) =>
      if s.toCore.weightsWait b then .next { s with toCore := s.toCore.send (.weightBroadcastReceive b) }
      else .next { s with toCore := (s.toCore.publishBroadcast b k).ackBroadcast b }
    | none =>
      let hold := fun (c : Core) => c.updPort b.port fun x => { x with held := x.held ++ [b] }
      if !(s.toCore.port b.port).held.isEmpty then .next { s with toCore := hold s.toCore }
      else
        match s.toCore.takeBroadcast b with
        | .discard => .next { s with toCore := s.toCore.ackBroadcast b }
        | .hold => .next { s with toCore := hold s.toCore }
        | .busy => .next { s with toCore := s.toCore.send (.weightBroadcastReceive b) }
        | .taken c k ids => .next { s with toCore := c.send (.weightBroadcastReceive { b with put := some (k, ids) }) }
  | _ => .next s

/-- Whether the oldest held broadcast of a port can go on. -/
def Core.heldReady (c : Core) (p : Nat) : Bool :=
  match (c.port p).held with
  | [] => false
  | b :: _ =>
    match c.takeBroadcast b with
    | .discard | .taken _ _ _ => true
    | _ => false

/-- HELD_BROADCAST_RESUME (R430). -/
def execHeldBroadcastResume (s : State) : Host.Outcome State Fault Refusal :=
  match s.event with
  | some (.heldBroadcastResume p) =>
    match (s.toCore.port p).held with
    | [] => .next s
    | b :: rest =>
      let pop := fun (c : Core) => c.updPort p fun x => { x with held := rest }
      match s.toCore.takeBroadcast b with
      | .discard => .next { s with toCore := (pop s.toCore).ackBroadcast b }
      | .taken c k ids => .next { s with toCore := (pop c).send (.weightBroadcastReceive { b with put := some (k, ids) }) }
      | _ => .next s
  | _ => .next s

/-! Requests to the management controller (19 R436, R439). -/

/-- A band's mode set (01 R31). -/
def Core.setBand (c : Core) (b mode : Nat) : Core :=
  { c with mc := { c.mc with hband := mapUpd 0 c.mc.hband (b / 32) fun w => wset w (2 * (b % 32)) 2 mode } }

/-- The answer to a request: a device message of class 0x41 with the status. -/
def Core.mcAnswer (c : Core) (d status : Nat) : Core := c.devMsg d 0x41 (leBytes 8 status)

/-- A band request (R439): refused where it would set INT32 with a stack out of service (R436); performed, with an answer to
each domain that asked, once every domain with a supervisor tile has asked for the same; else pending. -/
def Core.bandRequest (c : Core) (d b mode : Nat) : Core :=
  if (mode = 0 || mode = 3) && !c.mc.stacksOut.isEmpty then c.mcAnswer d 1
  else
    let c := c.updDom d fun dm => { dm with bandReqs := mapSet 0 dm.bandReqs b (mode + 1) }
    let asks := fun (k : Nat) => mapGet 0 (c.dom k).bandReqs b == mode + 1
    if (List.range 4).all fun k => asks k || wbits (c.ctl k 0x68) 15 1 == 0 then
      ((List.range 4).filter asks).foldl (fun (c : Core) k =>
        (c.updDom k fun dm => { dm with bandReqs := mapSet 0 dm.bandReqs b 0 }).mcAnswer k 0) (c.setBand b mode)
    else c.mcAnswer d 2

/-- A port request (R439): refused unless the port is the domain's or OFF. -/
def Core.portRequest (c : Core) (d p : Nat) (en dom : Nat) : Core :=
  if 36 ≤ p || ((c.port p).dom.toNat ≠ d && (c.port p).state ≠ 3) then c.mcAnswer d 1
  else (c.writePort p (BitVec.ofNat 64 (4 * en + dom))).mcAnswer d 0

/-- MC_REQUEST_SUBMIT (R439): a store to word 0; with GO = 1 the request is submitted, and answered here. -/
def execMcRequestSubmit (s : State) : Host.Outcome State Fault Refusal :=
  match s.event with
  | some (.mcRequestSubmit d v) =>
    let c := s.toCore.updDom d fun dm => { dm with req := v &&& 0xFFFFFFFF00000002 }
    if wbits v 0 1 = 0 then .next { s with toCore := c }
    else if wbits v 1 1 = 0 then .next { s with toCore := c.bandRequest d (wbits v 32 7) (wbits v 40 2) }
    else .next { s with toCore := c.portRequest d (wbits v 32 6) (wbits v 40 1) (wbits v 42 2) }
  | _ => .next s

/-! Host functions (18 R416 to R419). -/

/-- The domain that a function is bound to (R417). -/
def Core.boundDomain (c : Core) (f : Nat) : Option Nat :=
  let w := mapGet 0 c.mc.hfunc f
  if f < 6 && wbits w 8 1 = 1 then some (wbits w 0 2) else none

/-- The rights of a function: a physical function acts as a supervisor context, a virtual one as a task (R418). -/
def hostWho (d f : Nat) : Who := { deviceWho d with sup := f % 3 == 0 }

/-- SENDER of a function (R416). -/
def hostSender (f : Nat) : BitVec 32 := BitVec.ofNat 32 (0x1000 + f)

/-- Where an offset of BAR0 goes: the tile windows (R418). -/
def Core.bar0 (c : Core) (w : Who) (acc : Acc) (pa : Nat) : Op Loc :=
  checked acc { va := 0, pa := pa, mt := 1, repl := false, leaf := none } (c.paCause w acc pa)

/-- The functions of a function's port. -/
def portMate (f : Nat) (sender : Nat) : Bool := 0x1000 ≤ sender && (sender - 0x1000) / 3 == f / 3

/-- Whether posted writes of the port of a function have not been performed: a message on its way or held at a BUSY slot, a
push on its way or held (R419). -/
def Core.portStalled (c : Core) (f : Nat) : Bool :=
  (c.msgs.any fun e => match e with
    | .messageSlotWrite _ _ _ _ sender _ _ _ => portMate f sender.toNat
    | .remoteQueuePush _ _ _ src _ => portMate f src
    | _ => false) ||
  c.tiles.any fun e => (e.2.held.any fun h => portMate f h.sender.toNat) || e.2.pushBuf.any fun p => portMate f p.src

/-- Earlier writes of the host have arrived at every replica and sharer: what the release of a message waits for (R419). -/
def Core.hostArrived (c : Core) : Bool := (c.diffs.all fun d => d.left == 0) && c.home.all fun e => e.2.sent.all fun x => x.2 != Config.tiles

/-- Whether a run of bytes written by a function completes a message. -/
def isMessage (c c' : Core) : Bool := c'.msgs.length > c.msgs.length &&
  (c'.msgs.drop c.msgs.length).any fun e => match e with
    | .messageSlotWrite .. => true
    | _ => false

/-- HOST_POSTED_WRITE (R418, R419): performed in arrival order as a plain write; one that faults is discarded and reported. A
write behind a stalled one, or a message before earlier writes have arrived, waits. -/
def execHostPostedWrite (s : State) : Host.Outcome State Fault Refusal :=
  match s.event with
  | some (.hostPostedWrite f bar2 ofs bytes) =>
    let c := s.toCore
    let again : Core := { c with msgs := .hostPostedWrite f bar2 ofs bytes :: c.msgs }
    match c.boundDomain f with
    | none => .next s
    | some d =>
      if c.portStalled f then .next { s with toCore := again }
      else
        let w := hostWho d f
        let find := fun (c : Core) (va : Word) => if bar2 then c.engineLoc w .engWr va else c.bar0 w .engWr va.toNat
        let start := if bar2 then ofs % 2 ^ 42 else Config.windowBase + ofs % 2 ^ 33
        let report := fun (t : TrapInfo) => c.faultMsg d (c.deviceRecord d t)
        match c.outsidePut w (hostSender f) find (BitVec.ofNat 64 start) bytes [] (bytes.length / 64 + 3) with
        | .ok (_, _, some t) => .next { s with toCore := report t }
        | .ok (c', _, none) => .next { s with toCore := if isMessage c c' && !c.hostArrived then again else c' }
        | .error (.wait v) => .next { s with toCore := again.engineAsk w v }
        | .error (.trap t) => .next { s with toCore := report t }
  | _ => .next s

/-- A read of any length, 4 KiB by 4 KiB: its bytes, or the fault of the lowest byte. -/
def Core.hostRun (c : Core) (w : Who) (va : Word) (n : Nat) : Nat → Op (List Byte)
  | 0 => .ok []
  | fuel + 1 =>
    if n = 0 then .ok []
    else do
      let k := min n 4096
      let (bs, f) ← c.engineRun w va k
      match f with
      | some e => raise e.2
      | none => do
        let t ← c.hostRun w (va + BitVec.ofNat 64 k) (n - k) fuel
        return bs.map (fun b => b.getD 0) ++ t

/-- The bytes a function reads, or the fault of the lowest byte. -/
def Core.hostBytes (c : Core) (w : Who) (bar2 : Bool) (ofs n : Nat) : Op (List Byte) :=
  if bar2 then c.hostRun w (BitVec.ofNat 64 (ofs % 2 ^ 42)) n (n / 4096 + 1)
  else (List.range n).mapM fun i => do
    let l ← c.bar0 w .engRd (Config.windowBase + ofs % 2 ^ 33 + i)
    if c.poisoned l.pa 1 then raise (accTrap .engRd 0 l.pa cUncorr)
    let (_, bs) ← c.engineBytes w l 1
    return bs.headD 0

/-- How a host read completed: its bytes, or Completer Abort. -/
def Core.hostAnswer (c : Core) (r : Option (List Byte)) : Core := { c with mc := { c.mc with hostDone := c.mc.hostDone ++ [r] } }

/-- HOST_READ (R418, R419): after every earlier posted write of the function. -/
def execHostRead (s : State) : Host.Outcome State Fault Refusal :=
  match s.event with
  | some (.hostRead f bar2 ofs len) =>
    let c := s.toCore
    let again : Core := { c with msgs := .hostRead f bar2 ofs len :: c.msgs }
    match c.boundDomain f with
    | none => .next { s with toCore := c.hostAnswer none }
    | some d =>
      if c.portStalled f then .next { s with toCore := again }
      else
        let w := hostWho d f
        match c.hostBytes w bar2 ofs len with
        | .ok bs =>
          let c := if bar2 then c.markReads w [(BitVec.ofNat 64 (ofs % 2 ^ 42), len)] else c
          .next { s with toCore := c.hostAnswer (some bs) }
        | .error (.wait v) => .next { s with toCore := again.engineAsk w v }
        | .error (.trap t) => .next { s with toCore := (c.faultMsg d (c.deviceRecord d t)).hostAnswer none }
  | _ => .next s

/-- HOST_FUNCTION_BINDING: the management controller writes an RW field of the host block (R417). -/
def execHostFunctionBinding (s : State) : Host.Outcome State Fault Refusal :=
  match s.event with
  | some (.hostFunctionBinding n v) =>
    let mask : Word := if n < 6 then 0x103 else if n < 8 then 0xFFFFF00000000001 else if n < 10 then 0xFFFFF0FFFFFFF000 else 0
    let mode := mapGet 0 s.mc.hfunc n &&& (if 8 ≤ n then 3 else 0)
    if n < 10 then
      .next { s with toCore := { s.toCore with mc := { s.mc with hfunc := mapSet 0 s.mc.hfunc n ((v &&& mask) ||| mode) } } }
    else .next s
  | _ => .next s

/-! CXL (18 R420, R421) and offload flushes (R422). -/

/-- CXL_SNOOP (R421): the home slice writes the line back. -/
def execCxlSnoop (s : State) : Host.Outcome State Fault Refusal :=
  match s.event with
  | some (.cxlSnoop pa) => .next { s with toCore := s.toCore.writeBack (pa / 128) }
  | _ => .next s

/-- CXL_BACK_INVALIDATION_DONE (R421): the module's write has arrived at the host. -/
def execCxlBackInvalidationDone (s : State) : Host.Outcome State Fault Refusal :=
  match s.event with
  | some (.cxlBackInvalidationDone pa) =>
    .next { s with toCore := { s.toCore with backInv := s.backInv.filter (· != pa / 128) } }
  | _ => .next s

/-- OFFLOAD_FLUSH_READ_DONE (R422): the commands that waited for the port's flush read go on. -/
def execOffloadFlushReadDone (s : State) : Host.Outcome State Fault Refusal :=
  match s.event with
  | some (.offloadFlushReadDone p) =>
    .next { s with toCore := { s.toCore with mc := { s.mc with flush := s.mc.flush.filter fun e => e.1 != p } } }
  | _ => .next s

/-- PA of an HBM offset (01 R29). -/
def hbmPa (h : Nat) : Nat := if h < 0xF000000000 then h else h + 0x1000000000

/-- The PA of a CXL.mem access: within HMOFS and HMSIZE, on a port trained as CXL (R420), in a stack in service. -/
def Core.cxlMemPa (c : Core) (p ofs n : Nat) : Option Nat :=
  let w := mapGet 0 c.mc.hfunc (8 + p)
  let h := wbits w 12 18 * 2 ^ 30 + ofs
  if c.cohUp p && ofs + n ≤ wbits w 30 10 * 2 ^ 30 && h + n ≤ 2 ^ 42 && !c.hbmAbsent h then some (hbmPa h) else none

/-- CXL_MEM_ACCESS (R420, R421): a host write is applied at the line's home slice, and starts no back-invalidation; a read
returns the home's bytes. -/
def execCxlMemAccess (s : State) : Host.Outcome State Fault Refusal :=
  match s.event with
  | some (.cxlMemAccess p write ofs bytes) =>
    let c := s.toCore
    match c.cxlMemPa p ofs bytes.length with
    | none => .next { s with toCore := if write then c else c.hostAnswer none }
    | some pa =>
      let parts := splitLines (bytes.length / 128 + 2) pa (bytes.map some)
      if parts.any fun e => c.recallBusy e.1 || (c.page (e.1 / 65536)).mode == .draining then
        .next { s with toCore := c.send (.cxlMemAccess p write ofs bytes) }
      else if write then
        let c' := parts.foldl (fun (c : Core) e =>
          let m : StoreMsg := { id := 0, tile := Config.tiles, place := .primary, pa := e.1, bytes := e.2, tag := none, dev := false }
          (c.storeAt m).setTags m) c
        .next { s with toCore := { c' with backInv := c.backInv } }
      else
        let c' := parts.foldl (fun (c : Core) e => c.touch .primary e.1 false) c
        .next { s with toCore := c'.hostAnswer (some (c.homeBytes pa bytes.length)) }
  | _ => .next s

end Sys2Proof.Machine
end

