-- ==== Sys2Proof/Machine/Startup.lean ====
section
/-!
DEFINITION. The management controller: start-up and its log (19 R433 to R436, R438), resets (00 R3, R15), attestation (R437), power
and margins (R440, R441), errors and self-tests (17 R412 to R415).
-/

namespace Sys2Proof.Machine

open Sys2Proof

/-! The start-up steps (R433, R434). -/

/-- The latest log entry of a unit of a step. -/
def lastEntry (log : List LogEnt) (step unit : Nat) : Option LogEnt :=
  log.reverse.find? fun e => e.step.toNat == step && e.unit.toNat == unit

/-- Whether a unit's primary path failed and its alternate path passed at start `boot`. -/
def altPassed (log : List LogEnt) (boot : BitVec 32) (step unit : Nat) : Bool :=
  let es := log.filter fun e => e.boot == boot && e.step.toNat == step && e.unit.toNat == unit
  (es.any fun e => e.path == 0 && e.outcome == 1) && es.any fun e => e.path == 1 && e.outcome == 0

/-- How a unit's step ended: on which path it passed, or out of service. -/
inductive StepEnd where
  | primary
  | alternate
  | lost
deriving DecidableEq, Repr

/-- One attempt: its entry. -/
def Core.attempt (c : Core) (step unit : Nat) (path : BitVec 4) (ok : Bool) : Core :=
  c.logAdd (if ok then 0 else 1) path (BitVec.ofNat 16 unit) (BitVec.ofNat 8 step)

/-- A unit's step, with the log as it stood at reset: a unit mapped out is skipped; one whose alternate path passed last time
begins with it; a unit that fails both attempts is mapped out when `out` says so. -/
def Core.startUnit (c : Core) (log : List LogEnt) (tries : List StartTry) (step unit : Nat) (out : Bool) : StepEnd × Core :=
  let t := (tries.find? fun t => t.step == step && t.unit == unit).getD ⟨step, unit, true, true⟩
  if (lastEntry log step unit).any fun e => e.outcome == 2 then
    (.lost, c.logAdd 2 2 (BitVec.ofNat 16 unit) (BitVec.ofNat 8 step))
  else
    let alt := altPassed log (c.mc.boot - 1) step unit
    let (first, second) := if alt then (t.alternate, t.primary) else (t.primary, t.alternate)
    let (p1, p2) : BitVec 4 × BitVec 4 := if alt then (1, 0) else (0, 1)
    let (e1, e2) := if alt then (StepEnd.alternate, StepEnd.primary) else (.primary, .alternate)
    let c := c.attempt step unit p1 first
    if first then (e1, c)
    else
      let c := c.attempt step unit p2 second
      if second then (e2, c)
      else (.lost, if out then c.logAdd 2 1 (BitVec.ofNat 16 unit) (BitVec.ofNat 8 step) else c)

/-- A step over its units: how each ended. -/
def Core.startStep (c : Core) (log : List LogEnt) (tries : List StartTry) (step : Nat) (units : List Nat) : List (Nat × StepEnd) × Core :=
  units.foldl (fun (a : List (Nat × StepEnd) × Core) u =>
    let (e, c) := a.2.startUnit log tries step u true
    (a.1 ++ [(u, e)], c)) ([], c)

def lostUnits (es : List (Nat × StepEnd)) : List Nat := (es.filter fun e => decide (e.2 = .lost)).map fun e => e.1

/-- Bits of a predicate as bytes, the lowest number in bit 0. -/
def bitBytes (n : Nat) (f : Nat → Bool) : List Byte :=
  (List.range n).map fun i => BitVec.ofNat 8 ((List.range 8).foldl (fun a k => a + flagNat (f (8 * i + k)) * 2 ^ k) 0)

/-- The payload of the start-up record (R438): tiles, stacks, ports not DOWN, dies. -/
def Core.startRecord (c : Core) : List Byte :=
  bitBytes 64 (fun t => (c.tile t).serv) ++ bitBytes 4 (fun k => !c.mc.stacksOut.contains k) ++
    bitBytes 5 (fun p => decide (p < 36) && (c.port p).state != 0) ++ bitBytes 1 (fun d => !c.mc.diesOut.contains d)

/-- The machine as module reset leaves it before the first step: registers at their reset values; HBM, host memory, the log and
the clocks go on (log entries 1, 3, 4). -/
def Core.resetCore (c : Core) : Core :=
  { Core.init with
    mem := c.mem, hostMem := c.hostMem, ftick := c.ftick, sclk := c.sclk, seq := c.seq, nid := c.nid
    poison := c.poison.filter fun e => e.1 < 2 ^ 60
    mc := { Mc.init with log := c.mc.log, boot := c.mc.boot + 1, resetAt := c.ftick, modnum := Config.moduleNumber } }

/-- Steps 2 to 6: dies, stacks, margins, tiles and slices; a die that leaves service takes its stacks, tiles and slices. -/
def Core.startUnits (c : Core) (log : List LogEnt) (tries : List StartTry) : Core :=
  let (e2, c) := c.startStep log tries 2 (List.range 8)
  let d2 := lostUnits e2
  let (e3, c) := c.startStep log tries 3 ((List.range 32).filter fun k => !d2.contains (k / 4))
  let (e4, c) := c.startStep log tries 4 ((List.range 8).filter fun d => !d2.contains d)
  let dies := (List.range 8).filter fun d => d2.contains d || (lostUnits e4).contains d
  let gone := (List.range 32).filter fun k => dies.contains (k / 4) || (lostUnits e3).contains k
  let (e5, c) := c.startStep log tries 5 ((List.range Config.tiles).filter fun t => !dies.contains (dieOf t))
  let (e6, c) := c.startStep log tries 6 ((List.range 512).filter fun k => !dies.contains (k / 64))
  let tiles := (List.range Config.tiles).filter fun t => dies.contains (dieOf t) || (lostUnits e5).contains t
  let power := (List.range 8).foldl (fun (m : Map Power) d =>
    if dies.contains d then m
    else mapSet Power.init m d { Power.init with marg := BitVec.ofNat 8 (min 255 (Config.voltCeiling d)), plannedAt := c.ftick }) []
  let linear : Word := 0xAAAAAAAAAAAAAAAA
  let hband : Map Word := if gone.isEmpty then [] else (List.range 4).map fun n => (n, linear)
  let c := tiles.foldl (fun (c : Core) t => c.updTile t fun tl => { tl with serv := false }) c
  { c with mc := { c.mc with diesOut := dies, stacksOut := gone, slicesOut := lostUnits e6, power := power, hband := hband } }

/-- Step 7: the Wale ports that the platform configuration enables, those with an attempt. -/
def Core.startPorts (c : Core) (log : List LogEnt) (tries : List StartTry) : Core :=
  let ps := (List.range 36).filter fun p => tries.any fun t => t.step == 7 && t.unit == p
  let (e7, c) := c.startStep log tries 7 ps
  e7.foldl (fun (c : Core) e =>
    let c := c.updPort e.1 fun x => { x with en := true, state := 0 }
    if decide (e.2 = .lost) then c else c.portUp e.1) c

/-- Step 8: the host ports in the mode that the platform configuration names, or as PCIe. -/
def Core.startHosts (c : Core) (log : List LogEnt) (tries : List StartTry) (modes : List (BitVec 2)) : Core :=
  let (e8, c) := c.startStep log tries 8 [0, 1]
  e8.foldl (fun (c : Core) e =>
    let mode : BitVec 2 := match e.2 with
      | .primary => modes.getD e.1 0
      | .alternate => 1
      | .lost => 0
    { c with mc := { c.mc with hfunc := mapUpd 0 c.mc.hfunc (8 + e.1) fun w => wset w 0 2 mode.toNat } }) c

/-- The steps of the start in order; it ends with step 1 or step 9 when that fails. -/
def Core.startUp (c : Core) (tries : List StartTry) (key : Nat × Nat) (modes : List (BitVec 2)) : Core :=
  let log := c.mc.log
  let (e1, c) := c.startUnit log tries 1 0 false
  if decide (e1 = .lost) then c
  else
    let c := ((c.startUnits log tries).startPorts log tries).startHosts log tries modes
    let ok := ((tries.find? fun t => t.step == 9).map fun t => t.primary).getD true
    let c := c.attempt 9 0 0 ok
    if !ok then c
    else
      let c : Core := { c with mc := { c.mc with ukey := some key, started := true } }
      let c := c.attempt 10 0 0 true
      (List.range 4).foldl (fun (c : Core) d => c.devMsg d 0x40 c.startRecord) c

/-- MODULE_RESET (R433). -/
def execModuleReset (s : State) : Host.Outcome State Fault Refusal :=
  match s.event with
  | some (.moduleReset tries key modes) =>
    .next { s with toCore := s.toCore.resetCore.startUp tries key modes, ref := .task 0 0, slot := 0, bundle := none, saved := none }
  | _ => .next s

/-! Domain reset and tiles (00 R3, R15, 01 R47, 12 R323). -/

/-- A tile that a domain reset takes out of its domain (16 R397: MEMB resets to 0): what ran on it has ended; its storage and its L1 stay,
and stores to device memory that were made still arrive. -/
def Tile.released (tl : Tile) : Tile :=
  { Tile.init with
    serv := tl.serv, closed := !tl.serv, lanesOut := tl.lanesOut, acc := tl.acc, banks := tl.banks, ucode := tl.ucode
    ucHeld := tl.ucHeld, win := tl.win, devOut := tl.devOut, l1 := tl.l1, testing := tl.testing }

/-- DOMAIN_RESET (log entry 34): the registers and tables that reset on domain reset take their reset values, the domain's translations go
(01 R47), its replicas drop as their pools close, and no tile belongs to it, so that nothing of it runs or waits to. The phases of its
residency ranges stay: R71 names no reset for them, and they belong to the home slices. -/
def execDomainReset (s : State) : Host.Outcome State Fault Refusal :=
  match s.event with
  | some (.domainReset d) =>
    let c := (List.range 8).foldl (fun (c : Core) n => c.writeDrep d n 0) s.toCore
    let c := c.invalidate d 0 0 0
    let c : Core := { c with rels := c.rels.filter fun x => c.domOf x.r.tile != d }
    let c : Core := { c with tiles := c.tiles.map fun e => if e.2.dom == some d then (e.1, e.2.released) else e }
    .next { s with toCore := c.setDom d .init }
  | _ => .next s

/-- Whether a tile holds nothing of its domain: no task, handler, message, fault, command or push. -/
def Tile.idle (tl : Tile) : Bool :=
  tl.queue.isEmpty && (tl.hcs.all fun e => e.2.isNone) && tl.msgq.isEmpty && tl.held.isEmpty && tl.faults.isEmpty && tl.cmds.isEmpty &&
    tl.pushBuf.isEmpty && tl.saving.isEmpty && tl.testing.isNone && decide (tl.stage = .active)

/-- TILE_PASSING_TO_DOMAIN (00 R3): the microprogram store fills with zeros (12 R323); the tile joins the actor side, which a
tile is on at reset (16 R397). A tile that is not idle stays. -/
def execTilePassingToDomain (s : State) : Host.Outcome State Fault Refusal :=
  match s.event with
  | some (.tilePassingToDomain t d) =>
    if t ≥ Config.tiles || d.any (fun k => decide (4 ≤ k)) || !(s.toCore.tile t).idle then .next s
    else .next { s with toCore := s.toCore.updTile t fun tl =>
      { tl with dom := d, learner := false, ucode := [], ucHeld := none, tlb := [], walks := [], walkBad := [], regions := [] } }
  | _ => .next s

/-! SPDM (R437). The formats of the answers are those of SPDM 1.2 (log entry 5). -/

def State.spdmAnswer (s : State) (f : Spdm → Spdm) (bytes : List Byte) : State :=
  { s with toCore := { s.toCore with mc := { s.mc with spdm := { f s.mc.spdm with answer := bytes } } } }

/-- ERROR with a code. -/
def spdmError (code : Byte) : List Byte := [0x12, 0x7F, code, 0]

/-- A request that needs the negotiation before it. -/
def spdmAfter (s : State) (ready : Bool) (f : State → State) : Host.Outcome State Fault Refusal :=
  .next (if ready then f s else s.spdmAnswer id (spdmError 4))

/-- SPDM_GET_VERSION: version 1.2; a negotiation begins again. -/
def execSpdmGetVersion (s : State) : Host.Outcome State Fault Refusal :=
  .next (s.spdmAnswer (fun _ => ⟨true, false, false, []⟩) [0x10, 0x04, 0, 0, 0, 1, 0x00, 0x12])

/-- SPDM_GET_CAPABILITIES: certificates, challenges, signed measurements. -/
def execSpdmGetCapabilities (s : State) : Host.Outcome State Fault Refusal :=
  spdmAfter s s.mc.spdm.version fun s =>
    s.spdmAnswer (fun p => { p with caps := true }) ([0x12, 0x61, 0, 0, 0, Config.spdmTiming, 0, 0] ++
      leBytes 4 0x16 ++ leBytes 4 Config.spdmTransfer.toNat ++ leBytes 4 Config.spdmMessage.toNat)

/-- SPDM_NEGOTIATE_ALGORITHMS: ECDSA P-384 and SHA-384 where the request offers them. -/
def execSpdmNegotiateAlgorithms (s : State) : Host.Outcome State Fault Refusal :=
  match s.event with
  | some (.spdmNegotiateAlgorithms asym hash) =>
    spdmAfter s s.mc.spdm.caps fun s =>
      let a := asym &&& 0x80
      let h := hash &&& 2
      s.spdmAnswer (fun p => { p with algs := a != 0 && h != 0 })
        ([0x12, 0x63, 0, 0] ++ leBytes 2 36 ++ [1, 0] ++ leBytes 4 4 ++ leBytes 4 a.toNat ++ leBytes 4 h.toNat ++ List.replicate 12 0 ++
          [0, 0, 0, 0])
  | _ => .next s

/-- The 48 bytes of a SHA-384 digest. -/
def digestBytes (n : Nat) : List Byte := (leBytes 48 n).reverse

def chainDigest : List Byte := sha384 Config.certificate

/-- SPDM_GET_DIGESTS: slot 0. -/
def execSpdmGetDigests (s : State) : Host.Outcome State Fault Refusal :=
  spdmAfter s s.mc.spdm.algs fun s => s.spdmAnswer id ([0x12, 0x01, 0, 1] ++ chainDigest)

/-- SPDM_GET_CERTIFICATE: a portion of the identity chain. -/
def execSpdmGetCertificate (s : State) : Host.Outcome State Fault Refusal :=
  match s.event with
  | some (.spdmGetCertificate slot ofs len) =>
    spdmAfter s s.mc.spdm.algs fun s =>
      let rest := Config.certificate.drop ofs
      let part := rest.take len
      if slot ≠ 0 || rest.isEmpty then s.spdmAnswer id (spdmError 1)
      else s.spdmAnswer id ([0x12, 0x02, 0, 0] ++ leBytes 2 part.length ++ leBytes 2 (rest.length - part.length) ++ part)
  | _ => .next s

/-- SPDM_CHALLENGE: the identity key signs the answer with the requester's nonce. -/
def execSpdmChallenge (s : State) : Host.Outcome State Fault Refusal :=
  match s.event with
  | some (.spdmChallenge slot nonce) =>
    spdmAfter s s.mc.spdm.algs fun s =>
      if slot ≠ 0 then s.spdmAnswer id (spdmError 1)
      else
        let body := [0x12, 0x03, 0, 1] ++ chainDigest ++ leBytes 32 (Config.spdmNonce s.seq).toNat ++ [0, 0]
        s.spdmAnswer id (body ++ Config.identitySign (leBytes 32 nonce ++ body))
  | _ => .next s

/-- The 16 bytes of a log entry (R434). -/
def LogEnt.bytes (e : LogEnt) : List Byte :=
  leBytes 16 (e.time.toNat * 2 ^ 64 + e.outcome.toNat * 2 ^ 60 + e.path.toNat * 2 ^ 56 + e.unit.toNat * 2 ^ 40 +
    e.step.toNat * 2 ^ 32 + e.boot.toNat)

/-- The value of a measurement (R437). -/
def Core.measurement (c : Core) (n : Nat) : List Byte :=
  match n with
  | 1 => digestBytes Config.romDigest.toNat
  | 2 => digestBytes Config.firmwareImageDigest.toNat
  | 3 => match c.mc.ukey with
    | some (x, y) => sha384 ((leBytes 48 x).reverse ++ (leBytes 48 y).reverse)
    | none => sha384 []
  | _ => sha384 ((c.mc.log.filter fun e => e.boot == c.mc.boot).flatMap LogEnt.bytes)

/-- One measurement block. -/
def Core.measBlock (c : Core) (n : Nat) : List Byte :=
  [BitVec.ofNat 8 n, 1] ++ leBytes 2 51 ++ [BitVec.ofNat 8 (n - 1)] ++ leBytes 2 48 ++ c.measurement n

/-- SPDM_GET_MEASUREMENTS: index 0 asks for their number, 255 for all. -/
def execSpdmGetMeasurements (s : State) : Host.Outcome State Fault Refusal :=
  match s.event with
  | some (.spdmGetMeasurements i) =>
    spdmAfter s s.mc.spdm.algs fun s =>
      let ns := if i = 0 then [] else if i = 255 then [1, 2, 3, 4] else [i]
      let blocks := ns.flatMap fun n => s.toCore.measBlock n
      if 4 < i && i ≠ 255 then s.spdmAnswer id (spdmError 1)
      else s.spdmAnswer id ([0x12, 0x60, if i = 0 then 4 else 0, 0, BitVec.ofNat 8 ns.length] ++ leBytes 3 blocks.length ++ blocks ++
        leBytes 32 (Config.spdmNonce s.seq).toNat ++ [0, 0])
  | _ => .next s

/-! Power (R440) and margins (R441). -/

def Core.power (c : Core) (d : Nat) : Power := mapGet .init c.mc.power d

def Core.updPower (c : Core) (d : Nat) (f : Power → Power) : Core :=
  { c with mc := { c.mc with power := mapUpd Power.init c.mc.power d f } }

/-- The die with the highest PNOW, the lowest number among equals. -/
def topDie (p : PowerRead) : Nat :=
  (List.range 8).foldl (fun b d => if (p.pnow.getD d 0).toNat > (p.pnow.getD b 0).toNat then d else b) 0

/-- k after a tick: up by 8 over a limit, else down by 1 well under it. -/
def Power.tick (x : Power) (pnow : BitVec 16) (above : Bool) : Power :=
  let k := x.swal.toNat
  let k := if x.plim.toNat < pnow.toNat || above then min 255 (k + 8) else if pnow.toNat + 20 < x.plim.toNat then k - 1 else k
  { x with pnow := pnow, swal := BitVec.ofNat 8 k }

/-- POWER_CONTROL_TICK (R440). -/
def execPowerControlTick (s : State) : Host.Outcome State Fault Refusal :=
  match s.event with
  | some (.powerControlTick p) =>
    let c : Core := { s.toCore with mc := { s.mc with mnow := p.mnow } }
    let above := decide (c.mc.mlim.toNat < p.mnow.toNat)
    .next { s with toCore := (List.range 8).foldl (fun (c : Core) d =>
      c.updPower d fun x => x.tick (p.pnow.getD d 0) (above && d == topDie p)) c }
  | _ => .next s

/-- Powered time between margin plans: 24 hours of FTICK. -/
def replanTime : Nat := 86400 * 10 ^ 9

/-- A plan: the voltage rises to its ceiling, then STR up to 32. -/
def Power.plan (x : Power) (ceiling steps stretch : Nat) (pass : Bool) (now : Word) : Power :=
  let v := min ceiling (x.volts + steps)
  let str := if v < ceiling then x.str.toNat else max x.str.toNat (min 32 (x.str.toNat + stretch))
  { x with volts := v, str := BitVec.ofNat 8 str, plannedAt := now
           marg := BitVec.ofNat 8 (if str = 32 && !pass then 0 else min 255 (ceiling - v)) }

/-- MARGIN_REPLAN (R441): at STR 32 with monitors that fail, each supervisor that uses the die is told. -/
def execMarginReplan (s : State) : Host.Outcome State Fault Refusal :=
  match s.event with
  | some (.marginReplan d steps stretch pass) =>
    let x := s.toCore.power d
    if (s.ftick - x.plannedAt).toNat < replanTime || 8 ≤ d then .next s
    else
      let y := x.plan (Config.voltCeiling d) steps stretch pass s.ftick
      let c := s.toCore.updPower d fun _ => y
      if y.str = 32 && !pass then
        let uses := (List.range 4).filter fun k => c.tiles.any fun e => e.2.dom == some k && dieOf e.1 == d
        .next { s with toCore := uses.foldl (fun (c : Core) k => c.devMsg k 0x42 [BitVec.ofNat 8 d]) c }
      else .next { s with toCore := c }
  | _ => .next s

/-- SIDEBAND_POWER_SETTING: PLIM of a die or MLIM (R440). -/
def execSidebandPowerSetting (s : State) : Host.Outcome State Fault Refusal :=
  match s.event with
  | some (.sidebandPowerSetting n v) =>
    if n < 8 then .next { s with toCore := s.toCore.updPower n fun x => { x with plim := v } }
    else if n = 8 then .next { s with toCore := { s.toCore with mc := { s.mc with mlim := v } } }
    else .next s
  | _ => .next s

/-- SIDEBAND_LOG_CLEAR: the platform clears an entry of the log (R434). -/
def execSidebandLogClear (s : State) : Host.Outcome State Fault Refusal :=
  match s.event with
  | some (.sidebandLogClear i) => .next { s with toCore := { s.toCore with mc := { s.mc with log := s.mc.log.eraseIdx i } } }
  | _ => .next s

/-! Errors and self-tests (17 R412 to R415). -/

/-- The AUX0 code of a unit (17 R414). -/
def unitCode (u : UnitKind) : Nat :=
  match u with
  | .scratchpad => 1 | .accumulator => 2 | .queueFile => 3 | .matrixArray => 4 | .forestLane => 5
  | .sort => 6 | .l1 => 7 | .homeSlice => 8 | .hbmRow => 9 | .walePort => 10

/-- The mark of a word that cannot be corrected: a word at a PA, a word of an L1, a queue entry by its number. -/
def Core.errorKey (c : Core) (u : UnitKind) (index pa : Nat) : Option Nat :=
  match u with
  | .scratchpad | .accumulator | .forestLane | .homeSlice | .hbmRow => some (c.poisonKey pa)
  | .l1 => some (l1Key index pa)
  | .queueFile => some (entryKey pa)
  | .matrixArray | .sort | .walePort => none

/-- ECC_ERROR_DETECTED (17 R412, R413): the word is marked poisoned unless it was corrected, and the unit's self-test is due; a
tile's waits for a boundary of its running task. -/
def execEccErrorDetected (s : State) : Host.Outcome State Fault Refusal :=
  match s.event with
  | some (.eccErrorDetected u i pa fixed) =>
    let c := s.toCore
    let c : Core := match (if fixed then none else c.errorKey u i pa) with
      | some k => { c with poison := mapSet false c.poison k true }
      | none => c
    let c : Core := if c.mc.testing.any fun e => e.1 == u && e.2.1 == i then c
      else { c with mc := { c.mc with testing := c.mc.testing ++ [(u, i, pa)] } }
    match unitTile u i with
    | some t => .next { s with toCore := if c.running t then c.addReq t .selfTest else c }
    | none => .next { s with toCore := c }
  | _ => .next s

/-- The domains that use a unit: its tile's, or every domain that has a tile. -/
def Core.usersOf (c : Core) (u : UnitKind) (i : Nat) : List Nat :=
  match unitTile u i with
  | some t => (List.range 4).filter fun d => (c.tile t).dom == some d
  | none => (List.range 4).filter fun d => c.tiles.any fun e => e.2.dom == some d

/-- A home slice that leaves service gives its lines up: those with sharers are recalled first (17 R414, 02 R57). -/
def Core.emptySlice (c : Core) (i : Nat) : Core :=
  (c.slices.filter fun e => e.1 / 512 == i).foldl (fun (c : Core) e =>
    e.2.foldl (fun (c : Core) w =>
      let (pl, line) := keyPlace w.line
      if c.replaceable w then c.dropLine w.line else c.startRecall pl line) c) c

/-- A unit classed LASTING leaves service (17 R414). -/
def Core.removeUnit (c : Core) (u : UnitKind) (i : Nat) : Core :=
  match u with
  | .scratchpad | .accumulator | .queueFile | .matrixArray | .sort | .l1 =>
    let c := (c.stopHead i).answered (.pre i)
    c.updTile i fun tl => { tl with serv := false, closed := true, stage := if tl.stage = .saving then .saving else .draining }
  | .forestLane => c.updTile (i / 8) fun tl => { tl with lanesOut := tl.lanesOut ||| (1#8 <<< (i % 8)) }
  | .homeSlice => { c with mc := { c.mc with slicesOut := c.mc.slicesOut ++ [i] } }.emptySlice i
  | .hbmRow => c
  | .walePort => (c.updPort i fun x => { x with lasting := true }).portDown i false

/-- SELF_TEST_COMPLETE (17 R413 to R415): the class is SOFT when one of the two tests passes, else LASTING; the supervisors that
use the unit get a record, and the log an entry of STEP 0. -/
def execSelfTestComplete (s : State) : Host.Outcome State Fault Refusal :=
  match s.event with
  | some (.selfTestComplete u i first second) =>
    let c := s.toCore
    match c.mc.testing.find? fun e => e.1 == u && e.2.1 == i with
    | none => .next s
    | some (_, _, pa) =>
      let ready := match unitTile u i with
        | some t => (c.tile t).testing == some u
        | none => true
      if !ready then .next s
      else
        let c : Core := { c with mc := { c.mc with testing := c.mc.testing.filter fun e => !(e.1 == u && e.2.1 == i) } }
        let c := match unitTile u i with
          | some t => c.updTile t fun tl => { tl with testing := none }
          | none => c
        let soft := first || second
        let page := if u = .hbmRow then pa / 65536 * 65536 else 0
        let tr := { unitTrap (unitCode u) i with aux1 := BitVec.ofNat 64 (page + if soft then 1 else 2) }
        let c := (c.usersOf u i).foldl (fun (c : Core) d => c.faultMsg d (c.deviceRecord d tr)) c
        let c := c.logAdd (if soft then 0 else 1) 0 (BitVec.ofNat 16 i) 0
        .next { s with toCore := if soft then c else c.removeUnit u i }
  | _ => .next s

end Sys2Proof.Machine
end

