-- ==== Sys2Proof/Machine/Actions.lean ====
section
/-!
DEFINITION. What can happen next: the messages that can arrive, the steps of the tiles' units, engines and contexts, and those of
the homes, ports and schedulers; the choice among them (log entries 6, 7, 20); and where an instruction is placed to be the next.
-/

namespace Sys2Proof.Machine

open Sys2Proof

/-! Messages. -/

/-- A path on which messages arrive in the order they were sent (02 R53; log entry 20): from a home slice to a tile, between two tiles, from
a tile to a home slice; the stores of a tile to a slice; and those of the other units. -/
inductive Chan where
  | fromSlice (die slice tile : Nat)
  | peers (src dst : Nat)
  | toSlice (tile die slice : Nat)
  | stores (tile die slice : Nat)
  | push (tile q src : Nat)
  | slot (tile slot : Nat) (sender : BitVec 32)
  | object (pa src : Nat)
  | host (port : Nat)
  | flit (port chan : Nat)
  | weights (port : Nat)
  | page (die page : Nat)
  | forwards (die page : Nat)
  | device
deriving DecidableEq, Repr

/-- The tile whose operation a barrier signal carries first. -/
def barSrc (ops : List BarOp) : Nat := (ops.head?.map barRank).getD 0

/-- The path of a message about a line to a sharer, from its home or from another sharer. -/
def lineChan (tile line : Nat) (src : BitVec 7) : Chan :=
  if src = ptrHome then .fromSlice (dieOf tile) (homeSlice (line * 128)) tile else .peers (peerTile tile src) tile

/-- The path of a message; none for one that arrives whenever it may. -/
def Core.chan (c : Core) (m : Event) : Option Chan :=
  match m with
  | .fill t _ line _ _ => some (lineChan t line ptrHome)
  | .upd t _ line _ _ src _ | .setprev t line src _ | .setnext t line src _ | .recall t _ line src => some (lineChan t line src)
  | .nack t line src => if src = ptrHome then none else some (lineChan t line src)
  | .ack true pl line _ _ src | .sethead pl line src _ =>
    let die := c.placeDie pl line
    if src = ptrHome then none else some (.toSlice (die * 64 + src.toNat % 64) die (homeSlice (line * 128)))
  | .ack false pl line _ t _ => if isIodPa (line * 128) then none else some (.fromSlice (c.placeDie pl line) (homeSlice (line * 128)) t)
  | .storeAtHome x => some (.stores x.tile (c.placeDie x.place (x.pa / 128)) (homeSlice x.pa))
  | .remoteQueuePush t q _ src _ => some (.push t q src)
  | .messageSlotWrite t slot _ _ sender _ _ _ => some (.slot t slot sender)
  | .barrierUpdateAtHome pa ops => some (.object pa (barSrc ops))
  | .hostPostedWrite f _ _ _ | .hostRead f _ _ _ => some (.host (f / 3))
  | .flitReceive f => some (.flit f.port (chanCode f.chan))
  | .weightBroadcastReceive b => if b.put.isSome then none else some (.weights b.port)
  | .diffAtPrimary d => some (.page d.die d.page)
  | .forwardedAtomic t _ pa _ _ _ _ _ _ _ => some (.page (dieCode t) (pa / 65536))
  | .forwardedDiffApply die d => some (.forwards die d.page)
  | .borderBlockWrite .. | .replicaGroupEntryStore .. | .mcRequestSubmit .. | .regionEntryStore .. => some .device
  | _ => none

/-- A store to a register of the I/O dies that has not taken effect. -/
def deviceStore (m : Event) : Bool :=
  match m with
  | .borderBlockWrite .. | .replicaGroupEntryStore .. | .mcRequestSubmit .. | .regionEntryStore .. => true
  | _ => false

/-- Whether a message is the FILL of a line to a tile. -/
def fillsLine (tile line : Nat) (m : Event) : Bool :=
  match m with
  | .fill t _ l _ _ => t == tile && l == line
  | _ => false

/-- Whether the lines of a diff are free at a place: none is being recalled (02 R57). -/
def Core.diffFree (c : Core) (pl : Place) (d : Diff) : Bool := (byLine d.page d.bytes).all fun l => !(c.homeLine pl l.1).recalled

/-- Whether the result of an atomic performed elsewhere may return: what was forwarded to its die's replica before it has been applied
throughout the die (02 R65), and the publish that its acquire waits for is done (05 R133). -/
def Core.resultFree (c : Core) (earlier : List Event) (tile id : Nat) : Bool :=
  match ((c.tile tile).queue ++ (c.tile tile).hcs.filterMap (·.2)).findSome? fun x => x.far.filter fun f => f.id == id with
  | none => true
  | some f =>
    let die := dieOf tile
    (earlier.all fun e => match e with
      | .forwardedDiffApply d x => !(d == die && x.page == f.pa / 65536)
      | _ => true) &&
    (c.homeLine (.replica die) (f.pa / 128)).sent.isEmpty && f.hold.all fun k => c.clean k (c.domOf tile)

/-- Whether a message can arrive now, with those sent before it: none on its path is before it, the FILL of a line is before what else a
sharer is told of it, its home is free (02 R57, R62), its port is not stalled and does not retrain (18 R419, R432). The ACK of a store to a device register
follows its effect. -/
def Core.arrives (c : Core) (earlier : List Event) (m : Event) : Bool :=
  (match c.chan m with
    | some k => earlier.all fun e => c.chan e != some k
    | none => true) &&
  match m with
  | .upd t _ line _ _ _ _ | .setprev t line _ _ | .setnext t line _ _ | .recall t _ line _ => !earlier.any (fillsLine t line)
  | .nack t line src =>
    !earlier.any (fillsLine t line) &&
      (src != ptrHome || c.atRest (c.l1Place t line) line || (c.l1Tag t line).all fun x => x.relay.isNone)
  | .ack true pl line _ storer src =>
    !(storer = recallStorer && src = ptrHome) || (c.atRest pl line && !c.refusing (c.placeDie pl line) line)
  | .storeAtHome x => !(c.homeLine x.place (x.pa / 128)).recalled
  | .loadMissAtHome _ pl line => !(c.homeLine pl line).recalled
  | .diffAtPrimary d => c.diffFree .primary d
  | .forwardedDiffApply die d => c.diffFree (.replica die) d
  | .barrierUpdateAtHome pa _ | .forwardedAtomic _ _ pa _ _ _ _ _ _ _ => !c.recallBusy pa && (c.page (pa / 65536)).mode != .draining
  | .registerWriteLand t id _ => c.resultFree earlier t id
  | .linkTransferLand (.landed dom _ _ rel ids _) =>
    !c.landingWaits dom rel ids || ((rel.any fun q => decide (6 ≤ scopeCode q)) && !c.cxlDirty.isEmpty)
  | .ack false _ line _ _ _ => !(isIodPa (line * 128) && earlier.any deviceStore)
  | .hostPostedWrite f _ _ _ | .hostRead f _ _ _ => !c.portStalled f
  | .flitReceive f => (c.port f.port).state != 2
  | .weightBroadcastReceive b => !c.weightsWait b
  | _ => true

/-! Waits (log entry 7). -/

/-- Whether a die has asked for a page, or gives it up: the request or the drop is on its way or awaited. -/
def Core.askedPage (c : Core) (die page : Nat) : Bool :=
  ((c.page page).asking.any fun a => a.die == die) || c.msgs.any fun m => match m with
    | .replicaRequest d p _ _ | .replicaDrop d p => d == die && p == page
    | _ => false

/-- Whether this module holds no replica of a page and has asked for none, and the page is LINE again (02 R68). -/
def Core.droppedHere (c : Core) (page : Nat) : Bool :=
  (List.range 8).all (fun die => (c.replica die page).isNone && !c.askedPage die page) &&
    ((c.page page).mode == .line || (c.replicaDies page).any fun e => decide (8 ≤ e))

/-- Whether a wait may be over: its bundle is issued again, and waits again where it must. -/
def Core.waitOver (c : Core) (r : CtxRef) (w : Wait) : Bool :=
  let x := c.ctx r
  match w with
  | .walk vp => !(c.tile r.tile).walks.contains vp
  | .region g => !c.msgs.contains (.regionDescriptorFetch r.tile g)
  | .replica die page _ => !c.askedPage die page
  | .wide _ => c.rels.all fun e => !decide (e.kind = .wait && e.r = r && e.ended = none)
  | .publish die => c.clean die (c.domOf r.tile)
  | .evt mask => x.r.ev &&& mask != 0
  | .bar _ _ => false
  | .mx => x.rout.isNone && x.macs.isEmpty
  | .fo => x.fo.isNone
  | .eng => (c.cmdsOf r).isEmpty
  | .pre t => !c.hasReq t .pre || (x.hc.any fun h => h.asked == some true)
  | .move _ _ => (c.dom (c.domOf r.tile)).move.isNone || (x.hc.any fun h => h.asked == some true)
  | .drop pages => pages.all c.droppedHere
  | .save _ => (x.hc.all fun h => h.asked.isNone) || c.released r .mod
  | .cast .. => x.cast.isSome
  | .reg | .entry | .remote | .acks | .replay | .heldWrite | .device | .cmdq | .reads | .task => true

/-- Whether a context can issue its next bundle, or the one that waited: nothing while an atomic of its own is performed elsewhere, or
while a part of a store waits for room in the replay queue. -/
def Core.issues (c : Core) (r : CtxRef) : Bool :=
  let x := c.ctx r
  x.life == .live && x.far.isNone && x.late.isEmpty && (match x.status with
    | .ready => true
    | .waiting w => c.waitOver r w
    | .suspended => false)

/-! Actions. -/

/-- What can happen next: a message arrives, a unit of the machine makes a step, a command of an engine goes on, the sequencer
performs a micro-op, a task that has halted or was killed leaves. -/
inductive Action where
  | message (i : Nat)
  | event (e : Event)
  | command (tile id : Nat)
  | uop (r : CtxRef)
  | leave (r : CtxRef)
deriving DecidableEq, Repr

/-- Actions of a condition. -/
def acts (b : Bool) (l : List Action) : List Action := if b then l else []

def act (b : Bool) (e : Event) : List Action := if b then [.event e] else []

/-- Messages that can arrive. -/
def Core.arrivals (c : Core) (earlier : List Event) (ms : List Event) : List Action :=
  match ms with
  | [] => []
  | m :: t => (if c.arrives earlier m then [.message earlier.length] else []) ++ c.arrivals (earlier ++ [m]) t

/-! A tile's tasks. -/

/-- Whether the running task of a tile, or its pair, issues its next bundle (08 R207, 15 R374, R378). Under a request for a boundary only a
bundle that has been dispatched goes on (16 R391 step 1). -/
def Core.taskIssues (c : Core) (t : Nat) : Bool :=
  let tl := c.tile t
  let rs := tl.runners.map fun p => CtxRef.task t p
  let again := fun (r : CtxRef) => match (c.ctx r).status with
    | .waiting w => !w.withdrawn
    | _ => false
  let open' := match tl.queue with
    | x :: _ => x.reqs.isEmpty || (!c.boundaryDue t && !c.expired t && rs.any again)
    | [] => false
  let paired := tl.pair.any fun p => p.phase = .check || p.phase = .sharedRelease
  tl.dom.isSome && tl.testing.isNone && open' && !paired && rs.all fun r => (c.ctx? r).isSome && c.issues r && !(c.ctx r).budDue

/-- Whether a pause of the sequencer is wanted (12 R320): for a boundary, or for the save of a suspended task (09 R249). -/
def Core.pauseWanted (c : Core) (t : Nat) (x : Ctx) : Bool :=
  (match (c.tile t).queue with
    | y :: _ => !y.reqs.isEmpty
    | [] => false) ||
  (x.status == .suspended && (c.tile t).hcs.any fun e => e.2.any fun y => match y.status with
    | .waiting .task | .waiting (.save _) => true
    | _ => false)

/-- Whether the image of a task of a tile is being written: no parked store of the tile is retried meanwhile (09 R249). -/
def Core.imaging (c : Core) (t : Nat) : Bool :=
  (c.tile t).hcs.any fun e => e.2.any fun y => match y.status with
    | .waiting (.save _) => true
    | _ => false

/-- The sequencer's next action (12 R313 to R321): a freeze of the bundle engine stops it (08 R217). -/
def Core.routineActs (c : Core) (t : Nat) : List Action :=
  let tl := c.tile t
  match c.routineOn t with
  | none => []
  | some r =>
    let x := c.ctx r
    let frozen := tl.runners.any fun p => match (c.ctx (.task t p)).status with
      | .waiting w => w.freezes
      | _ => false
    match x.rout with
    | none => []
    | some u =>
      if u.paused || u.faulted.isSome || tl.testing.isSome || frozen then []
      else
        let w := mapGet 0 tl.ucode u.pc.toNat
        match decodeUop w with
        | .error _ => [.event (.routineFault t kIllegal cUcode 0)]
        | .ok _ =>
          if w.getLsbD 63 && c.pauseWanted t x then act x.macs.isEmpty (.routinePause t) else [.uop r]

/-- What a tile's scheduler, Splicer and Border can do. -/
def Core.queueActs (c : Core) (t : Nat) : List Action :=
  let tl := c.tile t
  let shared := tl.pair.any (fun p => p.phase = .sharedRelease) && c.issues (.task t 0)
  act (c.taskIssues t) (.bundleDispatch (.task t (tl.runners.headD 0))) ++
  act (c.startable t).isSome (.taskStart t) ++
  act (c.resumable t) (.taskResume t) ++
  act (tl.pair.any fun p => p.phase = .check) (.splicePointCheck t) ++
  act shared (.spliceSharedRelease t) ++
  act (c.testIdle t || c.boundaryDue t) (.alignedBoundaryReached t) ++
  act (c.yieldDue t) (.yield t) ++
  act (c.watchdogDue t) (.abintWatchdog t) ++
  act (c.overrun t).isSome (.budgetOverrun t) ++
  act (tl.stage != .active && decide (c.saveStep t ≠ c)) (.borderSaveComplete t) ++
  (List.range tl.queue.length).flatMap fun p =>
    let x := c.ctx (.task t p)
    acts ((x.life == .ending || x.life == .dying) && decide (c.tryEnd t p ≠ c)) [.leave (.task t p)]

/-- What the units of a tile's contexts can do: landings, pre-translations, retries, the end of a wait on a barrier. -/
def Core.unitActs (c : Core) (t : Nat) : List Action :=
  let tl := c.tile t
  act (tl.queue.any fun x => !x.macs.isEmpty) (.macResultLand t) ++
  act (tl.queue.any fun x => x.fo.isSome) (.forestOpLand t) ++
  (tl.queue.mapIdx fun p x =>
    let r := CtxRef.task t p
    (x.vs.flatMap fun e => match e.2.wait with
      | some d => act d.data.isSome (.vredDeferredReduction t d.eid)
      | none => []) ++
    act (x.retryable.isSome && !c.imaging t) (.parkedStoreRetry r) ++
    (match x.status with
      | .waiting (.bar pa target) => act (c.barOver pa target) (.barrierWaitSatisfied r)
      | _ => []) ++
    if x.life == .live && tl.runners.contains p then
      x.a.flatMap fun e => act (e.2.page != some (e.2.addr.toNat / 65536)) (.streamPreTranslation r (BitVec.ofNat 4 e.1))
    else []).flatten ++
  tl.hcs.flatMap fun e =>
    let r := CtxRef.hc t e.1
    act (e.2.isSome && c.issues r) (.bundleDispatch r) ++
    (match (c.ctx r).status with
      | .waiting (.bar pa target) => act (c.barOver pa target) (.barrierWaitSatisfied r)
      | _ => [])

/-- What a tile's engines can do (14 R351 to R361). -/
def Core.engineActs (c : Core) (t : Nat) : List Action :=
  (c.tile t).cmds.flatMap fun m =>
    acts (c.cmdReady t m) [.command t m.id] ++
    act (c.cmdDone m) (.engineCommandComplete t m.id) ++
    (match m.phase with
      | .faulted | .refused _ => [.event (.engineCommandFault t m.id)]
      | .linkSent =>
        act ((mapGet Port.init c.mc.ports m.linkPort).state == 1) (.linkTransferLand (.remoteDone t m.id))
      | _ => []) ++
    act (c.roundOpen t m) (.linkRoundSend t m.id)

/-- What a tile's memory side can do: evictions, pushes, message slots, handlers, walks. -/
def Core.memoryActs (c : Core) (t : Nat) : List Action :=
  let tl := c.tile t
  (tl.l1.flatMap fun e => act (e.2.any fun x => x.relay.isNone) (.l1Evict t e.1)) ++
  act (c.pushReady t).isSome (.pushBufferDrain t) ++
  (((tl.held.map fun h => h.slot).eraseDups).flatMap fun k => act (!tl.busy.contains k) (.heldSlotWriteRelease t k)) ++
  act (tl.handlerPick != .none) (.handlerStart t) ++
  tl.walks.map fun vp => .event (.pageWalkComplete t vp)

def Core.tileActs (c : Core) (t : Nat) : List Action :=
  c.queueActs t ++ c.routineActs t ++ c.unitActs t ++ c.engineActs t ++ c.memoryActs t

/-! The rest of the module. -/

/-- Whether a context on a die waits for the dirty granules of a domain on die `at`: a widened acquire, an atomic whose acquire is
widened, the save of a task. -/
def Ctx.publishes (x : Ctx) (here : Bool) (at' : Nat) : Bool :=
  (match x.status with
    | .waiting (.publish die) => die == at'
    | .waiting .task | .waiting (.save _) => here
    | _ => false) || x.far.any fun f => f.hold == some at'

/-- Whether something waits for the dirty granules of a domain on a die (02 R66, 05 R133): a release in progress, a widened acquire, a
task that ends or is saved, a transfer that has landed with a release. -/
def Core.publishWanted (c : Core) (die d : Nat) : Bool :=
  (c.rels.any fun x => x.ended.isNone && decide (4 ≤ scopeCode x.scope) && dieOf x.r.tile == die && c.domOf x.r.tile == d) ||
  (c.msgs.any fun m => match m with
    | .linkTransferLand (.landed dom _ _ rel _ _) => dom == d && rel.any fun q => decide (4 ≤ scopeCode q)
    | _ => false) ||
  c.tiles.any fun e => e.2.dom == some d &&
    ((dieOf e.1 == die && (e.2.stage != .active || e.2.queue.any fun x => x.life == .ending || x.life == .dying)) ||
      (e.2.queue ++ e.2.hcs.filterMap fun h => h.2).any fun x => x.publishes (dieOf e.1 == die) die)

/-- Evictions of the lines that the home slices hold (02 R57), and of coherent lines that none could keep (18 R421). -/
def Core.homeActs (c : Core) : List Action :=
  let evict := fun (pl : Place) (line : Nat) =>
    let h := c.homeLine pl line
    act (h.sent.isEmpty && !h.recalled) (.homeSliceEvict pl line)
  ((c.slices.flatMap (·.2)).flatMap fun w => let (pl, line) := keyPlace w.line; evict pl line) ++
    (c.cxlDirty.filter fun line => !c.inSlice .primary line).flatMap fun line => evict .primary line

/-- Replicas and pages (02 R62, R63). -/
def Core.replicaActs (c : Core) : List Action :=
  (c.pages.flatMap fun e => act (e.2.mode == .draining && c.pageQuiet e.1) (.replicaDrainComplete e.1)) ++
  c.reps.flatMap fun x =>
    act (!x.dirty.isEmpty && decide (2048 ≤ (c.ftick - x.since).toNat)) (.dirtyGranuleFlushTimer x.die x.page) ++
    act (!x.dirty.isEmpty && c.publishWanted x.die x.dom) (.forcedPublish x.die x.dom)

/-- Releases in progress (04 R118, 05 R149) and ports (18 R430, R432). -/
def Core.fabricActs (c : Core) : List Action :=
  (c.rels.flatMap fun x =>
    act (x.ended.isNone && (c.releaseMet x || (decide (6 ≤ scopeCode x.scope) && !c.cxlDirty.isEmpty))) (.releaseComplete x.id) ++
    act (x.ended.isNone && (c.waitPorts x).any fun p => decide (2000000 ≤ (c.ftick - p.2).toNat)) (.fenceLinkWaitTimeout x.id)) ++
  c.mc.ports.flatMap fun e =>
    act (e.2.state == 2 && decide (2000000 ≤ (c.ftick - e.2.since).toNat)) (.retrainTimeout e.1) ++
    act (c.heldReady e.1) (.heldBroadcastResume e.1)

/-- What a domain's launch scheduler and device messages can do. -/
def Core.domainActs (c : Core) (d : Nat) : List Action :=
  let dm := c.dom d
  act (c.devReady d) (.deviceMessageDeliver d) ++
  act (c.unsupervised d) (.unsupervisedDomainTimer d) ++
  (dm.lqs.flatMap fun e => match dm.depNext e.1 with
    | none => []
    | some (_, l, head) =>
      let ends := match c.depEnd d l with
        | .ended => true
        | .failed => head
        | .waits => false
        | .publish die => !(c.dirtyReps die d).isEmpty
      act ends (.dependenceWaitEnd d (decide (16 ≤ e.1)) (e.1 % 16))) ++
  [false, true].flatMap fun side => act (c.choose d side (c.served d side) []).isSome (.placementDecision d side)

/-- Everything that can happen next while no bundle is in progress. -/
def Core.actions (c : Core) : List Action :=
  c.arrivals [] c.msgs ++ (c.tiles.flatMap fun e => c.tileActs e.1) ++ (c.doms.flatMap fun e => c.domainActs e.1) ++
    c.homeActs ++ c.replicaActs ++ c.fabricActs

/-! The choice (log entry 6). -/

/-- The instruction of a command of the A slot; a word that is none does nothing. -/
def Cmd.instr (m : Cmd) : Instr :=
  match slotOp 11 m.word with
  | .cp o => .cp o
  | .cpRs o => .cpRs o
  | .cpBc o => .cpBc o
  | .cpGt o => .cpGt o
  | .cpLk o => .cpLk o
  | .evtSg o => .evtSg o
  | .msg o => .msg o
  | _ => .nop

/-- The next micro-op of a context's routine. -/
def Core.uopAt (c : Core) (r : CtxRef) : Instr :=
  match decodeUop (mapGet 0 (c.tile r.tile).ucode (((c.ctx r).rout.map fun u => u.pc.toNat).getD 0)) with
  | .ok i => i
  | .error _ => .nop

/-- FTICK and the schedule cycles pass by open amounts; the draw is used up. -/
def Core.pass (c : Core) : Core :=
  { c with ftick := c.ftick + Config.wall c.seq, sclk := c.sclk + (Config.cycles (4 * c.seq)).toNat, seq := c.seq + 1 }

/-- The machine as an action finds it, with the instruction that performs it. -/
def State.acting (s : State) (a : Action) : Instr × State :=
  match a with
  | .message i =>
    match s.msgs[i]? with
    | some m => (m.instr, { s with toCore := { s.toCore with msgs := s.msgs.eraseIdx i }, event := some m })
    | none => (.nop, s)
  | .event e => (e.instr, { s with event := some e })
  | .command t id =>
    (((s.toCore.cmd? t id).map Cmd.instr).getD .nop, { s with ref := .task t 0, slot := id, event := none })
  | .uop r => (s.toCore.uopAt r, { s with ref := r, event := none })
  | .leave r => (.halt ⟨false, 0⟩, { s with ref := r, event := none })

/-- The action that is drawn: the only one, or an open choice. -/
def pickAction (seq : Nat) (as : List Action) : Option Action :=
  match as with
  | [] => none
  | [a] => some a
  | _ => as[Config.pick seq % as.length]?

/-- The context whose operation a slot of the bundle in progress is. -/
def Bundle.who (b : Bundle) (slot : Nat) : CtxRef := if b.own.isEmpty then b.r else .task b.r.tile (mapGet 0 b.own slot)

/-- What the next step runs, and the machine it runs on. A bundle in progress issues its slots in order, its LA operation before its LB
operation with nothing arriving between (log entry 44), and commits; else time passes and one action is drawn; none when nothing can
happen. -/
def State.turn (s : State) : Option (Instr × State) :=
  match s.bundle with
  | some b =>
    match b.todo with
    | [] => some (.bundleCommit, { s with ref := b.r })
    | slot :: rest =>
      some (slotOp slot (mapGet 0 b.words slot), { s with ref := b.who slot, slot := slot, bundle := some { b with todo := rest } })
  | none =>
    let s' := { s with toCore := s.toCore.pass }
    (pickAction s.seq s.toCore.actions).map fun a => s'.acting a

/-- Time passes while nothing can happen. -/
def State.idle (s : State) : State := { s with toCore := s.toCore.pass }

/-! Placing an instruction (log entry 10). -/

/-- A task that runs on tile 0. -/
def placedCtx : Ctx := { Ctx.init with life := .live, started := true }

/-- The machine without the other agents' pending work. -/
def Core.quiet (c : Core) : Core :=
  { c with tiles := [], doms := [], home := [], slices := [], tags := [], reps := [], pages := [], diffs := [], refused := [], msgs := []
           out := [], rels := [], cxlDirty := [], backInv := []
           mc := { c.mc with ports := [], testing := [] } }

/-- A micro-op is the step that a routine on tile 0 reaches, all else quiet. -/
def State.placeUop (s : State) (w : Word) : State :=
  let u : Routine := { num := 0, entry := 0, pc := 0, lc0 := 0, lc1 := 0, ls0 := 0, ls1 := 0, key := 0, tag := 0, paused := false
                       faulted := none }
  let x := { placedCtx with status := .waiting .mx, rout := some u }
  let tl := { Tile.init with dom := some 0, queue := [x], ucode := mapSet 0 [] 0 w }
  { s with toCore := s.toCore.quiet.setTile 0 tl, ref := .task 0 0, slot := 8, event := none, bundle := none, saved := none }

/-- A slot operation is the one that a dispatched bundle of a task on tile 0 issues next. -/
def State.placeSlot (s : State) (hdr w : Word) : State :=
  let slot := ((decodeHeader hdr).toOption.bind fun h => firstSlot h.pres).getD 0
  let c := s.toCore.updTile 0 fun tl => { tl with dom := some 0, queue := [placedCtx], pair := none }
  let b : Bundle := { r := .task 0 0, pc := 0, hdr := hdr, len := 16, rep := 0, todo := [slot], pres := [slot], words := mapSet 0 [] slot w, own := []
                      target := none, ends := false, outs := [], sigs := [], cmds := [], late := [], lateA := [] }
  { s with toCore := c, ref := .task 0 0, slot := slot, event := none, bundle := some b, saved := some c }

/-- The instruction of `nbits` bits `w`, as `decodeTableWord` lays it out, placed to be run next. -/
def State.placeWord (s : State) (nbits w : Nat) : State :=
  if nbits ≤ 64 then s.placeUop (BitVec.ofNat 64 w) else s.placeSlot (BitVec.ofNat 64 w) (BitVec.ofNat 64 (w / 2 ^ 64))

end Sys2Proof.Machine
end

