-- ==== Sys2Proof/Machine/Scalar.lean ====
section
/-!
DEFINITION. The S slot but for the control-register moves: arithmetic, bit fields, compares, select and immediates
(09 R227 to R232), and `nop`.
-/

namespace Sys2Proof.Machine

open Sys2Proof

/-- An operation on two scalars (09 R228). -/
def alu2 (s : State) (o : OpRRR) (f : Word → Word → Word) : Host.Outcome State Fault Refusal :=
  guarded s o.gd skip fun s => do
    let a ← s.rdS o.a
    let b ← s.rdS o.b
    return s.wrS o.d (f a b)

/-- An operation on one scalar (09 R228). -/
def alu1 (s : State) (o : OpRR) (f : Word → Word) : Host.Outcome State Fault Refusal :=
  guarded s o.gd skip fun s => do
    let a ← s.rdS o.a
    return s.wrS o.d (f a)

/-- An operation on a scalar and a sign-extended immediate (09 R229). -/
def aluImm (s : State) (o : OpRRI) (f : Word → Word → Word) : Host.Outcome State Fault Refusal :=
  guarded s o.gd skip fun s => do
    let a ← s.rdS o.a
    return s.wrS o.d (f a (o.imm.signExtend 64))

/-- A shift by an immediate (09 R229). -/
def aluShift (s : State) (o : OpShI) (f : Word → Nat → Word) : Host.Outcome State Fault Refusal :=
  guarded s o.gd skip fun s => do
    let a ← s.rdS o.a
    return s.wrS o.d (f a o.sh.toNat)

/-- A compare of two scalars (09 R231). -/
def compare2 (s : State) (o : OpCmp) (c : Cond) : Host.Outcome State Fault Refusal :=
  guarded s o.gd skip fun s => do
    let a ← s.rdS o.a
    let b ← s.rdS o.b
    return s.wrG o.d (c.holds a b)

/-- A compare with an immediate (09 R231). -/
def compareImm (s : State) (o : OpCmpI) (c : Cond) : Host.Outcome State Fault Refusal :=
  guarded s o.gd skip fun s => do
    let a ← s.rdS o.a
    return s.wrG o.d (c.holds a (o.imm.signExtend 64))

/-- The high half of the exact signed product (09 R228). -/
def mulHigh (a b : Word) : Word := wordOfInt ((a.toInt * b.toInt) / 2 ^ 64)

/-- The high half of the exact unsigned product. -/
def mulHighU (a b : Word) : Word := BitVec.ofNat 64 ((a.toNat * b.toNat) / 2 ^ 64)

/-- The quotient of `divu`: all ones for a zero divisor (09 R228). -/
def divide (a b : Word) : Word := if b = 0 then BitVec.allOnes 64 else BitVec.ofNat 64 (a.toNat / b.toNat)

/-- The amount of a register shift: the low six bits (09 R228). -/
def shiftAmount (b : Word) : Nat := b.toNat % 64

/-- Leading zeros, 64 for zero. -/
def leadingZeros (a : Word) : Word := BitVec.ofNat 64 (64 - bitLen a.toNat)

/-- Set bits. -/
def popCount (a : Word) : Word := BitVec.ofNat 64 ((List.range 64).filter fun i => a.getLsbD i).length

/-- The field of `bfx` (09 R230). -/
def bitField (a : Word) (pos len : Nat) : Nat := wbits a pos len

/-- `nop`: no effect (08 R198). -/
def execNop (s : State) : Host.Outcome State Fault Refusal := .next s

def execAdd (o : OpRRR) (s : State) : Host.Outcome State Fault Refusal := alu2 s o fun a b => a + b
def execSub (o : OpRRR) (s : State) : Host.Outcome State Fault Refusal := alu2 s o fun a b => a - b
def execMul (o : OpRRR) (s : State) : Host.Outcome State Fault Refusal := alu2 s o fun a b => a * b
def execMulh (o : OpRRR) (s : State) : Host.Outcome State Fault Refusal := alu2 s o mulHigh
def execMulhu (o : OpRRR) (s : State) : Host.Outcome State Fault Refusal := alu2 s o mulHighU

/-- `divu`: a zero divisor sets FPSF.DZ and raises no trap (09 R228). -/
def execDivu (o : OpRRR) (s : State) : Host.Outcome State Fault Refusal :=
  guarded s o.gd skip fun s => do
    let a ← s.rdS o.a
    let b ← s.rdS o.b
    return (s.wrS o.d (divide a b)).flag (fIf (b == 0) fDZ)

def execAnd (o : OpRRR) (s : State) : Host.Outcome State Fault Refusal := alu2 s o fun a b => a &&& b
def execOr (o : OpRRR) (s : State) : Host.Outcome State Fault Refusal := alu2 s o fun a b => a ||| b
def execXor (o : OpRRR) (s : State) : Host.Outcome State Fault Refusal := alu2 s o fun a b => a ^^^ b
def execShl (o : OpRRR) (s : State) : Host.Outcome State Fault Refusal := alu2 s o fun a b => a <<< shiftAmount b
def execShr (o : OpRRR) (s : State) : Host.Outcome State Fault Refusal := alu2 s o fun a b => a >>> shiftAmount b
def execSra (o : OpRRR) (s : State) : Host.Outcome State Fault Refusal := alu2 s o fun a b => a.sshiftRight (shiftAmount b)
def execMin (o : OpRRR) (s : State) : Host.Outcome State Fault Refusal := alu2 s o fun a b => if b.slt a then b else a
def execMax (o : OpRRR) (s : State) : Host.Outcome State Fault Refusal := alu2 s o fun a b => if a.slt b then b else a
def execMinu (o : OpRRR) (s : State) : Host.Outcome State Fault Refusal := alu2 s o fun a b => if b.ult a then b else a
def execMaxu (o : OpRRR) (s : State) : Host.Outcome State Fault Refusal := alu2 s o fun a b => if a.ult b then b else a
def execClz (o : OpRR) (s : State) : Host.Outcome State Fault Refusal := alu1 s o leadingZeros
def execPcnt (o : OpRR) (s : State) : Host.Outcome State Fault Refusal := alu1 s o popCount

/-- `bfx`: the field, zero-extended (09 R230). -/
def execBfx (o : OpBfx) (s : State) : Host.Outcome State Fault Refusal :=
  guarded s o.gd skip fun s => do
    let a ← s.rdS o.a
    return s.wrS o.d (BitVec.ofNat 64 (bitField a o.pos.toNat o.len.toNat))

/-- `bfx.s`: the field, sign-extended (09 R230). -/
def execBfxS (o : OpBfx) (s : State) : Host.Outcome State Fault Refusal :=
  guarded s o.gd skip fun s => do
    let a ← s.rdS o.a
    return s.wrS o.d (wordOfInt (sextNat o.len.toNat (bitField a o.pos.toNat o.len.toNat)))

/-- `bfi`: sa with the field replaced by the low bits of sb (09 R230). -/
def execBfi (o : OpBfi) (s : State) : Host.Outcome State Fault Refusal :=
  guarded s o.gd skip fun s => do
    let a ← s.rdS o.a
    let b ← s.rdS o.b
    return s.wrS o.d (wset a o.pos.toNat o.len.toNat b.toNat)

def execAddi (o : OpRRI) (s : State) : Host.Outcome State Fault Refusal := aluImm s o fun a b => a + b
def execMuli (o : OpRRI) (s : State) : Host.Outcome State Fault Refusal := aluImm s o fun a b => a * b
def execAndi (o : OpRRI) (s : State) : Host.Outcome State Fault Refusal := aluImm s o fun a b => a &&& b
def execOri (o : OpRRI) (s : State) : Host.Outcome State Fault Refusal := aluImm s o fun a b => a ||| b
def execXori (o : OpRRI) (s : State) : Host.Outcome State Fault Refusal := aluImm s o fun a b => a ^^^ b
def execShli (o : OpShI) (s : State) : Host.Outcome State Fault Refusal := aluShift s o fun a n => a <<< n
def execShri (o : OpShI) (s : State) : Host.Outcome State Fault Refusal := aluShift s o fun a n => a >>> n
def execSrai (o : OpShI) (s : State) : Host.Outcome State Fault Refusal := aluShift s o fun a n => a.sshiftRight n

def execCmpEq (o : OpCmp) (s : State) : Host.Outcome State Fault Refusal := compare2 s o .eq
def execCmpNe (o : OpCmp) (s : State) : Host.Outcome State Fault Refusal := compare2 s o .ne
def execCmpLt (o : OpCmp) (s : State) : Host.Outcome State Fault Refusal := compare2 s o .lt
def execCmpGe (o : OpCmp) (s : State) : Host.Outcome State Fault Refusal := compare2 s o .ge
def execCmpLtu (o : OpCmp) (s : State) : Host.Outcome State Fault Refusal := compare2 s o .ltu
def execCmpGeu (o : OpCmp) (s : State) : Host.Outcome State Fault Refusal := compare2 s o .geu
def execCmpiEq (o : OpCmpI) (s : State) : Host.Outcome State Fault Refusal := compareImm s o .eq
def execCmpiNe (o : OpCmpI) (s : State) : Host.Outcome State Fault Refusal := compareImm s o .ne
def execCmpiLt (o : OpCmpI) (s : State) : Host.Outcome State Fault Refusal := compareImm s o .lt
def execCmpiGe (o : OpCmpI) (s : State) : Host.Outcome State Fault Refusal := compareImm s o .ge
def execCmpiLtu (o : OpCmpI) (s : State) : Host.Outcome State Fault Refusal := compareImm s o .ltu
def execCmpiGeu (o : OpCmpI) (s : State) : Host.Outcome State Fault Refusal := compareImm s o .geu

/-- `sel`: sa when guard gc is true, else sb (09 R231). -/
def execSel (o : OpSel) (s : State) : Host.Outcome State Fault Refusal :=
  guarded s o.gd skip fun s => do
    let a ← s.rdS o.a
    let b ← s.rdS o.b
    return s.wrS o.d (if s.old.r.getG o.gc.toNat then a else b)

/-- `li`: the sign-extended immediate (09 R232). -/
def execLi (o : OpLi) (s : State) : Host.Outcome State Fault Refusal :=
  guarded s o.gd skip fun s => .ok (s.wrS o.d (o.imm.signExtend 64))

/-- `lih`: the immediate above the low half of sa (09 R232). -/
def execLih (o : OpRRI) (s : State) : Host.Outcome State Fault Refusal :=
  guarded s o.gd skip fun s => do
    let a ← s.rdS o.a
    return s.wrS o.d (o.imm ++ a.extractLsb' 0 32)

end Sys2Proof.Machine
end

