-- ==== Sys2Proof/Machine/Dispatch.lean ====
section
/-!
DEFINITION. One arm for each constructor of `Instr`, in the order of spec/opcode_table.json.
-/

namespace Sys2Proof.Machine

open Sys2Proof

/-- What an instruction, micro-op or event does. -/
def exec (i : Instr) (s : State) : Host.Outcome State Fault Refusal :=
  match i with
  | .nop => Sys2Proof.Machine.execNop s
  | .bundleDispatch => Sys2Proof.Machine.execBundleDispatch s
  | .bundleCommit => Sys2Proof.Machine.execBundleCommit s
  | .queueEntryLand => Sys2Proof.Machine.execQueueEntryLand s
  | .registerWriteLand => Sys2Proof.Machine.execRegisterWriteLand s
  | .add o => Sys2Proof.Machine.execAdd o s
  | .sub o => Sys2Proof.Machine.execSub o s
  | .mul o => Sys2Proof.Machine.execMul o s
  | .mulh o => Sys2Proof.Machine.execMulh o s
  | .mulhu o => Sys2Proof.Machine.execMulhu o s
  | .divu o => Sys2Proof.Machine.execDivu o s
  | .and o => Sys2Proof.Machine.execAnd o s
  | .or o => Sys2Proof.Machine.execOr o s
  | .xor o => Sys2Proof.Machine.execXor o s
  | .shl o => Sys2Proof.Machine.execShl o s
  | .shr o => Sys2Proof.Machine.execShr o s
  | .sra o => Sys2Proof.Machine.execSra o s
  | .min o => Sys2Proof.Machine.execMin o s
  | .max o => Sys2Proof.Machine.execMax o s
  | .minu o => Sys2Proof.Machine.execMinu o s
  | .maxu o => Sys2Proof.Machine.execMaxu o s
  | .clz o => Sys2Proof.Machine.execClz o s
  | .pcnt o => Sys2Proof.Machine.execPcnt o s
  | .bfx o => Sys2Proof.Machine.execBfx o s
  | .bfxS o => Sys2Proof.Machine.execBfxS o s
  | .bfi o => Sys2Proof.Machine.execBfi o s
  | .addi o => Sys2Proof.Machine.execAddi o s
  | .muli o => Sys2Proof.Machine.execMuli o s
  | .andi o => Sys2Proof.Machine.execAndi o s
  | .ori o => Sys2Proof.Machine.execOri o s
  | .xori o => Sys2Proof.Machine.execXori o s
  | .shli o => Sys2Proof.Machine.execShli o s
  | .shri o => Sys2Proof.Machine.execShri o s
  | .srai o => Sys2Proof.Machine.execSrai o s
  | .cmpEq o => Sys2Proof.Machine.execCmpEq o s
  | .cmpNe o => Sys2Proof.Machine.execCmpNe o s
  | .cmpLt o => Sys2Proof.Machine.execCmpLt o s
  | .cmpGe o => Sys2Proof.Machine.execCmpGe o s
  | .cmpLtu o => Sys2Proof.Machine.execCmpLtu o s
  | .cmpGeu o => Sys2Proof.Machine.execCmpGeu o s
  | .cmpiEq o => Sys2Proof.Machine.execCmpiEq o s
  | .cmpiNe o => Sys2Proof.Machine.execCmpiNe o s
  | .cmpiLt o => Sys2Proof.Machine.execCmpiLt o s
  | .cmpiGe o => Sys2Proof.Machine.execCmpiGe o s
  | .cmpiLtu o => Sys2Proof.Machine.execCmpiLtu o s
  | .cmpiGeu o => Sys2Proof.Machine.execCmpiGeu o s
  | .sel o => Sys2Proof.Machine.execSel o s
  | .li o => Sys2Proof.Machine.execLi o s
  | .lih o => Sys2Proof.Machine.execLih o s
  | .ctlRd o => Sys2Proof.Machine.execCtlRd o s
  | .ctlWr o => Sys2Proof.Machine.execCtlWr o s
  | .br o => Sys2Proof.Machine.execBr o s
  | .call o => Sys2Proof.Machine.execCall o s
  | .jmp o => Sys2Proof.Machine.execJmp o s
  | .ret o => Sys2Proof.Machine.execRet o s
  | .loop o => Sys2Proof.Machine.execLoop o s
  | .lbrk o => Sys2Proof.Machine.execLbrk o s
  | .sync o => Sys2Proof.Machine.execSync o s
  | .halt g => Sys2Proof.Machine.execHalt g s
  | .trap o => Sys2Proof.Machine.execTrap o s
  | .evtWt o => Sys2Proof.Machine.execEvtWt o s
  | .hret g => Sys2Proof.Machine.execHret g s
  | .tlbInv o => Sys2Proof.Machine.execTlbInv o s
  | .ctxSv o => Sys2Proof.Machine.execCtxSv o s
  | .ctxLd o => Sys2Proof.Machine.execCtxLd o s
  | .tilePre o => Sys2Proof.Machine.execTilePre o s
  | .brdMov o => Sys2Proof.Machine.execBrdMov o s
  | .ucVfy o => Sys2Proof.Machine.execUcVfy o s
  | .sdLd o => Sys2Proof.Machine.execSdLd o s
  | .ldQ o => Sys2Proof.Machine.execLdQ o s
  | .ldSc o => Sys2Proof.Machine.execLdSc o s
  | .ldG o => Sys2Proof.Machine.execLdG o s
  | .ldS o => Sys2Proof.Machine.execLdS o s
  | .ldAcq o => Sys2Proof.Machine.execLdAcq o s
  | .stQ o => Sys2Proof.Machine.execStQ o s
  | .stCt o => Sys2Proof.Machine.execStCt o s
  | .stX o => Sys2Proof.Machine.execStX o s
  | .stS o => Sys2Proof.Machine.execStS o s
  | .stRel o => Sys2Proof.Machine.execStRel o s
  | .atmAdd o => Sys2Proof.Machine.execAtmAdd o s
  | .atmMin o => Sys2Proof.Machine.execAtmMin o s
  | .atmMax o => Sys2Proof.Machine.execAtmMax o s
  | .atmAnd o => Sys2Proof.Machine.execAtmAnd o s
  | .atmOr o => Sys2Proof.Machine.execAtmOr o s
  | .atmXchg o => Sys2Proof.Machine.execAtmXchg o s
  | .atmCas o => Sys2Proof.Machine.execAtmCas o s
  | .redAdd o => Sys2Proof.Machine.execRedAdd o s
  | .fenceRw o => Sys2Proof.Machine.execFenceRw o s
  | .fenceAcq o => Sys2Proof.Machine.execFenceAcq o s
  | .fenceRel o => Sys2Proof.Machine.execFenceRel o s
  | .vaddF o => Sys2Proof.Machine.execVaddF o s
  | .vsubF o => Sys2Proof.Machine.execVsubF o s
  | .vmulF o => Sys2Proof.Machine.execVmulF o s
  | .vfmaF o => Sys2Proof.Machine.execVfmaF o s
  | .vfmsF o => Sys2Proof.Machine.execVfmsF o s
  | .vminF o => Sys2Proof.Machine.execVminF o s
  | .vmaxF o => Sys2Proof.Machine.execVmaxF o s
  | .vabsF o => Sys2Proof.Machine.execVabsF o s
  | .vnegF o => Sys2Proof.Machine.execVnegF o s
  | .vaddI o => Sys2Proof.Machine.execVaddI o s
  | .vsubI o => Sys2Proof.Machine.execVsubI o s
  | .vmulI o => Sys2Proof.Machine.execVmulI o s
  | .vmulhI o => Sys2Proof.Machine.execVmulhI o s
  | .vminI o => Sys2Proof.Machine.execVminI o s
  | .vmaxI o => Sys2Proof.Machine.execVmaxI o s
  | .vminuI o => Sys2Proof.Machine.execVminuI o s
  | .vmaxuI o => Sys2Proof.Machine.execVmaxuI o s
  | .vand o => Sys2Proof.Machine.execVand o s
  | .vor o => Sys2Proof.Machine.execVor o s
  | .vxor o => Sys2Proof.Machine.execVxor o s
  | .vshl o => Sys2Proof.Machine.execVshl o s
  | .vshr o => Sys2Proof.Machine.execVshr o s
  | .vsra o => Sys2Proof.Machine.execVsra o s
  | .vaddsI o => Sys2Proof.Machine.execVaddsI o s
  | .vrcp o => Sys2Proof.Machine.execVrcp o s
  | .vrsq o => Sys2Proof.Machine.execVrsq o s
  | .vexp2 o => Sys2Proof.Machine.execVexp2 o s
  | .vlg2 o => Sys2Proof.Machine.execVlg2 o s
  | .vcmpEq o => Sys2Proof.Machine.execVcmpEq o s
  | .vcmpNe o => Sys2Proof.Machine.execVcmpNe o s
  | .vcmpLt o => Sys2Proof.Machine.execVcmpLt o s
  | .vcmpLe o => Sys2Proof.Machine.execVcmpLe o s
  | .vcmpGt o => Sys2Proof.Machine.execVcmpGt o s
  | .vcmpGe o => Sys2Proof.Machine.execVcmpGe o s
  | .vcmpUn o => Sys2Proof.Machine.execVcmpUn o s
  | .vicmpEq o => Sys2Proof.Machine.execVicmpEq o s
  | .vicmpNe o => Sys2Proof.Machine.execVicmpNe o s
  | .vicmpLt o => Sys2Proof.Machine.execVicmpLt o s
  | .vicmpGe o => Sys2Proof.Machine.execVicmpGe o s
  | .vicmpLtu o => Sys2Proof.Machine.execVicmpLtu o s
  | .vicmpGeu o => Sys2Proof.Machine.execVicmpGeu o s
  | .vsel o => Sys2Proof.Machine.execVsel o s
  | .vsplat o => Sys2Proof.Machine.execVsplat o s
  | .viota o => Sys2Proof.Machine.execViota o s
  | .vmov o => Sys2Proof.Machine.execVmov o s
  | .vcvt o => Sys2Proof.Machine.execVcvt o s
  | .vred o => Sys2Proof.Machine.execVred o s
  | .vredDeferredReduction => Sys2Proof.Machine.execVredDeferredReduction s
  | .vdot o => Sys2Proof.Machine.execVdot o s
  | .vupd o => Sys2Proof.Machine.execVupd o s
  | .pkMx o => Sys2Proof.Machine.execPkMx o s
  | .upkMx o => Sys2Proof.Machine.execUpkMx o s
  | .shf o => Sys2Proof.Machine.execShf o s
  | .xpo o => Sys2Proof.Machine.execXpo o s
  | .bct o => Sys2Proof.Machine.execBct o s
  | .scGet o => Sys2Proof.Machine.execScGet o s
  | .zip o => Sys2Proof.Machine.execZip o s
  | .unzip o => Sys2Proof.Machine.execUnzip o s
  | .pkH o => Sys2Proof.Machine.execPkH o s
  | .upkH o => Sys2Proof.Machine.execUpkH o s
  | .mpWr o => Sys2Proof.Machine.execMpWr o s
  | .mpRd o => Sys2Proof.Machine.execMpRd o s
  | .mxCall o => Sys2Proof.Machine.execMxCall o s
  | .mxLat o => Sys2Proof.Machine.execMxLat o s
  | .mxPrm o => Sys2Proof.Machine.execMxPrm o s
  | .mxUcw o => Sys2Proof.Machine.execMxUcw o s
  | .accRd o => Sys2Proof.Machine.execAccRd o s
  | .accClr o => Sys2Proof.Machine.execAccClr o s
  | .accCp o => Sys2Proof.Machine.execAccCp o s
  | .uopEnd mkr => Sys2Proof.Machine.execUopEnd mkr s
  | .uopMac o => Sys2Proof.Machine.execUopMac o s
  | .macResultLand => Sys2Proof.Machine.execMacResultLand s
  | .uopLat o => Sys2Proof.Machine.execUopLat o s
  | .uopSet o => Sys2Proof.Machine.execUopSet o s
  | .uopLoop o => Sys2Proof.Machine.execUopLoop o s
  | .uopEndl o => Sys2Proof.Machine.execUopEndl o s
  | .uopBrz o => Sys2Proof.Machine.execUopBrz o s
  | .uopClr o => Sys2Proof.Machine.execUopClr o s
  | .uopAcp o => Sys2Proof.Machine.execUopAcp o s
  | .uopNop mkr => Sys2Proof.Machine.execUopNop mkr s
  | .routinePause => Sys2Proof.Machine.execRoutinePause s
  | .routineFault => Sys2Proof.Machine.execRoutineFault s
  | .rngSet o => Sys2Proof.Machine.execRngSet o s
  | .cdClr o => Sys2Proof.Machine.execCdClr o s
  | .cdMrg o => Sys2Proof.Machine.execCdMrg o s
  | .cdTop o => Sys2Proof.Machine.execCdTop o s
  | .cdArg o => Sys2Proof.Machine.execCdArg o s
  | .cdThr o => Sys2Proof.Machine.execCdThr o s
  | .foMd o => Sys2Proof.Machine.execFoMd o s
  | .foShp o => Sys2Proof.Machine.execFoShp o s
  | .foLd o => Sys2Proof.Machine.execFoLd o s
  | .foSt o => Sys2Proof.Machine.execFoSt o s
  | .foUp o => Sys2Proof.Machine.execFoUp o s
  | .foDn o => Sys2Proof.Machine.execFoDn o s
  | .foNrm o => Sys2Proof.Machine.execFoNrm o s
  | .forestOpLand => Sys2Proof.Machine.execForestOpLand s
  | .cp o => Sys2Proof.Machine.execCp o s
  | .cpRs o => Sys2Proof.Machine.execCpRs o s
  | .cpBc o => Sys2Proof.Machine.execCpBc o s
  | .cpGt o => Sys2Proof.Machine.execCpGt o s
  | .cpLk o => Sys2Proof.Machine.execCpLk o s
  | .engineCommandComplete => Sys2Proof.Machine.execEngineCommandComplete s
  | .engineCommandFault => Sys2Proof.Machine.execEngineCommandFault s
  | .linkRoundSend => Sys2Proof.Machine.execLinkRoundSend s
  | .linkTransferLand => Sys2Proof.Machine.execLinkTransferLand s
  | .barInit o => Sys2Proof.Machine.execBarInit o s
  | .barArr o => Sys2Proof.Machine.execBarArr o s
  | .barArd o => Sys2Proof.Machine.execBarArd o s
  | .barExp o => Sys2Proof.Machine.execBarExp o s
  | .barWt o => Sys2Proof.Machine.execBarWt o s
  | .barrierUpdateAtHome => Sys2Proof.Machine.execBarrierUpdateAtHome s
  | .barrierWaitSatisfied => Sys2Proof.Machine.execBarrierWaitSatisfied s
  | .evtSg o => Sys2Proof.Machine.execEvtSg o s
  | .eventSignalDeliver => Sys2Proof.Machine.execEventSignalDeliver s
  | .msg o => Sys2Proof.Machine.execMsg o s
  | .spawn o => Sys2Proof.Machine.execSpawn o s
  | .wtRet o => Sys2Proof.Machine.execWtRet o s
  | .wtBrw o => Sys2Proof.Machine.execWtBrw o s
  | .lnch o => Sys2Proof.Machine.execLnch o s
  | .crlPut o => Sys2Proof.Machine.execCrlPut o s
  | .crlSeal g => Sys2Proof.Machine.execCrlSeal g s
  | .crlPutRej o => Sys2Proof.Machine.execCrlPutRej o s
  | .verPubClm o => Sys2Proof.Machine.execVerPubClm o s
  | .verPub o => Sys2Proof.Machine.execVerPub o s
  | .verPubFin o => Sys2Proof.Machine.execVerPubFin o s
  | .verAdp o => Sys2Proof.Machine.execVerAdp o s
  | .kvAlloc o => Sys2Proof.Machine.execKvAlloc o s
  | .kvAllocMust o => Sys2Proof.Machine.execKvAllocMust o s
  | .kvTrunc o => Sys2Proof.Machine.execKvTrunc o s
  | .kvFree o => Sys2Proof.Machine.execKvFree o s
  | .kvMap o => Sys2Proof.Machine.execKvMap o s
  | .storeAtHome => Sys2Proof.Machine.execStoreAtHome s
  | .fill => Sys2Proof.Machine.execFill s
  | .loadMissAtHome => Sys2Proof.Machine.execLoadMissAtHome s
  | .setprev => Sys2Proof.Machine.execSetprev s
  | .setnext => Sys2Proof.Machine.execSetnext s
  | .sethead => Sys2Proof.Machine.execSethead s
  | .upd => Sys2Proof.Machine.execUpd s
  | .ack => Sys2Proof.Machine.execAck s
  | .nack => Sys2Proof.Machine.execNack s
  | .recallLine => Sys2Proof.Machine.execRecall s
  | .l1Evict => Sys2Proof.Machine.execL1Evict s
  | .homeSliceEvict => Sys2Proof.Machine.execHomeSliceEvict s
  | .releaseComplete => Sys2Proof.Machine.execReleaseComplete s
  | .forcedPublish => Sys2Proof.Machine.execForcedPublish s
  | .replicaRequest => Sys2Proof.Machine.execReplicaRequest s
  | .replicaDrainComplete => Sys2Proof.Machine.execReplicaDrainComplete s
  | .dirtyGranuleFlushTimer => Sys2Proof.Machine.execDirtyGranuleFlushTimer s
  | .diffAtPrimary => Sys2Proof.Machine.execDiffAtPrimary s
  | .forwardedDiffApply => Sys2Proof.Machine.execForwardedDiffApply s
  | .replicaDrop => Sys2Proof.Machine.execReplicaDrop s
  | .forwardedAtomic => Sys2Proof.Machine.execForwardedAtomic s
  | .pageWalkComplete => Sys2Proof.Machine.execPageWalkComplete s
  | .streamPreTranslation => Sys2Proof.Machine.execStreamPreTranslation s
  | .regionDescriptorFetch => Sys2Proof.Machine.execRegionDescriptorFetch s
  | .parkedStoreRetry => Sys2Proof.Machine.execParkedStoreRetry s
  | .remoteQueuePush => Sys2Proof.Machine.execRemoteQueuePush s
  | .pushBufferDrain => Sys2Proof.Machine.execPushBufferDrain s
  | .messageSlotWrite => Sys2Proof.Machine.execMessageSlotWrite s
  | .heldSlotWriteRelease => Sys2Proof.Machine.execHeldSlotWriteRelease s
  | .handlerStart => Sys2Proof.Machine.execHandlerStart s
  | .deviceMessageDeliver => Sys2Proof.Machine.execDeviceMessageDeliver s
  | .unsupervisedDomainTimer => Sys2Proof.Machine.execUnsupervisedDomainTimer s
  | .dependenceWaitEnd => Sys2Proof.Machine.execDependenceWaitEnd s
  | .placementDecision => Sys2Proof.Machine.execPlacementDecision s
  | .taskStart => Sys2Proof.Machine.execTaskStart s
  | .splicePointCheck => Sys2Proof.Machine.execSplicePointCheck s
  | .spliceSharedRelease => Sys2Proof.Machine.execSpliceSharedRelease s
  | .taskResume => Sys2Proof.Machine.execTaskResume s
  | .alignedBoundaryReached => Sys2Proof.Machine.execAlignedBoundaryReached s
  | .yield => Sys2Proof.Machine.execYield s
  | .abintWatchdog => Sys2Proof.Machine.execAbintWatchdog s
  | .budgetOverrun => Sys2Proof.Machine.execBudgetOverrun s
  | .borderSaveComplete => Sys2Proof.Machine.execBorderSaveComplete s
  | .borderBlockWrite => Sys2Proof.Machine.execBorderBlockWrite s
  | .verpolWrite => Sys2Proof.Machine.execVerpolWrite s
  | .creelRingRegWrite => Sys2Proof.Machine.execCreelRingRegWrite s
  | .hmsgWrite => Sys2Proof.Machine.execHmsgWrite s
  | .fltrecWrite => Sys2Proof.Machine.execFltrecWrite s
  | .drepWrite => Sys2Proof.Machine.execDrepWrite s
  | .hrctlWrite => Sys2Proof.Machine.execHrctlWrite s
  | .kvpoolWrite => Sys2Proof.Machine.execKvpoolWrite s
  | .regionEntryStore => Sys2Proof.Machine.execRegionEntryStore s
  | .replicaGroupEntryStore => Sys2Proof.Machine.execReplicaGroupEntryStore s
  | .hbandWrite => Sys2Proof.Machine.execHbandWrite s
  | .mcRequestSubmit => Sys2Proof.Machine.execMcRequestSubmit s
  | .hostPostedWrite => Sys2Proof.Machine.execHostPostedWrite s
  | .hostRead => Sys2Proof.Machine.execHostRead s
  | .cxlSnoop => Sys2Proof.Machine.execCxlSnoop s
  | .cxlBackInvalidationDone => Sys2Proof.Machine.execCxlBackInvalidationDone s
  | .offloadFlushReadDone => Sys2Proof.Machine.execOffloadFlushReadDone s
  | .flitReceive => Sys2Proof.Machine.execFlitReceive s
  | .weightBroadcastReceive => Sys2Proof.Machine.execWeightBroadcastReceive s
  | .heldBroadcastResume => Sys2Proof.Machine.execHeldBroadcastResume s
  | .portLinkFail => Sys2Proof.Machine.execPortLinkFail s
  | .portTrained => Sys2Proof.Machine.execPortTrained s
  | .retrainTimeout => Sys2Proof.Machine.execRetrainTimeout s
  | .fenceLinkWaitTimeout => Sys2Proof.Machine.execFenceLinkWaitTimeout s
  | .portBlockWrite => Sys2Proof.Machine.execPortBlockWrite s
  | .moduleReset => Sys2Proof.Machine.execModuleReset s
  | .domainReset => Sys2Proof.Machine.execDomainReset s
  | .spdmGetVersion => Sys2Proof.Machine.execSpdmGetVersion s
  | .spdmGetCapabilities => Sys2Proof.Machine.execSpdmGetCapabilities s
  | .spdmNegotiateAlgorithms => Sys2Proof.Machine.execSpdmNegotiateAlgorithms s
  | .spdmGetDigests => Sys2Proof.Machine.execSpdmGetDigests s
  | .spdmGetCertificate => Sys2Proof.Machine.execSpdmGetCertificate s
  | .spdmChallenge => Sys2Proof.Machine.execSpdmChallenge s
  | .spdmGetMeasurements => Sys2Proof.Machine.execSpdmGetMeasurements s
  | .powerControlTick => Sys2Proof.Machine.execPowerControlTick s
  | .marginReplan => Sys2Proof.Machine.execMarginReplan s
  | .eccErrorDetected => Sys2Proof.Machine.execEccErrorDetected s
  | .selfTestComplete => Sys2Proof.Machine.execSelfTestComplete s
  | .cxlMemAccess => Sys2Proof.Machine.execCxlMemAccess s
  | .hostFunctionBinding => Sys2Proof.Machine.execHostFunctionBinding s
  | .sidebandLogClear => Sys2Proof.Machine.execSidebandLogClear s
  | .sidebandPowerSetting => Sys2Proof.Machine.execSidebandPowerSetting s
  | .tilePassingToDomain => Sys2Proof.Machine.execTilePassingToDomain s

end Sys2Proof.Machine
end

