-- ==== Sys2Proof/Machine/Step.lean ====
section
/-!
DEFINITION. One step of the machine: one slot operation, one commit, one micro-op or one event of the hardware.
-/

namespace Sys2Proof.Machine

open Sys2Proof

/-- One step: what is due is run; where nothing can happen, time passes. -/
def step (s : State) : Host.Outcome State Fault Refusal :=
  match s.turn with
  | some (i, t) => exec i t
  | none => .next s.idle

/-- Places an instruction where the next step fetches. -/
def State.withFetchWord (s : State) (nbits w : Nat) : State := s.placeWord nbits w

end Sys2Proof.Machine
end

