-- ==== Sys2Proof/Safety.lean ====
section
/-!
DEFINITION. What a safe step is, and the words the statements are made of: what an operation reads, and what it leaves
unchanged.
-/

namespace Sys2Proof

open Sys2Proof.Machine

/-- The step of a state answers a next state. -/
def Safe (s : State) : Prop := ∃ t, step s = .next t

end Sys2Proof

namespace Sys2Proof.Machine

open Sys2Proof

/-- The acting context is there. -/
def State.here (s : State) : Bool := (s.toCore.ctx? s.ref).isSome

/-- No variable-latency write of an older bundle to scalar n is outstanding (08 R209). -/
def State.readable (s : State) (n : BitVec 6) : Bool := !s.old.pending (.s n)

/-- Scalar n as the older bundles left it: s0 reads zero (08 R209, R222). -/
def State.scalar (s : State) (n : BitVec 6) : Word := s.old.r.getS n.toNat

/-- Queue q has room for n more entries (08 R218). -/
def State.roomQ (s : State) (q n : Nat) : Bool := decide ((s.entries q).length + n ≤ s.depth q)

/-- The queue destination has room for n more entries, or discards (08 R200, R218). -/
def State.room (s : State) (d : QDst) (n : Nat) : Bool :=
  match d with
  | none => true
  | some q => s.roomQ q.toNat n

/-- Queue q with e behind the entries it holds; the entry has the next number. -/
def State.pushedQ (s : State) (q : Nat) (e : Entry) : State :=
  let t : State := { s with toCore := { s.toCore with nid := s.nid + 1 } }
  t.updQ q fun l => l ++ [⟨s.nid, some e⟩]

/-- The queue destination with e behind the entries it holds; `_` takes nothing. -/
def State.pushed (s : State) (d : QDst) (e : Entry) : State :=
  match d with
  | none => s
  | some q => s.pushedQ q.toNat e

/-- Queue q with an entry reserved for e, which is on its way (08 R215). -/
def State.reservedQ (s : State) (q : Nat) (e : Entry) : State :=
  let t : State := { s with toCore := { s.toCore with nid := s.nid + 1 } }
  let t := t.updQ q fun l => l ++ [⟨s.nid, none⟩]
  { t with toCore := t.toCore.send (.queueEntryLand s.ref.tile s.nid (decide (32 ≤ q)) e) }

/-- Queue q after a load: the entry is there at once from the own scratchpad, else reserved. -/
def State.loadedQ (s : State) (q : Nat) (e : Entry) (now : Bool) : State := if now then s.pushedQ q e else s.reservedQ q e

def State.loaded (s : State) (d : QDst) (e : Entry) (now : Bool) : State :=
  match d with
  | none => s
  | some q => s.loadedQ q.toNat e now

/-- Nothing but the acting context changes: not memory, not a unit of the tile, not another context. -/
def OnlyHere (s t : State) : Prop := t = s.setMe t.me

/-- Every byte of memory reads as before. -/
def SameMemory (s t : State) : Prop := ∀ k, t.mem.get k = s.mem.get k

/-- Scalar d takes v (nothing is written when d is s0), FPSF takes the flags `fl` besides its own, and nothing else changes. -/
structure ScalarWritten (s t : State) (d : BitVec 6) (v : Word) (fl : Flags) : Prop where
  here : OnlyHere s t
  value : d ≠ 0 → t.me.r.getS d.toNat = v
  zero : t.me.r.getS 0 = 0
  scalars : ∀ n : Nat, n ≠ d.toNat → t.me.r.getS n = s.me.r.getS n
  flags : t.me.r.fpsf = s.me.r.fpsf ||| fl
  pending : ∀ e, e ∈ t.me.pend ↔ e ∈ s.me.pend ∧ e.reg ≠ .s d
  context : t.me = { s.me with r := { s.me.r with s := t.me.r.s, fpsf := t.me.r.fpsf }, pend := t.me.pend }
  memory : SameMemory s t

/-- Guard pair k takes c and its complement (nothing is written for pair 0), and nothing else changes. -/
structure GuardsWritten (s t : State) (k : BitVec 3) (c : Bool) : Prop where
  here : OnlyHere s t
  value : k ≠ 0 → t.me.r.getG (2 * k.toNat) = c ∧ t.me.r.getG (2 * k.toNat + 1) = !c
  constant : t.me.r.getG 0 = true ∧ t.me.r.getG 1 = false
  guards : ∀ n : Nat, n < 16 → n / 2 ≠ k.toNat → t.me.r.getG n = s.me.r.getG n
  context : t.me = { s.me with r := { s.me.r with g := t.me.r.g } }
  memory : SameMemory s t

/-- Queue destination d takes an entry whose lane i is f i where the mask selects it and keep i elsewhere, FPSF the flags of the
selected lanes, and nothing else changes (11 R276). -/
def LanesPushed (s t : State) (d : QDst) (m : Word) (keep : Nat → Nat) (f : Nat → FRes) : Prop :=
  ∃ e fl, t = (s.flag fl).pushed d e ∧
    (∀ i : Nat, i < 64 → lane e i = (if m.getLsbD i then (f i).bits else keep i) % 2 ^ 32) ∧
    ∀ k : Nat, k < 8 → fl.getLsbD k = (List.range 64).any fun i => m.getLsbD i && (f i).fl.getLsbD k

/-- Queue destination d takes e, and nothing else changes. -/
def EntryPushed (s t : State) (d : QDst) (lanes : Nat → Nat) : Prop :=
  ∃ e, t = s.pushed d e ∧ ∀ i : Nat, i < 64 → lane e i = lanes i % 2 ^ 32

/-- The byte that some store messages write at a physical address. -/
def storedByte (ms : List StoreMsg) (k : Nat) : Option Byte :=
  ms.findSome? fun m => if m.pa ≤ k ∧ k < m.pa + m.bytes.length then m.bytes.getD (k - m.pa) none else none

/-- The store messages write the given bytes from `pa` on, and no other byte. -/
def Stores (ms : List StoreMsg) (pa : Nat) (bytes : List (Option Byte)) : Prop :=
  ∀ k, storedByte ms k = if pa ≤ k then bytes.getD (k - pa) none else none

/-- The bundle in progress holds stores of the given bytes from `pa` on, with a tag (08 R210, 05 R132); nothing else changes. -/
def StoreHeld (s t : State) (pa : Nat) (pl : Place) (tag : Option (Nat × Nat × Option Nat)) (bytes : List (Option Byte)) : Prop :=
  ∃ ms : List StoreMsg, Stores ms pa bytes ∧ (∀ m ∈ ms, m.tile = s.ref.tile ∧ m.place = pl ∧ m.tag = tag) ∧
    t = { s with nid := t.nid, bundle := s.bundle.map fun b => { b with outs := b.outs ++ ms.map fun m => (s.ref, m) } }

/-- Bytes in one page can be loaded now: they translate to `l`, no word is poisoned, and, unless they lie in the own scratchpad, they are
read at `pl` and nothing that older bundles left on its way holds the read back (01 R27, 04 R112, R113). -/
structure LoadReady (s : State) (acc : Acc) (va : Word) (n : Nat) (past : Bool) (l : Loc) (pl : Place) : Prop where
  mapped : s.toCore.translateSpan (s.toCore.whoFor s.ref acc) acc va n = .ok l
  sound : s.poison = []
  placed : l.isScratch s.ref.tile = false → s.toCore.placeOf (s.toCore.whoFor s.ref acc) acc l = .ok pl
  device : l.isScratch s.ref.tile = false → l.isDevice = true → (s.toCore.tile s.ref.tile).devOut = []
  atomics : l.isScratch s.ref.tile = false → s.older.atomicBusy s.ref.tile l.pa n = false
  lines : l.isScratch s.ref.tile = false → s.older.lineBusy s.ref.tile pl l n (past || l.mt != 0) = false

/-- What a load returns: the bytes of the own scratchpad, or what the place or the tile's L1 holds, under the context's own stores that are
held or parked (04 R114, 05 R146). -/
def State.loadValue (s : State) (va : Word) (n : Nat) (past : Bool) (l : Loc) (pl : Place) : List Byte :=
  s.ownBytes va l.pa (if l.isScratch s.ref.tile then s.toCore.homeBytes l.pa n else s.toCore.readLoc s.ref.tile pl l n past)

/-- The machine after a load: a load that misses asks the home for the line (02 R51). -/
def State.afterLoad (s : State) (n : Nat) (alloc past : Bool) (l : Loc) (pl : Place) : State :=
  if l.isScratch s.ref.tile then s else { s with toCore := s.toCore.missL1 s.ref.tile pl l n (alloc && !past) }

/-- Bytes at a VA, in one page or over two, loaded now: the bytes, whether all came from the own scratchpad, and the machine after. -/
def Loaded (s : State) (acc : Acc) (va : Word) (n : Nat) (alloc past : Bool) (bs : List Byte) (now : Bool) (t : State) : Prop :=
  let first := 65536 - va.toNat % 65536
  (n ≤ first ∧ ∃ l pl, LoadReady s acc va n past l pl ∧ bs = s.loadValue va n past l pl ∧ now = l.isScratch s.ref.tile ∧
    t = s.afterLoad n alloc past l pl) ∨
  (first < n ∧ ∃ l pl l' pl', LoadReady s acc va first past l pl ∧
    let u := s.afterLoad first alloc past l pl
    LoadReady u acc (va + BitVec.ofNat 64 first) (n - first) past l' pl' ∧
    bs = s.loadValue va first past l pl ++ u.loadValue (va + BitVec.ofNat 64 first) (n - first) past l' pl' ∧
    now = (l.isScratch s.ref.tile && l'.isScratch s.ref.tile) ∧ t = u.afterLoad (n - first) alloc past l' pl')

/-- The selected lanes of a gather loaded in lane order, each aligned (10 R264): the values, whether all came from the own scratchpad, and
the machine after. -/
def Gathered (w : Width) (base : Word) (idx : Entry) (m : Word) : List Nat → State → List Nat → Bool → State → Prop
  | [], s, vs, now, t => vs = [] ∧ now = true ∧ t = s
  | i :: rest, s, vs, now, t =>
    if m.getLsbD i then
      let n := 2 ^ w.size.toNat
      let e := base + BitVec.ofNat 64 (lane idx i * n)
      e.toNat % n = 0 ∧ ∃ l pl vs' now', LoadReady s (.load w.size.toNat) e n false l pl ∧
        Gathered w base idx m rest (s.afterLoad n true false l pl) vs' now' t ∧
        vs = extend32 w (leNat (s.loadValue e n false l pl)) :: vs' ∧ now = (l.isScratch s.ref.tile && now')
    else ∃ vs', Gathered w base idx m rest s vs' now t ∧ vs = 0 :: vs'

/-- What a store of some bytes meets on its way (08 R210, 01 R43): they lie in one page, which translates for it, no earlier store to the page is
parked, and the domain keeps no access bits. -/
structure Storable (s : State) (acc : Acc) (va : Word) (bytes : List (Option Byte)) (l : Loc) (pl : Place) : Prop where
  some : bytes.any Option.isSome = true
  page : va.toNat % 65536 + bytes.length ≤ 65536
  free : ∀ p ∈ s.me.replay ++ s.me.late, p.dead = true ∨ vpageOf p.va ≠ vpageOf va
  mapped : s.toCore.translateSpan (s.toCore.whoFor s.ref acc) acc va bytes.length = .ok l
  placed : s.toCore.placeOf (s.toCore.whoFor s.ref acc) acc l = .ok pl
  bits : s.toCore.aden (s.toCore.domOf s.ref.tile) = false

/-- The selected lanes of a scatter held in lane order (10 R268). -/
def Scattered (size : Nat) (base : Word) (idx dat : Entry) : List Nat → State → State → Prop
  | [], s, t => t = s
  | i :: rest, s, t =>
    let e := base + BitVec.ofNat 64 (lane idx i * 2 ^ size)
    let bytes := (leBytes (2 ^ size) (lane dat i)).map some
    ∃ u l pl, s.toCore.translateSpan (s.toCore.who s.ref) (.store size) e (2 ^ size) = .ok l ∧
      StoreHeld s u l.pa pl s.me.ftag bytes ∧ Scattered size base idx dat rest u t

/-- An atomic on n bytes at a location can be performed now: no release fence of the context is in progress, no own store to its words
and no own atomic to its bytes is on its way, and its line is neither recalled nor waits for what has arrived (04 R112, R118, R124, 02
R57). -/
structure AtomicReady (s : State) (l : Loc) (n : Nat) : Prop where
  memory : l.isDevice = false
  sound : s.poison = []
  fence : s.toCore.fenced s.ref = false
  stores : s.toCore.storesOver s.ref.tile l.pa n = false
  atomics : s.older.atomicBusy s.ref.tile l.pa n = false
  unrecalled : s.toCore.recallBusy l.pa = false
  line : s.older.lineBusy s.ref.tile (s.toCore.l1Place s.ref.tile (l.pa / 128)) l n true = false

/-- Nothing of the context's earlier stores is outstanding throughout a scope, and its units are idle: a release goes on at once (04
R118, 05 R148, 12 R326, 13 R342). -/
structure ReleaseReady (s : State) (q : Scope) : Prop where
  parked : s.old.replay = []
  late : s.old.late = []
  matrix : s.old.rout = none ∧ s.old.macs = []
  forest : s.old.fo = none
  stores : s.releasedNow q = true

/-- Every byte of HBM and of the windows reads as before. -/
def BytesSame (s t : State) : Prop :=
  ∀ k, ((∃ h, paRegion k = .hbm h) ∨ ∃ u f, paRegion k = .win u f) → t.toCore.homeByte k = s.toCore.homeByte k

/-- The bytes from a PA on take the given ones, and every other byte of HBM and of the windows stays as it was. -/
def BytesTake (s t : State) (pa : Nat) (bs : List Byte) : Prop :=
  ∀ k, ((∃ h, paRegion k = .hbm h) ∨ ∃ u f, paRegion k = .win u f) →
    t.toCore.homeByte k = if pa ≤ k ∧ k < pa + bs.length then bs.getD (k - pa) 0 else s.toCore.homeByte k

/-- Whether n bytes at a PA, aligned to their size, are of HBM or of a scratchpad. -/
def OrdinaryPlace (pa n : Nat) : Prop :=
  pa % n = 0 ∧ ((∃ h, paRegion pa = .hbm h) ∨ ∃ u k, paRegion pa = .win u k ∧ k + n ≤ 0x400000)

/-- An atomic update of n bytes by an operation of the acting context is not held back: no dirty byte of the die, no own store or atomic is
ahead of it, no recall or drain holds its place (02 R57, R62, R65, 04 R124). -/
structure PlaceFree (s : State) (pa n : Nat) : Prop where
  place : OrdinaryPlace pa n
  dirty : s.toCore.overDirty (dieOf s.ref.tile) pa n = false
  stores : s.toCore.storesOver s.ref.tile pa n = false
  atomics : s.older.atomicBusy s.ref.tile pa n = false
  unrecalled : s.toCore.recallBusy pa = false
  page : (s.toCore.page (pa / 65536)).mode ≠ .draining
  sound : s.poison = []
  bits : s.toCore.aden (s.toCore.domOf s.ref.tile) = false

/-- An access of n bytes to a sequence table can be made now (06 R170). -/
structure TableReady (s : State) (va : Word) (n : Nat) (l : Loc) : Prop where
  aligned : va.toNat % n = 0
  mapped : s.toCore.translate (s.toCore.who s.ref) (.atomic (if n = 8 then 3 else 2)) va = .ok l
  ready : AtomicReady s l n
  free : PlaceFree s l.pa n
  arrived : s.older.forwarding (dieOf s.ref.tile) (l.pa / 65536) = false

/-- A read of n bytes at a VA acquires without waiting: no narrow release that it may read from has to be published (05 R131, R133). -/
def AcquireFree (s : State) (va : Word) (n : Nat) : Prop :=
  ∃ l pl, s.toCore.translate (s.toCore.who s.ref) (.load 3) va = .ok l ∧ s.toCore.placeOf (s.toCore.who s.ref) (.load 3) l = .ok pl ∧
    s.toCore.widen (s.toCore.domOf s.ref.tile) s.ref.tile pl l.pa n = none

/-- A record of the ring as its context reads it (06 R165, R166). -/
def RecordRead (s : State) (va : Word) (bs : List Byte) (t : State) : Prop :=
  (s.me.parkedRun va 32 = none ∧ ∃ now, Loaded s (.load 3) va 32 false true bs now t) ∨ (s.me.parkedRun va 32 = some bs ∧ t = s)

/-- The records from number `i` on, `n` of them, marked: those of the current sequence whose position is at least p take REJECTED, in the
order of their numbers (06 R166); `r` says whether there was one, or `any` already. -/
def Marked (p : Nat) : Nat → Nat → Bool → State → Bool → State → Prop
  | 0, _, any, s, r, t => r = any ∧ t = s
  | n + 1, i, any, s, r, t =>
    let va := s.me.recordVA i
    ∃ bs u, RecordRead s va bs u ∧
      if p ≤ leNat ((bs.drop 10).take 2) ∧ leNat ((bs.drop 12).take 4) = u.me.r.crseq.toNat then
        let mark := (leBytes 2 (leNat ((bs.drop 20).take 2) ||| 8)).map some
        ∃ v, ((∃ l pl, Storable u (.store 1) (va + 20) mark l pl ∧ StoreHeld u v l.pa pl u.me.ftag mark) ∨
            ((va + 20).toNat % 65536 + 2 ≤ 65536 ∧ ∃ q, u.me.parkedOn (va + 20) = some q ∧ u.park (va + 20) mark q.info (some q) = .ok v)) ∧ Marked p n (i + 1) true v r t
      else Marked p n (i + 1) any u r t

end Sys2Proof.Machine
end

