-- ==== Sys2Proof/Certificates/Slice0/Obligations.lean ====
section
/-!
DEFINITION. The statements about the model, by chapter of the manual. Each says on which states and operands an instruction
completes, what its next state holds, and what it leaves unchanged.
-/

open Sys2Proof Sys2Proof.Machine

/-! The S slot (09 R227 to R233). -/

/-- 09 R228: every operation of the table writes sd := f(sa, sb), raises no trap and sets no flag, but that `divu` by zero
answers all ones and sets FPSF.DZ. Nothing but sd and that flag changes. Each is in format G under its opcode; B of `clz` and
`pcnt` must be zero. -/
def Obligations.RegisterArithmetic : Prop :=
  (∀ p ∈ ([(Instr.add, fun a b => a + b), (Instr.sub, fun a b => a - b),
           (Instr.mul, fun a b => BitVec.ofNat 64 (a.toNat * b.toNat)),
           (Instr.mulh, fun a b => BitVec.ofInt 64 (a.toInt * b.toInt / 2 ^ 64)),
           (Instr.mulhu, fun a b => BitVec.ofNat 64 (a.toNat * b.toNat / 2 ^ 64)),
           (Instr.and, fun a b => a &&& b), (Instr.or, fun a b => a ||| b), (Instr.xor, fun a b => a ^^^ b),
           (Instr.shl, fun a b => a <<< (b.toNat % 64)), (Instr.shr, fun a b => a >>> (b.toNat % 64)),
           (Instr.sra, fun a b => a.sshiftRight (b.toNat % 64)),
           (Instr.min, fun a b => if a.toInt ≤ b.toInt then a else b),
           (Instr.max, fun a b => if a.toInt ≤ b.toInt then b else a),
           (Instr.minu, fun a b => if a.toNat ≤ b.toNat then a else b),
           (Instr.maxu, fun a b => if a.toNat ≤ b.toNat then b else a)] : List ((OpRRR → Instr) × (Word → Word → Word))),
    ∀ (o : OpRRR) (s : State), s.here → s.guardOk o.gd → s.readable o.a → s.readable o.b →
      ∃ t, exec (p.1 o) s = .next t ∧ ScalarWritten s t o.d (p.2 (s.scalar o.a) (s.scalar o.b)) 0) ∧
  (∀ (o : OpRRR) (s : State), s.here → s.guardOk o.gd → s.readable o.a → s.readable o.b →
    ∃ t, exec (.divu o) s = .next t ∧
      ScalarWritten s t o.d
        (if s.scalar o.b = 0 then 0xFFFFFFFFFFFFFFFF else BitVec.ofNat 64 ((s.scalar o.a).toNat / (s.scalar o.b).toNat))
        (if s.scalar o.b = 0 then fDZ else 0)) ∧
  (∀ (o : OpRR) (s : State), s.here → s.guardOk o.gd → s.readable o.a →
    ∃ t n, exec (.clz o) s = .next t ∧ ScalarWritten s t o.d (BitVec.ofNat 64 n) 0 ∧
      n ≤ 64 ∧ (s.scalar o.a).toNat < 2 ^ (64 - n) ∧ (n < 64 → 2 ^ (63 - n) ≤ (s.scalar o.a).toNat)) ∧
  (∀ (o : OpRR) (s : State), s.here → s.guardOk o.gd → s.readable o.a →
    ∃ t, exec (.pcnt o) s = .next t ∧
      ScalarWritten s t o.d (BitVec.ofNat 64 ((List.range 64).countP fun i => (s.scalar o.a).getLsbD i)) 0) ∧
  (∀ p ∈ ([(0x01#8, Instr.add), (0x02#8, Instr.sub), (0x03#8, Instr.mul), (0x04#8, Instr.mulh), (0x05#8, Instr.mulhu), (0x06#8, Instr.divu),
           (0x08#8, Instr.and), (0x09#8, Instr.or), (0x0A#8, Instr.xor), (0x0B#8, Instr.shl), (0x0C#8, Instr.shr), (0x0D#8, Instr.sra),
           (0x0E#8, Instr.min), (0x0F#8, Instr.max), (0x10#8, Instr.minu), (0x11#8, Instr.maxu)] : List (BitVec 8 × (OpRRR → Instr))),
    ∀ (g : Guard) (d a b : BitVec 6), decodeSlot .s (0#33 ++ b ++ a ++ d ++ p.1 ++ encBit g.neg ++ g.reg) = .ok (p.2 ⟨g, d, a, b⟩)) ∧
  (∀ p ∈ ([(0x12#8, Instr.clz), (0x13#8, Instr.pcnt)] : List (BitVec 8 × (OpRR → Instr))), ∀ (g : Guard) (d a b : BitVec 6),
    decodeSlot .s (0#33 ++ 0#6 ++ a ++ d ++ p.1 ++ encBit g.neg ++ g.reg) = .ok (p.2 ⟨g, d, a⟩) ∧
    (b ≠ 0 → ∃ e, decodeSlot .s (0#33 ++ b ++ a ++ d ++ p.1 ++ encBit g.neg ++ g.reg) = .error e))

/-- 09 R229: the immediate forms write sd := f(sa, sext(IMM)), the shifts sd := f(sa, IMM[5:0]), and nothing else changes; all
are in format I; a shift whose IMM[31:6] is not zero is no instruction. -/
def Obligations.ImmediateArithmetic : Prop :=
  (∀ p ∈ ([(Instr.addi, fun a b => a + b), (Instr.muli, fun a b => BitVec.ofNat 64 (a.toNat * b.toNat)),
           (Instr.andi, fun a b => a &&& b), (Instr.ori, fun a b => a ||| b), (Instr.xori, fun a b => a ^^^ b)] :
            List ((OpRRI → Instr) × (Word → Word → Word))),
    ∀ (o : OpRRI) (s : State), s.here → s.guardOk o.gd → s.readable o.a →
      ∃ t, exec (p.1 o) s = .next t ∧ ScalarWritten s t o.d (p.2 (s.scalar o.a) (o.imm.signExtend 64)) 0) ∧
  (∀ p ∈ ([(Instr.shli, fun a n => a <<< n), (Instr.shri, fun a n => a >>> n), (Instr.srai, fun a n => a.sshiftRight n)] :
            List ((OpShI → Instr) × (Word → Nat → Word))),
    ∀ (o : OpShI) (s : State), s.here → s.guardOk o.gd → s.readable o.a →
      ∃ t, exec (p.1 o) s = .next t ∧ ScalarWritten s t o.d (p.2 (s.scalar o.a) o.sh.toNat) 0) ∧
  (∀ p ∈ ([(0x21#8, Instr.addi), (0x23#8, Instr.muli), (0x28#8, Instr.andi), (0x29#8, Instr.ori), (0x2A#8, Instr.xori)] :
            List (BitVec 8 × (OpRRI → Instr))),
    ∀ (g : Guard) (d a : BitVec 6) (imm : BitVec 32),
      decodeSlot .s (0#7 ++ imm ++ a ++ d ++ p.1 ++ encBit g.neg ++ g.reg) = .ok (p.2 ⟨g, d, a, imm⟩)) ∧
  (∀ p ∈ ([(0x2B#8, Instr.shli), (0x2C#8, Instr.shri), (0x2D#8, Instr.srai)] : List (BitVec 8 × (OpShI → Instr))),
    ∀ (g : Guard) (d a sh : BitVec 6),
      decodeSlot .s (0#33 ++ sh ++ a ++ d ++ p.1 ++ encBit g.neg ++ g.reg) = .ok (p.2 ⟨g, d, a, sh⟩)) ∧
  (∀ w : Word, wbits w 5 8 = 0x2B ∨ wbits w 5 8 = 0x2C ∨ wbits w 5 8 = 0x2D → wbits w 31 26 ≠ 0 →
    ∃ e, decodeSlot .s w = .error e)

/-- 09 R230: `bfx`, `bfx.s` and `bfi` extract and insert the field of LEN bits at POS, X[13] tells the first two apart, and a
field of no bits or beyond bit 63 is an illegal encoding. -/
def Obligations.BitFields : Prop :=
  (∀ (o : OpBfx) (s : State), bfOk o.pos o.len → s.here → s.guardOk o.gd → s.readable o.a →
    ∃ t, exec (.bfx o) s = .next t ∧
      ScalarWritten s t o.d (BitVec.ofNat 64 ((s.scalar o.a).toNat / 2 ^ o.pos.toNat % 2 ^ o.len.toNat)) 0) ∧
  (∀ (o : OpBfx) (s : State), bfOk o.pos o.len → s.here → s.guardOk o.gd → s.readable o.a →
    ∃ t, exec (.bfxS o) s = .next t ∧
      ScalarWritten s t o.d (BitVec.ofInt 64
        (let f : Int := ((s.scalar o.a).toNat / 2 ^ o.pos.toNat % 2 ^ o.len.toNat : Nat)
         if f < 2 ^ (o.len.toNat - 1) then f else f - 2 ^ o.len.toNat)) 0) ∧
  (∀ (o : OpBfi) (s : State), bfOk o.pos o.len → s.here → s.guardOk o.gd → s.readable o.a → s.readable o.b →
    ∃ t v, exec (.bfi o) s = .next t ∧ ScalarWritten s t o.d v 0 ∧
      ∀ i : Nat, i < 64 → v.getLsbD i =
        if o.pos.toNat ≤ i ∧ i < o.pos.toNat + o.len.toNat then (s.scalar o.b).getLsbD (i - o.pos.toNat)
        else (s.scalar o.a).getLsbD i) ∧
  (∀ (g : Guard) (d a b pos : BitVec 6) (len : BitVec 7), bfOk pos len →
    decodeSlot .s (0#7 ++ len ++ pos ++ 0#19 ++ a ++ d ++ 0x14#8 ++ encBit g.neg ++ g.reg) = .ok (.bfx ⟨g, d, a, pos, len⟩) ∧
    decodeSlot .s (0#6 ++ 1#1 ++ len ++ pos ++ 0#19 ++ a ++ d ++ 0x14#8 ++ encBit g.neg ++ g.reg) = .ok (.bfxS ⟨g, d, a, pos, len⟩) ∧
    decodeSlot .s (0#7 ++ len ++ pos ++ 0#13 ++ b ++ a ++ d ++ 0x15#8 ++ encBit g.neg ++ g.reg) = .ok (.bfi ⟨g, d, a, b, pos, len⟩)) ∧
  (∀ (w : Word) (o : OpBfx), decodeSlot .s w = .ok (.bfx o) → wbits w 57 1 = 0) ∧
  (∀ (w : Word) (o : OpBfx), decodeSlot .s w = .ok (.bfxS o) → wbits w 57 1 = 1) ∧
  (∀ w : Word, wbits w 5 8 = 0x14 ∨ wbits w 5 8 = 0x15 →
    wbits w 50 7 = 0 ∨ 64 < wbits w 44 6 + wbits w 50 7 → ∃ e, decodeSlot .s w = .error e)

/-- 09 R231: a compare writes the guard pair its condition and the complement (nothing for pair 0), and nothing else; `sel`
writes sa or sb by its own guard, which is not the slot's, and which is read only where the slot's is true. Compares are in format
G and I, and C[5:4] of `sel` must be zero. -/
def Obligations.ComparesAndSelect : Prop :=
  (∀ p ∈ ([(Instr.cmpEq, Instr.cmpiEq, fun a b => decide (a = b)), (Instr.cmpNe, Instr.cmpiNe, fun a b => decide (a ≠ b)),
           (Instr.cmpLt, Instr.cmpiLt, fun a b => decide (a.toInt < b.toInt)),
           (Instr.cmpGe, Instr.cmpiGe, fun a b => decide (b.toInt ≤ a.toInt)),
           (Instr.cmpLtu, Instr.cmpiLtu, fun a b => decide (a.toNat < b.toNat)),
           (Instr.cmpGeu, Instr.cmpiGeu, fun a b => decide (b.toNat ≤ a.toNat))] :
            List ((OpCmp → Instr) × (OpCmpI → Instr) × (Word → Word → Bool))),
    (∀ (o : OpCmp) (s : State), s.here → s.guardOk o.gd → s.readable o.a → s.readable o.b →
      ∃ t, exec (p.1 o) s = .next t ∧ GuardsWritten s t o.d (p.2.2 (s.scalar o.a) (s.scalar o.b))) ∧
    (∀ (o : OpCmpI) (s : State), s.here → s.guardOk o.gd → s.readable o.a →
      ∃ t, exec (p.2.1 o) s = .next t ∧ GuardsWritten s t o.d (p.2.2 (s.scalar o.a) (o.imm.signExtend 64)))) ∧
  (∀ (o : OpSel) (s : State), s.here → s.guardOk o.gd → s.readable o.a → s.readable o.b →
    ∃ t, exec (.sel o) s = .next t ∧
      ScalarWritten s t o.d (if s.old.r.getG o.gc.toNat then s.scalar o.a else s.scalar o.b) 0) ∧
  (∀ p ∈ ([(0x40#8, Instr.cmpEq), (0x41#8, Instr.cmpNe), (0x42#8, Instr.cmpLt), (0x43#8, Instr.cmpGe), (0x44#8, Instr.cmpLtu),
           (0x45#8, Instr.cmpGeu)] : List (BitVec 8 × (OpCmp → Instr))),
    ∀ (g : Guard) (k : BitVec 3) (a b : BitVec 6),
      decodeSlot .s (0#33 ++ b ++ a ++ 0#2 ++ k ++ 0#1 ++ p.1 ++ encBit g.neg ++ g.reg) = .ok (p.2 ⟨g, k, a, b⟩)) ∧
  (∀ p ∈ ([(0x48#8, Instr.cmpiEq), (0x49#8, Instr.cmpiNe), (0x4A#8, Instr.cmpiLt), (0x4B#8, Instr.cmpiGe), (0x4C#8, Instr.cmpiLtu),
           (0x4D#8, Instr.cmpiGeu)] : List (BitVec 8 × (OpCmpI → Instr))),
    ∀ (g : Guard) (k : BitVec 3) (a : BitVec 6) (imm : BitVec 32),
      decodeSlot .s (0#7 ++ imm ++ a ++ 0#2 ++ k ++ 0#1 ++ p.1 ++ encBit g.neg ++ g.reg) = .ok (p.2 ⟨g, k, a, imm⟩)) ∧
  (∀ (g : Guard) (d a b c : BitVec 6),
    (c.toNat < 16 → decodeSlot .s (0#27 ++ c ++ b ++ a ++ d ++ 0x50#8 ++ encBit g.neg ++ g.reg) = .ok (.sel ⟨g, d, a, b, c.setWidth 4⟩)) ∧
    (16 ≤ c.toNat → ∃ e, decodeSlot .s (0#27 ++ c ++ b ++ a ++ d ++ 0x50#8 ++ encBit g.neg ++ g.reg) = .error e)) ∧
  (∀ (o : OpSel) (s : State), s.here → s.guardOk o.gd = false → exec (.sel o) s = .next s)

/-- 09 R232: `li` writes sext(IMM), `lih` IMM above the low half of sa; nothing else changes; both are in I format. -/
def Obligations.Immediates : Prop :=
  (∀ (o : OpLi) (s : State), s.here → s.guardOk o.gd →
    ∃ t, exec (.li o) s = .next t ∧ ScalarWritten s t o.d (o.imm.signExtend 64) 0) ∧
  (∀ (o : OpRRI) (s : State), s.here → s.guardOk o.gd → s.readable o.a →
    ∃ t, exec (.lih o) s = .next t ∧
      ScalarWritten s t o.d (BitVec.ofNat 64 (o.imm.toNat * 2 ^ 32 + (s.scalar o.a).toNat % 2 ^ 32)) 0) ∧
  (∀ (g : Guard) (d a : BitVec 6) (imm : BitVec 32),
    decodeSlot .s (0#7 ++ imm ++ 0#6 ++ d ++ 0x60#8 ++ encBit g.neg ++ g.reg) = .ok (.li ⟨g, d, imm⟩) ∧
    decodeSlot .s (0#7 ++ imm ++ a ++ d ++ 0x61#8 ++ encBit g.neg ++ g.reg) = .ok (.lih ⟨g, d, a, imm⟩) ∧
    (a ≠ 0 → ∃ e, decodeSlot .s (0#7 ++ imm ++ a ++ d ++ 0x60#8 ++ encBit g.neg ++ g.reg) = .error e))

/-! Control registers (08 R223, 09 R233). -/

/-- The control registers of a task context and the value each reads as (08 R223). -/
def taskRegisters (s : State) : List (Nat × Word) :=
  let x := s.old
  [(0x000, x.id.taskid), (0x001, BitVec.ofNat 64 (s.toCore.domOf s.ref.tile % 4 * 512 + s.ref.tile)),
   (0x002, if x.id.side then 1 else 0), (0x003, x.id.tcoord), (0x004, x.id.tcnt), (0x005, x.id.targs),
   (0x006, x.r.twgt.zeroExtend 64), (0x007, BitVec.ofNat 64 x.r.scrb), (0x008, x.r.cyc), (0x009, s.ftick),
   (0x00A, x.r.limit), (0x010, x.r.fpsf.zeroExtend 64), (0x011, x.r.seedk), (0x012, x.r.cgctr), (0x013, x.r.adjoff),
   (0x018, x.r.tver.zeroExtend 64), (0x019, x.r.verpol), (0x01C, x.r.crbase), (0x01D, x.r.crctl),
   (0x01E, x.r.crseq.zeroExtend 64), (0x020, 0), (0x021, 0)]

/-- 09 R233, reading: `ctl.rd` writes the register's value to sd and changes nothing else; a handler context reads 0 from a
register that it lacks; a domain register closed to tasks and the band registers answer a supervisor context only, and
raise PRIV otherwise. -/
def Obligations.ControlRegisterReads : Prop :=
  (∀ (o : OpCtlRd) (s : State) (v : Word), s.here → s.guardOk o.gd → s.ref.isHc = false → s.old.hc = none →
    (o.num.toNat, v) ∈ taskRegisters s → ∃ t, exec (.ctlRd o) s = .next t ∧ ScalarWritten s t o.d v 0) ∧
  (∀ (o : OpCtlRd) (s : State), s.here → s.guardOk o.gd → s.ref.isHc = true →
    o.num.toNat ∈ [0x000, 0x003, 0x004, 0x005, 0x006, 0x007, 0x00A, 0x013, 0x018, 0x019, 0x01C, 0x01D, 0x01E] →
    ∃ t, exec (.ctlRd o) s = .next t ∧ ScalarWritten s t o.d 0 0) ∧
  (∀ (o : OpCtlRd) (s : State) (h : HcInfo), s.here → s.guardOk o.gd → s.ref.isHc = true → s.old.hc = some h →
    o.num = 0x020 → ∃ t, exec (.ctlRd o) s = .next t ∧ ScalarWritten s t o.d (h.record.getD h.selF.toNat 0) 0) ∧
  (∀ (o : OpCtlRd) (s : State), s.here → s.guardOk o.gd →
    o.num.toNat ∈ [0x070, 0x071] ∨ (s.old.isSup ∧ o.num.toNat ∈ [0x040, 0x041, 0x042, 0x060, 0x068, 0x069, 0x06A]) ∨
      (s.old.isSup ∧ 0x048 ≤ o.num.toNat ∧ o.num.toNat < 0x058) →
    ∃ t, exec (.ctlRd o) s = .next t ∧
      ScalarWritten s t o.d (mapGet 0 (s.toCore.dom (s.toCore.domOf s.ref.tile)).ctl o.num.toNat) 0) ∧
  (∀ (o : OpCtlRd) (s : State), s.here → s.guardOk o.gd → s.old.isSup → 0x080 ≤ o.num.toNat → o.num.toNat ≤ 0x083 →
    ∃ t, exec (.ctlRd o) s = .next t ∧ ScalarWritten s t o.d (mapGet 0 s.mc.hband (o.num.toNat - 0x080)) 0) ∧
  (∀ (o : OpCtlRd) (s : State), s.guardOk o.gd → s.old.isSup = false →
    (0x080 ≤ o.num.toNat ∧ o.num.toNat ≤ 0x083) ∨ (0x040 ≤ o.num.toNat ∧ o.num.toNat ≤ 0x06A) →
    exec (.ctlRd o) s = .next (s.trap privTrap))

/-- 09 R233, writing: `ctl.wr` clears bits of FPSF at once (03 R76) and lets every other write hold from the next bundle on; a
register without a field that the context can write raises PRIV, a pool in use INUSE (02 R60). The later clauses say what
the held write does when the bundle commits.
The model's choices in it are those of log entry 8. -/
def Obligations.ControlRegisterWrites : Prop :=
  (∀ (o : OpCtlWr) (s : State), s.here → s.guardOk o.gd → s.readable o.a → o.num = 0x010 →
    ∃ t, exec (.ctlWr o) s = .next t ∧ OnlyHere s t ∧ SameMemory s t ∧
      t.me = { s.me with r := { s.me.r with fpsf := s.me.r.fpsf &&& ~~~((s.scalar o.a).extractLsb' 0 8) } }) ∧
  (∀ (o : OpCtlWr) (s : State), s.guardOk o.gd → s.readable o.a →
    (o.num.toNat ∈ [0x011, 0x012]) ∨ (s.ref.isHc = false ∧ o.num.toNat ∈ [0x013, 0x019, 0x01C, 0x01D, 0x01E]) ∨
      (s.ref.isHc = true ∧ o.num.toNat ∈ [0x020, 0x021]) ∨
      (s.old.isSup ∧ 0x040 ≤ o.num.toNat ∧ o.num.toNat ≤ 0x071 ∧
        s.toCore.drepInUse (s.toCore.domOf s.ref.tile) o.num.toNat (s.scalar o.a) = false) →
    exec (.ctlWr o) s =
      .next { s with bundle := s.bundle.map fun b => { b with late := b.late ++ [(s.ref, o.num.toNat, s.scalar o.a)] } }) ∧
  (∀ (o : OpCtlWr) (s : State), s.guardOk o.gd →
    o.num.toNat ∈ [0x000, 0x001, 0x002, 0x003, 0x004, 0x005, 0x006, 0x007, 0x008, 0x009, 0x00A, 0x018, 0x080, 0x081, 0x082, 0x083] ∨
      (s.ref.isHc = true ∧ o.num.toNat ∈ [0x013, 0x019, 0x01C, 0x01D, 0x01E]) ∨
      (s.ref.isHc = false ∧ o.num.toNat ∈ [0x020, 0x021]) ∨
      (s.old.isSup = false ∧ 0x040 ≤ o.num.toNat ∧ o.num.toNat ≤ 0x071) →
    exec (.ctlWr o) s = .next (s.trap privTrap)) ∧
  (∀ (o : OpCtlWr) (s : State), s.guardOk o.gd → s.readable o.a → s.old.isSup →
    s.toCore.drepInUse (s.toCore.domOf s.ref.tile) o.num.toNat (s.scalar o.a) →
    exec (.ctlWr o) s = .next (s.trap { mkTrap kPerm cInuse with addr := BitVec.ofNat 64 o.num.toNat })) ∧
  (∀ (c : Core) (r : CtxRef) (v : Word), (c.ctx? r).isSome →
    (c.writeCtl r 0x011 v).ctx r = { c.ctx r with r := { (c.ctx r).r with seedk := v } } ∧
    (c.writeCtl r 0x012 v).ctx r = { c.ctx r with r := { (c.ctx r).r with cgctr := v } } ∧
    (c.writeCtl r 0x013 v).ctx r =
      { c.ctx r with r := { (c.ctx r).r with ofs := v.extractLsb' 0 8, blost := (c.ctx r).r.blost && !v.getLsbD 8 } } ∧
    (c.writeCtl r 0x01E v).ctx r = { c.ctx r with r := { (c.ctx r).r with crseq := v.extractLsb' 0 32 } }) ∧
  (∀ (c : Core) (r : CtxRef) (n : Nat) (v : Word), n ∈ [0x040, 0x041, 0x042, 0x068, 0x069, 0x06A, 0x070, 0x071] →
    mapGet 0 ((c.writeCtl r n v).dom (c.domOf r.tile)).ctl n = v &&& ctlMask n ∧
    (c.writeCtl r n v).mem = c.mem ∧ (c.writeCtl r n v).tiles = c.tiles)

/-- The register writes that the opcode table lists as steps of their own, each with the fields it sets (06 R160, R161, R163;
07 R191; 17 R405; 02 R60, R69; 06 R169; 01 R31), memory and every other context as before. -/
def Obligations.RegisterWriteSteps : Prop :=
  (∀ (s : State) (r : CtxRef) (v : Word), s.event = some (.verpolWrite r v) → (s.toCore.ctx? r).isSome →
    ∃ t, exec .verpolWrite s = .next t ∧ t = { s with toCore := s.toCore.setCtx r (t.toCore.ctx r) } ∧ SameMemory s t ∧
      (t.toCore.ctx r).r.polAuto = v.getLsbD 2 ∧
      (t.toCore.ctx r).r.polMode = (if wbits v 0 2 = 3 then (s.toCore.ctx r).r.polMode else v.extractLsb' 0 2) ∧
      (9 < wbits v 4 4 → (t.toCore.ctx r).r.polScope = (s.toCore.ctx r).r.polScope) ∧
      (wbits v 4 4 ≤ 9 → scopeCode (t.toCore.ctx r).r.polScope = wbits v 4 4)) ∧
  (∀ (s : State) (r : CtxRef) (ctl : Bool) (v : Word), s.event = some (.creelRingRegWrite r ctl v) → (s.toCore.ctx? r).isSome →
    ∃ t, exec .creelRingRegWrite s = .next t ∧ t = { s with toCore := s.toCore.setCtx r (t.toCore.ctx r) } ∧ SameMemory s t ∧
      (t.toCore.ctx r).r = (if ctl then { (s.toCore.ctx r).r with crwi := 0, crpos := 0, crlog := v.extractLsb' 0 5 }
        else { (s.toCore.ctx r).r with crwi := 0, crpos := 0, crbase := v &&& 0x01FFFFFFFFFFFFC0 })) ∧
  (∀ (s : State) (r : CtxRef) (v : Word) (h : HcInfo), s.event = some (.hmsgWrite r v) → (s.toCore.ctx? r).isSome →
    (s.toCore.ctx r).hc = some h →
    ∃ t, exec .hmsgWrite s = .next t ∧ t = { s with toCore := s.toCore.setCtx r (t.toCore.ctx r) } ∧ SameMemory s t ∧
      t.toCore.ctx r = { s.toCore.ctx r with hc := some { h with selH := v.extractLsb' 0 5 } }) ∧
  (∀ (s : State) (r : CtxRef) (v : Word) (h : HcInfo), s.event = some (.fltrecWrite r v) → (s.toCore.ctx? r).isSome →
    (s.toCore.ctx r).hc = some h →
    ∃ t, exec .fltrecWrite s = .next t ∧ t = { s with toCore := s.toCore.setCtx r (t.toCore.ctx r) } ∧ SameMemory s t ∧
      t.toCore.ctx r = { s.toCore.ctx r with hc := some { h with selF := v.extractLsb' 0 3, kill := h.kill || v.getLsbD 8 } }) ∧
  (∀ (s : State) (d n : Nat) (v : Word), s.event = some (.drepWrite d n v) → n < 8 →
    ∃ t, exec .drepWrite s = .next t ∧ SameMemory s t ∧ t.tiles = s.tiles ∧
      (s.toCore.drepInUse d (0x048 + n) v → t = s) ∧
      (s.toCore.drepInUse d (0x048 + n) v = false →
        mapGet 0 (t.toCore.dom d).ctl (0x048 + n) = v &&& 0xFFFFFFFFFFFF0001 ∧
        ((mapGet 0 (s.toCore.dom d).ctl (0x048 + n)).getLsbD 0 = true → v.getLsbD 0 = false →
          (∀ x ∈ s.reps, x.die = n → x.dom = d → x.dropping = false → .replicaDrop n x.page ∈ t.msgs) ∧
          (∀ x ∈ t.reps, x.die = n → x.dom = d → x.dropping = true) ∧
          ∀ page, ∀ a ∈ (t.toCore.page page).asking, a.die = n → a.dom ≠ d))) ∧
  (∀ (s : State) (d n : Nat) (ctl : Bool) (v : Word), s.event = some (.hrctlWrite d n ctl v) → n < 8 →
    ∃ t, exec .hrctlWrite s = .next t ∧ SameMemory s t ∧ t.tiles = s.tiles ∧
      mapGet 0 (t.toCore.dom d).ctl ((if ctl then 0x058 else 0x050) + n) =
        v &&& (if ctl then 0x1FFFFFFFFFFF0F00 else 0x000FFFFFFFFF0001)) ∧
  (∀ (s : State) (d : Nat) (v : Word), s.event = some (.kvpoolWrite d 0 v) →
    ∃ t, exec .kvpoolWrite s = .next t ∧ SameMemory s t ∧ t.tiles = s.tiles ∧
      (mapGet 0 (t.toCore.dom d).ctl 0x060).getLsbD 0 = v.getLsbD 0 ∧
      ((s.toCore.dom d).kvOn = false → v.getLsbD 0 = true → (t.toCore.dom d).kvHeld = []) ∧
      ((s.toCore.dom d).kvOn = true →
        wbits (mapGet 0 (t.toCore.dom d).ctl 0x060) 1 63 = wbits (mapGet 0 (s.toCore.dom d).ctl 0x060) 1 63)) ∧
  (∀ (s : State) (d : Nat) (v : Word), s.event = some (.kvpoolWrite d 1 v) →
    ∃ t, exec .kvpoolWrite s = .next t ∧ SameMemory s t ∧ t.tiles = s.tiles ∧
      (v.getLsbD 0 = true → (t.toCore.dom d).kvBadf = false) ∧
      ((s.toCore.dom d).kvOn = true → mapGet 0 (t.toCore.dom d).ctl 0x061 = mapGet 0 (s.toCore.dom d).ctl 0x061) ∧
      ((s.toCore.dom d).kvOn = false → mapGet 0 (t.toCore.dom d).ctl 0x061 = v &&& 0x00000000FFFFFFFE)) ∧
  (∀ (s : State) (n : Nat) (v : Word), s.event = some (.hbandWrite n v) →
    ∃ t, exec .hbandWrite s = .next t ∧ SameMemory s t ∧ mapGet 0 t.mc.hband n = v ∧
      t = { s with toCore := { s.toCore with mc := { s.mc with hband := t.mc.hband } } } ∧
      ∀ k, k ≠ n → mapGet 0 t.mc.hband k = mapGet 0 s.mc.hband k)

/-! The C slot (09 R234 to R246). -/

/-- 09 R235: `br` and `call` continue at the bundle's address + 8 × OFS, and `call` writes s63 the address that follows in
sequence. Both are in format O. An S operation of the same bundle that names s63 as its destination, such as an `add` with d = 63, conflicts
with `call`. Nothing else changes. -/
def Obligations.BranchesAndCalls : Prop :=
  (∀ (o : OpBr) (s : State) (b : Bundle), s.guardOk o.gd → s.bundle = some b →
    exec (.br o) s = .next { s with bundle := some { b with target := some (b.pc + o.ofs.signExtend 64 * 8) } }) ∧
  (∀ (o : OpBr) (s : State) (b : Bundle), s.here → s.guardOk o.gd → s.bundle = some b →
    ∃ t, exec (.call o) s = .next { t with bundle := some { b with target := some (b.pc + o.ofs.signExtend 64 * 8) } } ∧
      ScalarWritten s t 63 (b.pc + BitVec.ofNat 64 b.len) 0) ∧
  (∀ (p : OpBr) (i : Instr), (usesOf 0 i).s = some 63 → clash (usesOf 1 (.call p)) (usesOf 0 i) = true) ∧
  (∀ o : OpRRR, (usesOf 0 (.add o)).s = some o.d.toNat) ∧
  (∀ (g : Guard) (ofs : BitVec 32), decodeSlot .c (0#19 ++ ofs ++ 0x80#8 ++ encBit g.neg ++ g.reg) = .ok (.br ⟨g, ofs⟩) ∧
    decodeSlot .c (0#19 ++ ofs ++ 0x82#8 ++ encBit g.neg ++ g.reg) = .ok (.call ⟨g, ofs⟩))

/-- 09 R236: `jmp` and `ret` continue at the VA in sa; a target that is not aligned to 8 raises the alignment fault with cause
ALIGN at this bundle. -/
def Obligations.JumpsAndReturns : Prop :=
  ∀ i ∈ [Instr.jmp, Instr.ret], ∀ (o : OpJmp) (s : State) (b : Bundle),
    s.guardOk o.gd → s.readable o.a → s.bundle = some b →
    ((s.scalar o.a).toNat % 8 = 0 → exec (i o) s = .next { s with bundle := some { b with target := some (s.scalar o.a) } }) ∧
    ((s.scalar o.a).toNat % 8 ≠ 0 →
      exec (i o) s = .next (s.trap { mkTrap kAlign cAlign with addr := s.scalar o.a, detail := 0x3000 }))

/-- 09 R238: `loop` enters its loop as the newest, or with a count of 0 clears ACT and continues at END; no other loop changes
but in the number of its place among the active ones. -/
def Obligations.LoopEntry : Prop :=
  ∀ (o : OpLoop) (s : State) (b : Bundle), s.here → s.guardOk o.gd → s.readable o.a → s.bundle = some b →
    ∃ t, exec (.loop o) s = .next t ∧ SameMemory s t ∧ t.me = { s.me with lp := t.me.lp } ∧ t.toCore = (s.setMe t.me).toCore ∧
      (t.me.loopReg o.lp.toNat).pend = none ∧
      ((s.scalar o.a).toNat % 2 ^ 32 = 0 →
        (t.me.loopReg o.lp.toNat).act = false ∧ t.bundle = some { b with target := some (b.pc + o.imm.signExtend 64 * 8) }) ∧
      ((s.scalar o.a).toNat % 2 ^ 32 ≠ 0 → t.bundle = s.bundle ∧
        (t.me.loopReg o.lp.toNat).act = true ∧
        (t.me.loopReg o.lp.toNat).count = (s.scalar o.a).extractLsb' 0 32 ∧
        (t.me.loopReg o.lp.toNat).start = (b.pc + BitVec.ofNat 64 b.len).setWidth 57 ∧
        (t.me.loopReg o.lp.toNat).stop = (b.pc + o.imm.signExtend 64 * 8).setWidth 57 ∧
        ∀ k : Nat, k < 4 → k ≠ o.lp.toNat → (t.me.loopReg k).act = true →
          (t.me.loopReg k).order < (t.me.loopReg o.lp.toNat).order) ∧
      ∀ k : Nat, k < 4 → k ≠ o.lp.toNat → { t.me.loopReg k with order := 0 } = { s.me.loopReg k with order := 0 }

/-- 09 R239, R240: `lbrk` leaves a pending count of (sa + zext(IMM))[31:0] and changes nothing else; and at a boundary where
one loop ends, the pending count or COUNT - 1 decides whether control continues at START or the loop is left. -/
def Obligations.LoopBreakAndBoundary : Prop :=
  (∀ (o : OpLoop) (s : State), s.here → s.guardOk o.gd → s.readable o.a →
    ∃ t, exec (.lbrk o) s = .next t ∧ OnlyHere s t ∧ SameMemory s t ∧ t.me = { s.me with lp := t.me.lp } ∧
      t.me.loopReg o.lp.toNat =
        { s.me.loopReg o.lp.toNat with pend := some ((s.scalar o.a + o.imm.zeroExtend 64).extractLsb' 0 32) } ∧
      ∀ k, k ≠ o.lp.toNat → t.me.loopReg k = s.me.loopReg k) ∧
  (∀ (x : Ctx) (n : Nat) (next : Word), n < 4 → (x.loopReg n).act = true → (x.loopReg n).stop = next.setWidth 57 →
    (∀ k : Nat, k < 4 → k ≠ n → ¬ ((x.loopReg k).act = true ∧ (x.loopReg k).stop = next.setWidth 57)) →
    let count : BitVec 32 := match (x.loopReg n).pend with
      | some p => p
      | none => (x.loopReg n).count - 1
    let y := x.boundary 5 next
    (y.1.loopReg n).count = count ∧ (y.1.loopReg n).pend = none ∧
      (y.1.loopReg n).act = decide (count ≠ 0) ∧ y.2 = (if count = 0 then next else (x.loopReg n).start.signExtend 64) ∧
      ∀ k : Nat, k ≠ n → y.1.loopReg k = x.loopReg k)

/-- 09 R242, R245: `sync` goes on once every condition that it selects holds, changing nothing, and waits otherwise;
`evt.wt` returns and clears the masked event bits that are set, and waits when none is.
The model's choices in it are those of log entry 7. -/
def Obligations.WaitsOfTheControlSlot : Prop :=
  (∀ (o : OpSync) (s : State), s.guardOk o.gd →
    (o.land = true → s.old.readsDone) →
    (o.mx = true → s.old.rout = none ∧ s.old.macs = []) → (o.fo = true → s.old.fo = none) →
    (o.eng = true → s.older.cmdsOf s.ref = []) → exec (.sync o) s = .next s) ∧
  (∀ (o : OpSync) (s : State), s.guardOk o.gd → o.land = true → s.old.pend ≠ [] → exec (.sync o) s = .next (s.wait .entry)) ∧
  (∀ (o : OpEvtWt) (s : State), s.here → s.guardOk o.gd → s.me.r.ev &&& o.mask ≠ 0 →
    ∃ t, exec (.evtWt o) s = .next t ∧
      ScalarWritten (s.updRegs fun r => { r with ev := r.ev &&& ~~~o.mask }) t o.d ((s.me.r.ev &&& o.mask).zeroExtend 64) 0) ∧
  (∀ (o : OpEvtWt) (s : State), s.guardOk o.gd → s.me.r.ev &&& o.mask = 0 →
    exec (.evtWt o) s = .next (s.wait (.evt o.mask)))

/-- 09 R243, R246, 07 R175, R181: `halt` and `hret` end their context when their bundle commits, once no store is parked, no read is
outstanding and no unit works for it (`halt`), or no store is parked and a release at .mod is met (`hret`); until then they change nothing. At that
commit the task leaves its tile's queue once its release at .mod, which returns its weight, is met; the handler context is gone and its slot is free.
The model's choices in it are those of log entry 7. -/
def Obligations.EndsOfContexts : Prop :=
  (∀ (g : Guard) (s : State) (b : Bundle), s.guardOk g → s.bundle = some b → s.old.replay = [] → s.old.late = [] →
    s.old.readsDone → s.old.rout = none → s.old.macs = [] → s.old.fo = none →
    exec (.halt g) s = .next { s with bundle := some { b with ends := true } }) ∧
  (∀ (g : Guard) (s : State) (b : Bundle), s.guardOk g → s.bundle = some b → s.old.replay = [] → s.old.late = [] →
    s.old.rout = none → s.old.macs = [] → s.old.fo = none → (∀ x ∈ s.rels, ¬ (x.kind = .wait ∧ x.r = s.ref)) →
    s.releasedNow .mod → exec (.hret g) s = .next { s with bundle := some { b with ends := true } }) ∧
  (∀ (g : Guard) (s : State) (b : Bundle), s.guardOk g = false → s.bundle = some b →
    exec (.halt g) s = .next s ∧ exec (.hret g) s = .next s) ∧
  (∀ (s : State) (t p : Nat) (g : Guard), s.bundle = none → s.ref = .task t p →
    (s.me.r.twgt = 0 ∨ s.toCore.rootBusy (s.toCore.domOf t) t s.me.id.rootVA = false) → s.me.life = .ending →
    s.me.replay = [] → s.me.late = [] → s.me.readsDone → s.me.rout = none → s.me.macs = [] → s.me.fo = none → s.toCore.released s.ref .mod →
    exec (.halt g) s = .next { s with toCore := s.toCore.endTask t p }) ∧
  (∀ (c : Core) (t p : Nat) (x : Ctx), c.ctx? (.task t p) = some x → x.r.twgt = 0 → x.replay = [] → x.late = [] → x.readsDone →
    x.rout = none → x.macs = [] → x.fo = none → c.released (.task t p) .mod → (c.tile t).pair = none →
    let d := c.endCtx (.task t p)
    (d.tile t).queue = (c.tile t).queue.eraseIdx p ∧ d.mem = c.mem ∧ d.msgs = c.msgs ∧ ∀ k, k ≠ t → d.tile k = c.tile k) ∧
  (∀ (c : Core) (t k : Nat) (x : Ctx) (h : HcInfo), c.ctx? (.hc t k) = some x → x.hc = some h → h.fault = false →
    let d := c.endCtx (.hc t k)
    mapGet none (d.tile t).hcs k = none ∧ h.slot ∉ (d.tile t).busy ∧ (d.tile t).queue = (c.tile t).queue ∧ d.mem = c.mem ∧
      d.msgs = c.msgs ∧ (∀ j, j ≠ k → mapGet none (d.tile t).hcs j = mapGet none (c.tile t).hcs j) ∧ ∀ u, u ≠ t → d.tile u = c.tile u)

/-- 17 R403, R406 to R408, 08 R211, 09 R244: a trap of a task discards its bundle, suspends the task with every register as the last
committed bundle left it (its schedule cycles, a pending overrun and the number of a publication under way apart), and leaves a record with the fields of R406 for
a handler. `trap` raises kind 16 with its code. Logit kernels are killed instead (16 R396). -/
def Obligations.TrapsSuspendTheTask : Prop :=
  (∀ (o : OpTrap) (s : State), s.guardOk o.gd →
    exec (.trap o) s = .next (s.trap { mkTrap kProgram 0 with detail := o.code.toNat })) ∧
  (∀ (s : State) (b : Bundle) (c : Core) (tl p : Nat) (x : Ctx) (i : TrapInfo), s.bundle = some b → s.saved = some c →
    s.ref = .task tl p → b.r = s.ref → b.own = [] → c.ctx? s.ref = some x → x.id.logit = false → x.started = true →
    i.kind ≤ 17 → i.kind ≠ kIllegal → i.cause < 256 → i.flags < 256 → s.slot < 12 → i.slot = 0xF → tl < 512 →
    let t := s.trap i
    t.bundle = none ∧ t.saved = none ∧ (∀ k, t.mem.get k = c.mem.get k) ∧
    t.me = { x with status := .suspended, r := { x.r with cyc := s.me.r.cyc }, budPend := t.me.budPend, cast := none } ∧
    ∃ f, (t.toCore.tile tl).faults = (c.tile tl).faults ++ [f] ∧ f.parked = false ∧ f.engine = false ∧
      f.serves = some x.id.taskid ∧ f.record.length = 8 ∧
      wbits (f.record.getD 0 0) 56 8 = i.kind ∧ wbits (f.record.getD 0 0) 48 8 = i.cause ∧
      wbits (f.record.getD 0 0) 44 4 = s.slot ∧ wbits (f.record.getD 0 0) 40 4 = 0xF ∧
      wbits (f.record.getD 0 0) 0 16 = i.detail % 65536 ∧ wbits (f.record.getD 0 0) 16 16 = x.rep % 65536 ∧
      wbits (f.record.getD 1 0) 32 32 = x.kid.toNat ∧ wbits (f.record.getD 1 0) 0 32 = (x.pc - x.entry).toNat % 2 ^ 32 ∧
      f.record.getD 2 0 = x.id.taskid ∧ f.record.getD 3 0 = i.addr ∧ wbits (f.record.getD 4 0) 0 9 = tl ∧
      f.record.getD 5 0 = c.ftick ∧ f.record.getD 6 0 = i.aux0 ∧ f.record.getD 7 0 = i.aux1)


/-! Bundles (08 R196 to R220). -/

/-- A context as the dispatch of its bundle finds it: it no longer waits; `dispatching` has counted the schedule cycles of the dispatch besides,
one and how many more is open (log entry 7). -/
def undispatched (s : State) (r : CtxRef) : Core := s.toCore.issuing r

def dispatching (s : State) (r : CtxRef) : Core := (undispatched s r).addCycles [r] (1 + (Config.cycles (4 * s.seq + 1)).toNat)

/-- 08 R201, R207, R218, R220, 15 R378: the dispatch of a bundle of one context reads it at the pc; where no encoding is illegal and no
queue under- or overflows, the effective words of its slots, present or sticky, become due in slot order, and nothing else
changes but that its schedule cycles are counted and the machine as it stands is kept for a trap to return to. An illegal encoding,
then a queue trap, is precise at the bundle before any slot issues; a bundle that cannot be read waits or traps. The combined bundle of a
joined pair issues the effective words of both members, each as its owner's.
The model's choices in it are those of log entry 7. -/
def Obligations.BundleDispatch : Prop :=
  (∀ (s : State) (r : CtxRef) (x : Ctx), s.event = some (.bundleDispatch r) → s.toCore.ctx? r = some x →
    x.life = .live → x.status ≠ .suspended → s.toCore.form r ≠ .joined → (dispatching s r).form r ≠ .joined →
    let pc := ((dispatching s r).ctx r).pc
    let read := (dispatching s r).fetchWords r
    (∀ t, readBundle read pc = .error (.trap t) → exec .bundleDispatch s =
      .next (({ s with toCore := dispatching s r, ref := r, slot := 0xF }).dispatchTrap (undispatched s r) [] t)) ∧
    (∀ w, readBundle read pc = .error (.wait w) → exec .bundleDispatch s =
      .next (({ s with toCore := dispatching s r, ref := r, slot := 0xF, saved := some (undispatched s r) }).wait w)) ∧
    (∀ f, readBundle read pc = .ok f →
      let old := (undispatched s r).firstBundle r
      let c := (dispatching s r).firstBundle r
      let slots := match c.form r with
        | .noC => [0, 2, 3, 4, 5, 6, 7, 8, 9, 10, 11]
        | .onlyC => [1]
        | _ => List.range 12
      let word := fun slot => Part.eff c ⟨r, f⟩ slot
      let due := slots.filter fun slot => decide (word slot ≠ 0)
      let bad := c.illegalAt ⟨r, f⟩ (effOwners (c.ctx r).owners f.head) (if c.form r = .onlyC then [1] else List.range 12)
      let full := c.queueTrap (slots.filter fun slot => (f.word? slot).isSome) (due.map fun slot => (slot, r, slotOp slot (word slot)))
      (bad = none → full = none →
        ∃ t b, exec .bundleDispatch s = .next t ∧
          t = { s with toCore := c, ref := r, slot := 0xF, bundle := some b, saved := some old } ∧
          b.r = r ∧ b.pc = x.pc ∧ b.hdr = f.hdr ∧ b.len = f.len ∧ b.rep = x.rep ∧ b.todo = due ∧ b.own = [] ∧ b.target = none ∧
          b.ends = false ∧ b.outs = [] ∧ b.sigs = [] ∧ b.cmds = [] ∧ b.late = [] ∧ b.lateA = [] ∧
          (∀ slot, slot ∈ b.pres ↔ slot ∈ slots ∧ (f.word? slot).isSome) ∧ ∀ slot ∈ due, mapGet 0 b.words slot = word slot) ∧
      (∀ slot w, bad = some (slot, w) → exec .bundleDispatch s =
        .next (({ s with toCore := c, ref := r, slot := 0xF }).dispatchTrap old [] (illegal f.hdr w slot))) ∧
      (∀ i, bad = none → full = some i → exec .bundleDispatch s =
        .next (({ s with toCore := c, ref := r, slot := 0xF }).dispatchTrap old [] i)))) ∧
  (∀ (s : State) (tl : Nat) (x : Ctx) (a b : Part), s.event = some (.bundleDispatch (.task tl 0)) → s.toCore.ctx? (.task tl 0) = some x →
    x.life = .live → x.status ≠ .suspended → s.toCore.form (.task tl 0) = .joined →
    let refs := [CtxRef.task tl 0, .task tl 1]
    let old := refs.foldl Core.issuing s.toCore
    let c1 := old.addCycles refs (1 + (Config.cycles (4 * s.seq + 1)).toNat)
    c1.readParts (.task tl 0) = .ok [a, b] →
    let c := refs.foldl Core.firstBundle c1
    let d := c.compose (.task tl 0) [a, b]
    let part := fun slot => if d.owner slot = 0 then a else b
    let due := (List.range 12).filter fun slot => decide (d.owner slot < 2 ∧ (part slot).eff c slot ≠ 0)
    c.illegalIn d (c.form (.task tl 0)) = none →
    c.queueTrap d.presents (due.map fun slot => (slot, (part slot).r, slotOp slot ((part slot).eff c slot))) = none →
    ∃ t b, exec .bundleDispatch s = .next t ∧ t.bundle = some b ∧ t.saved = some (refs.foldl Core.firstBundle old) ∧ t.toCore = c ∧
      b.r = .task tl 0 ∧ b.todo = due ∧ b.hdr = d.hdr ∧ ∀ slot ∈ due, mapGet 0 b.words slot = (part slot).eff c slot)

/-- 08 R211, R218, R220, 17 R404, R406, R407: a trap found at dispatch leaves the task at its bundle, suspended, and its record
names the kind, the slot and, for an illegal bundle, the header and the slot word. -/
def Obligations.DispatchTrapRecord : Prop :=
  ∀ (s : State) (old : Core) (tl p : Nat) (x : Ctx) (i : TrapInfo), old.ctx? (.task tl p) = some x → s.ref = .task tl p →
    x.id.logit = false → i.kind ≤ 17 → i.cause < 256 → i.flags = 0 → i.slot < 16 →
    let t := s.dispatchTrap old [] i
    t.bundle = none ∧ t.saved = none ∧ (∀ k, t.mem.get k = old.mem.get k) ∧ t.ref = s.ref ∧
    t.me = { x with status := .suspended, r := { x.r with cyc := (s.toCore.ctx s.ref).r.cyc }, budPend := t.me.budPend, cast := none } ∧
    ∃ f, (t.toCore.tile tl).faults = (old.tile tl).faults ++ [f] ∧ f.serves = some x.id.taskid ∧
      wbits (f.record.getD 0 0) 56 8 = i.kind ∧ wbits (f.record.getD 0 0) 48 8 = i.cause ∧
      wbits (f.record.getD 0 0) 44 4 = i.slot ∧ f.record.getD 2 0 = x.id.taskid ∧
      f.record.getD 6 0 = i.aux0 ∧ f.record.getD 7 0 = i.aux1

/-- 08 R201 to R203, R205, 09 R234: what one of its bundles leaves in a context. A present word becomes sticky, `nop` where the
operation is a once operation; the port owners stay in force; the bundle issues REP + 1 times, then control goes to the target,
else to the byte after the last word where no loop ends there; nothing else changes. -/
def Obligations.BundleAdvance : Prop :=
  ∀ (fetch : Word → Nat → Op (List Word)) (x : Ctx) (f : Fetched) (target : Option Word) (owners : BitVec 24),
    readBundle fetch x.pc = .ok f →
    let y := x.advance f (List.range 12) owners target false
    y = { x with sticky := y.sticky, owners := owners, rep := y.rep, pc := y.pc, lp := y.lp } ∧
    f.len = 8 + 8 * (presSlots f.head).length ∧
    (∀ slot, slot < 12 → mapGet 0 y.sticky slot = match f.word? slot with
      | none => mapGet 0 x.sticky slot
      | some w => if onceOp slot (slotOp slot w) then 0 else w) ∧
    (x.rep < f.head.rep.toNat → y.rep = x.rep + 1 ∧ y.pc = x.pc ∧ y.lp = x.lp) ∧
    (f.head.rep.toNat ≤ x.rep → y.rep = 0 ∧ ∀ a, target = some a → y.pc = a ∧ y.lp = x.lp) ∧
    (f.head.rep.toNat ≤ x.rep → target = none →
      (∀ k : Nat, k < 4 → ¬ ((x.loopReg k).act = true ∧ (x.loopReg k).stop = (x.pc + BitVec.ofNat 64 f.len).setWidth 57)) →
      y.pc = x.pc + BitVec.ofNat 64 f.len ∧ ∀ k : Nat, k < 4 → y.loopReg k = x.loopReg k)

/-- 08 R201, R210, R211, 15 R372, R374: the commit of a bundle of one context advances the context past it, then performs what it held, in order, and
ends the context where an operation of it says so; no bundle is in progress after it. The combined bundle of a joined pair advances both
members. A commit without a held effect changes nothing else. -/
def Obligations.BundleCommit : Prop :=
  (∀ (s : State) (b : Bundle) (x : Ctx) (f : Fetched), s.bundle = some b → s.toCore.ctx? b.r = some x →
    (s.toCore.tile b.r.tile).pair = none → (s.older.tile b.r.tile).pair = none →
    readBundle (s.older.fetchWords b.r) (s.older.ctx b.r).pc = .ok f →
    let c := s.toCore.setCtx b.r (x.advance f (List.range 12) (effOwners x.owners f.head) b.target false)
    (b.late = [] → b.lateA = [] → b.outs = [] → b.sigs = [] → b.cmds = [] → b.ends = false →
      exec .bundleCommit s = .next { s with toCore := c, bundle := none, saved := none }) ∧
    (b.ends = false → exec .bundleCommit s = .next { s with toCore := c.commitHeld b, bundle := none, saved := none }) ∧
    (b.ends = true → exec .bundleCommit s = .next { s with toCore := (c.commitHeld b).endCtx b.r, bundle := none, saved := none }) ∧
    (∀ n v, b.late = [(b.r, n, v)] → b.lateA = [] → b.outs = [] → b.sigs = [] → b.cmds = [] → c.commitHeld b = c.writeCtl b.r n v) ∧
    (∀ m, b.late = [] → b.lateA = [] → b.outs = [(b.r, m)] → b.sigs = [] → b.cmds = [] → c.commitHeld b = c.commitStore b.r m) ∧
    (∀ q m, b.late = [] → b.lateA = [] → b.outs = [] → b.sigs = [(b.r, q, m)] → b.cmds = [] →
      c.commitHeld b = c.releaseLater b.r .store q [m]) ∧
    (∀ m, b.late = [] → b.lateA = [] → b.outs = [] → b.sigs = [] → b.cmds = [(b.r, m)] → c.commitHeld b = c.issueCmd b.r m) ∧
    (∀ n d, b.late = [] → b.lateA = [(b.r, n, d)] → b.outs = [] → b.sigs = [] → b.cmds = [] →
      c.commitHeld b = c.updCtx b.r fun y => y.setStream n { Stream.init with desc := d })) ∧
  (∀ (s : State) (b : Bundle) (p q : Part), s.bundle = some b → s.older.readParts b.r = .ok [p, q] → s.toCore.form b.r = .joined →
    b.ends = false →
    let own := b.hdr.extractLsb' 32 24
    let c := s.toCore.updCtx p.r fun x => x.advance p.f (List.range 12) own b.target false
    let c := c.updCtx q.r fun x => x.advance q.f (List.range 12) own b.target false
    exec .bundleCommit s = .next { s with toCore := (c.commitHeld b).pairNext b.r.tile .joined, bundle := none, saved := none }) ∧
  (∀ (s : State) (b : Bundle), s.bundle = some b → ∃ t, exec .bundleCommit s = .next t ∧ t.bundle = none ∧ t.saved = none)

/-- 08 R198, R207, R208, log entries 6 and 10: a step runs the instruction that the due word decodes to, as an operation of the slot and the
context that the bundle names; a bundle whose operations have all issued commits; with no bundle in progress one of the
enabled actions happens, after an open amount of time, by the instruction that the opcode table gives it. Which action that is is the model's
open choice (log entry 6). -/
def Obligations.StepRunsTheDecodedInstruction : Prop :=
  (∀ (s : State) (b : Bundle) (slot : Nat) (rest : List Nat) (i : Instr), s.bundle = some b → b.todo = slot :: rest →
    decodeSlot (slotClass slot) (mapGet 0 b.words slot) = .ok i →
    step s = exec i { s with ref := b.who slot, slot := slot, bundle := some { b with todo := rest } }) ∧
  (∀ (s : State) (b : Bundle), s.bundle = some b → b.todo = [] → step s = exec .bundleCommit { s with ref := b.r }) ∧
  (∀ (s : State) (e : Event), s.bundle = none → pickAction s.seq s.toCore.actions = some (.event e) →
    step s = exec e.instr { s with toCore := s.toCore.pass, event := some e }) ∧
  (∀ (s : State) (i : Nat) (e : Event), s.bundle = none → pickAction s.seq s.toCore.actions = some (.message i) →
    s.msgs[i]? = some e →
    step s = exec e.instr { s with toCore := { s.toCore.pass with msgs := s.msgs.eraseIdx i }, event := some e }) ∧
  (∀ (s : State) (r : CtxRef) (u : Routine) (i : Instr), s.bundle = none →
    pickAction s.seq s.toCore.actions = some (.uop r) → (s.toCore.ctx r).rout = some u →
    decodeUop (mapGet 0 (s.toCore.tile r.tile).ucode u.pc.toNat) = .ok i →
    step s = exec i { s with toCore := s.toCore.pass, ref := r, event := none }) ∧
  (∀ (s : State), s.bundle = none → s.toCore.actions = [] → step s = .next { s with toCore := s.toCore.pass })

/-- 08 R198, R220, 12 R316: `nop` changes nothing; the micro-op `nop` only goes on to the next step of its routine. -/
def Obligations.NopsChangeNothing : Prop :=
  (∀ s : State, exec .nop s = .next s) ∧
  (∀ (s : State) (x : Ctx) (u : Routine), s.toCore.ctx? s.ref = some x → x.rout = some u →
    u.pc ≠ 255 → exec (.uopNop false) s = .next (s.setMe { x with rout := some { u with pc := u.pc + 1 } }))

/-- The bundle in progress and the copy to which its trap returns (08 R211): there is the one exactly when there is the other. -/
def BundleHasItsCopy (s : State) : Prop := s.bundle.isSome = s.saved.isSome

/-- 08 R211: every step keeps it that a bundle is in progress exactly while the machine as the last committed bundle left it is
kept, and while the bundle is in progress that copy stays as it is and the slots issue one by one in order. -/
def Obligations.PreciseStateIsKept : Prop :=
  ∀ s t : State, BundleHasItsCopy s → step s = .next t →
    BundleHasItsCopy t ∧
    ∀ b b', s.bundle = some b → t.bundle = some b' → t.saved = s.saved ∧ b'.r = b.r ∧ b'.pc = b.pc ∧ b.todo = t.slot :: b'.todo

/-- 00 R3, R8, 01 R13, 02 R52, 05 R132, 06 R151, 08 R204, 17 R412, 19 R440: what reset leaves. No tile belongs to a domain, no
context is there, no line is shared, no copy is published; a context that starts has no sticky operation, no port owner, an
empty queue in each register and 0 in CYC; and no bundle is in progress. Memory, flags and registers that the manual gives no reset value
hold the model's values (log entries 1 to 6). -/
def Obligations.ResetState : Prop :=
  BundleHasItsCopy State.reset ∧ State.reset.bundle = none ∧ State.reset.mem = [] ∧ Memory.wf State.reset.mem = true ∧
  (∀ t, (State.reset.toCore.tile t).dom = none ∧ (State.reset.toCore.tile t).queue = [] ∧ (State.reset.toCore.tile t).busy = []) ∧
  (∀ r, State.reset.toCore.ctx? r = none) ∧
  (∀ p l, (State.reset.toCore.homeLine p l).head = 0x7F) ∧
  (∀ d, (State.reset.toCore.dom d).ctl = [] ∧ (State.reset.toCore.dom d).lver = 0 ∧ (State.reset.toCore.dom d).regions = []) ∧
  Ctx.init.sticky = [] ∧ Ctx.init.owners = 0xEEEEEE ∧ Ctx.init.rep = 0 ∧ Ctx.init.r.cyc = 0 ∧ Ctx.init.r.fpsf = 0 ∧
  (∀ q, Ctx.init.queue q = []) ∧ (∀ k, (Ctx.init.loopReg k).act = false) ∧ (Power.init.plim = 450) ∧
  (∀ p, (mapGet Port.init State.reset.mc.ports p).en = false)

/-- 08 R196 to R199 and the example of the chapter: words written out from the manual's encodings, and the instructions they are. -/
def Obligations.DecodedWords : Prop :=
  decodeSlot .s 0x0000000004086020 = .ok (.add ⟨⟨false, 0⟩, 3, 1, 2⟩) ∧
  decodeSlot .v 0x0000000044088020 = .ok (.vaddF ⟨⟨false, 0⟩, some 4, ⟨false, 1⟩, .queue ⟨true, 2⟩, 0, .rne⟩) ∧
  decodeSlot .c 0x00000000000010E0 = .ok (.halt ⟨false, 0⟩) ∧ decodeSlot .s 0x00000000000000E0 = .error .unassigned ∧
  decodeSlot .s 0 = .ok .nop ∧ (∃ e, decodeSlot .s 0x0000000000000001 = .error e) ∧
  (∃ h, decodeHeader 0x00EEEE5500003021 = .ok h ∧ h.ports = 0xEEEE55 ∧ h.align = 0 ∧ h.rep = 3 ∧ h.pres = 0x021) ∧
  (∃ e, decodeHeader 0x00EEEEEC00003021 = .error e)

/-- 08 R198 to R200, 12 R315: decoding the word of a well-formed instruction gives the instruction back, every operand at every value that
its encoding admits; and every instruction that is not a step of the hardware's own has such a word. -/
def Obligations.EncodingsRoundTrip : Prop :=
  ∀ i : Instr, wellFormed i = true →
    (∀ cls w, encodeSlot cls i = some w → decodeSlot cls w = .ok i) ∧ (∀ w, encodeUop i = some w → decodeUop w = .ok i) ∧
    ((∃ cls w, encodeSlot cls i = some w) ∨ (∃ w, encodeUop i = some w) ∨ ∃ e : Event, e.instr = i)

/-! Queues and suppressed operations (08 R206, R213 to R218). -/

/-- 08 R206: an operation of a slot whose guard is false, and that names no queue and no stream, changes nothing. An M operation
issues so when no routine of its context runs, an F operation when no F operation has yet to land. -/
def Obligations.SuppressedOperations : Prop :=
  ∀ (g : Guard) (s : State), s.guardOk g = false → s.old.rout = none → s.old.fo = none →
    (∀ o : OpRRR, o.gd = g → ∀ i ∈ [Instr.add o, .sub o, .mul o, .mulh o, .mulhu o, .divu o, .and o, .or o, .xor o, .shl o, .shr o,
      .sra o, .min o, .max o, .minu o, .maxu o], exec i s = .next s) ∧
    (∀ o : OpRR, o.gd = g → ∀ i ∈ [Instr.clz o, .pcnt o, .mxUcw o], exec i s = .next s) ∧
    (∀ o : OpRRI, o.gd = g → ∀ i ∈ [Instr.addi o, .muli o, .andi o, .ori o, .xori o, .lih o], exec i s = .next s) ∧
    (∀ o : OpShI, o.gd = g → ∀ i ∈ [Instr.shli o, .shri o, .srai o], exec i s = .next s) ∧
    (∀ o : OpCmp, o.gd = g → ∀ i ∈ [Instr.cmpEq o, .cmpNe o, .cmpLt o, .cmpGe o, .cmpLtu o, .cmpGeu o], exec i s = .next s) ∧
    (∀ o : OpCmpI, o.gd = g → ∀ i ∈ [Instr.cmpiEq o, .cmpiNe o, .cmpiLt o, .cmpiGe o, .cmpiLtu o, .cmpiGeu o], exec i s = .next s) ∧
    (∀ o : OpBfx, o.gd = g → exec (.bfx o) s = .next s ∧ exec (.bfxS o) s = .next s) ∧
    (∀ o : OpBr, o.gd = g → exec (.br o) s = .next s ∧ exec (.call o) s = .next s) ∧
    (∀ o : OpJmp, o.gd = g → exec (.jmp o) s = .next s ∧ exec (.ret o) s = .next s) ∧
    (∀ o : OpLoop, o.gd = g → exec (.loop o) s = .next s ∧ exec (.lbrk o) s = .next s) ∧
    (∀ o : OpTrap, o.gd = g → exec (.trap o) s = .next s) ∧ (∀ o : OpSync, o.gd = g → exec (.sync o) s = .next s) ∧
    (∀ o : OpLdS, o.gd = g → exec (.ldS o) s = .next s) ∧ (∀ o : OpLdAcq, o.gd = g → exec (.ldAcq o) s = .next s) ∧
    (∀ o : OpStS, o.gd = g → exec (.stS o) s = .next s) ∧ (∀ o : OpStRel, o.gd = g → exec (.stRel o) s = .next s) ∧
    (∀ o : OpAtm, o.gd = g → ∀ i ∈ [Instr.atmAdd o, .atmAnd o, .atmOr o, .atmXchg o, .atmCas o], exec i s = .next s) ∧
    (∀ o : OpAtmS, o.gd = g → exec (.atmMin o) s = .next s ∧ exec (.atmMax o) s = .next s) ∧
    (∀ o : OpScope, o.gd = g → ∀ i ∈ [Instr.fenceRw o, .fenceAcq o, .fenceRel o, .verAdp o], exec i s = .next s) ∧
    (∀ o : OpCtlRd, o.gd = g → exec (.ctlRd o) s = .next s) ∧ (∀ o : OpCtlWr, o.gd = g → exec (.ctlWr o) s = .next s) ∧
    (∀ o : OpMpWr, o.gd = g → exec (.mpWr o) s = .next s) ∧ (∀ o : OpMxPrm, o.gd = g → exec (.mxPrm o) s = .next s) ∧
    (∀ o : OpAccClr, o.gd = g → exec (.accClr o) s = .next s) ∧ (∀ o : OpAccCp, o.gd = g → exec (.accCp o) s = .next s) ∧
    (∀ o : OpRngSet, o.gd = g → exec (.rngSet o) s = .next s) ∧ (∀ o : OpCdThr, o.gd = g → exec (.cdThr o) s = .next s) ∧
    (∀ o : OpFoMd, o.gd = g → exec (.foMd o) s = .next s) ∧ (∀ o : OpSpawn, o.gd = g → exec (.spawn o) s = .next s)

/-- 08 R200, R206, R214, R218, 01 R36: a popping source takes the head entry and removes it, a peeking one leaves it; an empty queue
underflows, or freezes when it is fed from another tile; a destination takes its entry behind the others, and a full queue
overflows; no other queue, register or byte of memory changes. A suppressed operation pops, peeks, and pushes an entry of zeros.
The model's choices in it are those of log entry 7. -/
def Obligations.QueueTraffic : Prop :=
  (∀ (s : State) (f : QSrc) (h : QEnt) (rest : List QEnt) (e : Entry), s.here → s.toCore.asConsumer s.ref = none →
    s.entries f.q.toNat = h :: rest → h.data = some e → s.poison = [] →
    ∃ t, s.src f = .ok (e, t) ∧ (f.peek = true → t = s) ∧
      (f.peek = false → t.entries f.q.toNat = rest ∧ t.me = { s.me with q := t.me.q } ∧ OnlyHere s t ∧ SameMemory s t ∧
        ∀ q, q ≠ f.q.toNat → t.entries q = s.entries q)) ∧
  (∀ (s : State) (f : QSrc), s.entries f.q.toNat = [] → s.me.id.isRemote f.q.toNat = false → s.toCore.asConsumer s.ref = none →
    s.src f = .error (.trap { mkTrap kUnderflow 0 with detail := f.q.toNat })) ∧
  (∀ (s : State) (f : QSrc), s.entries f.q.toNat = [] → s.me.id.isRemote f.q.toNat = true → s.src f = .error (.wait .remote)) ∧
  (∀ (s : State) (q : BitVec 5) (e : Entry), s.roomQ q.toNat 1 → s.dst (some q) e = .ok (s.pushed (some q) e)) ∧
  (∀ (s : State) (q : BitVec 5) (e : Entry), s.roomQ q.toNat 1 = false → s.toCore.asConsumer s.ref = none →
    s.dst (some q) e = .error (.trap { mkTrap kOverflow 0 with detail := q.toNat, aux0 := BitVec.ofNat 64 (s.entries q.toNat).length })) ∧
  (∀ (s : State) (e : Entry), s.dst none e = .ok s) ∧
  (∀ (s : State) (q : Nat) (e : Entry), s.here → s.toCore.asConsumer s.ref = none →
    let t := s.pushedQ q e
    t.entries q = s.entries q ++ [⟨s.nid, some e⟩] ∧ (∀ k, k ≠ q → t.entries k = s.entries k) ∧ SameMemory s t ∧
    t.me = { s.me with q := t.me.q } ∧ t = { s.setMe t.me with nid := s.nid + 1 }) ∧
  (∀ (o : OpVArith) (s s1 s2 : State) (a : Entry) (b : Nat → Nat), ∀ i ∈ [Instr.vaddF o, .vsubF o, .vmulF o],
    s.guardOk o.gd = false → s.src o.a = .ok (a, s1) → s1.srcOr o.b = .ok (b, s2) → s2.room o.d 1 →
    exec i s = .next (s2.pushed o.d 0)) ∧
  (∀ (o : OpZip) (s s1 s2 : State) (a b : Entry), ∀ i ∈ [Instr.zip o, .unzip o],
    s.guardOk o.gd = false → s.src o.a = .ok (a, s1) → s1.src o.b = .ok (b, s2) → s2.room o.d 2 →
    exec i s = .next ((s2.pushed o.d 0).pushed o.d 0)) ∧
  (∀ (o : OpRed) (s s1 : State) (e : Entry), s.guardOk o.gd = false → s.src o.b = .ok (e, s1) →
    exec (.redAdd o) s = .next (s1.stepStream o.a)) ∧
  (∀ (o : OpLdSc) (s : State), s.guardOk o.gd = false → s.roomQ (32 + o.d.toNat) 1 →
    exec (.ldSc o) s = .next ((s.pushedQ (32 + o.d.toNat) 0).stepStream o.a))

/-! The V0 and V1 slots (11 R274 to R292). -/

/-- 11 R276, R277, R279, 03 R75: the floating-point lane operations on their popped or peeked sources, with the mode's rounding and draws;
the flags of the selected lanes join FPSF; nothing else changes. A NaN operand gives the canonical NaN. -/
def Obligations.VectorFloatArithmetic : Prop :=
  (∀ p ∈ ([(Instr.vaddF, fmtF32.add), (Instr.vsubF, fmtF32.sub), (Instr.vmulF, fmtF32.mul)] :
      List ((OpVArith → Instr) × (Rnd → Nat → Nat → Nat → FRes))),
    ∀ (o : OpVArith) (s s1 s2 : State) (a : Entry) (b : Nat → Nat),
      s.guardOk o.gd → s.src o.a = .ok (a, s1) → s1.srcOr o.b = .ok (b, s2) → s2.room o.d 1 →
      ∃ t, exec (p.1 o) s = .next t ∧
        LanesPushed (s2.draws o.rm 64).2 t o.d (s.mask o.msk) (lane a)
          fun i => p.2 o.rm ((s2.draws o.rm 64).1 i) (lane a i) (b i)) ∧
  (∀ p ∈ ([(Instr.vfmaF, fmtF32.fma), (Instr.vfmsF, fmtF32.fms)] :
      List ((OpVFma → Instr) × (Rnd → Nat → Nat → Nat → Nat → FRes))),
    ∀ (o : OpVFma) (s s1 s2 s3 : State) (a c : Entry) (b : Nat → Nat),
      s.guardOk o.gd → s.src o.a = .ok (a, s1) → s1.srcOr o.b = .ok (b, s2) → s2.src o.c = .ok (c, s3) → s3.room o.d 1 →
      ∃ t, exec (p.1 o) s = .next t ∧
        LanesPushed (s3.draws o.rm 64).2 t o.d (s.mask o.msk) (lane a)
          fun i => p.2 o.rm ((s3.draws o.rm 64).1 i) (lane a i) (b i) (lane c i)) ∧
  (∀ p ∈ ([(Instr.vminF, false), (Instr.vmaxF, true)] : List ((OpVBin → Instr) × Bool)),
    ∀ (o : OpVBin) (s s1 s2 : State) (a : Entry) (b : Nat → Nat),
      s.guardOk o.gd → s.src o.a = .ok (a, s1) → s1.srcOr o.b = .ok (b, s2) → s2.room o.d 1 →
      ∃ t, exec (p.1 o) s = .next t ∧
        LanesPushed s2 t o.d (s.mask o.msk) (lane a) fun i => fmtF32.minmax p.2 (lane a i) (b i)) ∧
  (∀ (rm : Rnd) (draw a b : Nat), (fmtF32.decode a).isNan = true ∨ (fmtF32.decode b).isNan = true →
    (fmtF32.add rm draw a b).bits = 0x7FC00000 ∧ (fmtF32.sub rm draw a b).bits = 0x7FC00000 ∧
    (fmtF32.mul rm draw a b).bits = 0x7FC00000)

/-- 11 R276, R280: the integer and logic lane operations on 32-bit lanes; shifts use b[4:0]; only the saturating sum sets a flag,
SAT, where it saturates; nothing else changes. -/
def Obligations.VectorIntegerArithmetic : Prop :=
  (∀ p ∈ ([(Instr.vaddI, fun a b => a + b), (Instr.vsubI, fun a b => a - b), (Instr.vmulI, fun a b => a * b),
           (Instr.vmulhI, fun a b => BitVec.ofInt 32 (a.toInt * b.toInt / 2 ^ 32)),
           (Instr.vminI, fun a b => if a.toInt ≤ b.toInt then a else b), (Instr.vmaxI, fun a b => if a.toInt ≤ b.toInt then b else a),
           (Instr.vminuI, fun a b => if a.toNat ≤ b.toNat then a else b), (Instr.vmaxuI, fun a b => if a.toNat ≤ b.toNat then b else a),
           (Instr.vand, fun a b => a &&& b), (Instr.vor, fun a b => a ||| b), (Instr.vxor, fun a b => a ^^^ b),
           (Instr.vshl, fun a b => a <<< (b.toNat % 32)), (Instr.vshr, fun a b => a >>> (b.toNat % 32)),
           (Instr.vsra, fun a b => a.sshiftRight (b.toNat % 32))] : List ((OpVBin → Instr) × (Lane → Lane → Lane))),
    ∀ (o : OpVBin) (s s1 s2 : State) (a : Entry) (b : Nat → Nat),
      s.guardOk o.gd → s.src o.a = .ok (a, s1) → s1.srcOr o.b = .ok (b, s2) → s2.room o.d 1 →
      ∃ t, exec (p.1 o) s = .next t ∧
        LanesPushed s2 t o.d (s.mask o.msk) (lane a)
          fun i => ⟨(p.2 (BitVec.ofNat 32 (lane a i)) (BitVec.ofNat 32 (b i))).toNat, 0⟩) ∧
  (∀ (o : OpVBin) (s s1 s2 : State) (a : Entry) (b : Nat → Nat),
    s.guardOk o.gd → s.src o.a = .ok (a, s1) → s1.srcOr o.b = .ok (b, s2) → s2.room o.d 1 →
    ∃ t, exec (.vaddsI o) s = .next t ∧
      LanesPushed s2 t o.d (s.mask o.msk) (lane a) fun i =>
        let x := (BitVec.ofNat 32 (lane a i)).toInt + (BitVec.ofNat 32 (b i)).toInt
        if x < -(2 ^ 31) then ⟨0x80000000, fSAT⟩ else if 2 ^ 31 - 1 < x then ⟨0x7FFFFFFF, fSAT⟩
        else ⟨(BitVec.ofInt 32 x).toNat, 0⟩)

/-- 11 R282: a compare writes the mask pair: its first mask has a bit for each selected lane where the condition holds, its second
for each where it does not; pair 0 takes nothing. A floating-point compare sets IV as the condition says, an integer one no
flag; nothing else changes. -/
def Obligations.VectorCompares : Prop :=
  (∀ p ∈ ([(Instr.vicmpEq, fun a b => decide (a = b)), (Instr.vicmpNe, fun a b => decide (a ≠ b)),
           (Instr.vicmpLt, fun a b => decide (a.toInt < b.toInt)), (Instr.vicmpGe, fun a b => decide (b.toInt ≤ a.toInt)),
           (Instr.vicmpLtu, fun a b => decide (a.toNat < b.toNat)), (Instr.vicmpGeu, fun a b => decide (b.toNat ≤ a.toNat))] :
      List ((OpVCmp → Instr) × (Lane → Lane → Bool))),
    ∀ (o : OpVCmp) (s s1 s2 : State) (a : Entry) (b : Nat → Nat),
      s.guardOk o.gd → s.src o.a = .ok (a, s1) → s1.srcOr o.b = .ok (b, s2) →
      ∃ k n : Word, exec (p.1 o) s = .next ((s2.wrM o.d k n).flag 0) ∧
        ∀ i : Nat, i < 64 → k.getLsbD i = ((s.mask o.msk).getLsbD i && p.2 (BitVec.ofNat 32 (lane a i)) (BitVec.ofNat 32 (b i))) ∧
          n.getLsbD i = ((s.mask o.msk).getLsbD i && !p.2 (BitVec.ofNat 32 (lane a i)) (BitVec.ofNat 32 (b i)))) ∧
  (∀ p ∈ ([(Instr.vcmpEq, FCond.eq), (Instr.vcmpNe, .ne), (Instr.vcmpLt, .lt), (Instr.vcmpLe, .le), (Instr.vcmpGt, .gt),
           (Instr.vcmpGe, .ge), (Instr.vcmpUn, .un)] : List ((OpVCmp → Instr) × FCond)),
    ∀ (o : OpVCmp) (s s1 s2 : State) (a : Entry) (b : Nat → Nat),
      s.guardOk o.gd → s.src o.a = .ok (a, s1) → s1.srcOr o.b = .ok (b, s2) →
      ∃ (k n : Word) (fl : Flags), exec (p.1 o) s = .next ((s2.wrM o.d k n).flag fl) ∧
        (∀ i : Nat, i < 64 →
          k.getLsbD i = ((s.mask o.msk).getLsbD i && p.2.holds (fmtF32.decode (lane a i)) (fmtF32.decode (b i))) ∧
          n.getLsbD i = ((s.mask o.msk).getLsbD i && !p.2.holds (fmtF32.decode (lane a i)) (fmtF32.decode (b i)))) ∧
        ∀ k : Nat, k < 8 → fl.getLsbD k = (List.range 64).any fun i =>
          (s.mask o.msk).getLsbD i && (p.2.flags (fmtF32.decode (lane a i)) (fmtF32.decode (b i))).getLsbD k) ∧
  (∀ (s : State) (j : BitVec 3) (a b : Word), s.here →
    (j ≠ 0 → (s.wrM j a b).me.r.getM (2 * j.toNat) = a ∧ (s.wrM j a b).me.r.getM (2 * j.toNat + 1) = b) ∧
    (j = 0 → (s.wrM j a b).me = s.me) ∧ OnlyHere s (s.wrM j a b) ∧
    ∀ n, n / 2 ≠ j.toNat → (s.wrM j a b).me.r.getM n = s.me.r.getM n)

/-- 11 R279, R281, R283 to R285: the operations on one source, the moves and the conversion. `vsel` selects by its mask; `vsplat` and
`viota` give 0 in a lane that the mask does not select; the others keep the source's lane there. Nothing else changes. -/
def Obligations.VectorMovesAndConversions : Prop :=
  (∀ p ∈ ([(Instr.vabsF, fun a => if (fmtF32.decode a).isNan then ⟨0x7FC00000, 0⟩ else ⟨a % 2 ^ 31, 0⟩),
           (Instr.vnegF, fun a => if (fmtF32.decode a).isNan then ⟨0x7FC00000, 0⟩ else ⟨(a + 2 ^ 31) % 2 ^ 32, 0⟩),
           (Instr.vmov, fun a => ⟨a, 0⟩)] : List ((OpVUn → Instr) × (Nat → FRes))),
    ∀ (o : OpVUn) (s s1 : State) (a : Entry), s.guardOk o.gd → s.src o.a = .ok (a, s1) → s1.room o.d 1 →
      ∃ t, exec (p.1 o) s = .next t ∧ LanesPushed s1 t o.d (s.mask o.msk) (lane a) fun i => p.2 (lane a i)) ∧
  (∀ p ∈ ([(Instr.vrcp, trRcp), (Instr.vrsq, trRsq), (Instr.vexp2, trExp2), (Instr.vlg2, trLg2)] :
      List ((OpVTr → Instr) × (Nat → FRes))),
    ∀ (o : OpVTr) (s s1 : State) (a : Entry), s.guardOk o.gd → s.src o.a = .ok (a, s1) → s1.room o.d 1 →
      ∃ t, exec (p.1 o) s = .next t ∧ LanesPushed s1 t o.d (s.mask o.msk) (lane a) fun i => p.2 (lane a i)) ∧
  (∀ (o : OpVBin) (s s1 s2 : State) (a : Entry) (b : Nat → Nat),
    s.guardOk o.gd → s.src o.a = .ok (a, s1) → s1.srcOr o.b = .ok (b, s2) → s2.room o.d 1 →
    ∃ t, exec (.vsel o) s = .next t ∧ EntryPushed s2 t o.d fun i => if (s.mask o.msk).getLsbD i then lane a i else b i) ∧
  (∀ (o : OpVSplat) (s : State), s.guardOk o.gd → s.readable o.a → s.room o.d 1 →
    ∃ t, exec (.vsplat o) s = .next t ∧ EntryPushed s t o.d fun i => if (s.mask o.msk).getLsbD i then
      (if o.w64 && i % 2 == 1 then (s.scalar o.a).toNat / 2 ^ 32 else (s.scalar o.a).toNat % 2 ^ 32) else 0) ∧
  (∀ (o : OpVIota) (s : State), s.guardOk o.gd → s.readable o.a → s.readable o.b → s.room o.d 1 →
    ∃ t, exec (.viota o) s = .next t ∧ EntryPushed s t o.d fun i => if (s.mask o.msk).getLsbD i then
      (s.scalar o.a).toNat + i * (s.scalar o.b).toNat else 0) ∧
  (∀ (o : OpVCvt) (s s1 : State) (a : Entry), s.guardOk o.gd → s.src o.a = .ok (a, s1) → s1.room o.d 1 →
    ∃ t, exec (.vcvt o) s = .next t ∧
      LanesPushed (s1.draws o.rm 64).2 t o.d (s.mask o.msk) (lane a)
        fun i => convertLane o.tof o.frm o.rm ((s1.draws o.rm 64).1 i) (lane a i))

/-- 03 R100, 11 R286 to R289: `vred` reduces the selected lanes through the tree of the operation into a queue entry, a scalar or a
versioned scalar with its tag; a reduction into a versioned scalar whose source has not landed is performed when it lands, by a step
of its own. `vdot` adds two BF16 products to a lane with one rounding. Nothing else changes. -/
def Obligations.ReductionsAndDots : Prop :=
  (∀ (o : OpVRed) (s s1 : State) (a : Entry), s.guardOk o.gd → s.src o.a = .ok (a, s1) →
    let s2 := (s1.draws o.rm 384).2
    let r := reduceEntry o.op.toNat o.rm (s1.draws o.rm 384).1 (s.mask o.msk) a
    (∀ d, o.dst = .queue d → s1.room d 1 → exec (.vred o) s = .next ((s2.flag r.2).pushed d (BitVec.ofNat 2048 r.1))) ∧
    (∀ d, o.dst = .scalar d → s.here →
      exec (.vred o) s = .next ((s2.flag r.2).wrS d (redScalar o.op.toNat r.1))) ∧
    (∀ n tag, o.dst = .vs n tag → s.readable tag → (mapGet VScal.init s.me.vs n.toNat).wait = none →
      (∀ h rest, s.entries o.a.q.toNat = h :: rest → h.data.isSome) →
      exec (.vred o) s = .next ((s2.flag r.2).upd fun x =>
        x.setVs n.toNat { value := BitVec.ofNat 64 r.1, tag := (s.scalar tag).extractLsb' 0 16, wait := none }))) ∧
  (∀ (o : OpVRed) (s : State) (n : BitVec 3) (tag : BitVec 6) (h : QEnt) (rest : List QEnt), s.here → s.guardOk o.gd →
    o.dst = .vs n tag → s.readable tag → (mapGet VScal.init s.me.vs n.toNat).wait = none → o.rm ≠ .sr → o.a.peek = false →
    s.toCore.asConsumer s.ref = none → s.entries o.a.q.toNat = h :: rest → h.data = none →
    ∃ t, exec (.vred o) s = .next t ∧ OnlyHere s t ∧ SameMemory s t ∧ t.me = { s.me with q := t.me.q, vs := t.me.vs } ∧
      t.entries o.a.q.toNat = rest ∧
      mapGet VScal.init t.me.vs n.toNat =
        { value := (mapGet VScal.init s.me.vs n.toNat).value, tag := (s.scalar tag).extractLsb' 0 16,
          wait := some ⟨h.id, none, 2048, o.op, o.rm, s.mask o.msk, s.old.r.seedk, s.me.r.cgctr⟩ }) ∧
  (∀ (s : State) (r : CtxRef) (x : Ctx) (n id : Nat) (d : Deferred) (e : Entry),
    s.event = some (.vredDeferredReduction r.tile id) → s.toCore.ctx? r = some x → n < 8 →
    (mapGet VScal.init x.vs n).wait = some d → d.eid = id → d.data = some e →
    (∀ m d', m < 8 → m ≠ n → (mapGet VScal.init x.vs m).wait = some d' → d'.eid ≠ id) →
    let src : DrawSrc := { key := d.key, tag := wbits d.ctr 40 24, kind := 1, round := 0, hop := 0 }
    let w := reduceEntry d.op.toNat d.rm (fun j => src.draw16 (wbits d.ctr 0 40 + j)) d.mask (BitVec.ofNat 2048 (e.toNat % 2 ^ d.bits))
    ∃ t, exec .vredDeferredReduction s = .next t ∧ SameMemory s t ∧ t.doms = s.doms ∧
      t.toCore.ctx r = { x with
        vs := mapSet .init x.vs n { mapGet VScal.init x.vs n with value := BitVec.ofNat 64 w.1, wait := none },
        r := { x.r with fpsf := x.r.fpsf ||| w.2 } }) ∧
  (∀ (o : OpVDot) (s s1 s2 s3 : State) (a b c : Entry), s.guardOk o.gd → s.src o.a = .ok (a, s1) → s1.src o.b = .ok (b, s2) →
    s2.src o.c = .ok (c, s3) → s3.room o.d 1 →
    ∃ t, exec (.vdot o) s = .next t ∧
      LanesPushed (s3.draws o.rm 64).2 t o.d (s.mask o.msk) (lane c)
        fun i => dotLane o.rm ((s3.draws o.rm 64).1 i) (lane a i) (lane b i) (lane c i)) ∧
  (∀ op rm dr e, reduceEntry op rm dr 0 e = reduceEntry op rm dr 0 0)

/-- 11 R290 to R292: `vupd` pops the optimiser's old entries and the gradient, pushes the new ones lane by lane under the clip factor of the
versioned scalar, and joins the flags; a versioned scalar of another step than the one before s[c+4] raises the queue-imbalance trap and
changes nothing. -/
def Obligations.OptimiserUpdate : Prop :=
  (∀ (o : OpVUpd) (s s1 s2 : State) (xs : List Entry) (g : Entry), s.guardOk o.gd →
    (∀ k < 5, s.readable (o.c + BitVec.ofNat 6 k)) →
    (mapGet VScal.init s.old.vs o.vs.toNat).tag = (s.scalar (o.c + 4)).extractLsb' 0 16 - 1 →
    (mapGet VScal.init s.old.vs o.vs.toNat).wait = none →
    s.popN o.a (optCount o.mode) = .ok (xs, s1) → s1.src o.b = .ok (g, s2) → s2.room o.d (optCount o.mode) →
    let h : Hyper := { lr := wbits (s.scalar o.c) 0 32, wd := wbits (s.scalar o.c) 32 32, b1 := wbits (s.scalar (o.c + 1)) 0 32,
                       b2 := wbits (s.scalar (o.c + 1)) 32 32, eps := wbits (s.scalar (o.c + 2)) 0 32,
                       bc1 := wbits (s.scalar (o.c + 3)) 0 32, bc2 := wbits (s.scalar (o.c + 3)) 32 32,
                       clip := wbits (s.scalar (o.c + 2)) 32 32 }
    let c := clipFactor h.clip (wbits (mapGet VScal.init s.old.vs o.vs.toNat).value 0 32)
    let row := fun i => if (s.mask o.msk).getLsbD i
      then updLane o.mode h o.rm ((s2.draws o.rm 64).1 i) c.bits (lane g i) (xs.map fun e => lane e i)
      else xs.map fun e => ⟨lane e i, 0⟩
    ∃ (es : List Entry) (fl : Flags), exec (.vupd o) s = .next (es.foldl (fun t e => t.pushed o.d e) ((s2.draws o.rm 64).2.flag fl)) ∧
      es.length = optCount o.mode ∧ ∀ k i : Nat, k < es.length → i < 64 → lane (es.getD k 0) i = ((row i).getD k ⟨0, 0⟩).bits % 2 ^ 32) ∧
  (∀ (o : OpVUpd) (s : State), s.guardOk o.gd → (∀ k < 5, s.readable (o.c + BitVec.ofNat 6 k)) →
    (mapGet VScal.init s.old.vs o.vs.toNat).tag ≠ (s.scalar (o.c + 4)).extractLsb' 0 16 - 1 →
    exec (.vupd o) s = .next (s.trap { mkTrap kImbalance 0 with
      detail := 0x100 + o.vs.toNat, aux0 := (mapGet VScal.init s.old.vs o.vs.toNat).tag.setWidth 64,
      aux1 := ((s.scalar (o.c + 4)).extractLsb' 0 16 - 1).setWidth 64 }))

/-! The P slot (11 R293 to R300). -/

/-- 11 R293 to R300: the packing, scale and rearranging operations: each destination entry by the elements it holds. Nothing else changes but
the flags that packing and unpacking raise. -/
def Obligations.PackingAndPermutes : Prop :=
  (∀ (o : OpShf) (s s1 s2 : State) (a b : Entry), s.guardOk o.gd → s.src o.a = .ok (a, s1) → s1.src o.b = .ok (b, s2) → s2.room o.d 1 →
    ∃ t, exec (.shf o) s = .next t ∧ EntryPushed s2 t o.d fun i => if lane b i ≥ 2 ^ 31 then 0 else lane a (lane b i % 64)) ∧
  (∀ (o : OpBct) (s s1 : State) (a : Entry), s.guardOk o.gd → s.src o.a = .ok (a, s1) → s1.room o.d 1 →
    ∃ t, exec (.bct o) s = .next t ∧
      EntryPushed s1 t o.d fun i => if o.sub then lane a (8 * (i / 8) + o.lane.toNat % 8) else lane a o.lane.toNat) ∧
  (∀ (o : OpXpo) (s s1 : State) (a : Entry), s.guardOk o.gd → s.src o.a = .ok (a, s1) → s1.room o.d 1 →
    ∃ e, exec (.xpo o) s = .next (s1.pushed o.d e) ∧
      ∀ r c : Nat, r < (xpoShape o.w).1 → c < (xpoShape o.w).2 →
        elem o.w e (c * (xpoShape o.w).1 + r) = elem o.w a (r * (xpoShape o.w).2 + c)) ∧
  (∀ (o : OpZip) (s s1 s2 : State) (a b : Entry), s.guardOk o.gd → s.src o.a = .ok (a, s1) → s1.src o.b = .ok (b, s2) → s2.room o.d 2 →
    let n := elemCount o.w
    let el := fun (x y : Entry) (k : Nat) => if k < n then elem o.w x k else elem o.w y (k - n)
    (∃ e f, exec (.zip o) s = .next ((s2.pushed o.d e).pushed o.d f) ∧
      ∀ j : Nat, j < n → el e f (2 * j) = elem o.w a j ∧ el e f (2 * j + 1) = elem o.w b j) ∧
    (∃ e f, exec (.unzip o) s = .next ((s2.pushed o.d e).pushed o.d f) ∧
      ∀ j : Nat, j < n → elem o.w e j = el a b (2 * j) ∧ elem o.w f j = el a b (2 * j + 1))) ∧
  (∀ (o : OpScGet) (s s1 : State) (a : Entry), s.guardOk o.gd → s.src o.a = .ok (a, s1) →
    (∀ d, o.dst = .scalar d → exec (.scGet o) s = .next (s1.wrS d (BitVec.ofNat 64 (a.toNat / 2 ^ 1536 % 2 ^ 32)))) ∧
    (∀ d, o.dst = .sq d → s1.roomQ (32 + d.toNat) 1 →
      exec (.scGet o) s = .next (s1.pushedQ (32 + d.toNat) (BitVec.ofNat 2048 (a.toNat / 2 ^ 1536 % 2 ^ 32))))) ∧
  (∀ (o : OpPkH) (s s1 s2 : State) (a b : Entry), s.guardOk o.gd → s.src o.a = .ok (a, s1) → s1.src o.b = .ok (b, s2) → s2.room o.d 1 →
    ∃ e fl, exec (.pkH o) s = .next (((s2.draws o.rm 128).2.flag fl).pushed o.d e) ∧
      ∀ j : Nat, j < 128 → elem .w16 e j = ((halfFmt o.half).ofVal o.rm ((s2.draws o.rm 128).1 j)
        (fmtF32.decode (if j < 64 then lane a j else lane b (j - 64)))).bits % 2 ^ 16) ∧
  (∀ (o : OpUpkH) (s s1 : State) (a : Entry), s.guardOk o.gd → s.src o.a = .ok (a, s1) → s1.room o.d 2 →
    ∃ e f fl, exec (.upkH o) s = .next (((s1.flag fl).pushed o.d e).pushed o.d f) ∧
      ∀ i : Nat, i < 64 → lane e i = (fmtF32.ofVal .rne 0 ((halfFmt o.half).decode (elem .w16 a i))).bits % 2 ^ 32 ∧
        lane f i = (fmtF32.ofVal .rne 0 ((halfFmt o.half).decode (elem .w16 a (64 + i)))).bits % 2 ^ 32) ∧
  (∀ (o : OpPkMx) (s s1 s2 : State) (a b : Entry), s.guardOk o.gd → s.src o.a = .ok (a, s1) → s1.src o.b = .ok (b, s2) → s2.room o.d 1 →
    (∀ c, o.c = some c → s.readable c) →
    let p := packStep o.fmt o.blk (o.c.map fun c => (s.scalar c).toNat) o.rm (s2.draws o.rm 96).1 (packSource o.split a b)
    exec (.pkMx o) s = .next (((s2.draws o.rm 96).2.flag p.2).pushed o.d p.1)) ∧
  (∀ (o : OpUpkMx) (s s1 : State) (a : Entry), s.guardOk o.gd → s.src o.a = .ok (a, s1) → s1.room o.d 2 →
    (∀ c, o.c = some c → s.readable c) →
    let rs := unpackStep o.fmt o.blk ((o.c.map fun c => (s.scalar c).toNat).getD (a.toNat / 2 ^ 1536)) a
    ∃ e f fl, exec (.upkMx o) s = .next (((s1.flag fl).pushed o.d e).pushed o.d f) ∧
      ∀ i : Nat, i < 64 → lane e i = (rs.getD i ⟨0, 0⟩).bits % 2 ^ 32 ∧
        (i < 32 → lane f i = (rs.getD (64 + i) ⟨0, 0⟩).bits % 2 ^ 32) ∧ (32 ≤ i → lane f i = 0))

/-! The M slot and the sequencer (12 R301 to R326). -/

/-- 12 R304, R305, R309 to R312, R322: the parameter registers, the call of a routine, the writing of a plane, and the loading of a verified
microprogram, each with all that it changes; an M operation waits while a routine of its context runs.
The model's choices in it are those of log entries 7, 25 and 38. -/
def Obligations.MatrixSlotOperations : Prop :=
  (∀ (o : OpMpWr) (s : State), s.guardOk o.gd → s.old.rout = none → s.readable o.a →
    let v := if o.d = 7 then s.scalar o.a &&& 0x80FFFFFFFFFFFFFF else s.scalar o.a
    exec (.mpWr o) s = .next (s.setMe { s.me with r := { s.me.r with mp := mapSet 0 s.me.r.mp o.d.toNat v } })) ∧
  (∀ (o : OpMpRd) (s : State), s.here → s.guardOk o.gd → s.old.rout = none →
    ∃ t, exec (.mpRd o) s = .next t ∧ ScalarWritten s t o.d (match o.a with
      | some n => s.old.mpReg n.toNat
      | none => BitVec.ofNat 64 s.old.r.accb) 0) ∧
  (∀ (o : OpMxCall) (s : State), s.here → s.guardOk o.gd → s.old.rout = none →
    ∃ t u, exec (.mxCall o) s = .next t ∧ t = { s.setMe t.me with nid := s.nid + 1 } ∧
      t.me = { s.me with rout := some u, r := { s.me.r with mp := t.me.r.mp } } ∧ u.entry = o.entry ∧ u.pc = o.entry ∧ u.lc0 = 0 ∧
      u.lc1 = 0 ∧ u.key = s.old.r.seedk ∧ u.tag = s.old.r.cgctr.extractLsb' 40 24 ∧ u.paused = false ∧
      (t.me.mpReg 7).getLsbD 63 = true ∧ wbits (t.me.mpReg 7) 0 8 = o.entry.toNat ∧
      ∀ n, n ≠ 7 → t.me.mpReg n = s.me.mpReg n) ∧
  (∀ (o : OpMxPrm) (s : State), s.guardOk o.gd → s.old.rout = none → s.readable o.a →
    exec (.mxPrm o) s = .next (s.setMe { s.me with planes := mapSet .init s.me.planes o.d.toNat ⟨o.fmt, o.blk, s.scalar o.a, [], []⟩ })) ∧
  (∀ (o : OpMxLat) (s s1 s2 : State) (e g : Entry), s.here → s.guardOk o.gd → s.old.rout = none → s.readable o.a →
    s.src o.b = .ok (e, s1) → s1.readQ (32 + o.c.toNat) false = .ok (g, s2) → s2.here →
    ∃ t, exec (.mxLat o) s = .next t ∧ OnlyHere s2 t ∧ t.me = { s2.me with planes := t.me.planes } ∧
      let p := s2.me.plane o.d.toNat
      let q := t.me.plane o.d.toNat
      let k := wbits (s.scalar o.a) 0 10 % mxCols p.fmt
      q.fmt = p.fmt ∧ q.blk = p.blk ∧ q.psrc = p.psrc ∧
      (mapGet 0 q.cols k).toNat = e.toNat % 2 ^ (96 * p.fmt.width) ∧ mapGet scl0 q.scl k = g.extractLsb' 0 32 ∧
      (∀ j, j ≠ k → mapGet 0 q.cols j = mapGet 0 p.cols j ∧ mapGet scl0 q.scl j = mapGet scl0 p.scl j) ∧
      ∀ n, n ≠ o.d.toNat → t.me.plane n = s2.me.plane n) ∧
  (∀ (o : OpRR) (s s1 : State) (img : Option (List Byte)), s.guardOk o.gd → s.old.rout = none → s.readable o.a →
    s.readOperand (s.scalar o.a) 2160 false 3 = .ok (img, s1) →
    let n := s1.toCore.loadStatus (s1.toCore.tile s.ref.tile).ucHeld (s.scalar o.a) img
    (img = none → exec (.mxUcw o) s = .next (s1.landS o.d (BitVec.ofNat 64 n) false) ∧ n = 3) ∧
    (∀ bs, img = some bs → n ≠ 0 → exec (.mxUcw o) s = .next (s1.landS o.d (BitVec.ofNat 64 n) false)) ∧
    (∀ bs, img = some bs → n = 0 → ∃ u, exec (.mxUcw o) s = .next (u.landS o.d 0 false) ∧ SameMemory s1 u ∧
      (∀ k, k < 256 → mapGet 0 (u.toCore.tile s1.ref.tile).ucode k = wordAt bs (16 + 8 * k)) ∧
      (u.toCore.tile s1.ref.tile).ucHeld = some (imageRec (s.scalar o.a) bs))) ∧
  (∀ s : State, s.old.rout.isSome → ∀ i, (∃ o, i = Instr.mpWr o) ∨ (∃ o, i = .mpRd o) ∨ (∃ o, i = .mxCall o) ∨ (∃ o, i = .mxLat o) ∨
    (∃ o, i = .mxPrm o) ∨ (∃ o, i = .mxUcw o) ∨ (∃ o, i = .accRd o) ∨ (∃ o, i = .accClr o) ∨ (∃ o, i = .accCp o) →
    exec i s = .next (s.wait .mx))

/-- 12 R307, R308, R324, R325: `acc.rd` pushes a segment of a row, `acc.clr` makes rows invalid, `acc.cp` copies rows as though all were read
first; a row beyond the claim raises the permission trap with cause WINDOW; nothing else changes. -/
def Obligations.AccumulatorOperations : Prop :=
  (∀ (o : OpAccRd) (s : State), s.guardOk o.gd → s.old.rout = none → s.old.macs = [] → s.readable o.a → s.readable o.b → s.readable o.c →
    s.poison = [] → o.gum = false → o.sort = false → s.room o.d 1 → s.here →
    let w64 := decide (o.conv = .f64)
    let row := wbits (s.scalar o.a) 0 8
    let base := s.old.r.accb + (if w64 then 2 * row else row)
    (row < (if w64 then s.old.id.accr / 2 else s.old.id.accr)) →
    ∃ t, exec (.accRd o) s = .next t ∧ LanesPushed s t o.d (BitVec.allOnes 64) (fun _ => 0) fun i =>
      accRead o.conv o.rm (if o.tmp then some (wbits (s.scalar o.c) 0 32) else none)
        (s.toCore.accGet s.ref.tile base w64 (64 * wbits (s.scalar o.b) 0 4 + i))) ∧
  (∀ (o : OpAccRd) (s : State), s.guardOk o.gd → s.old.rout = none → s.old.macs = [] → s.readable o.a → s.readable o.b → s.readable o.c →
    s.poison = [] → s.room o.d 1 → s.here →
    (wbits (s.scalar o.a) 0 8 < (if o.conv = .f64 then s.old.id.accr / 2 else s.old.id.accr)) →
    ∃ t, exec (.accRd o) s = .next t ∧ SameMemory s t ∧ (t.toCore.tile s.ref.tile).acc = (s.toCore.tile s.ref.tile).acc ∧
      t.me = { s.me with q := t.me.q, cds := t.me.cds, r := { s.me.r with fpsf := t.me.r.fpsf } }) ∧
  (∀ (o : OpAccRd) (s : State), s.guardOk o.gd → s.old.rout = none → s.old.macs = [] → s.readable o.a → s.readable o.b → s.readable o.c →
    ¬ (wbits (s.scalar o.a) 0 8 < (if o.conv = .f64 then s.old.id.accr / 2 else s.old.id.accr)) →
    exec (.accRd o) s = .next (s.trap (mkTrap kPerm cWindow))) ∧
  (∀ (o : OpAccClr) (s : State), s.guardOk o.gd → s.old.rout = none → s.old.macs = [] → s.readable o.a → s.readable o.b →
    let r := wbits (s.scalar o.a) 0 8
    let n := wbits (s.scalar o.b) 0 9
    (n = 0 ∨ r + n ≤ s.old.id.accr → ∃ t, exec (.accClr o) s = .next t ∧ SameMemory s t ∧ t.doms = s.doms ∧
      (∀ k, t.toCore.accRow s.ref.tile k =
        if s.old.r.accb + r ≤ k ∧ k < s.old.r.accb + r + n then ⟨false, []⟩ else s.toCore.accRow s.ref.tile k) ∧
      { t.toCore.tile s.ref.tile with acc := [] } = { s.toCore.tile s.ref.tile with acc := [] }) ∧
    (n ≠ 0 → s.old.id.accr < r + n → exec (.accClr o) s = .next (s.trap (mkTrap kPerm cWindow)))) ∧
  (∀ (o : OpAccCp) (s : State), s.guardOk o.gd → s.old.rout = none → s.old.macs = [] → s.readable o.a → s.readable o.b → s.readable o.c →
    s.poison = [] →
    let r := wbits (s.scalar o.a) 0 8
    let q := wbits (s.scalar o.b) 0 8
    let n := wbits (s.scalar o.c) 0 9
    (n = 0 ∨ (r + n ≤ s.old.id.accr ∧ q + n ≤ s.old.id.accr) → ∃ t, exec (.accCp o) s = .next t ∧ SameMemory s t ∧ t.doms = s.doms ∧
      (∀ k, t.toCore.accRow s.ref.tile k =
        if s.old.r.accb + q ≤ k ∧ k < s.old.r.accb + q + n then s.toCore.accRow s.ref.tile (k - q + r)
        else s.toCore.accRow s.ref.tile k) ∧
      { t.toCore.tile s.ref.tile with acc := [] } = { s.toCore.tile s.ref.tile with acc := [] }) ∧
    (n ≠ 0 → s.old.id.accr < r + n → exec (.accCp o) s = .next (s.trap (mkTrap kPerm cWindow))))

/-- The acting context with mp7 written for a step that a marker stands before (12 R313). -/
def marked (s : State) (u : Routine) (mkr : Bool) : Ctx := if mkr then s.me.setMp 7 (u.mp7 true) else s.me

/-- The machine at a step that a marker stands before. -/
def atStep (s : State) (u : Routine) (mkr : Bool) : State := if mkr then s.setMe (s.me.setMp 7 (u.mp7 true)) else s

/-- The acting context and the accumulator rows of its tile change, and nothing else; the marks of the rows that are written may go. -/
structure RowsChanged (s t : State) : Prop where
  rest : { t with toCore := { t.toCore with tiles := s.tiles, poison := s.poison } } = s
  others : ∀ k, k ≠ s.ref.tile → t.toCore.tile k = s.toCore.tile k
  tile : { t.toCore.tile s.ref.tile with acc := [], queue := [], hcs := [] } = { s.toCore.tile s.ref.tile with acc := [], queue := [], hcs := [] }
  contexts : ∀ r, r ≠ s.ref → t.toCore.ctx? r = s.toCore.ctx? r
  marks : ∀ k, mapGet false t.poison k = true → mapGet false s.poison k = true

/-- 12 R313 to R318, R320: the micro-ops that move control and the working registers of a routine, and the clearing and copying of rows; a marked one
writes mp7 first; each names the step that is next, and nothing else changes: END writes RUN = 0 and its own index into mp7 and ends the routine,
LOOP with a count of zero goes on after the next ENDL of its level, and a step that ends its routine's index range is none of these. -/
def Obligations.MicroOpsOfControl : Prop :=
  ∀ (s : State) (u : Routine), s.here → s.me.rout = some u →
    (∀ m, ∃ t, exec (.uopEnd m) s = .next t ∧ OnlyHere s t ∧
      t.me = { s.me with rout := none, r := { s.me.r with mp := t.me.r.mp } } ∧ (∀ n, n ≠ 7 → t.me.mpReg n = s.me.mpReg n) ∧
      (t.me.mpReg 7).getLsbD 63 = false ∧ (t.me.mpReg 7).extractLsb' 56 7 = 0 ∧ (t.me.mpReg 7).extractLsb' 40 16 = u.lc1 ∧
      (t.me.mpReg 7).extractLsb' 24 16 = u.lc0 ∧ (t.me.mpReg 7).extractLsb' 16 8 = u.ls1 ∧ (t.me.mpReg 7).extractLsb' 8 8 = u.ls0 ∧
      (t.me.mpReg 7).extractLsb' 0 8 = u.pc) ∧
    (∀ m, u.pc ≠ 255 → ∃ t, exec (.uopNop m) s = .next t ∧ OnlyHere s t ∧
      t.me = { marked s u m with rout := some { u with pc := u.pc + 1 } }) ∧
    (∀ o : USet, u.pc ≠ 255 → ∃ t, exec (.uopSet o) s = .next t ∧ OnlyHere s t ∧
      let x := marked s u o.mkr
      t.me = { x with rout := some { u with pc := u.pc + 1 }, r := { x.r with mp := t.me.r.mp } } ∧
      (o.d ≠ 7 → t.me.mpReg o.d.toNat = o.imm.signExtend 64 + if o.add then x.mpReg o.s.toNat else 0) ∧
      ∀ n, n ≠ o.d.toNat → t.me.mpReg n = x.mpReg n) ∧
    (∀ o : ULoop, u.pc ≠ 255 →
      let n := if o.csrc then ((marked s u o.mkr).mpReg o.s.toNat).extractLsb' 0 16 else o.imm
      n ≠ 0 → ∃ t, exec (.uopLoop o) s = .next t ∧ OnlyHere s t ∧
        let v := if o.lv then { u with lc1 := n, ls1 := u.pc + 1, pc := u.pc + 1 } else { u with lc0 := n, ls0 := u.pc + 1, pc := u.pc + 1 }
        t.me = { marked s u o.mkr with rout := some v }) ∧
    (∀ (o : ULoop) (j : Nat) (e : UEndl), (if o.csrc then ((marked s u o.mkr).mpReg o.s.toNat).extractLsb' 0 16 else o.imm) = 0 →
      let store := (s.toCore.tile s.ref.tile).ucode
      u.pc.toNat < j → j < 255 → decodeUop (mapGet 0 store j) = .ok (.uopEndl e) → e.lv = o.lv →
      (∀ i, u.pc.toNat < i → i < j → ∀ d, decodeUop (mapGet 0 store i) = .ok (.uopEndl d) → d.lv ≠ o.lv) →
      ∃ t, exec (.uopLoop o) s = .next t ∧ OnlyHere s t ∧
        let v := if o.lv then { u with lc1 := 0, ls1 := u.pc + 1, pc := BitVec.ofNat 8 (j + 1) }
          else { u with lc0 := 0, ls0 := u.pc + 1, pc := BitVec.ofNat 8 (j + 1) }
        t.me = { marked s u o.mkr with rout := some v }) ∧
    (∀ o : UEndl, u.lc o.lv ≠ 0 → (u.lc o.lv = 1 → u.pc ≠ 255) → ∃ t, exec (.uopEndl o) s = .next t ∧ OnlyHere s t ∧
      let next := if u.lc o.lv = 1 then u.pc + 1 else u.ls o.lv
      let v := if o.lv then { u with lc1 := u.lc1 - 1, pc := next } else { u with lc0 := u.lc0 - 1, pc := next }
      t.me = { marked s u o.mkr with rout := some v }) ∧
    (∀ o : UBrz,
      let go := decide ((marked s u o.mkr).mpReg o.s.toNat = 0) != o.nz
      (go = false → u.pc ≠ 255) → ∃ t, exec (.uopBrz o) s = .next t ∧ OnlyHere s t ∧
        t.me = { marked s u o.mkr with rout := some { u with pc := if go then o.tgt else u.pc + 1 } }) ∧
    (∀ o : UClr, u.pc ≠ 255 → s.me.macs = [] →
      let r := (((marked s u o.mkr).mpReg o.rb.toNat).toNat + o.rofs.toNat) % 256
      r + (o.nm1.toNat + 1) ≤ s.me.id.accr →
      ∃ t, exec (.uopClr o) s = .next t ∧ RowsChanged s t ∧ SameMemory s t ∧
        t.me = { marked s u o.mkr with rout := some { u with pc := u.pc + 1 } } ∧
        ∀ k, t.toCore.accRow s.ref.tile k =
          if s.me.r.accb + r ≤ k ∧ k < s.me.r.accb + r + (o.nm1.toNat + 1) then ⟨false, []⟩ else s.toCore.accRow s.ref.tile k) ∧
    (∀ o : UAcp, u.pc ≠ 255 → s.me.macs = [] →
      let r := (((marked s u o.mkr).mpReg o.rb.toNat).toNat + o.rofs.toNat) % 256
      let q := (((marked s u o.mkr).mpReg o.dr.toNat).toNat + o.dofs.toNat) % 256
      let n := o.nm1.toNat + 1
      r + n ≤ s.me.id.accr → q + n ≤ s.me.id.accr →
      s.toCore.windowPoisoned s.ref.tile (accOfs false (s.me.r.accb + r) 0) (n * 4096) = false →
      ∃ t, exec (.uopAcp o) s = .next t ∧ RowsChanged s t ∧ SameMemory s t ∧
        t.me = { marked s u o.mkr with rout := some { u with pc := u.pc + 1 } } ∧
        ∀ k, t.toCore.accRow s.ref.tile k =
          if s.me.r.accb + q ≤ k ∧ k < s.me.r.accb + q + n then s.toCore.accRow s.ref.tile (k - q + r)
          else s.toCore.accRow s.ref.tile k)

/-- 12 R315 to R321: LAT writes a column of a plane, MAC makes one block result per column and block that waits to land; landing adds them
to the row in ascending K. A pause stops the sequencer before the marked step, a fault stops it and is raised at the bundle.
The model's choices in it are those of log entries 7, 26 and 47. -/
def Obligations.MicroOpsOfTheArray : Prop :=
  (∀ (o : ULat) (s s1 s2 : State) (u : Routine) (e g : Entry), s.here → s.me.rout = some u → u.pc ≠ 255 →
    (atStep s u o.mkr).routineQ o.q.toNat o.k = .ok (e, s1) → s1.routineQ (32 + o.sq.toNat) o.sk = .ok (g, s2) → s2.here → s2.me.rout = some u →
    ∃ t, exec (.uopLat o) s = .next t ∧ OnlyHere s2 t ∧
      t.me = { s2.me with rout := some { u with pc := u.pc + 1 }, planes := t.me.planes, r := { s2.me.r with mp := t.me.r.mp } } ∧
      t.me.plane o.pl.toNat = (s2.me.plane o.pl.toNat).column (wbits (s2.me.mpReg o.cr.toNat) 0 10) e g ∧
      (∀ n, n ≠ o.pl.toNat → t.me.plane n = s2.me.plane n) ∧
      ∀ n, t.me.mpReg n = if o.ci ∧ n = o.cr.toNat then s2.me.mpReg n + 1 else s2.me.mpReg n) ∧
  (∀ (o : UMac) (s s1 s2 : State) (u : Routine) (a sa : Entry), s.here → s.me.rout = some u → u.pc ≠ 255 →
    s.poison = [] → mxCols (s.me.plane o.pl.toNat).fmt * (o.cg.toNat + 1) ≤ 1024 →
    (atStep s u o.mkr).routineQ o.aq.toNat o.ak = .ok (a, s1) → s1.routineQ (32 + o.sq.toNat) o.sk = .ok (sa, s2) → s2.here → s2.me.rout = some u →
    let p := s.me.plane o.pl.toNat
    let row := (((marked s u o.mkr).mpReg o.rb.toNat).toNat + o.rofs.toNat) % 256
    let src : DrawSrc := { key := u.key, tag := u.tag.toNat, kind := 5, round := 0, hop := 0 }
    let k := wbits (s2.me.mpReg o.kr.toNat) 0 18
    row < (if o.w64 then s.me.id.accr / 2 else s.me.id.accr) →
    ∃ t m fl, exec (.uopMac o) s = .next t ∧ OnlyHere s2 t ∧
      let regs := { s2.me.r with mp := t.me.r.mp, fpsf := s2.me.r.fpsf ||| fl }
      t.me = { s2.me with rout := some { u with pc := u.pc + 1 }, macs := s2.me.macs ++ [m], r := regs } ∧
      m.row = s.me.r.accb + (if o.w64 then 2 * row else row) ∧ m.w64 = o.w64 ∧ m.ovw = o.ovw ∧ m.col = o.cg.toNat * mxCols p.fmt ∧
      m.parts = (List.range (mxCols p.fmt)).map fun i =>
        (columnParts (if o.w64 then fmtF64 else fmtF32) (if o.sr then .sr else .rne)
          (fun j => if o.sr then src.draw16 (k * 2 ^ 22 + (o.cg.toNat * mxCols p.fmt + i) * 4096 + row * 16 + j * 4) else 0)
          o.afmt p a sa i).map fun x => x.bits) ∧
  (∀ (s : State) (tl p : Nat) (x : Ctx) (m : MacOp) (rest : List MacOp), s.event = some (.macResultLand tl) →
    (s.toCore.tile tl).queue.findIdx? (fun x => !x.macs.isEmpty) = some p → s.toCore.ctx? (.task tl p) = some x → x.macs = m :: rest →
    ∃ t, exec .macResultLand s = .next t ∧ SameMemory s t ∧ t.doms = s.doms ∧
      (t.toCore.ctx (.task tl p)).macs = rest ∧
      t.toCore.ctx (.task tl p) = { x with macs := rest, r := { x.r with fpsf := (t.toCore.ctx (.task tl p)).r.fpsf } } ∧
      (m.w64 = false → (t.toCore.accRow tl m.row).valid = true ∧
        (∀ i v, m.parts[i]? = some [v] → m.ovw = true →
          (t.toCore.accRow tl m.row).get (m.col + i) = (fmtF32.add .rne 0 0 v).bits % 2 ^ 32) ∧
        ∀ k, k ≠ m.row → t.toCore.accRow tl k = s.toCore.accRow tl k)) ∧
  (∀ (s : State) (tl : Nat) (r : CtxRef) (x : Ctx) (u : Routine), s.event = some (.routinePause tl) → s.toCore.routineOn tl = some r →
    s.toCore.ctx? r = some x → x.rout = some u →
    ∃ t, exec .routinePause s = .next t ∧ t = { s with toCore := s.toCore.setCtx r (t.toCore.ctx r) } ∧
      t.toCore.ctx r = { x with rout := some { u with paused := true }, r := { x.r with mp := (t.toCore.ctx r).r.mp } } ∧
      (t.toCore.ctx r).mpReg 7 = u.mp7 true) ∧
  (∀ (s : State) (tl p kind cause detail : Nat) (x : Ctx) (u : Routine), s.event = some (.routineFault tl kind cause detail) →
    s.toCore.routineOn tl = some (.task tl p) → s.toCore.ctx? (.task tl p) = some x → x.rout = some u → x.id.logit = false →
    x.status ≠ .suspended →
    ∃ t, exec .routineFault s = .next t ∧ SameMemory s t ∧ (t.toCore.ctx (.task tl p)).status = .suspended ∧
      ((t.toCore.ctx (.task tl p)).rout.map fun u => u.pc) = some u.pc ∧
      ((t.toCore.ctx (.task tl p)).rout.bind fun u => u.faulted).isSome ∧
      ∃ f, (t.toCore.tile tl).faults = (s.toCore.tile tl).faults ++ [f] ∧ f.serves = some x.id.taskid)

/-! The F slot (13 R327 to R342). -/

/-- The acting context with an F operation that has not landed: its bank writes and flags. -/
def flying (s : State) (ws : List (Nat × Lane)) (fl : Flags) : State := s.setMe { s.me with fo := some ⟨ws, fl⟩ }

/-- 13 R334 to R340: the operations of the forest, each with the writes that land later and the entry it pushes now; an entry beyond 255 or a lane
that the task did not claim raises the bank-range trap; a malformed shape the shape trap; and the landing writes the banks and joins the flags.
The model's choices in it are those of log entries 7 and 26. -/
def Obligations.ForestOperations : Prop :=
  (∀ (o : OpFoMd) (s : State), s.here → s.guardOk o.gd → s.old.fo = none →
    exec (.foMd o) s = .next (s.setMe { s.me with fmode := o.fmt, fo := some ⟨[], 0⟩ })) ∧
  (∀ (o : OpFoShp) (s s1 : State) (e : Entry), s1.here → s.guardOk o.gd → s.old.fo = none → s.src o.a = .ok (e, s1) →
    (shapeOk (e.extractLsb' 0 256) = true → exec (.foShp o) s = .next (s1.setMe { s1.me with
      shapes := mapSet 0 s1.me.shapes o.shape.toNat (e.extractLsb' 0 256), fo := some ⟨[], 0⟩ })) ∧
    (shapeOk (e.extractLsb' 0 256) = false →
      exec (.foShp o) s = .next (s.trap { mkTrap kForest cFshape with detail := o.shape.toNat }))) ∧
  (∀ (o : OpFoLd) (s s1 : State) (v : Entry), s.guardOk o.gd → s.old.fo = none → s.src o.a = .ok (v, s1) → s1.readable o.b →
    (∀ l, l < 8 → (layMask o.lay).testBit l → s1.me.id.flanes.testBit l) →
    (∀ w ∈ layWords o.lay (s1.scalar o.b).toNat, w.2.2.2 ≤ 255) →
    exec (.foLd o) s = .next (flying s1
      ((layWords o.lay (s1.scalar o.b).toNat).map fun w => (bankKey w.2.1 w.2.2.1 w.2.2.2, BitVec.ofNat 32 (lane v w.1))) 0)) ∧
  (∀ (o : OpFoSt) (s : State), s.guardOk o.gd → s.old.fo = none → s.readable o.b → s.poison = [] → s.room o.d 1 → s.here →
    (∀ l, l < 8 → (layMask o.lay).testBit l → s.me.id.flanes.testBit l) →
    (∀ w ∈ layWords o.lay (s.scalar o.b).toNat, w.2.2.2 ≤ 255) →
    ∃ t, exec (.foSt o) s = .next t ∧ EntryPushed (flying s [] 0) t o.d fun i =>
      match (layWords o.lay (s.scalar o.b).toNat).find? fun w => w.1 == i with
      | some w => s.toCore.bankGet s.ref.tile w.2.1 w.2.2.1 w.2.2.2
      | none => 0) ∧
  (∀ (o : OpFoUp) (s : State), s.guardOk o.gd → s.old.fo = none → s.readable o.a → s.readable o.b → s.poison = [] → s.room o.d 1 → s.here →
    (∀ l, l < 8 → o.lm.toNat.testBit l → s.me.id.flanes.testBit l) →
    (o.lm ≠ 0 → (∀ i ∈ shapeLeaves (s.old.shape o.shape.toNat),
      (s.scalar o.a).toNat + (shapeLeaf (s.old.shape o.shape.toNat) i).2 ≤ 255) ∧ (o.wb → (s.scalar o.b).toNat ≤ 255)) →
    let root := fun l => ((s.evalLane (s.old.shape o.shape.toNat) l (s.scalar o.a).toNat).1.getD 0 none).getD 0
    ∃ t ws fl, exec (.foUp o) s = .next t ∧ EntryPushed (flying s ws fl) t o.d (fun i => if i < 8 ∧ o.lm.toNat.testBit i then root i else 0) ∧
      (o.wb = false → ws = []) ∧ (o.wb = true → ws = ((List.range 8).filter fun l => o.lm.toNat.testBit l).map fun l =>
        (bankKey l o.rb.toNat (s.scalar o.b).toNat, BitVec.ofNat 32 (root l)))) ∧
  (∀ (o : OpFoDn) (s : State), s.guardOk o.gd → s.old.fo = none → s.readable o.a → s.readable o.b → s.poison = [] →
    (∀ l, l < 8 → o.lm.toNat.testBit l → s.me.id.flanes.testBit l) →
    (s.scalar o.b).toNat + s.old.r.ofs.toNat ≤ 255 →
    (∀ i ∈ shapeLeaves (s.old.shape o.shape.toNat),
      (s.scalar o.a).toNat + (shapeLeaf (s.old.shape o.shape.toNat) i).2 + s.old.r.ofs.toNat ≤ 255) →
    let lanes := (List.range 8).filter fun l => o.lm.toNat.testBit l
    let down := fun l => s.downLane o (s.old.shape o.shape.toNat) l (s.scalar o.a).toNat (s.scalar o.b).toNat s.old.r.ofs.toNat
    ∃ fl, exec (.foDn o) s = .next (flying s ((lanes.flatMap fun l => (down l).1).map fun w => (w.1, BitVec.ofNat 32 w.2)) fl)) ∧
  (∀ (o : OpFoNrm) (s : State), s.guardOk o.gd → s.old.fo = none → s.readable o.a → s.readable o.b → s.readable o.c → s.poison = [] →
    (∀ l, l < 8 → o.lm.toNat.testBit l → s.me.id.flanes.testBit l) →
    let e := (s.scalar o.a).toNat
    let n := (s.scalar o.b).toNat
    let z := (s.scalar o.c).toNat
    let m := s.old.fmode
    n ≤ 256 → (n = 0 ∨ (e + n - 1 ≤ 255 ∧ z ≤ 255)) →
    ∃ fl, exec (.foNrm o) s = .next (flying s ((if n = 0 then [] else (List.range 8).filter fun l => o.lm.toNat.testBit l).flatMap fun l =>
      (List.range n).map fun k => (bankKey l o.bank.toNat (e + k), BitVec.ofNat 32
        (modeDiv m (modeRead m (s.toCore.bankGet s.ref.tile l o.bank.toNat (e + k)))
          (modeRead m (s.toCore.bankGet s.ref.tile l o.rb.toNat z))).bits)) fl)) ∧
  (∀ (o : OpFoLd) (s s1 : State) (v : Entry) (l : Nat), s.guardOk o.gd → s.old.fo = none → s.src o.a = .ok (v, s1) → s1.readable o.b →
    l < 8 → (layMask o.lay).testBit l → s1.me.id.flanes.testBit l = false →
    exec (.foLd o) s = .next (s.trap { mkTrap kForest cFbank with detail := 0, aux0 := 0 })) ∧
  (∀ (s : State) (tl p : Nat) (x : Ctx) (f : FoFlight), s.event = some (.forestOpLand tl) →
    (s.toCore.tile tl).queue.findIdx? (fun x => x.fo.isSome) = some p → s.toCore.ctx? (.task tl p) = some x → x.fo = some f →
    ∃ t, exec .forestOpLand s = .next t ∧ SameMemory s t ∧ t.doms = s.doms ∧
      t.toCore.ctx (.task tl p) = { x with fo := none, r := { x.r with fpsf := x.r.fpsf ||| f.flags } } ∧
      (t.toCore.tile tl).banks = f.writes.foldl (fun m w => mapSet 0 m w.1 w.2) (s.toCore.tile tl).banks)

/-! The K slot (14 R343 to R350). -/

/-- 14 R343 to R350: the generator's key and counter, and the candidate lists: clearing, merging, reading, drawing and thresholding; nothing else
changes. -/
def Obligations.SamplingOperations : Prop :=
  (∀ (o : OpRngSet) (s : State), s.guardOk o.gd → s.readable o.a → s.readable o.b →
    exec (.rngSet o) s = .next (s.setMe { s.me with r := { s.me.r with
      seedk := if o.wk then s.scalar o.a else s.me.r.seedk, cgctr := if o.wc then s.scalar o.b else s.me.r.cgctr } })) ∧
  (∀ (o : OpCdClr) (s : State), s.guardOk o.gd → s.readable o.a →
    let cap := if 1 ≤ (s.scalar o.a).toNat ∧ (s.scalar o.a).toNat ≤ 63 then (s.scalar o.a).toNat else 64
    exec (.cdClr o) s = .next (s.setMe { s.me with cds := mapSet .init s.me.cds o.cd.toNat ⟨[], cap, false⟩ })) ∧
  (∀ (o : OpCdMrg) (s s1 : State) (a : Entry), s1.here → s.guardOk o.gd → s.src o.a = .ok (a, s1) → s1.readable o.b →
    let l := s1.me.cand o.cd.toNat
    let new := ((List.range 64).filter fun i => (s1.mask o.msk).getLsbD i).map fun i =>
      (BitVec.ofNat 32 (lane a i), BitVec.ofNat 32 ((s1.scalar o.b).toNat + i))
    ∃ t, exec (.cdMrg o) s = .next t ∧ OnlyHere s1 t ∧ SameMemory s1 t ∧
      t.me = { s1.me with cds := t.me.cds, r := { s1.me.r with fpsf := t.me.r.fpsf } } ∧
      (∀ n, n ≠ o.cd.toNat → t.me.cand n = s1.me.cand n) ∧
      (t.me.cand o.cd.toNat).pairs.length ≤ l.kcap ∧ (t.me.cand o.cd.toNat).kcap = l.kcap ∧ (t.me.cand o.cd.toNat).void = l.void ∧
      (∀ p ∈ (t.me.cand o.cd.toNat).pairs, p ∈ l.pairs ∨ p ∈ new) ∧
      (new = [] → l.pairs.length ≤ l.kcap → t.me.cand o.cd.toNat = l ∧ t.me.r.fpsf = s1.me.r.fpsf)) ∧
  (∀ (o : OpCdTop) (s : State), s.guardOk o.gd → s.room o.d 2 →
    ∃ e f, exec (.cdTop o) s = .next ((s.pushed o.d e).pushed o.d f) ∧
      ∀ i : Nat, i < 64 → lane e i = (((s.me.cand o.cd.toNat).pairs.map Prod.fst).getD i 0x7FC00000).toNat ∧
        lane f i = (((s.me.cand o.cd.toNat).pairs.map Prod.snd).getD i 0xFFFFFFFF).toNat) ∧
  (∀ (o : OpCdArg) (s : State), s.here → s.guardOk o.gd → o.adv = false →
    let l := s.me.cand o.cd.toNat
    ((l.pairs = [] ∨ l.void = true) → exec (.cdArg o) s = .next ((s.wrS o.d (BitVec.allOnes 64)).wrG o.gp false)) ∧
    (l.pairs ≠ [] → l.void = false → ∃ v i fl, (v, i) ∈ l.pairs ∧ exec (.cdArg o) s = .next (((s.wrS o.d (v ++ i)).wrG o.gp true).flag fl) ∧
      (o.gum = false → fl = 0 ∧ ∀ p ∈ l.pairs, fltVal (fmtF32.decode v.toNat) (fmtF32.decode p.1.toNat) = false))) ∧
  (∀ (o : OpCdArg) (s t : State), s.here → s.guardOk o.gd → o.adv = true → exec (.cdArg { o with adv := false }) s = .next t →
    exec (.cdArg o) s = .next (t.consume (2 ^ 24))) ∧
  (∀ (o : OpCdThr) (s : State), s.here → s.guardOk o.gd → s.readable o.a →
    ∃ keep fl, exec (.cdThr o) s = .next (((s.setMe { s.me with
        cds := mapSet .init s.me.cds o.cd.toNat { s.me.cand o.cd.toNat with pairs := keep } }).wrS o.d (BitVec.ofNat 64 keep.length)).flag fl) ∧
      (∀ p ∈ keep, p ∈ (s.me.cand o.cd.toNat).pairs) ∧
      (o.relt = false → (fmtF32.decode ((s.scalar o.a).toNat % 2 ^ 32)).isNan = false →
        keep = (s.me.cand o.cd.toNat).pairs.filter fun p =>
          !fltVal (fmtF32.decode p.1.toNat) (fmtF32.decode ((s.scalar o.a).toNat % 2 ^ 32))) ∧
      ((fmtF32.decode ((s.scalar o.a).toNat % 2 ^ 32)).isNan = true → keep = (s.me.cand o.cd.toNat).pairs ∧ fl = fIV))

/-! The LA, LB and ST slots (10 R254 to R273). -/

/-- 10 R260, R265, 05 R133: the scalar loads: sd takes the bytes at s_a + s_b + OFF, extended, at once from the own scratchpad and else when
they land; an address that is not aligned raises the alignment fault, unless its translation has a lower cause; an acquire waits while a narrow
release that it read from has to be published; a load leaves every byte of memory, every tile and every domain as they are.
The model's choices in it are those of log entries 7, 8 and 44. -/
def Obligations.ScalarLoads : Prop :=
  (∀ (o : OpLdS) (s : State) (l : Loc) (pl : Place), s.guardOk o.gd → s.readable o.a → s.readable o.b →
    let e := s.scalar o.a + s.scalar o.b + o.off.signExtend 64
    let n := 2 ^ o.w.size.toNat
    e.toNat % n = 0 → LoadReady s (.load o.w.size.toNat) e n false l pl →
    exec (.ldS o) s = .next ((s.afterLoad n true false l pl).landS o.d (extend64 o.w (leNat (s.loadValue e n false l pl))) (l.isScratch s.ref.tile))) ∧
  (∀ (o : OpLdS) (s : State) (l : Loc), s.guardOk o.gd → s.readable o.a → s.readable o.b →
    let e := s.scalar o.a + s.scalar o.b + o.off.signExtend 64
    e.toNat % 2 ^ o.w.size.toNat ≠ 0 → s.toCore.translate (s.toCore.who s.ref) (.load o.w.size.toNat) e = .ok l →
    exec (.ldS o) s = .next (s.trap (accTrap (.load o.w.size.toNat) e l.pa cAlign))) ∧
  (∀ (o : OpLdS) (s : State) (i : TrapInfo), s.guardOk o.gd → s.readable o.a → s.readable o.b →
    let e := s.scalar o.a + s.scalar o.b + o.off.signExtend 64
    s.toCore.translate (s.toCore.who s.ref) (.load o.w.size.toNat) e = .error (.trap i) → (i.kind = kPage ∨ i.kind = kPerm) →
    exec (.ldS o) s = .next (s.trap i)) ∧
  (∀ (o : OpLdAcq) (s : State) (l : Loc) (pl : Place), s.guardOk o.gd → s.readable o.a → s.readable o.b →
    let e := s.scalar o.a + s.scalar o.b + o.off.signExtend 64
    let n := 2 ^ o.w.size.toNat
    let past := decide (4 ≤ scopeCode o.scope)
    e.toNat % n = 0 → LoadReady s (.load o.w.size.toNat) e n past l pl →
    s.toCore.placeOf (s.toCore.who s.ref) (.load o.w.size.toNat) l = .ok pl →
    let u := s.afterLoad n true past l pl
    let tag := u.toCore.widen (s.toCore.domOf s.ref.tile) s.ref.tile pl l.pa n
    (tag = none → exec (.ldAcq o) s =
      .next (u.landS o.d (extend64 o.w (leNat (s.loadValue e n past l pl))) (l.isScratch s.ref.tile))) ∧
    (∀ die, tag = some die → exec (.ldAcq o) s = .next (s.wait (.publish die)))) ∧
  (∀ (s : State) (n : Nat) (alloc past : Bool) (l : Loc) (pl : Place), let t := s.afterLoad n alloc past l pl
    t.tiles = s.tiles ∧ t.doms = s.doms ∧ t.bundle = s.bundle ∧ t.rels = s.rels ∧ t.tags = s.tags ∧
    (∀ k, paRegion k ≠ .iod → (∀ p f, paRegion k ≠ .offl p f) → t.toCore.homeByte k = s.toCore.homeByte k)) ∧
  (∀ (s : State) (va : Word) (n : Nat) (past : Bool) (l : Loc) (pl : Place), (s.loadValue va n past l pl).length = n) ∧
  (∀ (s : State) (va : Word) (n : Nat) (past : Bool) (l : Loc) (pl : Place), s.rels = [] → (s.toCore.tile s.ref.tile).pair = none →
    s.msgs = [] → s.pages = [] → s.me.replay = [] → s.me.late = [] → (s.toCore.tile s.ref.tile).l1 = [] → s.reps = [] →
    s.loadValue va n past l pl = s.toCore.homeBytes l.pa n) ∧
  (∀ (w : Width) (v : Nat), v < 2 ^ (8 * 2 ^ w.size.toNat) →
    (w.signed = false → (extend64 w v).toNat = v % 2 ^ 64) ∧
    (w.signed = true → w.size ≠ 3 → (extend64 w v).toInt = if v < 2 ^ (8 * 2 ^ w.size.toNat - 1) then (v : Int) else v - 2 ^ (8 * 2 ^ w.size.toNat))) ∧
  (∀ (s : State) (d : BitVec 6) (v : Word), s.here → ScalarWritten s (s.landS d v true) d v 0) ∧
  (∀ (s : State) (d : BitVec 6) (v : Word), s.here → d ≠ 0 →
    let t := s.landS d v false
    t.msgs = s.msgs ++ [.registerWriteLand s.ref.tile s.nid v] ∧ t.nid = s.nid + 1 ∧ SameMemory s t ∧
    t.me = { s.me with pend := (s.me.pend.filter fun e => decide (e.reg ≠ .s d)) ++ [⟨s.nid, .s d⟩] })

/-- 08 R209, R215: data that lands goes to the reservation made for it, wherever it now stands in the queue, and a register write to the register
that still waits for it; no other entry or register changes. -/
def Obligations.Landings : Prop :=
  (∀ (s : State) (tl id : Nat) (sq : Bool) (e : Entry) (r : CtxRef) (x : Ctx), s.event = some (.queueEntryLand tl id sq e) → r.tile = tl →
    s.toCore.ctx? r = some x →
    ∃ t y, exec .queueEntryLand s = .next t ∧ SameMemory s t ∧ t.doms = s.doms ∧ t.toCore.ctx? r = some y ∧
      y = { x with q := y.q, vs := y.vs } ∧
      ∀ q, y.queue q = (x.queue q).map fun en => if en.id = id ∧ en.data = none then ⟨id, some e⟩ else en) ∧
  (∀ (s : State) (tl id : Nat) (v : Word) (r : CtxRef) (x : Ctx), s.event = some (.registerWriteLand tl id v) → r.tile = tl →
    s.toCore.ctx? r = some x →
    ∃ t y, exec .registerWriteLand s = .next t ∧ SameMemory s t ∧ t.doms = s.doms ∧ t.toCore.ctx? r = some y ∧
      y = { x with r := { x.r with s := y.r.s }, pend := y.pend, far := y.far } ∧
      (∀ n, x.pend.find? (fun p => p.id = id) = some ⟨id, .s n⟩ →
        (n ≠ 0 → y.r.getS n.toNat = v) ∧ (∀ k, k ≠ n.toNat → y.r.getS k = x.r.getS k) ∧ y.pend = x.pend.filter fun p => p.id != id) ∧
      (∀ f, x.far = some f → y.far = if f.id = id then none else some f) ∧
      (x.pend.find? (fun p => p.id = id) = none → y = { x with far := y.far })) ∧
  (∀ (s : State) (tl : Nat) (i : Instr), (i = .queueEntryLand ∨ i = .registerWriteLand) →
    (∃ id sq e, s.event = some (.queueEntryLand tl id sq e)) ∨ (∃ id v, s.event = some (.registerWriteLand tl id v)) →
    ∃ t, exec i s = .next t ∧ ∀ k, k ≠ tl → t.toCore.tile k = s.toCore.tile k)

/-- 10 R261 to R264: the loads into queues: the step of the stream is read, its entry and its scales are pushed at once from the own scratchpad and
else reserved, and the stream steps; a gather takes the selected lanes in order; an operation on a stream of the wrong kind raises the STREAM
trap; `sd.ld` loads a stream register from the next bundle on.
The model's choices in it are those of log entries 7, 8 and 44. -/
def Obligations.QueueLoads : Prop :=
  (∀ (o : OpLdQ) (s t : State) (bs : List Byte) (now : Bool), let x := s.me.stream o.a.toNat
    s.guardOk o.gd → s.old.pending (.stream o.a) = false → s.matched true o.a = none → o.sq = none → s.room o.d 1 →
    Loaded s (.stRd o.a.toNat) x.addr x.eb x.alloc false bs now t →
    exec (.ldQ o) s = .next ((t.loaded o.d (BitVec.ofNat 2048 (leNat bs)) now).stepStream o.a)) ∧
  (∀ (o : OpLdQ) (s t u : State) (q : BitVec 1) (bs cs : List Byte) (now nows : Bool), let x := s.me.stream o.a.toNat
    s.guardOk o.gd → s.old.pending (.stream o.a) = false → s.matched true o.a = none → o.sq = some q → x.mx.isSome → s.room o.d 1 →
    Loaded s (.stRd o.a.toNat) x.addr x.eb x.alloc false bs now t → Loaded t (.stRd o.a.toNat) x.saddr x.nb x.alloc false cs nows u →
    let v := u.loaded o.d (BitVec.ofNat 2048 (leNat bs)) now
    v.roomQ (32 + q.toNat) 1 →
    exec (.ldQ o) s = .next ((v.loadedQ (32 + q.toNat) (BitVec.ofNat 2048 (leNat cs)) nows).stepStream o.a)) ∧
  (∀ (o : OpLdQ) (s : State) (q : BitVec 1), s.guardOk o.gd → s.old.pending (.stream o.a) = false → s.matched true o.a = none → o.sq = some q →
    (s.me.stream o.a.toNat).mx = none →
    exec (.ldQ o) s = .next (s.trap { mkTrap kIllegal cStream with addr := (s.me.stream o.a.toNat).addr })) ∧
  (∀ (o : OpLdQ) (s : State) (p : Pair), s.guardOk o.gd → s.old.pending (.stream o.a) = false → s.matched true o.a = some p →
    exec (.ldQ o) s = .next (s.stepStream o.a)) ∧
  (∀ (o : OpLdSc) (s t : State) (bs : List Byte) (now : Bool), let x := s.me.stream o.a.toNat
    s.guardOk o.gd → s.old.pending (.stream o.a) = false → x.mx.isSome → s.roomQ (32 + o.d.toNat) 1 →
    Loaded s (.stRd o.a.toNat) x.saddr x.nb x.alloc false bs now t →
    exec (.ldSc o) s = .next ((t.loadedQ (32 + o.d.toNat) (BitVec.ofNat 2048 (leNat bs)) now).stepStream o.a)) ∧
  (∀ (o : OpLdSc) (s : State), s.guardOk o.gd → s.old.pending (.stream o.a) = false → (s.me.stream o.a.toNat).mx = none →
    exec (.ldSc o) s = .next (s.trap { mkTrap kIllegal cStream with addr := (s.me.stream o.a.toNat).addr })) ∧
  (∀ (o : OpLdG) (s t u : State) (bs : List Byte) (vs : List Nat) (now nows : Bool), let x := s.me.stream o.a.toNat
    s.guardOk o.gd → s.old.pending (.stream o.a) = false → x.mx = none → s.readable o.b → s.room o.d 1 →
    Loaded s (.stRd o.a.toNat) x.addr x.eb x.alloc false bs now t →
    Gathered o.w (s.scalar o.b) (BitVec.ofNat 2048 (leNat bs)) (s.mask o.msk) (List.range 64) t vs nows u →
    exec (.ldG o) s = .next ((u.loaded o.d (ofLanes vs) (now && nows)).stepStream o.a)) ∧
  (∀ (o : OpLdG) (s : State), s.guardOk o.gd → s.old.pending (.stream o.a) = false → (s.me.stream o.a.toNat).mx.isSome →
    exec (.ldG o) s = .next (s.trap { mkTrap kIllegal cStream with addr := (s.me.stream o.a.toNat).addr })) ∧
  (∀ (o : OpSdLd) (s : State) (l : Loc) (pl : Place), s.guardOk o.gd → s.readable o.a → (s.scalar o.a).toNat % 32 = 0 →
    LoadReady s (.load 3) (s.scalar o.a) 32 false l pl →
    let d := BitVec.ofNat 256 (leNat (s.loadValue (s.scalar o.a) 32 false l pl))
    let u := s.afterLoad 32 true false l pl
    let v := { u with bundle := s.bundle.map (fun b => { b with lateA := b.lateA ++ [(s.ref, o.d.toNat, d)] }) }
    (descOk d = true → l.isScratch s.ref.tile = true → exec (.sdLd o) s = .next v) ∧
    (descOk d = true → l.isScratch s.ref.tile = false → s.here → ∃ t, exec (.sdLd o) s = .next t ∧
      t.me = { s.me with pend := (s.me.pend.filter fun e => decide (e.reg ≠ .stream o.d)) ++ [⟨u.nid, .stream o.d⟩] } ∧
      t = { v.setMe t.me with nid := u.nid + 1, msgs := u.msgs ++ [.registerWriteLand s.ref.tile u.nid 0] }) ∧
    (descOk d = false → exec (.sdLd o) s = .next (s.trap { mkTrap kIllegal cStream with addr := s.scalar o.a }))) ∧
  (∀ (s : State) (n : BitVec 4), s.here → OnlyHere s (s.stepStream n) ∧ (s.stepStream n).me = { s.me with a := (s.stepStream n).me.a } ∧
    (s.stepStream n).me.stream n.toNat = (s.me.stream n.toNat).step ∧
    ∀ k, k ≠ n.toNat → (s.stepStream n).me.stream k = s.me.stream k)

/-- 10 R255, R256: the current step of a stream lies at BASE + 8 × (i0·STR0 + i1·STR1 + i2·STR2), and a step counts i0 up to CNT0, then i1 to
CNT1, then i2 to CNT2, from where all three begin again; the descriptor stays as it is. -/
def Obligations.StreamSteps : Prop :=
  (∀ x : Stream, x.addr = BitVec.ofInt 64 (x.base + 8 * (x.i0.toNat * x.str0 + x.i1.toNat * x.str1 + x.i2.toNat * x.str2))) ∧
  ∀ x : Stream, x.i0.toNat < x.cnt0 → x.i1.toNat < x.cnt1 → x.i2.toNat < x.cnt2 →
    x.step.desc = x.desc ∧ x.step.nel = BitVec.ofNat 40 (x.nel.toNat + x.elems) ∧
    x.step.i0.toNat < x.cnt0 ∧ x.step.i1.toNat < x.cnt1 ∧ x.step.i2.toNat < x.cnt2 ∧
    (x.i0.toNat + 1 < x.cnt0 → x.step.i0.toNat = x.i0.toNat + 1 ∧ x.step.i1 = x.i1 ∧ x.step.i2 = x.i2) ∧
    (x.i0.toNat + 1 = x.cnt0 → x.step.i0 = 0 ∧
      (x.i1.toNat + 1 < x.cnt1 → x.step.i1.toNat = x.i1.toNat + 1 ∧ x.step.i2 = x.i2) ∧
      (x.i1.toNat + 1 = x.cnt1 → x.step.i1 = 0 ∧ x.step.i2.toNat = if x.i2.toNat + 1 = x.cnt2 then 0 else x.i2.toNat + 1))

/-- 08 R210, 10 R266 to R268, 05 R132: the stores: the bytes are held for the address that the operation computes until the bundle commits, and no byte of
memory changes before; `st.rel` waits for the replay queue and holds them for the release that it starts; a queue store steps its stream, a
scatter holds its selected lanes in order; an address that is not aligned raises the alignment fault. After a narrow release fence a plain
store carries the fence's tag.
The model's choices in it are those of log entries 23 and 44. -/
def Obligations.StoresAreHeld : Prop :=
  (∀ (o : OpStS) (s : State) (l : Loc) (pl : Place), s.guardOk o.gd → s.readable o.a → s.readable o.b → s.readable o.c →
    let e := s.scalar o.a + s.scalar o.b + o.off.signExtend 64
    let bytes := (leBytes (2 ^ o.size.toNat) (s.scalar o.c).toNat).map some
    e.toNat % 2 ^ o.size.toNat = 0 → Storable s (.store o.size.toNat) e bytes l pl →
    ∃ t, exec (.stS o) s = .next t ∧ StoreHeld s t l.pa pl s.me.ftag bytes) ∧
  (∀ (o : OpStS) (s : State) (l : Loc), s.guardOk o.gd → s.readable o.a → s.readable o.b → s.readable o.c →
    let e := s.scalar o.a + s.scalar o.b + o.off.signExtend 64
    e.toNat % 2 ^ o.size.toNat ≠ 0 → s.toCore.translate (s.toCore.who s.ref) (.store o.size.toNat) e = .ok l →
    exec (.stS o) s = .next (s.trap (accTrap (.store o.size.toNat) e l.pa cAlign))) ∧
  (∀ (o : OpStRel) (s : State) (b : Bundle) (l : Loc) (pl : Place), s.guardOk o.gd → s.readable o.a → s.readable o.b → s.readable o.c →
    s.old.replay = [] → s.old.late = [] → s.bundle = some b → s.old.rout = none → s.old.macs = [] → s.old.fo = none → scopeCode o.scope < 7 →
    let e := s.scalar o.a + s.scalar o.b + o.off.signExtend 64
    let bytes := (leBytes (2 ^ o.size.toNat) (s.scalar o.c).toNat).map some
    e.toNat % 2 ^ o.size.toNat = 0 → Storable s (.store o.size.toNat) e bytes l pl →
    ∃ t ms, exec (.stRel o) s = .next t ∧ Stores ms l.pa bytes ∧ (∀ m ∈ ms, m.place = pl ∧ m.tag = (s.relTag o.scope).or s.me.ftag) ∧
      t = { s with nid := t.nid, bundle := some { b with sigs := b.sigs ++ ms.map fun m => (s.ref, o.scope, m) } }) ∧
  (∀ (o : OpStRel) (s : State) (l : Loc) (pl : Place), s.guardOk o.gd → s.readable o.a → s.readable o.b → s.readable o.c →
    7 ≤ scopeCode o.scope → ReleaseReady s o.scope →
    let e := s.scalar o.a + s.scalar o.b + o.off.signExtend 64
    let bytes := (leBytes (2 ^ o.size.toNat) (s.scalar o.c).toNat).map some
    e.toNat % 2 ^ o.size.toNat = 0 → Storable s (.store o.size.toNat) e bytes l pl →
    ∃ t, exec (.stRel o) s = .next t ∧ StoreHeld s t l.pa pl none bytes) ∧
  (∀ (o : OpStRel) (s : State), s.guardOk o.gd → s.readable o.a → s.readable o.b → s.readable o.c → s.old.deadTrap = none →
    (s.old.replay ≠ [] ∨ s.old.late ≠ []) → exec (.stRel o) s = .next (s.wait .replay)) ∧
  (∀ (o : OpStQ) (s s1 : State) (e : Entry) (l : Loc) (pl : Place), s.guardOk o.gd → s.matched false o.a = none →
    s.src o.b = .ok (e, s1) → s1.old.pending (.stream o.a) = false → let x := s1.me.stream o.a.toNat
    let bytes := (leBytes x.eb e.toNat).mapIdx fun i b => if x.mx.isSome || (s1.mask o.msk).getLsbD (i / 4) then some b else none
    Storable s1 (.stWr o.a.toNat) x.addr bytes l pl →
    ∃ t, exec (.stQ o) s = .next (t.stepStream o.a) ∧ StoreHeld s1 t l.pa pl s1.me.ftag bytes) ∧
  (∀ (o : OpStQ) (s s1 : State) (e : Entry) (l l' : Loc) (pl pl' : Place), s.guardOk o.gd → s.matched false o.a = none →
    s.src o.b = .ok (e, s1) → s1.old.pending (.stream o.a) = false → let x := s1.me.stream o.a.toNat
    let bytes := (leBytes x.eb e.toNat).mapIdx fun i b => if x.mx.isSome || (s1.mask o.msk).getLsbD (i / 4) then some b else none
    let first := 65536 - x.addr.toNat % 65536
    first < x.eb → Storable s1 (.stWr o.a.toNat) x.addr (bytes.take first) l pl →
    Storable s1 (.stWr o.a.toNat) (x.addr + BitVec.ofNat 64 first) (bytes.drop first) l' pl' →
    ∃ t u, exec (.stQ o) s = .next (t.stepStream o.a) ∧ StoreHeld s1 u l.pa pl s1.me.ftag (bytes.take first) ∧
      StoreHeld u t l'.pa pl' s1.me.ftag (bytes.drop first)) ∧
  (∀ (o : OpStX) (s s1 s2 : State) (idx dat : Entry), s.guardOk o.gd → s.readable o.a →
    s.src o.b = .ok (idx, s1) → s1.src o.c = .ok (dat, s2) →
    let sel := (List.range 64).filter fun i => (s2.mask o.msk).getLsbD i
    (∀ i ∈ sel, let e := s.scalar o.a + BitVec.ofNat 64 (lane idx i * 2 ^ o.size.toNat)
      e.toNat % 2 ^ o.size.toNat = 0 ∧
      ∃ l pl, Storable s2 (.store o.size.toNat) e ((leBytes (2 ^ o.size.toNat) (lane dat i)).map some) l pl) →
    ∃ t, exec (.stX o) s = .next t ∧ Scattered o.size.toNat (s.scalar o.a) idx dat sel s2 t) ∧
  (∀ (o : OpStCt) (s s1 : State) (e : Entry), s.guardOk o.gd → s.src o.c = .ok (e, s1) → s1.here → s1.me.ctp < 143 →
    exec (.stCt o) s = .next (s1.setMe { s1.me with ct := mapSet 0 s1.me.ct s1.me.ctp e, ctp := s1.me.ctp + 1 })) ∧
  (∀ (o : OpStCt) (s s1 t u : State) (e : Entry), s.guardOk o.gd → s.src o.c = .ok (e, s1) → s1.here → s1.me.ctp = 143 →
    let s2 := s1.setMe { s1.me with ct := mapSet 0 s1.me.ct 143 e, ctp := 0 }
    (s2.me.stream o.a.toNat).mx.isSome → (s2.me.stream o.b.toNat).mx.isSome →
    s2.writeRows o.a o.rm (fun r c => ctElem s2.me.ct r c) (List.range 96) = .ok t →
    t.writeRows o.b o.rm (fun c r => ctElem s2.me.ct r c) (List.range 96) = .ok u → exec (.stCt o) s = .next u)

/-- 05 R146, 04 R110, R118, 08 R210, 01 R27: a store whose page faults parks: its bytes wait in the replay queue in order, the handler gets a
record, and the bundle goes on; one that finds 16 stores parked waits for room. When a bundle commits, a store to the own scratchpad changes
those bytes at once, a store that a release in progress holds stays held, any other is on its way to its home and not yet acknowledged, one to
device memory after the tile's earlier ones.
The model's choices in it are those of log entries 14 and 27. -/
def Obligations.StoresParkOrPerform : Prop :=
  (∀ (o : OpStS) (s : State) (i : TrapInfo), s.here → s.ref.isHc = false → s.guardOk o.gd → s.readable o.a → s.readable o.b → s.readable o.c →
    let e := s.scalar o.a + s.scalar o.b + o.off.signExtend 64
    let bytes := (leBytes (2 ^ o.size.toNat) (s.scalar o.c).toNat).map some
    e.toNat % 2 ^ o.size.toNat = 0 → s.toCore.translate (s.toCore.who s.ref) (.store o.size.toNat) e = .error (.trap i) →
    (i.kind = kPage ∨ i.kind = kPerm) → s.me.id.logit = false → s.me.late = [] →
    (∀ p ∈ s.me.replay, p.dead = false ∧ vpageOf p.va ≠ vpageOf e) →
    ∃ t p, exec (.stS o) s = .next t ∧ SameMemory s t ∧ t.bundle = s.bundle ∧ p.va = e ∧ p.mask = maskOf bytes ∧ p.data = imageOf bytes ∧
      p.order = s.me.order ∧ p.dead = false ∧ p.bofs = s.me.bofs ∧ p.rep = s.me.rep ∧
      (s.me.replay.length < 16 → t.me = { s.me with replay := s.me.replay ++ [p], order := s.me.order + 1 } ∧
        ∃ f, (t.toCore.tile s.ref.tile).faults = (s.toCore.tile s.ref.tile).faults ++ [f] ∧ f.parked = true ∧ f.serves = some s.me.id.taskid) ∧
      (16 ≤ s.me.replay.length → t = s.setMe { s.me with late := [p], order := s.me.order + 1 })) ∧
  (∀ (c : Core) (r : CtxRef) (m : StoreMsg) (tl off : Nat), c.holder r m = none → paRegion m.pa = .win tl off → c.poison = [] → m.tag = none →
    let d := c.commitStore r m
    d = { (c.setTile tl { c.tile tl with win := (d.tile tl).win }) with tags := d.tags } ∧
    (∀ k, mapGet 0 (d.tile tl).win k = match storedByte [m] (m.pa / Config.windowSize * Config.windowSize + k) with
      | some b => b
      | none => mapGet 0 (c.tile tl).win k) ∧
    ∀ x, x ∈ d.tags ↔ x ∈ c.tags ∧ ¬ (x.place = m.place ∧ m.pa / 8 ≤ x.word ∧ x.word ≤ (m.pa + m.bytes.length - 1) / 8)) ∧
  (∀ (c : Core) (r : CtxRef) (x : Ctx) (m : StoreMsg), c.holder r m = none → msgDirect m = false → c.ctx? r = some x →
    let d := c.commitStore r m
    d.mem = c.mem ∧ d.ctx r = { x with unacked := x.unacked ++ [m.id] } ∧
    (m.dev = false ∨ (c.tile m.tile).devOut = [] → d.msgs = c.msgs ++ [.storeAtHome m]) ∧
    (m.dev = true → (d.tile m.tile).devOut = (c.tile m.tile).devOut ++ [m] ∧ ((c.tile m.tile).devOut ≠ [] → d.msgs = c.msgs))) ∧
  (∀ (c : Core) (r : CtxRef) (x : Ctx) (m : StoreMsg) (i : Nat), c.holder r m = some i → c.ctx? r = some x →
    let d := c.commitStore r m
    d.mem = c.mem ∧ d.msgs = c.msgs ∧ d.ctx r = { x with unacked := x.unacked ++ [m.id] } ∧
    d.rels = c.rels.map fun y => if y.id = i then { y with sig := y.sig ++ [m] } else y)

/-- The new value of each atomic, by the old value, the operand and the expected value, of n bits (10 R271); the kind is what a message for a
home elsewhere says. -/
def atomics : List ((OpAtm → Instr) × AtmKind × (Nat → Nat → Nat → Nat)) :=
  [(.atmAdd, .add, fun n old x => (old + x) % 2 ^ n), (.atmAnd, .and, fun _ old x => old &&& x), (.atmOr, .or, fun _ old x => old ||| x),
   (.atmXchg, .xchg, fun _ _ x => x)]

/-- What the order of an atomic asks of the state (10 R271): a release finds everything done, an acquire meets no narrow release that has to be
published. -/
def orderMet (s : State) (l : Loc) (n : Nat) (o : Ord) : Prop :=
  (∀ q, (o = .rel q ∨ o = .ar q) → ReleaseReady s q) ∧
  (∀ q, (o = .acq q ∨ o = .ar q) → s.toCore.widen (s.toCore.domOf s.ref.tile) s.ref.tile .primary l.pa n = none)

/-- 10 R271, 04 R118, R124: the atomics read and write their bytes in one step; sd takes the old value, at once from the own scratchpad and else when it
lands; no other byte changes; an atomic for a home elsewhere leaves as a message and holds its context until its read has returned; an atomic
on a device page raises NOATOM; one that an own store is ahead of, or a release fence in progress, waits.
The model's choices in it are those of log entries 7, 23 and 46. -/
def Obligations.Atomics : Prop :=
  (∀ p ∈ atomics, ∀ (o : OpAtm) (s : State) (l : Loc), s.here → s.guardOk o.gd → s.readable o.a → s.readable o.b → s.readable o.c →
    let e := s.scalar o.a + s.scalar o.b + o.off.signExtend 64
    let n := if o.wide then 8 else 4
    e.toNat % n = 0 → s.toCore.translate (s.toCore.who s.ref) (.atomic (if o.wide then 3 else 2)) e = .ok l →
    AtomicReady s l n → orderMet s l n o.ord → s.toCore.aden (s.toCore.domOf s.ref.tile) = false →
    let old := leNat (s.toCore.homeBytes l.pa n)
    let new := p.2.2 (8 * n) old ((s.scalar o.c).toNat % 2 ^ (8 * n))
    (l.isScratch s.ref.tile = true → l.pa % Config.windowSize + n ≤ Config.windowSize →
      ∃ t, exec (p.1 o) s = .next t ∧ SameMemory s t ∧ (o.d ≠ 0 → t.me.r.getS o.d.toNat = BitVec.ofNat 64 old) ∧ BytesTake s t l.pa (leBytes n new)) ∧
    (l.isScratch s.ref.tile = false → s.toCore.atomicFar s.ref.tile l.pa = false → s.reps = [] → (∃ h, paRegion l.pa = .hbm h) → l.pa % n = 0 →
      ∃ t i, exec (p.1 o) s = .next t ∧ i ∈ t.me.unacked ∧
        (o.d ≠ 0 → ∃ j, ⟨j, .s o.d⟩ ∈ t.me.pend ∧ .registerWriteLand s.ref.tile j (BitVec.ofNat 64 old) ∈ t.msgs) ∧
        BytesTake s t l.pa (leBytes n new)) ∧
    (l.isScratch s.ref.tile = false → s.toCore.atomicFar s.ref.tile l.pa = true → isFar l.pa = false →
      s.toCore.granules (dieOf s.ref.tile) l.pa n = [] →
      ∃ t tag acq, exec (p.1 o) s = .next t ∧ SameMemory s t ∧ t.nid = s.nid + 1 ∧
        t.me = { s.me with unacked := s.me.unacked ++ [s.nid], far := some ⟨s.nid, l.pa, none⟩, pend := t.me.pend } ∧
        (o.d ≠ 0 → ⟨s.nid, .s o.d⟩ ∈ t.me.pend) ∧
        t.msgs = s.msgs ++ [.forwardedAtomic s.ref.tile s.nid l.pa p.2.1 o.wide false (s.scalar o.c) 0 tag acq])) ∧
  (∀ (o : OpAtmS) (s : State) (l : Loc) (mx : Bool), s.here → s.guardOk o.gd → s.readable o.a → s.readable o.b → s.readable o.c →
    let e := s.scalar o.a + s.scalar o.b + o.off.signExtend 64
    let n := if o.wide then 8 else 4
    e.toNat % n = 0 → s.toCore.translate (s.toCore.who s.ref) (.atomic (if o.wide then 3 else 2)) e = .ok l →
    AtomicReady s l n → orderMet s l n o.ord → s.toCore.aden (s.toCore.domOf s.ref.tile) = false → l.isScratch s.ref.tile = true →
    l.pa % Config.windowSize + n ≤ Config.windowSize →
    let old := leNat (s.toCore.homeBytes l.pa n)
    let x := (s.scalar o.c).toNat % 2 ^ (8 * n)
    let less := fun a b => if o.signed then decide (sextNat (8 * n) a < sextNat (8 * n) b) else decide (a < b)
    let new := if mx then (if less old x then x else old) else (if less x old then x else old)
    ∃ t, exec (if mx then .atmMax o else .atmMin o) s = .next t ∧ SameMemory s t ∧
      (o.d ≠ 0 → t.me.r.getS o.d.toNat = extend64 ⟨o.signed, if o.wide then 3 else 2⟩ old) ∧ BytesTake s t l.pa (leBytes n new)) ∧
  (∀ (o : OpAtm) (s : State) (l : Loc), s.here → s.guardOk o.gd → s.readable o.a → s.readable o.b → s.readable o.c →
    let e := s.scalar o.a + o.off.signExtend 64
    let n := if o.wide then 8 else 4
    e.toNat % n = 0 → s.toCore.translate (s.toCore.who s.ref) (.atomic (if o.wide then 3 else 2)) e = .ok l →
    AtomicReady s l n → orderMet s l n o.ord → s.toCore.aden (s.toCore.domOf s.ref.tile) = false → l.isScratch s.ref.tile = true →
    l.pa % Config.windowSize + n ≤ Config.windowSize →
    let old := leNat (s.toCore.homeBytes l.pa n)
    let new := if old = (s.scalar o.b).toNat % 2 ^ (8 * n) then (s.scalar o.c).toNat % 2 ^ (8 * n) else old
    ∃ t, exec (.atmCas o) s = .next t ∧ SameMemory s t ∧ (o.d ≠ 0 → t.me.r.getS o.d.toNat = BitVec.ofNat 64 old) ∧ BytesTake s t l.pa (leBytes n new)) ∧
  (∀ (o : OpAtm) (s : State) (l : Loc), s.guardOk o.gd → s.readable o.a → s.readable o.b → s.readable o.c →
    let e := s.scalar o.a + s.scalar o.b + o.off.signExtend 64
    let acc := Acc.atomic (if o.wide then 3 else 2)
    e.toNat % (if o.wide then 8 else 4) = 0 → s.toCore.translate (s.toCore.who s.ref) acc e = .ok l → (l.mt = 2 ∨ l.isIod = true) →
    exec (.atmAdd o) s = .next (s.trap (accTrap acc e l.pa cNoatom))) ∧
  (∀ (o : OpAtm) (s : State) (l : Loc), s.guardOk o.gd → s.readable o.a → s.readable o.b → s.readable o.c → o.ord = .plain →
    let e := s.scalar o.a + s.scalar o.b + o.off.signExtend 64
    let n := if o.wide then 8 else 4
    e.toNat % n = 0 → s.toCore.translate (s.toCore.who s.ref) (.atomic (if o.wide then 3 else 2)) e = .ok l → l.isDevice = false →
    (s.toCore.storesOver s.ref.tile l.pa n = true ∨ s.toCore.fenced s.ref = true) → exec (.atmAdd o) s = .next (s.wait .acks))

/-- 10 R272: `red.add` adds the selected units of its entry to memory at the current step of a RAW stream, each indivisibly and in ascending order, then
steps the stream; one whose mask selects no unit changes no memory; an MX stream raises the STREAM trap.
The model's choices in it are those of log entries 7 and 46. -/
def Obligations.MemoryReductions : Prop :=
  (∀ (o : OpRed) (s s1 : State) (e : Entry) (ls : List Loc), s.guardOk o.gd → s.src o.b = .ok (e, s1) →
    s1.old.pending (.stream o.a) = false → let x := s1.me.stream o.a.toNat
    x.mx = none →
    let us := redUnits o.t (s1.mask o.msk) e
    let acc := Acc.atomic (match o.t with | .i64 => 3 | _ => 2)
    ls.length = us.length →
    (∀ p ∈ ls.zip us, s1.toCore.translate (s1.toCore.who s1.ref) acc (x.addr + BitVec.ofNat 64 p.2.1) = .ok p.1 ∧ AtomicReady s1 p.1 p.2.2.1) →
    exec (.redAdd o) s = .next (((ls.zip us).foldl (fun s p => s.reduceUnit o.t p.1 p.2.2.1 p.2.2.2) s1).stepStream o.a)) ∧
  (∀ (o : OpRed) (s s1 : State) (e : Entry), s.guardOk o.gd → s.src o.b = .ok (e, s1) → s1.old.pending (.stream o.a) = false →
    (s1.me.stream o.a.toNat).mx = none → s1.mask o.msk = 0 → exec (.redAdd o) s = .next (s1.stepStream o.a)) ∧
  (∀ (s : State) (t : RedT) (l : Loc) (n x : Nat), s.here → n = 4 ∨ n = 8 → s.toCore.aden (s.toCore.domOf s.ref.tile) = false → s.poison = [] →
    let u := s.reduceUnit t l n x
    let new := redApply t (leNat (s.toCore.homeBytes l.pa n)) x
    (l.isScratch s.ref.tile = true → l.pa % Config.windowSize + n ≤ Config.windowSize →
      SameMemory s u ∧ u.me = s.me ∧ BytesTake s u l.pa (leBytes n new)) ∧
    (l.isScratch s.ref.tile = false → s.toCore.atomicFar s.ref.tile l.pa = false → s.reps = [] → (∃ h, paRegion l.pa = .hbm h) → l.pa % n = 0 →
      u.me = { s.me with unacked := s.me.unacked ++ [s.nid] } ∧ BytesTake s u l.pa (leBytes n new))) ∧
  (∀ (m : Word) (e : Entry), (redUnits .i64 m e).length = ((List.range 32).filter fun j => m.getLsbD (2 * j)).length ∧
    ∀ t, t ≠ .i64 → (redUnits t m e).length = ((List.range 64).filter fun i => m.getLsbD i).length) ∧
  (∀ (o : OpRed) (s s1 : State) (e : Entry), s.guardOk o.gd → s.src o.b = .ok (e, s1) → s1.old.pending (.stream o.a) = false →
    (s1.me.stream o.a.toNat).mx.isSome →
    exec (.redAdd o) s = .next (s.trap { mkTrap kIllegal cStream with addr := (s1.me.stream o.a.toNat).addr }))

/-- The tag that the context's writes carry after a release fence (04 R109, 05 R132). -/
def tagged (s : State) (q : Scope) : State :=
  s.setMe { s.me with ftag := if 4 ≤ scopeCode q then none else (match q with
    | .quad => some (s.toCore.domOf s.ref.tile, dieOf s.ref.tile, some (quadOf s.ref.tile))
    | .die => some (s.toCore.domOf s.ref.tile, dieOf s.ref.tile, none)
    | _ => s.me.ftag) }

/-- Every earlier read of the context has returned its value (10 R273). -/
structure ReadsReturned (x : Ctx) : Prop where
  registers : x.pend = []
  atomic : x.far = none
  entries : ∀ q ∈ x.q, ∀ e ∈ q.2, e.data.isSome = true
  reductions : ∀ v ∈ x.vs, ∀ d, v.2.wait = some d → d.data.isSome = true

/-- 04 R118, R119, 05 R130, R147, R148, 10 R273: a fence goes on at once where nothing of its context is outstanding throughout the scope; `fence.rel` up to .host goes
on behind a release in progress; a fence waits for parked stores, routines and reads; dead stores raise their trap; the writes after a narrow
release fence carry its tag, and after any other none.
The model's choices in it are those of log entry 23. -/
def Obligations.Fences : Prop :=
  (∀ (o : OpScope) (s : State), s.guardOk o.gd → ReleaseReady s o.scope → exec (.fenceRel o) s = .next (tagged s o.scope)) ∧
  (∀ (o : OpScope) (s : State), s.guardOk o.gd → s.old.replay = [] → s.old.late = [] → s.old.rout = none → s.old.macs = [] → s.old.fo = none →
    s.releasedNow o.scope = false →
    (scopeCode o.scope < 7 → s.here →
      ∃ t, exec (.fenceRel o) s = .next t ∧ SameMemory s t ∧ t.me = (tagged s o.scope).me ∧ t.nid = s.nid + 1 ∧
        t = { tagged s o.scope with nid := t.nid, rels := t.rels } ∧
        t.rels = s.rels ++ [⟨s.nid, .fence, s.ref, s.me.id.taskid, o.scope, s.me.unacked, [], [], none⟩]) ∧
    (7 ≤ scopeCode o.scope → (∀ x ∈ s.rels, ¬ (x.kind = .wait ∧ x.r = s.ref)) →
      exec (.fenceRel o) s = .next (s.wait (.wide o.scope)) ∧ exec (.fenceRw o) s = .next (s.wait (.wide o.scope)))) ∧
  (∀ (o : OpScope) (s : State), s.guardOk o.gd → s.old.replay = [] → s.old.late = [] → ReadsReturned s.old →
    (scopeCode o.scope < 4 ∨ s.toCore.tagDie s.ref.tile = none) → exec (.fenceAcq o) s = .next s) ∧
  (∀ (o : OpScope) (s : State) (die : Nat), s.guardOk o.gd → s.old.replay = [] → s.old.late = [] → ReadsReturned s.old →
    4 ≤ scopeCode o.scope → s.toCore.tagDie s.ref.tile = some die → exec (.fenceAcq o) s = .next (s.wait (.publish die))) ∧
  (∀ (o : OpScope) (s : State), s.guardOk o.gd → ReleaseReady s o.scope → ReadsReturned s.old →
    (scopeCode o.scope < 4 ∨ s.toCore.tagDie s.ref.tile = none) → exec (.fenceRw o) s = .next (tagged s o.scope)) ∧
  (∀ (o : OpScope) (s : State), s.guardOk o.gd → (s.old.replay ≠ [] ∨ s.old.late ≠ []) → (∀ p ∈ s.old.replay, p.dead = false) →
    exec (.fenceRel o) s = .next (s.wait .replay) ∧ exec (.fenceAcq o) s = .next (s.wait .replay) ∧
    exec (.fenceRw o) s = .next (s.wait .replay)) ∧
  (∀ (o : OpScope) (s : State) (p : Parked), s.guardOk o.gd → s.old.replay.find? (fun p => p.dead) = some p →
    let t := s.trap { p.info with flags := 0, slot := 0xF }
    exec (.fenceRel o) s = .next t ∧ exec (.fenceAcq o) s = .next t ∧ exec (.fenceRw o) s = .next t)

/-! Barriers, launches, weights, versions, the Creel and the KV pool (05 R134 to R141, 06, 07 R176 to R194, 14 R362, R363, R366, R367). -/

/-- A barrier operation reaches its object: aligned, in a scratchpad or in a normal page of HBM, its release met, its place free (05 R134 to
R136). -/
def barFree (s : State) (va : Word) (l : Loc) (q : Scope) : Prop :=
  va.toNat % 16 = 0 ∧ s.toCore.translate (s.toCore.who s.ref) (.atomic 4) va = .ok l ∧ barPlace l = true ∧ ReleaseReady s q ∧ PlaceFree s l.pa 16

/-- 05 R134 to R137, R139, 14 R362, R363: the updates of a barrier object are one atomic of 16 bytes at its home after a release at the scope: `bar.init` starts
it, `bar.arr` counts arrivals, `bar.ard` drops them too, `bar.exp` adds bytes; a misuse traps and changes nothing; `bar.wt` waits for the phase.
The model's choices in it are those of log entries 15, 16 and 46. -/
def Obligations.BarrierOperations : Prop :=
  (∀ (o : OpBarInit) (s : State) (l : Loc), s.here → s.guardOk o.gd → s.readable o.a → s.readable o.b → s.readable o.c → barFree s (s.scalar o.a) l o.scope →
    let n := (s.scalar o.c).toNat
    (0 < n → n ≤ 65535 → ∃ t, exec (.barInit o) s = .next t ∧ t.me.r = s.me.r ∧ t.doms = s.doms ∧
      BytesTake s t l.pa (leBytes 16 (Bar.start (s.scalar o.b).toNat n).image)) ∧
    ((n = 0 ∨ 65535 < n) → exec (.barInit o) s = .next (s.trap (barTrap 1 (s.scalar o.a) (leNat (s.toCore.homeBytes l.pa 16)))))) ∧
  (∀ p ∈ ([(.barArr, fun n x => x.update n 0 0 0), (.barArd, fun n x => x.update n n 0 0)] : List ((OpBarUpd → Instr) × (Nat → Bar → Option Bar))),
    ∀ (o : OpBarUpd) (s : State) (l : Loc), s.here → s.guardOk o.gd → s.readable o.a → s.readable o.b → barFree s (s.scalar o.a) l o.scope →
    let n := (s.scalar o.b).toNat
    (∀ y, 0 < n → n ≤ 65535 → p.2 n (s.toCore.barAt l.pa) = some y → ∃ t, exec (p.1 o) s = .next t ∧ t.me.r = s.me.r ∧ t.doms = s.doms ∧
      BytesTake s t l.pa (leBytes 16 y.image)) ∧
    ((n = 0 ∨ 65535 < n ∨ p.2 n (s.toCore.barAt l.pa) = none) →
      exec (p.1 o) s = .next (s.trap (barTrap 1 (s.scalar o.a) (leNat (s.toCore.homeBytes l.pa 16)))))) ∧
  (∀ (o : OpBarUpd) (s : State) (l : Loc), s.here → s.guardOk o.gd → s.readable o.a → s.readable o.b → barFree s (s.scalar o.a) l o.scope →
    let n := (s.scalar o.b).toInt
    (∀ y, -2147483648 ≤ n → n ≤ 2147483647 → (s.toCore.barAt l.pa).update 0 0 n 0 = some y → ∃ t, exec (.barExp o) s = .next t ∧
      t.me.r = s.me.r ∧ t.doms = s.doms ∧ BytesTake s t l.pa (leBytes 16 y.image)) ∧
    ((n < -2147483648 ∨ 2147483647 < n ∨ (s.toCore.barAt l.pa).update 0 0 n 0 = none) →
      exec (.barExp o) s = .next (s.trap (barTrap 1 (s.scalar o.a) (leNat (s.toCore.homeBytes l.pa 16)))))) ∧
  (∀ (x : Bar) (n d : Nat) (b c : Int), x.ini = true → x.ret = false → x.pending ≤ x.expected → x.expected ≠ 0 →
    (n ≤ x.pending → x.drops + d ≤ x.expected → -2147483648 ≤ x.bytes + b - c → x.bytes + b - c ≤ 2147483647 →
      (¬ (x.pending = n ∧ x.bytes + b - c = 0) →
        x.update n d b c = some { x with pending := x.pending - n, drops := x.drops + d, bytes := x.bytes + b - c }) ∧
      (x.pending = n → x.bytes + b - c = 0 → let e := x.expected - (x.drops + d)
        x.update n d b c = some { x with phase := (x.phase + 1) % 65536, expected := e, drops := 0, pending := e, bytes := 0, ret := decide (e = 0) })) ∧
    ((x.pending < n ∨ x.expected < x.drops + d) → x.update n d b c = none)) ∧
  (∀ x : Bar, x.phase < 65536 → x.expected < 65536 → x.pending < 65536 → x.drops < 65536 → -2147483648 ≤ x.bytes → x.bytes ≤ 2147483647 →
    Bar.read (leNat (leBytes 16 x.image)) = x) ∧
  (∀ (o : OpBarWt) (s : State) (l : Loc), s.guardOk o.gd → s.readable o.a → s.readable o.b → (s.scalar o.a).toNat % 16 = 0 →
    s.toCore.translate (s.toCore.who s.ref) (.load 4) (s.scalar o.a) = .ok l → barPlace l = true → (∀ u f, paRegion l.pa = .win u f → u = s.ref.tile) →
    s.older.lineBusy s.ref.tile (s.toCore.l1Place s.ref.tile (l.pa / 128)) l 16 true = false →
    s.older.forwarding (dieOf s.ref.tile) (l.pa / 65536) = false → s.poison = [] →
    s.toCore.widen (s.toCore.domOf s.ref.tile) s.ref.tile .primary l.pa 16 = none →
    let obj := leNat (s.toCore.readLoc s.ref.tile .primary l 16 true)
    let x := Bar.read obj
    let target := (s.scalar o.b).extractLsb' 0 16
    (x.err = true → exec (.barWt o) s = .next (s.trap (barTrap 2 (s.scalar o.a) obj))) ∧
    (x.err = false → x.lost = true → exec (.barWt o) s = .next (s.trap (lostTrap s.toCore (s.toCore.domOf s.ref.tile)))) ∧
    (x.err = false → x.lost = false → 0 ≤ sext16 (BitVec.ofNat 16 x.phase - target).toNat →
      exec (.barWt o) s = .next (s.wrS o.d (BitVec.ofNat 64 x.phase))) ∧
    (x.err = false → x.lost = false → sext16 (BitVec.ofNat 16 x.phase - target).toNat < 0 →
      (x.ret = true → exec (.barWt o) s = .next (s.trap (barTrap 3 (s.scalar o.a) obj))) ∧
      (x.ret = false → exec (.barWt o) s = .next (s.wait (.bar l.pa target))))) ∧
  (∀ (s : State) (pa : Nat) (ops : List BarOp), s.event = some (.barrierUpdateAtHome pa ops) →
    (s.toCore.recallBusy pa = true ∨ (s.toCore.page (pa / 65536)).mode = .draining →
      exec .barrierUpdateAtHome s = .next { s with toCore := s.toCore.send (.barrierUpdateAtHome pa ops) }) ∧
    (s.toCore.recallBusy pa = false → (s.toCore.page (pa / 65536)).mode ≠ .draining → OrdinaryPlace pa 16 →
      ∃ t, exec .barrierUpdateAtHome s = .next t ∧ t.doms = s.doms ∧ BytesTake s t pa (leBytes 16 ((s.toCore.barAt pa).cycle ops).image))) ∧
  (∀ (x y : Bar) (tl : Nat) (n d : Nat) (b c : Int), x.update n d b c = some y → x.cycle [.upd tl true n d b c] = y) ∧
  (∀ (x : Bar) (tl : Nat) (n d : Nat) (b c : Int), x.update n d b c = none → x.cycle [.upd tl true n d b c] = { x with err := true } ∧
    x.cycle [.upd tl false n d b c] = x) ∧
  (∀ (s : State) (r : CtxRef) (pa : Nat) (target : BitVec 16) (x : Ctx), s.event = some (.barrierWaitSatisfied r) → s.toCore.ctx? r = some x →
    x.status = .waiting (.bar pa target) → ((s.toCore.barAt pa).waitEnd target ≠ .waits →
      ∃ t cyc, exec .barrierWaitSatisfied s = .next t ∧ SameMemory s t ∧
        t.toCore.ctx? r = some { x with status := .ready, r := { x.r with cyc := cyc } }) ∧
    ((s.toCore.barAt pa).waitEnd target = .waits → exec .barrierWaitSatisfied s = .next s))

/-- The statuses of a launch by the words of its record and its descriptor, as they stand in the machine that has read them (16 R388). -/
def launchCodes (s : State) (rc desc : List Word) : List (Bool × Nat) :=
  let w1 := rc.getD 1 0
  let side := wbits w1 3 1 == 1
  let d := s.toCore.domOf s.ref.tile
  [(wbits w1 10 38 != 0 || rc.getD 7 0 != 0, 2), (decide (32 ≤ (mapGet [] (s.toCore.dom d).lqs (lqKey side (wbits w1 4 4))).length), 9)] ++
    s.toCore.descCodes d side desc (s.toCore.namedDies d side desc)

/-- 07 R176 to R183, R193, R194, 14 R366, 16 R388: `lnch` and `spawn` are accepted, or answer the least status that applies; an accepted launch has the next
serial and stands at the end of its queue, its root starts at the tasks' weights; a spawn gives the child half of the weight; `wt.ret` and
`wt.brw` move weight between the task and its root.
The model's choices in it are those of log entries 7 and 27. -/
def Obligations.LaunchesAndWeights : Prop :=
  (∀ (o : OpLnch) (s : State) (l l' : Loc) (pl pl' : Place), s.guardOk o.gd → s.readable o.a → ReleaseReady s .mod → (s.scalar o.a).toNat % 64 = 0 →
    LoadReady s (.load 3) (s.scalar o.a) 64 true l pl →
    let rc := wordsIn (s.loadValue (s.scalar o.a) 64 true l pl) 8
    let s1 := s.afterLoad 64 false true l pl
    let va := rc.getD 0 0
    va.toNat % 256 = 0 → LoadReady s1 (.load 3) va 256 true l' pl' →
    let desc := wordsIn (s1.loadValue va 256 true l' pl') 32
    let s2 := s1.afterLoad 256 false true l' pl'
    let d := s.toCore.domOf s.ref.tile
    let dies := s2.toCore.sideDies d (wbits (rc.getD 1 0) 3 1 == 1)
    let codes := launchCodes s2 rc desc
    let root := rc.getD 6 0
    let refused := fun n => exec (.lnch o) s = .next ((s2.wrG o.gp false).wrS o.d (BitVec.ofNat 64 n))
    (∀ n, root = 0 → leastOf codes = some n → refused n) ∧
    (root = 0 → leastOf codes = none → exec (.lnch o) s =
      .next ((({ s2 with toCore := s2.toCore.updDom d fun dm => dm.accept rc desc dies s2.sclk }).wrG o.gp true).wrS o.d 0)) ∧
    (∀ i, root ≠ 0 → s2.toCore.translateAligned (s2.toCore.who s2.ref) (.atomic 3) root 8 = .error (.trap i) → refused 1) ∧
    (∀ x, root.toNat % 8 = 0 → root ≠ 0 → s2.toCore.translate (s2.toCore.who s2.ref) (.atomic 3) root = .ok x →
      (x.isDevice = true → refused 1) ∧ (∀ n, x.isDevice = false → leastOf codes = some n → refused n) ∧
      (x.isDevice = false → leastOf codes = none → s2.here → PlaceFree s2 x.pa 8 →
        ∃ t, exec (.lnch o) s = .next t ∧ BytesTake s2 t x.pa (leBytes 8 (taskCount desc * 2 ^ 24)) ∧
          t.toCore.dom d = (s2.toCore.dom d).accept rc desc dies s2.sclk ∧ (o.d ≠ 0 → t.me.r.getS o.d.toNat = 0) ∧
          (o.gp ≠ 0 → t.me.r.getG (2 * o.gp.toNat) = true)))) ∧
  (∀ (o : OpLnch) (s : State), s.guardOk o.gd → s.readable o.a → ReleaseReady s .mod →
    ((s.scalar o.a).toNat % 64 ≠ 0 ∨ ∃ i, s.toCore.translate (s.toCore.who s.ref) (.load 3) (s.scalar o.a) = .error (.trap i)) →
    exec (.lnch o) s = .next ((s.wrG o.gp false).wrS o.d 1)) ∧
  (∀ (o : OpLnch) (s : State), s.guardOk o.gd → s.readable o.a → s.old.replay = [] → s.old.late = [] → s.old.rout = none → s.old.macs = [] →
    s.old.fo = none → (∀ x ∈ s.rels, ¬ (x.kind = .wait ∧ x.r = s.ref)) → s.releasedNow .mod = false →
    exec (.lnch o) s = .next (s.wait (.wide .mod))) ∧
  (∀ (d : Domain) (rc desc : List Word) (dies : List Nat) (now : Nat), let w1 := rc.getD 1 0
    let e := d.accept rc desc dies now
    let key := lqKey (wbits w1 3 1 == 1) (wbits w1 4 4)
    e.serial = d.serial + 1 ∧ mapGet [] e.lqs key = mapGet [] d.lqs key ++ [d.serial.toNat] ∧
    (∀ k, k ≠ key → mapGet [] e.lqs k = mapGet [] d.lqs k) ∧ (∀ k, k ≠ d.serial.toNat → mapGet none e.launches k = mapGet none d.launches k) ∧
    ∃ l, mapGet none e.launches d.serial.toNat = some l ∧ l.n = taskCount desc ∧ l.next = 0 ∧ l.live = l.n ∧ l.ready = (wbits w1 8 1 != 1) ∧
      l.root = BitVec.ofNat 64 (l.n * 2 ^ 24) ∧ l.ident.desc = desc ∧ l.ident.taskid = BitVec.ofNat 64 (d.serial.toNat * 2 ^ 40)) ∧
  (∀ (o : OpSpawn) (s : State) (l0 : Loc) (pl : Place), s.guardOk o.gd → s.readable o.a → s.readable o.b → s.readable o.c → ReleaseReady s .mod →
    (s.scalar o.a).toNat % 256 = 0 → LoadReady s (.load 3) (s.scalar o.a) 256 true l0 pl → s.here →
    let desc := wordsIn (s.loadValue (s.scalar o.a) 256 true l0 pl) 32
    let s1 := s.afterLoad 256 false true l0 pl
    let d := s.toCore.domOf s.ref.tile
    let dm := s1.toCore.dom d
    let side := s.me.id.side
    let list := if side then dm.spawnsL else dm.spawnsA
    let ser := serialOf s.me.id.taskid
    let codes := (false, 1) :: (decide (s.me.r.twgt.toNat < 2), 12) :: (!(spatial desc).isEmpty, 11) :: (decide (4096 ≤ list.length), 9) ::
      s1.toCore.descCodes d side desc (s1.toCore.namedDies d side desc)
    (∀ n, leastOf codes = some n → exec (.spawn o) s = .next ((s1.wrG o.gp false).wrS o.d (BitVec.ofNat 64 n))) ∧
    (∀ l, leastOf codes = none → mapGet none dm.launches ser = some l → ∃ t, exec (.spawn o) s = .next t ∧ SameMemory s1 t ∧
      let half := s.me.r.twgt / 2
      let e := t.toCore.dom d
      t.me.r.twgt = s.me.r.twgt - half ∧ (o.d ≠ 0 → t.me.r.getS o.d.toNat = BitVec.ofNat 64 ((l.n + l.spawns) % 2 ^ 31)) ∧
      (o.gp ≠ 0 → t.me.r.getG (2 * o.gp.toNat) = true) ∧
      (if side then e.spawnsL else e.spawnsA) = list ++ [⟨childIdent s.me.id l s1.old.r.seedk (s.scalar o.a) (s.scalar o.b) (s.scalar o.c) desc, half, s1.sclk⟩] ∧
      mapGet none e.launches ser = some { l with spawns := l.spawns + 1, live := l.live + 1 })) ∧
  (∀ (o : OpSpawn) (s : State), s.guardOk o.gd → s.readable o.a → s.readable o.b → s.readable o.c → ReleaseReady s .mod →
    ((s.scalar o.a).toNat % 256 ≠ 0 ∨ ∃ i, s.toCore.translate (s.toCore.who s.ref) (.load 3) (s.scalar o.a) = .error (.trap i)) →
    exec (.spawn o) s = .next ((s.wrG o.gp false).wrS o.d 1)) ∧
  (∀ (o : OpWt) (s : State), s.guardOk o.gd → s.readable o.a → let n := (s.scalar o.a).toNat
    ((n = 0 ∨ s.me.r.twgt.toNat < n) → exec (.wtRet o) s = .next (s.trap s.weightTrap)) ∧
    ((n = 0 ∨ 2 ^ 24 < n ∨ 2 ^ 48 ≤ s.me.r.twgt.toNat + n) → exec (.wtBrw o) s = .next (s.trap s.weightTrap))) ∧
  (∀ (o : OpWt) (s : State) (l : Launch), s.here → s.guardOk o.gd → s.readable o.a → s.me.id.rootVA = 0 →
    let n := (s.scalar o.a).toNat
    let d := s.toCore.domOf s.ref.tile
    let ser := serialOf s.me.id.taskid
    mapGet none (s.toCore.dom d).launches ser = some l → n ≠ 0 →
    (n ≤ s.me.r.twgt.toNat → ReleaseReady s .mod → l.ident.cpen = false → ∃ t, exec (.wtRet o) s = .next t ∧ SameMemory s t ∧ t.msgs = s.msgs ∧
      t.me = { s.me with r := { s.me.r with twgt := BitVec.ofNat 48 (s.me.r.twgt.toNat - n) } } ∧
      mapGet none (t.toCore.dom d).launches ser = some { l with root := l.root - BitVec.ofNat 64 n }) ∧
    (n ≤ 2 ^ 24 → s.me.r.twgt.toNat + n < 2 ^ 48 → ∃ t, exec (.wtBrw o) s = .next t ∧ SameMemory s t ∧ t.msgs = s.msgs ∧
      t.me = { s.me with r := { s.me.r with twgt := BitVec.ofNat 48 (s.me.r.twgt.toNat + n) } } ∧
      mapGet none (t.toCore.dom d).launches ser = some { l with root := l.root + BitVec.ofNat 64 n })) ∧
  (∀ (o : OpWt) (s : State) (l : Launch) (x : Loc), s.here → s.guardOk o.gd → s.readable o.a → s.me.id.rootVA ≠ 0 →
    let n := (s.scalar o.a).toNat
    let d := s.toCore.domOf s.ref.tile
    mapGet none (s.toCore.dom d).launches (serialOf s.me.id.taskid) = some l → n ≠ 0 →
    s.toCore.translateNow { deviceWho d with tile := s.ref.tile } (.atomic 3) s.me.id.rootVA = .ok x → OrdinaryPlace x.pa 8 →
    s.toCore.rootBusy d s.ref.tile s.me.id.rootVA = false → s.toCore.aden d = false →
    let root := leWord (s.toCore.homeBytes x.pa 8)
    (n ≤ s.me.r.twgt.toNat → ReleaseReady s .mod → ∃ t, exec (.wtRet o) s = .next t ∧
      t.me.r = { s.me.r with twgt := BitVec.ofNat 48 (s.me.r.twgt.toNat - n) } ∧ BytesTake s t x.pa (leBytes 8 (root - BitVec.ofNat 64 n).toNat)) ∧
    (n ≤ 2 ^ 24 → s.me.r.twgt.toNat + n < 2 ^ 48 → ∃ t, exec (.wtBrw o) s = .next t ∧
      t.me.r = { s.me.r with twgt := BitVec.ofNat 48 (s.me.r.twgt.toNat + n) } ∧ BytesTake s t x.pa (leBytes 8 (root + BitVec.ofNat 64 n).toNat))) ∧
  (∀ (c : Core) (d tile : Nat) (id : Word) (l : Launch) (n : Nat), mapGet none (c.dom d).launches (serialOf id) = some l → l.ident.cpen = true →
    l.root = BitVec.ofNat 64 n → 0 < n → n < 2 ^ 63 →
    c.rootAdd d tile id 0 (-(n : Int)) =
      (c.updDom d fun dm => { dm with launches := mapSet none dm.launches (serialOf id) (some { l with root := 0 }) }).barSend (deviceWho d)
        l.ident.cbar (.upd Config.tiles true 1 0 0 0))

/-- 06 R154 to R158, R161, 14 R367, 18 R430: `ver.pub.clm` claims the first free copy, else the first reclaimable one; `ver.pub` and
`ver.pub.fin` publish a claimed copy after a release and set CUR, the latter LVER too, once every module of a wider scope has acknowledged
its copy; `ver.adp` adopts LVER at once in mode 0 and else arms the boundary; a misuse raises the version trap.
The model's choices in it are those of log entries 16, 28 and 49. -/
def Obligations.WeightVersions : Prop :=
  (∀ (o : OpLnch) (s : State), s.here → s.guardOk o.gd → s.readable o.a →
    let d := s.toCore.domOf s.ref.tile
    let r := wbits (s.scalar o.a) 0 8
    let rg := (s.toCore.dom d).region r
    (rg.en = false → exec (.verPubClm o) s = .next (s.trap (versionTrap r 1 0))) ∧
    (rg.en = true → (s.toCore.dom d).claimable rg = none →
      exec (.verPubClm o) s = .next ((s.wrG o.gp false).wrS o.d (BitVec.allOnes 64))) ∧
    (∀ c, rg.en = true → (s.toCore.dom d).claimable rg = some c → ∃ t, exec (.verPubClm o) s = .next t ∧ SameMemory s t ∧
      (o.d ≠ 0 → t.me.r.getS o.d.toNat = BitVec.ofNat 64 c) ∧ (o.gp ≠ 0 → t.me.r.getG (2 * o.gp.toNat) = true) ∧
      let rt := (t.toCore.dom d).region r
      mapGet Copy.init rt.copies c = { mapGet Copy.init rg.copies c with state := 1 } ∧
      (∀ k, k ≠ c → mapGet Copy.init rt.copies k = mapGet Copy.init rg.copies k) ∧ rt.cur = rg.cur ∧ (t.toCore.dom d).lver = (s.toCore.dom d).lver)) ∧
  (∀ (d : Domain) (rg : Region) (c : Nat), d.claimable rg = some c → c < 4 ∧ (mapGet Copy.init rg.copies c).pres = true ∧
    ((mapGet Copy.init rg.copies c).state = 0 ∨ ((mapGet Copy.init rg.copies c).state = 2 ∧ d.readers rg c = 0 ∧ selCopy rg d.lver ≠ some c ∧
      ∀ k, k < 4 → (mapGet Copy.init rg.copies k).pres = true → (mapGet Copy.init rg.copies k).state ≠ 0)) ∧
    ∀ k, k < c → ¬ ((mapGet Copy.init rg.copies k).pres = true ∧ (mapGet Copy.init rg.copies k).state = 0)) ∧
  (∀ (i : Bool) (o : OpVerPub) (s : State), s.guardOk o.gd → s.readable o.a → s.readable o.b → s.readable o.c →
    let d := s.toCore.domOf s.ref.tile
    let r := wbits (s.scalar o.a) 0 8
    let c := wbits (s.scalar o.b) 0 2
    let v := (s.scalar o.c).extractLsb' 0 16
    let instr := if i then Instr.verPubFin o else .verPub o
    let rg := (s.toCore.dom d).region r
    (rg.en = false → exec instr s = .next (s.trap (versionTrap r 1 0))) ∧
    (rg.en = true → (mapGet Copy.init rg.copies c).state ≠ 1 → exec instr s = .next (s.trap (versionTrap r 2 0))) ∧
    (rg.en = true → (mapGet Copy.init rg.copies c).state = 1 →
      (sext16 (v - rg.cur).toNat ≤ 0 ∨ (i = true ∧ sext16 (v - (s.toCore.dom d).lver).toNat ≤ 0)) →
      exec instr s = .next (s.trap (versionTrap r 3 0))) ∧
    (rg.en = true → (mapGet Copy.init rg.copies c).state = 1 → 0 < sext16 (v - rg.cur).toNat →
      (i = true → 0 < sext16 (v - (s.toCore.dom d).lver).toNat) → let q := relScope o.scope
      ((scopeCode q < 7 ∨ s.me.cast ≠ none) → ReleaseReady s q → s.here → ∃ t, exec instr s = .next t ∧ SameMemory s t ∧
        t.me = { s.me with cast := if scopeCode q < 7 then s.me.cast else none } ∧ (∀ k, k ≠ s.ref.tile → t.toCore.tile k = s.toCore.tile k) ∧
        let rt := (t.toCore.dom d).region r
        mapGet Copy.init rt.copies c = { mapGet Copy.init rg.copies c with state := 2, ver := v } ∧ rt.cur = v ∧
        (∀ k, k ≠ c → mapGet Copy.init rt.copies k = mapGet Copy.init rg.copies k) ∧
        (t.toCore.dom d).lver = if i then v else (s.toCore.dom d).lver) ∧
      (7 ≤ scopeCode q → s.me.cast = none → ReleaseReady s .mod → exec instr s = .next (s.wait (.cast r c v i q))))) ∧
  (∀ (s : State) (region copy : Nat) (v : BitVec 16) (fin : Bool) (q : Scope), s.here →
    let c := s.toCore.broadcast s.ref region copy v fin q
    let me := s.mc.modnum.toNat
    ∃ ms, (c.ctx s.ref).cast = some (s.nid, ms) ∧ c.mem = s.mem ∧ c.out.length = s.out.length + ms.length ∧
      (∀ m, m ∈ ms ↔ m < 2 ^ 20 ∧ m ≠ me ∧ Config.module m = true ∧ groupReaches (scopeCode q) m me = true) ∧
      ∀ m ∈ ms, ∃ data, (BitVec.ofNat 20 m, VcMsg.weights me (s.toCore.domOf s.ref.tile) region v fin s.nid data) ∈ c.out) ∧
  (∀ (o : OpScope) (s : State), s.here → s.guardOk o.gd →
    let d := s.toCore.domOf s.ref.tile
    (s.me.r.polMode = 0 → ∃ t, exec (.verAdp o) s = .next t ∧ SameMemory s t ∧ let v := (s.toCore.dom d).lver
      let r := { s.me.r with tver := v, polPend := false }
      t.me = { s.me with r := r, creel := { s.me.creel with adopted := s.me.creel.adopted || decide (s.me.r.tver ≠ v) } } ∧
      (s.me.r.tver = v → t.doms = s.doms) ∧ (t.toCore.dom d).lver = v) ∧
    (s.me.r.polMode ≠ 0 → let r := { s.me.r with polPend := true }
      exec (.verAdp o) s = .next (s.setMe { s.me with r := r, creel := { s.me.creel with armed := o.scope } })))

/-- The header of a sequence table (06 R170): word 0 with CAP, NPG and LEN. -/
def tableWord (cap npg len : Nat) : List Byte := leBytes 8 (cap % 65536 * 2 ^ 48 + npg % 65536 * 2 ^ 32 + len % 2 ^ 32)

/-- A sequence table that an operation of the KV pool can reach now (06 R170): its header, in two words at `l0` and `l1`, holds CAP, NPG, LEN
and TPP, a power of two. -/
structure TableAt (s : State) (va : Word) (l0 l1 : Loc) (cap npg len tpp : Nat) : Prop where
  here : s.here = true
  bundle : s.saved.isSome = true
  untagged : s.me.ftag = none
  aligned : va.toNat % 64 = 0
  first : TableReady s va 8 l0
  second : TableReady s (va + 8) 8 l1
  header : leWord (s.toCore.homeBytes l0.pa 8) = BitVec.ofNat 64 (cap * 2 ^ 48 + npg * 2 ^ 32 + len)
  fields : cap < 2 ^ 16 ∧ npg < 2 ^ 16 ∧ len < 2 ^ 32
  tokens : wbits (leWord (s.toCore.homeBytes l1.pa 8)) 0 16 = tpp
  power : ∃ k, k < 16 ∧ tpp = 2 ^ k

/-- 06 R162 to R172, 14 R367: the Creel: `crl.put` stores the record of its token and counts WIDX and POS up, or leaves a full ring as it is; `crl.seal`
publishes WIDX after a release and begins the next sequence; `crl.put.rej` marks the rejected records; a ring that is off traps. The KV pool: a page
taken is one that no table holds; an allocation, a map, a truncation answer as the table says, and change nothing but the table and the pool.
The model's choices in it are those of log entries 24 and 28. -/
def Obligations.CreelAndPages : Prop :=
  (∀ (o : OpCrlPut) (s s1 : State) (bs : List Byte) (now : Bool), s.guardOk o.gd → s.readable o.a → s.readable o.b → s.readable o.c →
    s.me.ringOn = true → s.here → Loaded s (.load 3) (s.me.ringVA 8) 8 false true bs now s1 → AcquireFree s1 (s.me.ringVA 8) 8 →
    let ahead := (s.me.r.crwi.toNat + 2 ^ 32 - wbits (leWord bs) 0 32) % 2 ^ 32
    (2 ^ s.me.r.crlog.toNat ≤ ahead → exec (.crlPut o) s = .next (s1.wrG o.gp false)) ∧
    (∀ l pl, ahead < 2 ^ s.me.r.crlog.toNat →
      let flags := (if s.me.r.crpos = 0 then 1 else 0) + (if o.eos then 2 else 0) + (if o.draft then 4 else 0) + (if s.me.creel.adopted then 32 else 0)
      let rc := creelRecord s1.ftick (s1.toCore.domOf s1.ref.tile % 4 * 512 + s1.ref.tile) flags (wbits (s.scalar o.c) 0 32) s.me.r.crseq.toNat
        s.me.r.crpos.toNat s1.old.r.tver.toNat (wbits (s.scalar o.b) 0 32) (wbits (s.scalar o.a) 0 32)
      Storable s1 (.store 3) (s.me.recordVA s.me.r.crwi.toNat) (rc.map some) l pl →
      ∃ s2, StoreHeld s1 s2 l.pa pl s.me.ftag (rc.map some) ∧
        let r := { s.me.r with crwi := s.me.r.crwi + 1, crpos := s.me.r.crpos + 1 }
        exec (.crlPut o) s = .next (((s2.setMe { s.me with r := r, creel := { s.me.creel with adopted := false } }).boundary 2).wrG o.gp true))) ∧
  (∀ (f : Word) (tl fl v sq ps ve lp tk : Nat), tl < 2 ^ 16 → fl < 2 ^ 16 → v < 2 ^ 32 → sq < 2 ^ 32 → ps < 2 ^ 16 → ve < 2 ^ 16 → lp < 2 ^ 32 → tk < 2 ^ 32 →
    let bs := creelRecord f tl fl v sq ps ve lp tk
    bs.length = 32 ∧ leNat (bs.take 4) = tk ∧ leNat ((bs.drop 4).take 4) = lp ∧ leNat ((bs.drop 8).take 2) = ve ∧ leNat ((bs.drop 10).take 2) = ps ∧
      leNat ((bs.drop 12).take 4) = sq ∧ leNat ((bs.drop 16).take 4) = v ∧ leNat ((bs.drop 20).take 2) = fl ∧ leNat ((bs.drop 22).take 2) = tl ∧
      leNat (bs.drop 24) = f.toNat) ∧
  (∀ (g : Guard) (s : State) (l : Loc) (pl : Place), s.guardOk g → s.here → s.me.ringOn = true → ReleaseReady s .mod →
    let bytes := (leBytes 8 s.me.r.crwi.toNat).map some
    Storable s (.store 3) (s.me.ringVA 0) bytes l pl →
    ∃ s1, StoreHeld s s1 l.pa pl s.me.ftag bytes ∧
      exec (.crlSeal g) s = .next ((s1.setMe { s.me with r := { s.me.r with crseq := s.me.r.crseq + 1, crpos := 0 } }).boundary 1)) ∧
  (∀ (g : Guard) (s : State), s.guardOk g → s.me.ringOn = true → (s.old.replay ≠ [] ∨ s.old.late ≠ []) → (∀ p ∈ s.old.replay, p.dead = false) →
    exec (.crlSeal g) s = .next (s.wait .replay)) ∧
  (∀ (o : OpCrlRej) (s s1 t : State) (bs : List Byte) (now any : Bool), s.guardOk o.gd → s.readable o.a → s.me.ringOn = true →
    Loaded s (.load 3) (s.me.ringVA 0) 8 false true bs now s1 →
    let wi := s.me.r.crwi.toNat
    let k := min ((wi + 2 ^ 32 - wbits (leWord bs) 0 32) % 2 ^ 32) (2 ^ s.me.r.crlog.toNat)
    Marked (wbits (s.scalar o.a) 0 16) k (wi + 2 ^ 32 - k) false s1 any t →
    exec (.crlPutRej o) s = .next ((t.updRegs fun r => { r with crpos := (s.scalar o.a).extractLsb' 0 16 }).wrG o.gp any)) ∧
  (∀ (s : State), s.me.ringOn = false → (∀ o : OpCrlPut, s.guardOk o.gd → s.readable o.a → s.readable o.b → s.readable o.c →
      exec (.crlPut o) s = .next (s.trap (versionTrap 0 6 0))) ∧
    (∀ o : OpCrlRej, s.guardOk o.gd → s.readable o.a → exec (.crlPutRej o) s = .next (s.trap (versionTrap 0 6 0))) ∧
    (∀ g : Guard, s.guardOk g → exec (.crlSeal g) s = .next (s.trap (versionTrap 0 6 0)))) ∧
  (∀ (m : BitVec 2) (s : State), (s.me.r.polMode = m → (s.me.r.polPend = true ∨ s.me.r.polAuto = true) →
      s.boundary m = { s with toCore := s.toCore.adopt s.ref }) ∧
    ((s.me.r.polMode ≠ m ∨ (s.me.r.polPend = false ∧ s.me.r.polAuto = false)) → s.boundary m = s)) ∧
  (∀ (c : Core) (d p : Nat), c.kvTake d = some p → p < (c.dom d).kvCount ∧ p ∉ (c.dom d).kvHeld ∧ (c.dom d).kvOn = true) ∧
  (∀ (o : OpLnch) (m : OpRR) (s : State) (l0 l1 : Loc) (cap npg len tpp : Nat), TableAt s (s.scalar o.a) l0 l1 cap npg len tpp →
    s.guardOk o.gd → s.guardOk m.gd → m.a = o.a → s.readable o.a → let d := s.toCore.domOf s.ref.tile
    (∀ n, (npg = cap ∧ n = 1) ∨ (npg ≠ cap ∧ n = 0 ∧ s.toCore.kvTake d = none) →
      (∃ u, exec (.kvAlloc o) s = .next ((u.wrG o.gp false).wrS o.d (BitVec.ofNat 64 n)) ∧ BytesSame s u ∧ u.doms = s.doms ∧ u.me = s.me) ∧
      (∃ i : TrapInfo, exec (.kvAllocMust m) s = .next (s.trap i) ∧ i.kind = kKvdry ∧ i.detail = n ∧ i.addr = s.scalar o.a)) ∧
    (∀ p le, npg ≠ cap → s.toCore.kvTake d = some p → TableReady s (entryVA (s.scalar o.a) npg) 4 le →
      ∃ u t, exec (.kvAlloc o) s = .next ((t.wrG o.gp true).wrS o.d ((s.toCore.dom d).kvVA p)) ∧
        exec (.kvAllocMust m) s = .next (t.wrS m.d ((s.toCore.dom d).kvVA p)) ∧
        BytesTake s u le.pa (leBytes 4 p) ∧ BytesTake u t l0.pa (tableWord cap (npg + 1) len) ∧
        t.toCore.dom d = { s.toCore.dom d with kvHeld := (s.toCore.dom d).kvHeld ++ [p] } ∧ t.me.r = s.me.r)) ∧
  (∀ (va : Word) (s : State) (l0 l1 : Loc) (cap npg len tpp k n : Nat) (le : Nat → Loc), TableAt s va l0 l1 cap npg len tpp →
    (k < npg → ReleaseReady s .mod) → (∀ i, k ≤ i → i < npg → TableReady s (entryVA va i) 4 (le i)) →
    let d := s.toCore.domOf s.ref.tile
    let freed := ((List.range (npg - k)).map fun i => leNat (s.toCore.homeBytes (le (k + i)).pa 4)).foldl (fun dm p => dm.kvFree p) (s.toCore.dom d)
    let done := fun (t : State) => BytesTake s t l0.pa (tableWord cap k n) ∧ t.toCore.dom d = freed ∧ t.me.r = s.me.r
    (∀ o : OpKvTrunc, s.guardOk o.gd → s.readable o.a → s.readable o.b → s.scalar o.a = va → n = min (wbits (s.scalar o.b) 0 32) (npg * tpp) →
      k = (n + tpp - 1) / tpp → ∃ t, exec (.kvTrunc o) s = .next (t.wrG o.gp (decide (wbits (s.scalar o.b) 0 32 ≤ npg * tpp))) ∧ done t) ∧
    (∀ o : OpWt, s.guardOk o.gd → s.readable o.a → s.scalar o.a = va → k = 0 → n = 0 → ∃ t, exec (.kvFree o) s = .next t ∧ done t)) ∧
  (∀ (d : Domain) (p : Nat), d.kvOn = true → ((p < d.kvCount ∧ p ∈ d.kvHeld) → d.kvFree p = { d with kvHeld := d.kvHeld.erase p }) ∧
    (¬ (p < d.kvCount ∧ p ∈ d.kvHeld) → d.kvFree p = { d with kvBadf := true })) ∧
  (∀ (o : OpKvMap) (s : State) (l0 l1 : Loc) (cap npg len tpp : Nat), TableAt s (s.scalar o.a) l0 l1 cap npg len tpp →
    s.guardOk o.gd → s.readable o.a → s.readable o.b → let i := wbits (s.scalar o.b) 0 32
    (npg * tpp ≤ i → ∃ u, exec (.kvMap o) s = .next ((u.wrG o.gp false).wrS o.d 0) ∧ BytesSame s u ∧ u.doms = s.doms ∧ u.me = s.me) ∧
    (∀ le, i < npg * tpp → TableReady s (entryVA (s.scalar o.a) (i / tpp)) 4 le →
      ∃ u, exec (.kvMap o) s = .next ((u.wrG o.gp true).wrS o.d ((s.toCore.dom (s.toCore.domOf s.ref.tile)).kvVA
        (leNat (s.toCore.homeBytes le.pa 4)) + BitVec.ofNat 64 (i % tpp * (0x8000 / tpp)))) ∧ BytesSame s u ∧ u.doms = s.doms ∧ u.me = s.me)) ∧
  (∀ (o : OpRR) (s : State) (l : Loc), s.guardOk o.gd → s.readable o.a → (s.scalar o.a).toNat % 64 ≠ 0 →
    s.toCore.translate (s.toCore.who s.ref) (.atomic 3) (s.scalar o.a) = .ok l →
    exec (.kvAllocMust o) s = .next (s.trap (accTrap (.atomic 3) (s.scalar o.a) l.pa cAlign)))

/-! The engines (14 R351 to R365, 05 R138, R142 to R145, 18 R428, R429). -/

/-- The bundle in progress holds one engine command more, which has the next number; nothing else changes (08 R210, 14 R352). -/
def issued (s : State) (b : Bundle) (m : Cmd) : State :=
  let c : Core := { s.toCore with nid := s.nid + 1 }
  { s with toCore := c, bundle := some { b with cmds := b.cmds ++ [(s.ref, { m with id := s.nid })] } }

/-- The barrier that a register field names; s0 names none (14 R353). -/
def barNamed (s : State) (f : BitVec 6) : Option Word := if f = 0 then none else some (s.scalar f)

/-- A posted operation with these operands, guard and command: issued when the tile's queue of 64 has room, else it waits; a suppressed one does
nothing; with a release or acquire of the issuer, dead stores trap. -/
def Posts (i : Instr) (s : State) (g : Guard) (rs : List (BitVec 6)) (m : Cmd) : Prop :=
  ∀ b, s.bundle = some b → (s.guardOk g = false → exec i s = .next s) ∧
    (s.guardOk g → (∀ n ∈ rs, s.readable n) →
      ((m.holds = false ∨ ∀ p ∈ s.me.replay, p.dead = false) →
        ((s.toCore.tile s.ref.tile).cmds.length + b.cmds.length < 64 → exec i s = .next (issued s b m)) ∧
        (64 ≤ (s.toCore.tile s.ref.tile).cmds.length + b.cmds.length → exec i s = .next (s.wait .cmdq))) ∧
      (m.holds = true → ∀ p, s.me.replay.find? (fun p => p.dead) = some p → exec i s = .next (s.trap { p.info with flags := 0, slot := 0xF })))

/-- 14 R352, R353, R357 to R361, R364, R365: the posted operations of the A slot issue one command with the operands as they are and go on; between bundles, the
same row is the next piece of work of the command.
The model's choices in it are those of log entries 7, 16 and 21. -/
def Obligations.EngineOperationsAreIssued : Prop :=
  (∀ (o : OpCp) (s : State), Posts (.cp o) s o.gd ([o.d, o.a, o.b] ++ if o.c = 0 then [] else [o.c])
    (s.mkCmd .cp o.fl (s.scalar o.d) (s.scalar o.a) (s.scalar o.b) (barNamed s o.c))) ∧
  (∀ (o : OpCpRs) (s : State), Posts (.cpRs o) s o.gd ([o.d, o.a, o.b] ++ if o.c = 0 then [] else [o.c])
    (s.mkCmd (.rs o.rk) o.fl (s.scalar o.d) (s.scalar o.a) (s.scalar o.b) (barNamed s o.c))) ∧
  (∀ p ∈ ([(.cpBc, .bc), (.cpGt, .gt), (.cpLk, .lk)] : List ((OpCpDesc → Instr) × CmdKind)), ∀ (o : OpCpDesc) (s : State),
    Posts (p.1 o) s o.gd ([o.a] ++ if o.c = 0 then [] else [o.c]) (s.mkCmd p.2 o.fl 0 (s.scalar o.a) 0 (barNamed s o.c))) ∧
  (∀ (o : OpEvtSg) (s : State), let fl : CmdFlags := { byt := false, evn := 0, eve := false, rel := o.rel, acq := false, scope := o.scope }
    Posts (.evtSg o) s o.gd [o.a] (s.mkCmd (.evt o.evn) fl 0 (s.scalar o.a) 0 none)) ∧
  (∀ (o : OpMsg) (s : State), let fl : CmdFlags := { byt := false, evn := 0, eve := false, rel := o.rel, acq := o.acq, scope := o.scope }
    Posts (.msg o) s o.gd [o.a, o.b, o.c] (s.mkCmd (.msg o.len) fl 0 (s.scalar o.a) (s.scalar o.b) (some (s.scalar o.c)))) ∧
  (∀ (i : Instr) (s : State), ((∃ o, i = .cp o) ∨ (∃ o, i = .cpRs o) ∨ (∃ o, i = .cpBc o) ∨ (∃ o, i = .cpGt o) ∨ (∃ o, i = .cpLk o) ∨
    (∃ o, i = .evtSg o) ∨ ∃ o, i = .msg o) → s.bundle = none → exec i s = .next { s with toCore := s.toCore.cmdStep s.ref.tile s.slot }) ∧
  (∀ (c : Core) (r : CtxRef) (m : Cmd), ∃ n, ((c.issueCmd r m).tile r.tile).cmds = (c.tile r.tile).cmds ++ [n] ∧
    n.phase = (if m.holds then CmdPhase.acquiring else .starting) ∧ n.orders = (c.ctx r).order ∧ n.kind = m.kind ∧ n.id = m.id ∧ n.d = m.d ∧ n.a = m.a ∧
    n.b = m.b ∧ n.bar = m.bar ∧ n.fl = m.fl)

/-- Every byte of HBM and of the windows reads in one core as in another. -/
def HomeSame (c e : Core) : Prop := ∀ k, ((∃ h, paRegion k = .hbm h) ∨ ∃ u f, paRegion k = .win u f) → e.homeByte k = c.homeByte k

/-- The next byte of a copy translates to `l`, in a page without access bits, and `n` bytes from it on lie in one line and in the run (14 R354, R357). -/
def CopyAt (c : Core) (t : Nat) (m : Cmd) (acc : Acc) (va : Word) (l : Loc) : Prop :=
  m.kind = .cp ∧ m.bad = none ∧ c.poison = [] ∧ c.aden (c.domOf t) = false ∧ c.translateNow (c.cmdWho t m) acc va = .ok l

/-- 14 R354 to R361, R364, 05 R138, R142, R144, R149: a command waits for its issuer's release if it has to, reads its source in pieces, writes in ascending order,
makes its release; its completion arrives once at its barrier; a fault sets ERR, a lost link LOST; link transfers and their landing; signals.
The model's choices in it are those of log entries 15, 16, 21 and 44. -/
def Obligations.EngineCommandsProgress : Prop :=
  (∀ (c : Core) (t id : Nat) (m : Cmd), c.cmd? t id = some m →
    (∀ r, m.phase = .acquiring → c.cmdRel m = none → c.issuer t m = some r → (∀ p ∈ (c.ctx r).replay, p.dead = true ∨ m.orders ≤ p.order) →
      (m.rout = none ∨ (c.ctx r).rout.map (fun u => u.num) ≠ m.rout) → (c.ctx r).macs = [] → (c.ctx r).fo = none →
      c.lostRoute r (relScope m.fl.scope) (some m.id) = none → (c.cmdStep t id).rels = c.rels ++ [⟨c.nid, .cmd m.id, r, m.taskid, relScope m.fl.scope,
        (c.ctx r).unacked, [], (c.linkPorts r (relScope m.fl.scope) (some m.id)).map fun p => (p, c.ftick), none⟩]) ∧
    (∀ x, m.phase = .acquiring → c.cmdRel m = some x → x.ended = some true → (m.fl.acq = false ∨ scopeCode m.fl.scope < 4) →
      c.cmdStep t id = (c.dropRel x.id).setCmd t { m with phase := .starting }) ∧
    (∀ x, m.phase = .acquiring → c.cmdRel m = some x → x.ended = some false → c.cmdStep t id = (c.dropRel x.id).setCmd t { m with phase := .lost }) ∧
    (m.phase = .starting → m.kind = .cp → c.cmdStep t id = c.setCmd t { m with phase := .reading }) ∧
    (∀ ev, m.phase = .starting → m.kind = .evt ev → c.cmdStep t id = (c.dropCmd t id).send (.eventSignalDeliver (c.domOf t) m.a ev)) ∧
    (∀ l, m.phase = .reading → m.src.length < m.srcLen → CopyAt c t m .engRd (m.a + BitVec.ofNat 64 m.src.length) l →
      let n := min (m.srcLen - m.src.length) (128 - (m.a + BitVec.ofNat 64 m.src.length).toNat % 128)
      (∀ u off, paRegion l.pa = .win u off → off + n ≤ 0x400000 → let e := c.cmdStep t id
        e.cmd? t id = some { m with src := m.src ++ (List.range n).map fun i => some (mapGet 0 (c.tile u).win (off + i)) } ∧ HomeSame c e ∧ e.doms = c.doms) ∧
      (∀ h pl, paRegion l.pa = .hbm h → c.placeOf (c.cmdWho t m) .engRd l = .ok pl → (∀ k ∈ l.lines n, (c.homeLine pl k).recalled = false) →
        let e := c.cmdStep t id
        e.cmd? t id = some { m with src := m.src ++ (c.placeBytes pl l.pa n).map some } ∧ HomeSame c e ∧ e.doms = c.doms)) ∧
    (m.phase = .reading → m.srcLen ≤ m.src.length → (∀ l, m.kind ≠ .msg l) → m.kind ≠ .lk → c.cmdStep t id = c.setCmd t { m with phase := .writing }) ∧
    (m.phase = .reading → m.srcLen ≤ m.src.length → m.kind = .lk → m.bad = none → c.cmdStep t id = c.setCmd t { m with phase := .linkWait }) ∧
    (∀ l, m.phase = .writing → m.wrote < m.dstLen → CopyAt c t m .engWr (m.d + BitVec.ofNat 64 m.wrote) l →
      let n := min (m.dstLen - m.wrote) (128 - l.pa % 128)
      (∀ u off, paRegion l.pa = .win u off → off < 0x530000 →
        c.cmdStep t id = (c.windowPuts u off (m.given m.wrote n)).setCmd t { m with wrote := m.wrote + n }) ∧
      (∀ h pl, paRegion l.pa = .hbm h → l.mt ≠ 2 → c.placeOf (c.cmdWho t m) .engWr l = .ok pl → (m.given m.wrote n).all Option.isNone = false →
        let e := c.cmdStep t id
        e.cmd? t id = some { m with wrote := m.wrote + n, unacked := m.unacked ++ [c.nid] } ∧ HomeSame c e ∧ e.doms = c.doms ∧
        e.msgs = c.msgs ++ [.storeAtHome ⟨c.nid, t, pl, l.pa, m.given m.wrote n, none, false⟩])) ∧
    (∀ tr, m.phase = .writing → m.kind = .cp → m.bad = none → m.wrote < m.dstLen →
      c.translateNow (c.cmdWho t m) .engWr (m.d + BitVec.ofNat 64 m.wrote) = .error tr →
      c.cmdStep t id = c.setCmd t { m with bad := some (m.wrote, tr) }) ∧
    (m.phase = .writing → m.kind = .cp → m.dstLen ≤ m.wrote →
      (m.bad.isSome → c.cmdStep t id = c.setCmd t { m with phase := .faulted }) ∧
      (m.bad = none → m.fl.rel = false → c.cmdStep t id = c.setCmd t { m with phase := .done }) ∧
      (m.bad = none → m.fl.rel = true → ∀ r, c.issuer t m = some r → c.lostRoute r (relScope m.fl.scope) (some m.id) = none →
        ((c.cmdStep t id).cmd? t id).map (fun x => x.phase) = some .releasing ∧
        (c.cmdStep t id).rels = c.rels ++ [⟨c.nid, .cmd m.id, r, m.taskid, relScope m.fl.scope, m.unacked, [],
          (c.linkPorts r (relScope m.fl.scope) (some m.id)).map fun p => (p, c.ftick), none⟩]))) ∧
  (∀ (m : Cmd) (p n : Nat), m.kind = .cp → p + n ≤ m.src.length → m.given p n = (m.src.drop p).take n) ∧
  (∀ (c : Core) (u off : Nat) (bs : List Byte), off + bs.length ≤ 0x400000 → c.poison = [] →
    (∀ k, mapGet 0 ((c.windowPuts u off (bs.map some)).tile u).win k = if off ≤ k ∧ k < off + bs.length then bs.getD (k - off) 0
      else mapGet 0 (c.tile u).win k) ∧
    (∀ v, v ≠ u → (c.windowPuts u off (bs.map some)).tile v = c.tile v) ∧ (c.windowPuts u off (bs.map some)).mem = c.mem) ∧
  (∀ (c : Core) (t id x u off : Nat) (m : Cmd) (k : RsKind) (l : Loc), c.cmd? t id = some m → m.kind = .rs k → m.phase = .writing → m.bad = none →
    let ws := (rsWidths k).1
    let wd := (rsWidths k).2
    let e := m.wrote / wd
    m.wrote < m.dstLen → (m.src.drop (e * ws)).take ws = (leBytes ws x).map some → x < 256 ^ ws →
    c.translateNow (c.cmdWho t m) .engWr (m.d + BitVec.ofNat 64 (e * wd)) = .ok l → l.isDevice = false → c.poison = [] →
    paRegion l.pa = .win u off → off < 0x530000 →
    c.cmdStep t id = (c.windowPuts u off ((leBytes wd (rsApply k (leNat ((List.range wd).map fun i => c.windowByte u (off + i))) x)).map some)).setCmd t
      { m with wrote := m.wrote + wd }) ∧
  (∀ old x : Nat, old < 2 ^ 64 → x < 2 ^ 64 → rsApply .i32 old x = (old + x) % 2 ^ 32 ∧ rsApply .i64 old x = (old + x) % 2 ^ 64) ∧
  (∀ (s : State) (t id : Nat) (m : Cmd), s.event = some (.engineCommandComplete t id) → s.toCore.cmd? t id = some m → s.toCore.cmdDone m = true →
    let n : Int := if m.fl.byt && m.kind ≠ .lk then m.wrote else 0
    (m.phase = .done → m.fl.eve = false → m.bar = none → exec .engineCommandComplete s = .next { s with toCore := s.toCore.dropCmd t id }) ∧
    (m.phase = .done → m.fl.eve = true → m.bar = none →
      exec .engineCommandComplete s = .next { s with toCore := s.toCore.setCmd t { m with phase := .event } }) ∧
    (∀ va l, m.bar = some va → (∀ k, m.kind ≠ .msg k) → va.toNat % 16 = 0 → s.toCore.translateNow (s.toCore.cmdWho t m) (.atomic 4) va = .ok l →
      s.toCore.aden (s.toCore.domOf t) = false → ∃ c, exec .engineCommandComplete s = .next { s with toCore := c } ∧ c.mem = s.mem ∧ c.doms = s.doms ∧
        (barPlace l = true → m.phase = .done → c.msgs = s.msgs ++ [.barrierUpdateAtHome l.pa [.upd t true 1 0 0 n]]) ∧
        (barPlace l = true → m.phase = .lost → c.msgs = s.msgs ++ [.barrierUpdateAtHome l.pa [.lost t, .upd t true 1 0 0 n]]) ∧
        (barPlace l = false → m.hc = none → c.msgs = s.msgs ∧ ∃ f, (c.tile t).faults = (s.toCore.tile t).faults ++ [f] ∧
          f.record = s.toCore.cmdRecord t m (barTrap 5 va 0) (m.element m.wrote)) ∧
        (m.phase = .lost → c.cmd? t id = none) ∧ (m.phase = .done → m.fl.eve = false → c.cmd? t id = none) ∧
        (m.phase = .done → m.fl.eve = true → c.cmd? t id = some { m with phase := .event }))) ∧
  (∀ (s : State) (t id e : Nat) (m : Cmd) (tr : TrapInfo), s.event = some (.engineCommandFault t id) → s.toCore.cmd? t id = some m → m.bar = none →
    (m.phase = .faulted → m.bad = some (e, tr) → m.hc = none → ∃ c f, exec .engineCommandFault s = .next { s with toCore := c } ∧ c.mem = s.mem ∧
      c.msgs = s.msgs ∧ c.cmd? t id = none ∧ (c.tile t).faults = (s.toCore.tile t).faults ++ [f] ∧ f.engine = true ∧ f.parked = false ∧
      f.serves = some m.taskid ∧ f.record = s.toCore.cmdRecord t m tr e) ∧
    (m.phase = .refused true → m.hc = none → ∃ c f, exec .engineCommandFault s = .next { s with toCore := c } ∧ c.mem = s.mem ∧
      c.msgs = s.msgs ∧ c.cmd? t id = none ∧ (c.tile t).faults = (s.toCore.tile t).faults ++ [f] ∧ f.engine = true ∧ f.parked = false ∧
      f.serves = some m.taskid ∧ f.record = s.toCore.cmdRecord t m { mkTrap kLink 0 with detail := m.linkPort, addr := m.a } 0) ∧
    (m.phase = .refused false → exec .engineCommandFault s = .next { s with toCore := s.toCore.dropCmd t id })) ∧
  (∀ (s : State) (t id e : Nat) (m : Cmd) (tr : TrapInfo) (va : Word) (l : Loc), s.event = some (.engineCommandFault t id) → s.toCore.cmd? t id = some m →
    m.phase = .faulted → m.bad = some (e, tr) → m.bar = some va → (∀ k, m.kind ≠ .msg k) → va.toNat % 16 = 0 →
    s.toCore.translateNow (s.toCore.cmdWho t m) (.atomic 4) va = .ok l → barPlace l = true → s.toCore.aden (s.toCore.domOf t) = false →
    ∃ c, exec .engineCommandFault s = .next { s with toCore := c } ∧ c.msgs = s.msgs ++ [.barrierUpdateAtHome l.pa [.err t]]) ∧
  (∀ (s : State) (t id : Nat) (m : Cmd), s.event = some (.linkRoundSend t id) → s.toCore.cmd? t id = some m →
    (s.toCore.roundOpen t m = true → exec .linkRoundSend s = .next { s with toCore := s.toCore.setCmd t { m with phase := .linkSent } }) ∧
    (s.toCore.roundOpen t m = false → exec .linkRoundSend s = .next s)) ∧
  (∀ (s : State) (t id : Nat) (m : Cmd), s.event = some (.linkTransferLand (.remoteDone t id)) → s.toCore.cmd? t id = some m → m.phase = .linkSent →
    exec .linkTransferLand s = .next { s with toCore := s.toCore.setCmd t { m with phase := .done } }) ∧
  (∀ (s : State) (c : Core) (dom len : Nat) (byt bad : Bool) (dst rbar pva key : Word) (tag : BitVec 24) (hop : BitVec 16) (round : BitVec 32)
    (data : List Byte) (rel : Option Scope) (ids : List Nat) (f : Option TrapInfo),
    s.event = some (.linkTransferLand (.incoming dom 0 byt dst rbar pva key tag hop round len data rel)) →
    s.toCore.outsidePut (linkWho dom) linkSender (fun c va => c.engineLoc (linkWho dom) .engWr va) dst data [] (data.length / 64 + 3) = .ok (c, ids, f) →
    bad = f.isSome → exec .linkTransferLand s =
      .next { s with toCore := c.send (.linkTransferLand (.landed dom rbar (if byt then data.length else 0) rel ids bad)) }) ∧
  (∀ (s : State) (dom n : Nat) (rbar : Word) (rel : Option Scope) (ids : List Nat) (bad : Bool),
    s.event = some (.linkTransferLand (.landed dom rbar n rel ids bad)) → (∀ q ∈ rel, scopeCode q < 6) →
    (s.toCore.landingWaits dom rel ids = true →
      exec .linkTransferLand s = .next { s with toCore := s.toCore.send (.linkTransferLand (.landed dom rbar n rel ids bad)) }) ∧
    (s.toCore.landingWaits dom rel ids = false → (rbar = 0 → exec .linkTransferLand s = .next s) ∧
      (∀ l, rbar ≠ 0 → rbar.toNat % 16 = 0 → s.toCore.translateNow (linkWho dom) (.atomic 4) rbar = .ok l → barPlace l = true → s.toCore.aden dom = false →
        exec .linkTransferLand s = .next { s with toCore := s.toCore.send (.barrierUpdateAtHome l.pa
          [if bad then .err Config.tiles else .upd Config.tiles true 1 0 0 (n : Int)]) }))) ∧
  (∀ (s : State) (d : Nat) (id : Word) (ev : BitVec 4) (e : Nat × Tile), s.event = some (.eventSignalDeliver d id ev) →
    s.toCore.tiles.find? (fun e => e.2.dom == some d && e.2.queue.any fun x => idKey x.id.taskid == idKey id) = some e →
    e.2.queue.any (fun x => (idKey x.id.taskid == idKey id) && x.life == .fresh) = false →
    ∃ t, exec .eventSignalDeliver s = .next t ∧ SameMemory s t ∧ t.doms = s.doms ∧ ∀ p x, s.toCore.ctx? (.task e.1 p) = some x →
      t.toCore.ctx? (.task e.1 p) = some (if idKey x.id.taskid = idKey id then x.setEv ev.toNat else x))

/-! The messages of the memory hierarchy (02 R52 to R66, 04 R118, 05 R130, R133, R149, 10 R271). -/

/-- What a place is asked for stands free of a drain of the page and of a recall of the line; the store lies in one line of HBM. -/
def homeFree (s : State) (m : StoreMsg) : Prop :=
  (s.toCore.page (m.pa / 65536)).mode ≠ .draining ∧ (s.toCore.homeLine m.place (m.pa / 128)).recalled = false ∧ (∃ h, paRegion m.pa = .hbm h) ∧
  m.pa % 128 + m.bytes.length ≤ 128 ∧ m.tile < Config.tiles ∧ s.poison = [] ∧ m.tag = none

/-- The given bytes from a PA on are written, and every other byte of HBM and of the windows reads as before. -/
def GivenTake (s t : State) (pa : Nat) (bytes : List (Option Byte)) : Prop :=
  ∀ k, ((∃ h, paRegion k = .hbm h) ∨ ∃ u f, paRegion k = .win u f) →
    t.toCore.homeByte k = ((if pa ≤ k then bytes.getD (k - pa) none else none).getD (s.toCore.homeByte k))

/-- 02 R52 to R66, 04 R118, 05 R130, R133, R149: a store is applied in home order and its update goes down the list of sharers, whose tail acknowledges; a
new sharer becomes the head with the home's bytes; an L1 leaves the list by its neighbours; a recall empties the list; replicas are made in frames of
the pool, written through by diffs and given up; a release in progress ends when its stores are acknowledged and its scope is met.
The model's choices in it are those of log entries 8, 13, 20, 42 and 43. -/
def Obligations.LinesReplicasAndReleases : Prop :=
  (∀ (s : State) (m : StoreMsg), s.event = some (.storeAtHome m) → m.place = .primary → homeFree s m →
    let line := m.pa / 128
    let page := m.pa / 65536
    let h := s.toCore.homeLine .primary line
    ∃ t, exec .storeAtHome s = .next t ∧ t.tiles = s.tiles ∧ t.doms = s.doms ∧ GivenTake s t m.pa m.bytes ∧
      (s.toCore.replicaDies page = [] → h.head = ptrEnd → t.msgs = s.msgs ++ [.ack false .primary line m.id m.tile ptrHome] ∧ t.home = s.home) ∧
      (s.toCore.replicaDies page = [] → h.head ≠ ptrEnd → let u := s.toCore.placeDie .primary line * 64 + h.head.toNat % 64
        t.msgs = s.msgs ++ [.upd u .primary line m.id m.tile ptrHome (givenBytes m.bytes (m.pa % 128))] ∧
        t.toCore.homeLine .primary line = { h with sent := h.sent ++ [(m.id, m.tile)] }) ∧
      (∀ die, die < 8 → s.toCore.replicaDies page = [die] → h.head = ptrEnd → m.id ≠ 0 → (∀ d ∈ s.diffs, d.id ≠ m.id) →
        t.msgs = s.msgs ++ [.forwardedDiffApply die ⟨page, s.toCore.homeDie m.pa, givenBytes m.bytes (m.pa % 65536), m.id, m.tile, []⟩] ∧
        t.diffs = s.diffs ++ [⟨m.id, dieOf m.tile, s.toCore.domOf m.tile, page, 1, 0, .store m.tile line⟩])) ∧
  (∀ (s : State) (m : StoreMsg) (d h : Nat) (r : Replica), s.event = some (.storeAtHome m) → m.place = .replica d → homeFree s m →
    s.toCore.replica d (m.pa / 65536) = some r → paRegion (r.frame * 65536 + m.pa % 65536) = .hbm h →
    ∃ t r', exec .storeAtHome s = .next t ∧ t.tiles = s.tiles ∧ t.doms = s.doms ∧ GivenTake s t (r.frame * 65536 + m.pa % 65536) m.bytes ∧
      t.toCore.replica d (m.pa / 65536) = some r' ∧ r'.frame = r.frame ∧
      ∀ k, k ∈ r'.dirty ↔ k ∈ r.dirty ∨ ∃ e ∈ givenBytes m.bytes (m.pa % 65536), e.1 = k) ∧
  (∀ (s : State) (m : StoreMsg), s.event = some (.storeAtHome m) → m.place = .primary →
    let p := s.toCore.page (m.pa / 65536)
    (p.mode = .draining → exec .storeAtHome s = .next { s with toCore := s.toCore.setPage (m.pa / 65536) { p with queued := p.queued ++ [m] } }) ∧
    (p.mode ≠ .draining → (s.toCore.homeLine .primary (m.pa / 128)).recalled = true →
      exec .storeAtHome s = .next { s with toCore := s.toCore.send (.storeAtHome m) })) ∧
  (∀ (s : State) (tl line : Nat) (pl : Place), s.event = some (.loadMissAtHome tl pl line) → let h := s.toCore.homeLine pl line
    (h.recalled = true → exec .loadMissAtHome s = .next { s with toCore := s.toCore.send (.loadMissAtHome tl pl line) }) ∧
    (h.recalled = false → s.toCore.inSlice pl line = false → exec .loadMissAtHome s = .next s) ∧
    (h.recalled = false → s.toCore.inSlice pl line = true → ∃ t, exec .loadMissAtHome s = .next t ∧ SameMemory s t ∧ t.tiles = s.tiles ∧
      t.doms = s.doms ∧ t.toCore.homeLine pl line = { h with head := selfIdx tl } ∧
      t.msgs = s.msgs ++ [.fill tl pl line (BitVec.ofNat 1024 (leNat (s.toCore.placeBytes pl (line * 128) 128))) h.head] ++
        if h.head = ptrEnd then [] else [.setprev (peerTile tl h.head) line ptrHome (selfIdx tl)])) ∧
  (∀ (s : State) (tl line : Nat) (pl : Place) (data : LineData) (next : BitVec 7), s.event = some (.fill tl pl line data next) →
    s.toCore.ownFlight tl line = [] → s.poison = [] → exec .fill s =
      .next { s with toCore := s.toCore.setL1 tl line (some { data := data, prev := ptrHome, next := next, pend := [], above := [], relay := none }) }) ∧
  (∀ (s : State) (tl line id storer : Nat) (pl : Place) (src : BitVec 7) (bytes : List (Nat × Byte)), s.event = some (.upd tl pl line id storer src bytes) →
    let pass := fun (c : Core) (next : BitVec 7) => c.send (if next = ptrEnd then .ack true pl line id storer (selfIdx tl)
      else .upd (peerTile tl next) pl line id storer (selfIdx tl) bytes)
    (s.toCore.l1Tag tl line = none → exec .upd s = .next { s with toCore := s.toCore.send (.ack true pl line id storer (selfIdx tl)) }) ∧
    (∀ x, s.toCore.l1Tag tl line = some x → x.relay.isSome → exec .upd s = .next { s with toCore := pass s.toCore x.next }) ∧
    (∀ x, s.toCore.l1Tag tl line = some x → x.relay = none → s.poison = [] → let pend := x.pend.filter fun p => p.1 != id
      let data := lineWrite x.data (openBytes (pend.map (·.2) ++ (x.above.filter fun e => e.1.contains id).map (·.2)) bytes)
      ∃ o, exec .upd s = .next { s with toCore := pass (s.toCore.setL1 tl line (some { x with data := data, pend := pend, above := o })) x.next } ∧
        (x.above = [] → (∀ y, ((s.toCore.homeLine pl line).sent.map (·.1)).head? = some y → y = id) → o = []))) ∧
  (∀ (s : State) (line id storer : Nat) (pl : Place) (home : Bool) (src : BitVec 7), s.event = some (.ack home pl line id storer src) →
    (home = false → exec .ack s = .next { s with toCore := s.toCore.acked storer id }) ∧
    (home = true → storer < Config.tiles → ∃ t, exec .ack s = .next t ∧ SameMemory s t ∧ t.msgs = s.msgs ++ [.ack false pl line id storer ptrHome] ∧
      t.toCore.homeLine pl line = { s.toCore.homeLine pl line with sent := (s.toCore.homeLine pl line).sent.erase (id, storer) }) ∧
    (home = true → storer = recallStorer → let rest := s.toCore.atRest pl line && !s.toCore.refusing (s.toCore.placeDie pl line) line
      (rest = false → exec .ack s = .next { s with toCore := s.toCore.send (.ack true pl line id storer ptrHome) }) ∧
      (rest = true → ∃ t, exec .ack s = .next t ∧ BytesSame s t ∧ ((∀ d, pl = .replica d → d < 8) → t.toCore.inSlice pl line = false) ∧
        t.toCore.homeLine pl line = { s.toCore.homeLine pl line with head := ptrEnd, recalled := false }))) ∧
  (∀ (c : Core) (tl id : Nat) (r : CtxRef) (x : Ctx), c.ctx? r = some x → r.tile = tl →
    (c.acked tl id).ctx? r = some { x with unacked := x.unacked.filter (· != id) } ∧
    (c.acked tl id).rels = c.rels.map (fun y => { y with need := y.need.filter (· != id) })) ∧
  (∀ (s : State) (tl line : Nat) (src p : BitVec 7) (x : L1Line), s.event = some (.setprev tl line src p) → s.toCore.l1Tag tl line = some x →
    x.relay = none → p ≠ selfIdx tl → let c := s.toCore.setL1 tl line (some { x with prev := p })
    (src = ptrHome → exec .setprev s = .next { s with toCore := c }) ∧
    (src ≠ ptrHome → x.prev = src → exec .setprev s = .next { s with toCore := c.send (.setnext (peerTile tl src) line (selfIdx tl) src) }) ∧
    (src ≠ ptrHome → x.prev ≠ src → exec .setprev s = .next { s with toCore := s.toCore.send (.nack (peerTile tl src) line (selfIdx tl)) })) ∧
  (∀ (s : State) (tl line : Nat) (src p : BitVec 7) (x : L1Line), s.event = some (.setnext tl line src p) → s.toCore.l1Tag tl line = some x →
    p ≠ selfIdx tl →
    (x.relay = none → x.next = src → let c := s.toCore.setL1 tl line (some { x with next := p })
      exec .setnext s = .next { s with toCore := c.send (.setprev (peerTile tl src) line (selfIdx tl) src) }) ∧
    ((x.relay.isSome ∨ x.next ≠ src) → exec .setnext s =
      .next { s with toCore := if src = ptrHome then s.toCore else s.toCore.send (.nack (peerTile tl src) line (selfIdx tl)) })) ∧
  (∀ (s : State) (tl line n : Nat) (src : BitVec 7) (x : L1Line), s.event = some (.setprev tl line src (selfIdx tl)) →
    s.toCore.l1Tag tl line = some x → x.relay = some (n + 1) →
    (s.toCore.passing (dieOf tl) line = true →
      exec .setprev s = .next { s with toCore := s.toCore.setL1 tl line (some { x with relay := some n }) }) ∧
    (s.toCore.passing (dieOf tl) line = false → n = 0 → ∃ t, exec .setprev s = .next t ∧ SameMemory s t ∧ t.toCore.l1Tag tl line = none)) ∧
  (∀ (s : State) (pl : Place) (line : Nat) (src p : BitVec 7), s.event = some (.sethead pl line src p) → let h := s.toCore.homeLine pl line
    let t := s.toCore.placeDie pl line * 64 + src.toNat % 64
    (h.head = src → exec .sethead s =
      .next { s with toCore := (s.toCore.updHomeLine pl line fun h => { h with head := p }).send (.setnext t line ptrHome src) }) ∧
    (h.head ≠ src → exec .sethead s = .next { s with toCore := s.toCore.send (.nack t line ptrHome) })) ∧
  (∀ (s : State) (tl line n : Nat) (src : BitVec 7) (x : L1Line), s.event = some (.nack tl line src) → s.toCore.l1Tag tl line = some x → x.relay = some n →
    ((src ≠ ptrHome ∨ s.toCore.atRest (s.toCore.l1Place tl line) line = false) →
      exec .nack s = .next { s with toCore := s.toCore.send (.nack tl line ptrHome) }) ∧
    (src = ptrHome → s.toCore.atRest (s.toCore.l1Place tl line) line = true →
      ∃ t, exec .nack s = .next t ∧ SameMemory s t ∧ t.toCore.l1Tag tl line = none)) ∧
  (∀ (s : State) (tl line : Nat) (x : L1Line), s.event = some (.l1Evict tl line) → s.toCore.l1Tag tl line = some x → x.relay = none → s.poison = [] →
    ∃ t, exec .l1Evict s = .next t ∧ SameMemory s t ∧ t.doms = s.doms ∧ let last := decide (x.next = ptrEnd)
      t.toCore.l1Tag tl line = some { x with data := 0, pend := [], above := [], relay := some (if last then 1 else 2) } ∧
      t.msgs = s.msgs ++ [if x.prev = ptrHome then .sethead (s.toCore.l1Place tl line) line (selfIdx tl) x.next
        else .setnext (peerTile tl x.prev) line (selfIdx tl) x.next] ++
        if last then [] else [.setprev (peerTile tl x.next) line (selfIdx tl) x.prev]) ∧
  (∀ (s : State) (tl line : Nat) (pl : Place) (src : BitVec 7), s.event = some (.recall tl pl line src) →
    (s.toCore.l1Tag tl line = none → exec .recallLine s = .next { s with toCore := s.toCore.send (.ack true pl line 0 recallStorer (selfIdx tl)) }) ∧
    (∀ x, s.toCore.l1Tag tl line = some x → s.poison = [] →
      let m : Event := if x.next = ptrEnd then .ack true pl line 0 recallStorer (selfIdx tl) else .recall (peerTile tl x.next) pl line (selfIdx tl)
      exec .recallLine s = .next { s with toCore := (s.toCore.setL1 tl line none).send m })) ∧
  (∀ (s : State) (pl : Place) (line : Nat), s.event = some (.homeSliceEvict pl line) → let h := s.toCore.homeLine pl line
    (h.head ≠ ptrEnd → h.recalled = false → h.sent = [] → let c := s.toCore.updHomeLine pl line fun h => { h with recalled := true }
      exec .homeSliceEvict s = .next { s with toCore := c.send (.recall (s.toCore.placeDie pl line * 64 + h.head.toNat % 64) pl line ptrHome) }) ∧
    (h.head ≠ ptrEnd → (h.recalled = true ∨ h.sent ≠ []) → exec .homeSliceEvict s = .next s) ∧
    (h.head = ptrEnd → h.recalled = false → h.sent = [] →
      exec .homeSliceEvict s = .next { s with toCore := s.toCore.dropLine (placeKey pl line) })) ∧
  (∀ (s : State) (die page d va : Nat), s.event = some (.replicaRequest die page d va) → s.toCore.replica die page = none →
    let p := s.toCore.page page
    (∀ a ∈ p.asking, a.die ≠ die) → s.toCore.drepOn d die = true →
    (s.toCore.freeFrame die d = none → ∃ t, exec .replicaRequest s = .next t ∧ SameMemory s t ∧ .replicaRequest die page d va ∈ t.msgs) ∧
    (∀ f, s.toCore.freeFrame die d = some f → isFar (page * 65536) = false →
      (p.mode = .line → exec .replicaRequest s =
        .next { s with toCore := s.toCore.setPage page { p with mode := .draining, asking := p.asking ++ [⟨die, d, va, f⟩] } }) ∧
      (p.mode = .draining →
        exec .replicaRequest s = .next { s with toCore := s.toCore.setPage page { p with asking := p.asking ++ [⟨die, d, va, f⟩] } }) ∧
      (p.mode = .replica → exec .replicaRequest s = .next { s with toCore := s.toCore.addReplica page ⟨die, d, va, f⟩ }))) ∧
  (∀ (s : State) (die page d va : Nat), s.event = some (.replicaRequest die page d va) → s.toCore.replica die page = none →
    s.toCore.drepOn d die = false → exec .replicaRequest s = .next s) ∧
  (∀ (c : Core) (die d f : Nat), c.freeFrame die d = some f → let w := c.ctl d (0x48 + die)
    wbits w 16 36 ≤ f ∧ f < wbits w 16 36 + wbits w 52 12 ∧ (∀ r ∈ c.reps, r.die = die → r.frame ≠ f) ∧
    ∀ e ∈ c.pages, ∀ a ∈ e.2.asking, a.die = die → a.frame ≠ f) ∧
  (∀ (s : State) (page h h' : Nat) (a : Ask), s.toCore.replica a.die page = none → a.die < 8 → s.poison = [] → paRegion (page * 65536) = .hbm h →
    paRegion (a.frame * 65536) = .hbm h' →
    (∃ r, (s.toCore.addReplica page a).replica a.die page = some r ∧ r.dom = a.dom ∧ r.frame = a.frame ∧ r.dirty = [] ∧ r.dropping = false) ∧
    BytesTake s { s with toCore := s.toCore.addReplica page a } (a.frame * 65536) (s.toCore.homeBytes (page * 65536) 65536)) ∧
  (∀ (s : State) (page : Nat) (a : Ask), s.event = some (.replicaDrainComplete page) → (s.toCore.page page).mode = .draining →
    (s.toCore.pageQuiet page = false → exec .replicaDrainComplete s = .next s) ∧
    (s.toCore.pageQuiet page = true → (s.toCore.page page).queued = [] → (s.toCore.page page).asking = [a] →
      (∃ h, paRegion (a.frame * 65536) = .hbm h) →
      ∃ t, exec .replicaDrainComplete s = .next t ∧ t.tiles = s.tiles ∧ t.toCore.page page = ⟨.replica, [], []⟩ ∧ (t.toCore.replica a.die page).isSome)) ∧
  (∀ (s : State) (die page : Nat) (r : Replica), s.event = some (.dirtyGranuleFlushTimer die page) → s.toCore.replica die page = some r → r.dirty ≠ [] →
    ((s.ftick - r.since).toNat < 2048 → exec .dirtyGranuleFlushTimer s = .next s) ∧
    (2048 ≤ (s.ftick - r.since).toNat → exec .dirtyGranuleFlushTimer s = .next { s with toCore := s.toCore.publish r })) ∧
  (∀ (c : Core) (r : Replica), r.dirty ≠ [] → c.tags = [] →
    let d : Diff := ⟨r.page, r.die, r.dirty.map fun k => (k, c.homeByte (r.frame * 65536 + k)), c.nid, Config.tiles, []⟩
    (isFar (r.page * 65536) = false → (c.publish r).msgs = c.msgs ++ [.diffAtPrimary d] ∧
      (c.publish r).diffs = c.diffs ++ [⟨c.nid, r.die, r.dom, r.page, 1, 0, .none⟩]) ∧
    (isFar (r.page * 65536) = true → (c.publish r).msgs = c.msgs ∧
      (c.publish r).out = c.out ++ [(BitVec.ofNat 20 (farModule (r.page * 65536)),
        .diff { d with page := r.page % 2 ^ 48, die := farDie c.mc.modnum.toNat r.die })] ∧
      (c.publish r).diffs = c.diffs ++ [⟨c.nid, r.die, r.dom, r.page, 1, 1, .none⟩]) ∧
    (c.publish r).mem = c.mem ∧ ∀ x ∈ (c.publish r).reps, x.die = r.die → x.page = r.page → ∀ k ∈ r.dirty, k ∉ x.dirty) ∧
  (∀ (s : State) (d : Diff) (h : Nat), s.event = some (.diffAtPrimary d) → s.poison = [] → (∀ e ∈ d.bytes, e.1 < 65536) →
    paRegion (d.page * 65536) = .hbm h → ∃ t, exec .diffAtPrimary s = .next t ∧ t.tiles = s.tiles ∧ t.doms = s.doms ∧
      (∀ k, ((∃ h, paRegion k = .hbm h) ∨ ∃ u f, paRegion k = .win u f) → (∀ e ∈ d.bytes, d.page * 65536 + e.1 ≠ k) →
        t.toCore.homeByte k = s.toCore.homeByte k) ∧
      ((d.bytes.map (·.1)).Nodup → ∀ e ∈ d.bytes, t.toCore.homeByte (d.page * 65536 + e.1) = e.2) ∧
      (∀ die, die < 8 → die ∈ s.toCore.replicaDies d.page → die ≠ d.die → .forwardedDiffApply die d ∈ t.msgs) ∧
      (d.die < 8 → (s.toCore.replica d.die d.page).isSome → .forwardedDiffApply d.die d ∈ t.msgs)) ∧
  (∀ (s : State) (die h k : Nat) (b : Byte) (d : Diff) (r : Replica), s.event = some (.forwardedDiffApply die d) → s.toCore.replica die d.page = some r →
    s.poison = [] → paRegion (r.frame * 65536) = .hbm h → k < 65536 → d.bytes = [(k, b)] → d.tags = [] → (∀ e ∈ r.sent, e.1 ≠ d.id) →
    ∃ t, exec .forwardedDiffApply s = .next t ∧ t.tiles = s.tiles ∧ t.doms = s.doms ∧ t.reps = s.reps ∧
      GivenTake s t (r.frame * 65536 + k) [if k ∈ r.dirty ∨ ∃ e ∈ r.sent, k ∈ e.2 then none else some b]) ∧
  (∀ (s : State) (die : Nat) (d : Diff) (r : Replica), s.event = some (.forwardedDiffApply die d) → s.toCore.replica die d.page = some r →
    (∃ e ∈ r.sent, e.1 = d.id) → ∃ t r', exec .forwardedDiffApply s = .next t ∧ SameMemory s t ∧ t.msgs = s.msgs ∧
      t.toCore.replica die d.page = some r' ∧ r' = { r with sent := r.sent.filter fun e => e.1 != d.id }) ∧
  (∀ (s : State) (die page : Nat) (r : Replica), s.event = some (.replicaDrop die page) → s.toCore.replica die page = some r → r.dirty = [] →
    s.msgs.any (replicaTraffic die page) = false → s.home = [] → s.diffs = [] →
    ∃ t, exec .replicaDrop s = .next t ∧ BytesSame s t ∧ t.toCore.replica die page = none) ∧
  (∀ (s : State) (tl id pa : Nat) (k : AtmKind) (wide sg : Bool) (x y : Word) (tag : Option (Nat × Nat × Option Nat)) (acq : Option Nat),
    s.event = some (.forwardedAtomic tl id pa k wide sg x y tag acq) →
    let busy := decide ((s.toCore.page (pa / 65536)).mode = .draining) || (s.toCore.homeLine .primary (pa / 128)).recalled
    let n := if wide then 8 else 4
    let old := leNat (s.toCore.homeBytes pa n)
    (busy = true → exec .forwardedAtomic s = .next { s with toCore := s.toCore.send (.forwardedAtomic tl id pa k wide sg x y tag acq) }) ∧
    (busy = false → OrdinaryPlace pa n → s.poison = [] → tl < Config.tiles → ∃ t ms, exec .forwardedAtomic s = .next t ∧ t.doms = s.doms ∧
      BytesTake s t pa (leBytes n ((atmApply k (8 * n) sg old x.toNat y.toNat).getD old)) ∧
      t.msgs = ms ++ [.registerWriteLand tl id (extend64 ⟨sg, if wide then 3 else 2⟩ old)])) ∧
  (∀ (s : State) (x : Release), s.event = some (.releaseComplete x.id) → s.rels.find? (fun y => y.id = x.id) = some x → scopeCode x.scope < 6 →
    (s.toCore.releaseMet x = true → exec .releaseComplete s = .next { s with toCore := s.toCore.endRelease x true }) ∧
    (s.toCore.releaseMet x = false → exec .releaseComplete s = .next s)) ∧
  (∀ (c : Core) (x : Release), let die := dieOf x.r.tile
    let dom := c.domOf x.r.tile
    c.releaseMet x = true ↔ x.need = [] ∧ c.linkPorts x.r x.scope x.kind.cmd? = [] ∧
      (4 ≤ scopeCode x.scope → (∀ r ∈ c.reps, r.die = die → r.dom = dom → r.dirty = []) ∧ ∀ d ∈ c.diffs, d.die = die → d.dom = dom → d.left = 0) ∧
      (6 ≤ scopeCode x.scope → c.cxlDirty = [] ∧ c.backInv = []) ∧
      (7 ≤ scopeCode x.scope → (∀ d ∈ c.diffs, d.dom ≠ dom ∨ d.away = 0) ∧ c.linkCmds x.r x.kind.cmd? = [] ∧ ∀ y ∈ (c.ctx x.r).cast, y.2 = []) ∧
      (c.rels.find? fun y => decide (y.r = x.r ∧ y.ended = none)).map (fun y => y.id) = some x.id) ∧
  (∀ (c : Core) (x : Release), (x.kind = .fence → x.sig = [] → c.endRelease x true = { c with rels := c.rels.filter fun y => y.id != x.id }) ∧
    (x.kind = .wait → c.endRelease x true = { c with rels := c.rels.map fun y => if y.id = x.id then { y with ended := some true } else y })) ∧
  (∀ (s : State) (die d : Nat), s.event = some (.forcedPublish die d) →
    (∀ r, s.toCore.dirtyReps die d = [r] → exec .forcedPublish s = .next { s with toCore := s.toCore.publish r }) ∧
    (s.toCore.dirtyReps die d = [] → exec .forcedPublish s = .next s)) ∧
  (∀ (s : State) (x : Release), s.event = some (.fenceLinkWaitTimeout x.id) → s.rels.find? (fun y => y.id = x.id) = some x → x.ports ≠ [] →
    x.ended = none → s.toCore.linkPorts x.r x.scope x.kind.cmd? = x.ports.map (·.1) →
    ((∀ p ∈ x.ports, (s.ftick - p.2).toNat < 2000000) → exec .fenceLinkWaitTimeout s = .next s) ∧
    ((∀ p ∈ x.ports, 2000000 ≤ (s.ftick - p.2).toNat) → x.kind = .wait → ∃ t, exec .fenceLinkWaitTimeout s = .next t ∧ SameMemory s t ∧
      t.tiles = s.tiles ∧ (∀ y ∈ t.rels, y.id = x.id → y.ended = some false) ∧
      (t.toCore.dom (s.toCore.domOf x.r.tile)).missing =
        (x.ports.map fun p => BitVec.ofNat 64 ((mapGet Port.init s.mc.ports p.1).peer.toNat + p.1 * 2 ^ 20)).take 1024))

/-! Walks, pushes, message slots and handlers (01 R26, R36 to R41, 05 R147, 07 R187 to R192, 17 R405, 19 R438). -/

/-- What a stream's pre-translation of a page finds: nothing where no translation is needed, the tile's entry, or that of a walk of its own, which
may find none (01 R40). -/
def Looked (s : State) (t vp : Nat) (o : Option TlbEnt) (bad : Bool) : Prop :=
  let d := s.toCore.domOf t
  let va : Word := BitVec.ofNat 64 (vp * 65536)
  let plain := canonical va && decide (vp * 65536 < Config.aliasBase) && ((s.toCore.dom d).regionOf va).isNone
  (plain = false → o = none ∧ bad = false) ∧ (∀ e, plain = true → (s.toCore.tile t).tlbFind d vp = some e → o = some e ∧ bad = false) ∧
  (plain = true → (s.toCore.tile t).tlbFind d vp = none → (∀ k, s.toCore.walk d va = .error k → o = none ∧ bad = true) ∧
    ∀ f, s.toCore.walk d va = .ok f → o = some ⟨d, vp, f.sz, f.word, f.pa⟩ ∧ bad = false)

/-- 01 R36, R39 to R41, 05 R147, 07 R187 to R192, 17 R405, 19 R438: a walk puts its translation in the TLB or notes its fault; pre-translation moves no stream;
a parked store is retried once its handler returned and its translation was invalidated; a push lands in its queue or waits in the push buffer; a message
takes its slot and then a handler context, which starts in the zero state at its handler.
The model's choices in it are those of log entries 15, 30, 36 and 45. -/
def Obligations.WalksPushesAndHandlers : Prop :=
  (∀ (s : State) (t vp : Nat), s.event = some (.pageWalkComplete t vp) →
    let c := s.toCore.updTile t fun tl => { tl with walks := tl.walks.filter (· != vp) }
    (vp ∉ (s.toCore.tile t).walks → exec .pageWalkComplete s = .next s) ∧
    (∀ f, vp ∈ (s.toCore.tile t).walks → c.walk (c.domOf t) (BitVec.ofNat 64 (vp * 65536)) = .ok f →
      (c.tile t).tlbFind (c.domOf t) vp = none → (c.tile t).tlb.length < 512 → c.aden (c.domOf t) = false →
      ∃ u, exec .pageWalkComplete s = .next u ∧ SameMemory s u ∧ u.doms = s.doms ∧
        u.toCore.tile t = { s.toCore.tile t with walks := (s.toCore.tile t).walks.filter (· != vp), tlb := (s.toCore.tile t).tlb ++ [⟨c.domOf t, vp, f.sz, f.word, f.pa⟩] }) ∧
    (∀ k, vp ∈ (s.toCore.tile t).walks → c.walk (c.domOf t) (BitVec.ofNat 64 (vp * 65536)) = .error k →
      exec .pageWalkComplete s = .next { s with toCore := c.updTile t fun tl => { tl with walkBad := tl.walkBad ++ [(vp, k)] } })) ∧
  (∀ (s : State) (r : CtxRef) (a : BitVec 4) (x : Ctx), s.event = some (.streamPreTranslation r a) → s.toCore.ctx? r = some x →
    s.toCore.aden (s.toCore.domOf r.tile) = false → ∃ t y, exec .streamPreTranslation s = .next t ∧ SameMemory s t ∧ t.doms = s.doms ∧
      t.toCore.ctx? r = some y ∧ y = { x with a := y.a } ∧ (∀ k, k ≠ a.toNat → y.stream k = x.stream k) ∧
      let u := x.stream a.toNat
      let z := y.stream a.toNat
      z = { u with page := some (u.addr.toNat / 65536), cur := z.cur, nxt := z.nxt, failed := z.failed } ∧
      (∃ bad, Looked s r.tile (u.addr.toNat / 65536) z.cur bad) ∧
      ((canonical u.addr = false ∨ u.nextPage = none) → z.nxt = none ∧ z.failed = false) ∧
      ∀ vp, canonical u.addr = true → u.nextPage = some vp → Looked s r.tile ((wordOfInt (vp * 65536)).toNat / 65536) z.nxt z.failed) ∧
  (∀ (s : State) (t r : Nat), s.event = some (.regionDescriptorFetch t r) → let l := (s.toCore.tile t).regions
    ∃ u, exec .regionDescriptorFetch s = .next u ∧ SameMemory s u ∧ u.doms = s.doms ∧
      u.toCore.tile t = { s.toCore.tile t with regions := if l.contains r then l else (r :: l).take 16 }) ∧
  (∀ (x : Ctx) (p : Parked), x.retryable = some p → p ∈ x.replay ∧ p.resumed = true ∧ p.inved = true ∧ p.dead = false ∧
    ∀ e ∈ x.replay, e.dead = false → e.va.toNat / 65536 = p.va.toNat / 65536 → p.order ≤ e.order) ∧
  (∀ (s : State) (r : CtxRef) (x : Ctx) (p : Parked), s.event = some (.parkedStoreRetry r) → s.toCore.ctx? r = some x →
    (x.retryable = none → exec .parkedStoreRetry s = .next s) ∧
    (∀ l pl n h, x.retryable = some p → x.late = [] → (∀ y ∈ s.rels, y.r ≠ r) → s.toCore.aden (s.toCore.domOf r.tile) = false →
      n ≤ 256 → (∀ i, n ≤ i → p.mask.getLsbD i = false) → (n ≠ 0 → p.mask.getLsbD (n - 1) = true) →
      s.toCore.translateNow (s.toCore.who r) (.store 3) p.va = .ok l →
      (∀ v ∈ spanVas p.va n, ∃ y, s.toCore.translateNow (s.toCore.who r) (.store 3) v = .ok y) →
      (p.info.detail / 4096 = 1 → p.va.toNat % 2 ^ (p.info.detail / 256 % 16) = 0) → s.toCore.placeOf (s.toCore.who r) (.store 3) l = .ok pl →
      paRegion l.pa = .hbm h → l.mt ≠ 2 → l.pa % 65536 + n ≤ 65536 →
      ∃ t y ms, exec .parkedStoreRetry s = .next t ∧ SameMemory s t ∧ t.doms = s.doms ∧ t.toCore.ctx? r = some y ∧
        y.replay = x.replay.filter (fun e => e.order != p.order) ∧ y.r = x.r ∧ Stores ms l.pa (p.bytes.take n) ∧
        (∀ m ∈ ms, m.tile = r.tile ∧ m.place = pl ∧ m.tag = x.ftag) ∧ t.msgs = s.msgs ++ ms.map .storeAtHome) ∧
    (∀ i, x.retryable = some p → s.toCore.translateNow (s.toCore.who r) (.store 3) p.va = .error i → ∃ t y f, exec .parkedStoreRetry s = .next t ∧
      SameMemory s t ∧ t.msgs = s.msgs ∧ t.toCore.ctx? r = some y ∧
      (∀ e ∈ y.replay, e.dead = false → e.va.toNat / 65536 = p.va.toNat / 65536 → e.resumed = false) ∧
      (t.toCore.tile r.tile).faults = (s.toCore.tile r.tile).faults ++ [f] ∧ f.parked = true ∧ f.serves = some x.id.taskid)) ∧
  (∀ (s : State) (t q src id : Nat) (e : Entry), s.event = some (.remoteQueuePush t q e src id) →
    (∀ m, s.toCore.takesPush t q = false → src < Config.tiles → (s.toCore.tile src).cmds.find? (fun m => m.unacked.contains id) = some m →
      ∃ c y, exec .remoteQueuePush s = .next { s with toCore := c } ∧ c.mem = s.mem ∧ c.msgs = s.msgs ∧ c.cmd? src m.id = some y ∧
        y.phase = .faulted ∧ id ∉ y.unacked ∧ (m.bad = none → y.bad.map (fun b => b.2.cause) = some cNotarget)) ∧
    (∀ l dom rbar n rel ids bad, s.toCore.takesPush t q = false → src = Config.tiles → s.msgs = l ++ [.linkTransferLand (.landed dom rbar n rel ids bad)] →
      (∀ x, .linkTransferLand x ∉ l) → exec .remoteQueuePush s =
        .next { s with toCore := { s.toCore with msgs := l ++ [.linkTransferLand (.landed dom rbar n rel ids (bad || ids.contains id))] } }) ∧
    (s.toCore.takesPush t q = false → Config.tiles < src → s.toCore.domOf t < 4 → ∃ u, exec .remoteQueuePush s = .next u ∧ SameMemory s u ∧ u.tiles = s.tiles ∧
      (u.toCore.dom (s.toCore.domOf t)).devmsgs.length = (s.toCore.dom (s.toCore.domOf t)).devmsgs.length + 1) ∧
    (s.toCore.takesPush t q = true → (∀ p ∈ (s.toCore.tile t).pushBuf, p.q ≠ q) → s.toCore.pushRoom t q = true →
      exec .remoteQueuePush s = .next { s with toCore := (s.toCore.landPush t q e).acked src id }) ∧
    (s.toCore.takesPush t q = true → ((∃ p ∈ (s.toCore.tile t).pushBuf, p.q = q) ∨ s.toCore.pushRoom t q = false) → ∃ u,
      exec .remoteQueuePush s = .next u ∧ SameMemory s u ∧ u.doms = s.doms ∧
      u.toCore.tile t = { s.toCore.tile t with pushBuf := (s.toCore.tile t).pushBuf ++ [⟨q, e, src, id⟩] })) ∧
  (∀ (c : Core) (t q : Nat) (e : Entry) (x : Ctx), c.ctx? (.task t 0) = some x → ∃ y, (c.landPush t q e).ctx? (.task t 0) = some y ∧
    y.queue q = x.queue q ++ [⟨c.nid, some e⟩] ∧ (∀ k, k ≠ q → y.queue k = x.queue k) ∧ y = { x with q := y.q } ∧ (c.landPush t q e).mem = c.mem) ∧
  (∀ (s : State) (t : Nat), s.event = some (.pushBufferDrain t) → (s.toCore.pushReady t = none → exec .pushBufferDrain s = .next s) ∧
    (∀ p, s.toCore.pushReady t = some p → let c := s.toCore.updTile t fun tl => { tl with pushBuf := tl.pushBuf.erase p }
      (s.toCore.takesPush t p.q = true → exec .pushBufferDrain s = .next { s with toCore := (c.landPush t p.q p.data).acked p.src p.id }) ∧
      (s.toCore.takesPush t p.q = false → exec .pushBufferDrain s = .next { s with toCore := c.pushRefused t p.q p.src p.id }))) ∧
  (∀ (s : State) (t slot off id : Nat) (bytes : List Byte) (sender : BitVec 32) (sup host : Bool),
    s.event = some (.messageSlotWrite t slot off bytes sender sup host id) → let tl := s.toCore.tile t
    let w : HeldWrite := ⟨slot, off, bytes, sender, sup, host, id⟩
    ((tl.busy.contains slot = true ∨ ∃ h ∈ tl.held, h.slot = slot) → ∃ u, exec .messageSlotWrite s = .next u ∧ SameMemory s u ∧ u.doms = s.doms ∧
      u.toCore.tile t = { tl with held := tl.held ++ [w] }) ∧
    (tl.busy.contains slot = false → (∀ h ∈ tl.held, h.slot ≠ slot) → exec .messageSlotWrite s = .next { s with toCore := s.toCore.slotWrite t w })) ∧
  (∀ (c : Core) (t : Nat) (w : HeldWrite), w.id = 0 → let d := c.slotWrite t w
    d.mem = c.mem ∧ (∀ u, u ≠ t → d.tile u = c.tile u) ∧
    (∀ i, i < w.bytes.length → (w.off + i < 12 ∨ 16 ≤ w.off + i) → mapGet 0 (d.tile t).win (slotBase + 256 * w.slot + w.off + i) = w.bytes.getD i 0) ∧
    (∀ k, (k < slotBase + 256 * w.slot + w.off ∨ slotBase + 256 * w.slot + w.off + w.bytes.length ≤ k) → mapGet 0 (d.tile t).win k = mapGet 0 (c.tile t).win k) ∧
    (w.off = 0 → w.slot ∈ (d.tile t).busy ∧ (d.tile t).msgq = (c.tile t).msgq ++ [⟨w.slot, w.sup, w.host⟩]) ∧
    (w.off ≠ 0 → (d.tile t).busy = (c.tile t).busy ∧ (d.tile t).msgq = (c.tile t).msgq)) ∧
  (∀ (s : State) (t slot : Nat) (w : HeldWrite), s.event = some (.heldSlotWriteRelease t slot) →
    (s.toCore.tile t).held.find? (fun h => h.slot == slot) = some w →
    ((s.toCore.tile t).busy.contains slot = true → exec .heldSlotWriteRelease s = .next s) ∧
    ((s.toCore.tile t).busy.contains slot = false → let c := s.toCore.updTile t fun tl => { tl with held := tl.held.erase w }
      exec .heldSlotWriteRelease s = .next { s with toCore := c.slotWrite t w })) ∧
  (∀ (s : State) (t k : Nat) (f : QFault) (fs : List QFault), s.event = some (.handlerStart t) → (s.toCore.tile t).faults = f :: fs →
    (s.toCore.tile t).faultHc = some k → ∃ u x h, exec .handlerStart s = .next u ∧ SameMemory s u ∧ u.doms = s.doms ∧ u.toCore.ctx? (.hc t k) = some x ∧
      (u.toCore.tile t).faults = fs ∧ x.hc = some h ∧ h.slot = 240 + k ∧ h.fault = true ∧ h.serves = f.serves ∧ h.record = withHctx f.record k ∧
      x.pc = s.toCore.ctl (s.toCore.domOf t) 0x6A ∧ x.isSup = true ∧ x.r.getS 1 = slotVA (240 + k) ∧ (∀ n, 2 ≤ n → x.r.getS n = 0) ∧ x.status = .ready) ∧
  (∀ (s : State) (t k : Nat) (m : QMsg) (ms : List QMsg), s.event = some (.handlerStart t) → (s.toCore.tile t).faults = [] →
    (s.toCore.tile t).msgq = m :: ms → (s.toCore.tile t).messageHc m = some k → m.slot ≠ 255 →
    ∃ u x h, exec .handlerStart s = .next u ∧ SameMemory s u ∧ u.doms = s.doms ∧ u.toCore.ctx? (.hc t k) = some x ∧ (u.toCore.tile t).msgq = ms ∧
      x.hc = some h ∧ h.slot = m.slot ∧ h.fault = false ∧ h.serves = none ∧ x.pc = (s.toCore.tile t).slotWord m.slot 0 ∧
      x.r.getS 1 = slotVA m.slot ∧ x.r.getS 2 = (s.toCore.tile t).slotWord m.slot 1 ∧ (∀ n, 3 ≤ n → x.r.getS n = 0) ∧
      (m.sup = false → x.isSup = false)) ∧
  (∀ (tl : Tile) (m : QMsg) (k : Nat), tl.messageHc m = some k → mapGet none tl.hcs k = none ∧ (m.slot = 255 → k = 7) ∧ (m.slot ≠ 255 → k < 7)) ∧
  (∀ (s : State) (t : Nat), s.event = some (.handlerStart t) → (s.toCore.tile t).handlerPick = .none → exec .handlerStart s = .next s) ∧
  (∀ (s : State) (d t : Nat) (m : DevMsg) (rest : List DevMsg), s.event = some (.deviceMessageDeliver d) → s.toCore.supTile d = some t →
    (s.toCore.dom d).devmsgs = m :: rest →
    ((s.toCore.tile t).busy.contains 255 = true → exec .deviceMessageDeliver s = .next s) ∧
    ((s.toCore.tile t).busy.contains 255 = false → ∃ u, exec .deviceMessageDeliver s = .next u ∧ SameMemory s u ∧
      u.toCore.dom d = { s.toCore.dom d with devmsgs := rest } ∧ 255 ∈ (u.toCore.tile t).busy ∧
      (u.toCore.tile t).msgq = (s.toCore.tile t).msgq ++ [⟨255, true, false⟩])) ∧
  (∀ (s : State) (d : Nat), s.event = some (.unsupervisedDomainTimer d) → (s.toCore.unsupervised d = false → exec .unsupervisedDomainTimer s = .next s) ∧
    (s.toCore.unsupervised d = true → ∃ u, exec .unsupervisedDomainTimer s = .next u ∧ SameMemory s u ∧ u.tiles = s.tiles ∧
      u.toCore.dom d = { s.toCore.dom d with unsup := true } ∧ (u.mc.log.getLast?.map fun e => e.unit) = some (0xFFF0 + BitVec.ofNat 16 d)))

/-! Tasks and the launch scheduler (07 R180, R185, 15 R374 to R382, 16 R383 to R400, R459). -/

/-- The running task of a tile traps at its last bundle: it is suspended, its record waits for a handler context, memory and domains stay (17 R403 to R408). -/
def Trapped (s t : State) (tl : Nat) (x y : Ctx) (kind : Nat) : Prop :=
  SameMemory s t ∧ t.doms = s.doms ∧ t.toCore.ctx? (.task tl 0) = some y ∧ y.status = .suspended ∧ y.pc = x.pc ∧ y.r.s = x.r.s ∧ y.q = x.q ∧
  ∃ f, (t.toCore.tile tl).faults = (s.toCore.tile tl).faults ++ [f] ∧ f.parked = false ∧ f.serves = some x.id.taskid ∧
    wbits (f.record.getD 0 0) 56 8 = kind

/-- 07 R180, R185, 15 R374, R376, R382, 16 R383 to R394, R397 to R400, R459: launches wait for their dependence barriers; a candidate goes to the shortest queue
that it fits; a task starts in the zero state; an aligned boundary performs the first request; a yield, the watchdog and the budget; the pair at
its splice point; a task that resumes; a tile that is emptied.
The model's choices in it are those of log entries 17, 31, 32, 34, 35 and 41. -/
def Obligations.TasksAndTheScheduler : Prop :=
  (∀ (s : State) (d lq ser : Nat) (side head : Bool) (l : Launch), s.event = some (.dependenceWaitEnd d side lq) →
    (s.toCore.dom d).depNext (lqKey side lq) = some (ser, l, head) →
    (s.toCore.depEnd d l = .waits → exec .dependenceWaitEnd s = .next s) ∧
    (s.toCore.depEnd d l = .ended → ∃ t, exec .dependenceWaitEnd s = .next t ∧ SameMemory s t ∧ t.tiles = s.tiles ∧
      mapGet none (t.toCore.dom d).launches ser = some { l with ready := true, since := s.sclk }) ∧
    (∀ die q, s.toCore.depEnd d l = .publish die → s.toCore.dirtyReps die d = [q] →
      exec .dependenceWaitEnd s = .next { s with toCore := s.toCore.publish q }) ∧
    (s.toCore.depEnd d l = .failed → head = false → exec .dependenceWaitEnd s = .next s) ∧
    (s.toCore.depEnd d l = .failed → head = true → l.ident.cpen = false → ∃ t, exec .dependenceWaitEnd s = .next t ∧ SameMemory s t ∧
      t.tiles = s.tiles ∧ mapGet none (t.toCore.dom d).launches ser = none ∧ ser ∉ mapGet [] (t.toCore.dom d).lqs (lqKey side lq))) ∧
  (∀ (c : Core) (d : Nat) (l : Launch), (l.dpen = false → c.depEnd d l = .ended) ∧ (l.dpen = true → l.dbar.toNat % 16 ≠ 0 → c.depEnd d l = .failed) ∧
    (∀ x, l.dpen = true → l.dbar.toNat % 16 = 0 → c.translateNow (deviceWho d) (.load 4) l.dbar = .ok x → barPlace x = true → c.poison = [] →
      (∀ die, c.widen d Config.tiles .primary x.pa 16 = some die → c.depEnd d l = .publish die) ∧
      (c.widen d Config.tiles .primary x.pa 16 = none → ((c.barAt x.pa).waitEnd l.dphase = .reached → c.depEnd d l = .ended) ∧
        ((c.barAt x.pa).waitEnd l.dphase = .waits → c.depEnd d l = .waits)))) ∧
  (∀ (s : State) (d : Nat) (side : Bool), s.event = some (.placementDecision d side) →
    (s.toCore.choose d side (s.toCore.served d side) [] = none → exec .placementDecision s = .next s) ∧
    (∀ x t, s.toCore.choose d side (s.toCore.served d side) [] = some (x, t) →
      exec .placementDecision s = .next { s with toCore := s.toCore.place d side x t })) ∧
  (∀ (c : Core) (d t : Nat) (side : Bool) (x : Cand) (kept : List Nat), c.tileFor d side x kept = some t →
    let ok := fun u => u < Config.tiles ∧ c.usable d side x u = true ∧ (c.tile u).closed = false ∧ u ∉ kept ∧ c.fitsBoth u x.ident x.mate = true
    ok t ∧ ∀ u, ok u → (c.tile t).queue.length ≤ (c.tile u).queue.length ∧ ((c.tile t).queue.length = (c.tile u).queue.length → t ≤ u)) ∧
  (∀ (c : Core) (d t i : Nat) (x : Cand) (y : Spawned), x.src = .spawn i → (c.dom d).spawnsA[i]? = some y → ∃ z, let e := c.place d false x t
    (e.tile t).queue = (c.tile t).queue ++ [z] ∧ z.life = .fresh ∧ z.id = { y.ident with ep := x.ep } ∧ z.r.twgt = y.twgt ∧
      (e.dom d).spawnsA = (c.dom d).spawnsA.eraseIdx i ∧ e.mem = c.mem) ∧
  (∀ (c : Core) (d t q ser : Nat) (side : Bool) (x : Cand) (l : Launch), x.src = .launch q ser → mapGet none (c.dom d).launches ser = some l →
    descW x.ident.desc 1 37 1 = 0 → l.next + 1 < l.n → ∃ z, let e := c.place d side x t
    (e.tile t).queue = (c.tile t).queue ++ [z] ∧ z.life = .fresh ∧ z.id = x.ident ∧ z.r.twgt = BitVec.ofNat 48 (2 ^ 24) ∧
      mapGet none (e.dom d).launches ser = some { l with next := l.next + 1 } ∧ e.mem = c.mem) ∧
  (∀ (s : State) (t : Nat), s.event = some (.taskStart t) → (s.toCore.startable t = none → exec .taskStart s = .next s) ∧
    (∀ x, s.toCore.startable t = some 0 → (s.toCore.tile t).queue = [x] → let dm := s.toCore.dom (s.toCore.domOf t)
      ∃ u y, exec .taskStart s = .next u ∧ SameMemory s u ∧ (u.toCore.tile t).queue = [y] ∧ y.id = x.id ∧ y.life = .live ∧ y.started = true ∧ y.first = true ∧
        y.status = .ready ∧ y.pc = x.id.desc.getD 0 0 ∧ (∀ n, y.r.getS n = 0) ∧ y.r.g = 0 ∧ y.q = [] ∧ y.a = [] ∧ y.lp = [] ∧ y.r.fpsf = 0 ∧
        y.r.seedk = x.id.seed ∧ y.r.limit = x.id.budget ∧ y.r.tver = dm.lver ∧ y.r.twgt = x.r.twgt ∧ y.r.cyc = 0 ∧ (dm.heldEv = [] → y.r.ev = 0) ∧
        (∀ r, x.r.accb ≤ r → r < x.r.accb + x.id.accr → ∀ k v, (k, v) ∈ (u.toCore.tile t).acc → k ≠ r) ∧
        ∀ k v, (k, v) ∈ (u.toCore.tile t).banks → nbits x.id.flanes (k / 4096) 1 = 0)) ∧
  (∀ (s : State) (t : Nat) (p : Pair), s.event = some (.splicePointCheck t) → (s.toCore.tile t).pair = some p → p.phase = .check →
    let x := s.toCore.ctx (.task t 0)
    let y := s.toCore.ctx (.task t 1)
    let a := x.stream (descW x.id.desc 10 53 4)
    let b := y.stream (descW y.id.desc 10 57 4)
    let agree := streamsAgree a b (descW x.id.desc 10 0 24) (descW y.id.desc 10 24 24)
    let d := s.toCore.domOf t
    (agree = true → exec .splicePointCheck s = .next { s with toCore := s.toCore.join t p b.eb }) ∧
    (agree = false → ∃ u, exec .splicePointCheck s = .next u ∧ SameMemory s u ∧ (u.toCore.tile t).pair = some { p with phase := .refusedP } ∧
      (u.toCore.dom d).spref = (s.toCore.dom d).spref + 1 ∧ (u.toCore.dom d).lreason = 7)) ∧
  (∀ (c : Core) (t eb : Nat) (p : Pair), let e := c.join t p eb
    (e.dom (c.domOf t)).spdone = (c.dom (c.domOf t)).spdone + 1 ∧ ((e.tile t).pair.map fun p => p.phase) = some .joined ∧ e.mem = c.mem) ∧
  (∀ (s : State) (t : Nat) (p : Pair), s.event = some (.spliceSharedRelease t) → (s.toCore.tile t).pair = some p → p.phase = .sharedRelease → p.sig = [] →
    let z : State := { s with ref := .task t 0, slot := 4 }
    let q := (scopeOf (descW z.me.id.desc 10 48 4)).getD .mod
    ReleaseReady z q → ∃ u, exec .spliceSharedRelease s = .next u ∧ SameMemory s u ∧ u.doms = s.doms ∧
      (u.toCore.tile t).pair = some { p with phase := .epilogueP, sig := [] } ∧
      ∀ x, s.toCore.ctx? (.task t 0) = some x → u.toCore.ctx? (.task t 0) = some { x with status := .ready }) ∧
  (∀ (s : State) (t : Nat), s.event = some (.taskResume t) → (s.toCore.resumable t = false → exec .taskResume s = .next s) ∧
    (∀ x xs, s.toCore.resumable t = true → (s.toCore.tile t).queue = x :: xs → x.life = .preempted → x.pair = none → x.uc = none →
      (∀ n, n < 4 → (x.plane n).psrc = 0) → (∀ e ∈ (s.toCore.dom (s.toCore.domOf t)).resuming, e.1 ≠ x.id.taskid) →
      ∃ u y, exec .taskResume s = .next u ∧ SameMemory s u ∧ u.doms = s.doms ∧ (u.toCore.tile t).queue = y :: xs ∧ y.life = .live ∧
        y.status = .ready ∧ y.pc = x.pc ∧ y.r = x.r ∧ y.q = x.q ∧ y.id = x.id)) ∧
  (∀ (s : State) (t : Nat), s.event = some (.alignedBoundaryReached t) → s.toCore.testIdle t = false →
    (s.toCore.boundaryDue t = false → exec .alignedBoundaryReached s = .next s) ∧
    (s.toCore.boundaryDue t = true → s.toCore.hasReq t .selfTest = false →
      (s.toCore.hasReq t .move = true → exec .alignedBoundaryReached s = .next { s with toCore := (s.toCore.stopHead t).answered (.pre t) }) ∧
      (s.toCore.hasReq t .move = false → s.toCore.hasReq t .pre = true →
        exec .alignedBoundaryReached s = .next { s with toCore := (s.toCore.rotate t).answered (.pre t) }) ∧
      (s.toCore.hasReq t .move = false → s.toCore.hasReq t .pre = false → (s.toCore.tile t).closed = false →
        (s.toCore.tile t).headCount < (s.toCore.tile t).queue.length → exec .alignedBoundaryReached s = .next { s with toCore := s.toCore.rotate t }) ∧
      (s.toCore.hasReq t .move = false → s.toCore.hasReq t .pre = false →
        ((s.toCore.tile t).closed = true ∨ (s.toCore.tile t).queue.length ≤ (s.toCore.tile t).headCount) →
        exec .alignedBoundaryReached s = .next { s with toCore := s.toCore.dropReqs t [.yield] })) ∧
    (s.toCore.boundaryDue t = true → s.toCore.hasReq t .selfTest = true → ∃ u, exec .alignedBoundaryReached s = .next u ∧ SameMemory s u ∧
      (u.toCore.tile t).testing = s.toCore.testWanted t)) ∧
  (∀ (c : Core) (t : Nat) (x : Ctx) (xs : List Ctx), (c.tile t).queue = x :: xs → (c.tile t).pair = none → x.life = .live →
    let y := { x with life := .preempted, status := .ready, reqs := [], reqEnd := 0, pair := none }
    ((c.rotate t).tile t).queue = xs ++ [y] ∧ ((c.stopHead t).tile t).queue = y :: xs) ∧
  (∀ (s : State) (t : Nat) (x : Ctx) (xs : List Ctx), s.event = some (.yield t) → (s.toCore.tile t).pair = none → (s.toCore.tile t).queue = x :: xs →
    (s.toCore.yieldDue t = false → exec .yield s = .next s) ∧
    (s.toCore.yieldDue t = true → let n := wbits (s.toCore.ctl (s.toCore.domOf t) 0x70) 0 32
      ∃ u z, exec .yield s = .next u ∧ SameMemory s u ∧ u.doms = s.doms ∧ (u.toCore.tile t).queue = z :: xs ∧
        z.r = { x.r with cyc := x.r.cyc + BitVec.ofNat 64 (if x.reqEnd = 0 then n else min n (x.reqEnd.toNat - x.r.cyc.toNat)) } ∧
        (xs ≠ [] → (s.toCore.tile t).closed = false → z.reqs = x.reqs ++ [.yield] ∧
          z.reqEnd = if x.reqs = [] then z.r.cyc + BitVec.ofNat 64 x.id.abint else x.reqEnd) ∧
        ((xs = [] ∨ (s.toCore.tile t).closed = true) → z = { x with r := z.r }))) ∧
  (∀ (s : State) (t : Nat) (x : Ctx) (xs : List Ctx), s.event = some (.abintWatchdog t) → (s.toCore.tile t).pair = none →
    (s.toCore.tile t).queue = x :: xs → (s.toCore.watchdogDue t = false → exec .abintWatchdog s = .next s) ∧
    (s.toCore.watchdogDue t = true → (x.r.limit = 0 ∨ x.budDone = true) → x.id.logit = false →
      (x.reqEnd.toNat ≤ x.r.cyc.toNat + x.id.abint → ∃ u y, exec .abintWatchdog s = .next u ∧ Trapped s u t x y kWatchdog ∧ y.reqEnd = 0 ∧
        y.r.cyc.toNat = max x.r.cyc.toNat x.reqEnd.toNat) ∧
      (x.r.cyc.toNat + x.id.abint < x.reqEnd.toNat → ∃ u y, exec .abintWatchdog s = .next u ∧ SameMemory s u ∧ u.doms = s.doms ∧
        (u.toCore.tile t).queue = y :: xs ∧ y = { x with r := { x.r with cyc := x.r.cyc + BitVec.ofNat 64 x.id.abint } }))) ∧
  (∀ (s : State) (t : Nat) (x : Ctx) (xs : List Ctx), s.event = some (.budgetOverrun t) → (s.toCore.tile t).pair = none →
    (s.toCore.tile t).queue = x :: xs → (s.toCore.overrun t = none → exec .budgetOverrun s = .next s) ∧
    (∀ p, s.toCore.overrun t = some p → x.id.logit = false → (x.reqEnd = 0 ∨ x.r.limit.toNat ≤ x.reqEnd.toNat) →
      ∃ u y, exec .budgetOverrun s = .next u ∧ Trapped s u t x y kBudget ∧ y.budDone = true ∧ y.r.cyc.toNat = max x.r.cyc.toNat x.r.limit.toNat)) ∧
  (∀ (s : State) (t : Nat), s.event = some (.borderSaveComplete t) → exec .borderSaveComplete s = .next { s with toCore := s.toCore.saveStep t }) ∧
  (∀ (c : Core) (t : Nat), (c.tile t).stage ≠ .active → (c.tile t).stage ≠ .releasing → (c.tile t).queue = [] → let e := c.saveStep t
    (e.tile t).stage = .releasing ∧ e.mem = c.mem ∧ e.doms = c.doms ∧ ∀ i, i ∈ (e.tile t).saving ↔ i ∈ (c.tile t).saving ∨
      (∃ k x, (k, some x) ∈ (c.tile t).hcs ∧ i ∈ x.unacked) ∨ ∃ m ∈ (c.tile t).cmds, i ∈ m.unacked) ∧
  (∀ (c : Core) (t : Nat), (c.tile t).stage = .releasing → (c.tile t).queue = [] →
    ((c.tile t).saving ≠ [] ∨ c.clean (dieOf t) (c.domOf t) = false) → c.saveStep t = c) ∧
  (∀ (c : Core) (t : Nat) (m : Move), (c.tile t).stage = .releasing → (c.tile t).queue = [] → (c.tile t).saving = [] →
    c.clean (dieOf t) (c.domOf t) = true → (c.tile t).serv = true → (c.dom (c.domOf t)).move = some m → m.tiles = [t] → let e := c.saveStep t
    (e.tile t).learner = m.side ∧ (e.tile t).closed = false ∧ (e.tile t).stage = .active ∧ (e.dom (c.domOf t)).move = none ∧
      (e.dom (c.domOf t)).nmove = (c.dom (c.domOf t)).nmove + 1 ∧ e.mem = c.mem) ∧
  (∀ (c : Core) (t k : Nat) (x : Ctx) (xs : List Ctx), (c.tile t).stage = .draining → (c.tile t).queue = x :: xs → x.life = .fresh → x.pair = none →
    (c.tile t).pair = none → (∀ e ∈ (c.dom (c.domOf t)).resuming, e.1 ≠ x.id.taskid) → (c.dom (c.domOf t)).freeSlot = some k →
    c.slotFault (c.domOf t) ((c.dom (c.domOf t)).slotPa k) (c.taskImage t 0 none).length = none → ∃ y, let e := c.saveStep t
    (e.tile t).queue = xs ∧ (e.tile t).stage = .saving ∧ k ∈ (e.dom (c.domOf t)).slotUsed ∧ y ∈ (e.dom (c.domOf t)).saved ∧ y.slot = k ∧
      y.ident = x.id ∧ y.fresh = true) ∧
  (∀ (s : State) (d w : Nat) (v : Word), s.event = some (.borderBlockWrite d w v) → let dm := s.toCore.dom d
    (dm.move.isSome → exec .borderBlockWrite s = .next s) ∧
    (dm.move = none → w = 16 → ∃ u, exec .borderBlockWrite s = .next u ∧ SameMemory s u ∧ u.tiles = s.tiles ∧
      u.toCore.dom d = { dm with bbase := BitVec.ofNat 64 (wbits v 24 28 * 2 ^ 24 + wbits v 0 1) }) ∧
    (dm.move = none → w = 17 → ∃ u, exec .borderBlockWrite s = .next u ∧ SameMemory s u ∧ u.tiles = s.tiles ∧
      u.toCore.dom d = { dm with slots := v.extractLsb' 0 16 }))

/-! The privileged operations (09 R247 to R253, 01 R45, 16 R398, R391). -/

/-- 09 R247 to R253, 08 R221: the privileged operations act in a supervisor context and raise PRIV in every other; `tlb.inv` removes the named translations of the
domain; `ctx.sv` and `ctx.ld` save and load a task; `tile.pre` and `brd.mov` ask for boundaries and answer when they are reached; `uc.vfy` checks an
image. Each status is the least that applies.
The model's choices in it are those of log entries 7, 19 and 38. -/
def Obligations.SupervisorOperations : Prop :=
  (∀ s : State, s.old.isSup = false → (∀ o : OpTlbInv, s.guardOk o.gd → exec (.tlbInv o) s = .next (s.trap privTrap)) ∧
    (∀ o : OpRR, s.guardOk o.gd → exec (.ctxSv o) s = .next (s.trap privTrap) ∧ exec (.tilePre o) s = .next (s.trap privTrap) ∧
      exec (.ucVfy o) s = .next (s.trap privTrap)) ∧
    (∀ o : OpRRR, s.guardOk o.gd → exec (.ctxLd o) s = .next (s.trap privTrap) ∧ exec (.brdMov o) s = .next (s.trap privTrap))) ∧
  (∀ (o : OpTlbInv) (s : State), s.guardOk o.gd → s.old.isSup = true → s.readable o.a → s.readable o.b →
    let d := s.toCore.domOf s.ref.tile
    let pages := s.toCore.invPages d o.kind.toNat (s.scalar o.a) (s.scalar o.b)
    ReleaseReady s .mod → (pages = [] → exec (.tlbInv o) s = .next { s with toCore := s.toCore.invalidate d o.kind.toNat (s.scalar o.a) (s.scalar o.b) }) ∧
      (pages ≠ [] → exec (.tlbInv o) s = .next (s.wait (.drop pages)))) ∧
  (∀ (c : Core) (d kind t : Nat) (a b : Word), let e := c.invalidate d kind a b
    e.mem = c.mem ∧ (∀ k, e.dom k = { c.dom k with heldPark := (e.dom k).heldPark }) ∧ ((c.tile t).dom ≠ some d → e.tile t = c.tile t) ∧
    ((c.tile t).dom = some d → (∀ x ∈ (e.tile t).tlb, x ∈ (c.tile t).tlb) ∧ (kind = 0 → ∀ x ∈ (e.tile t).tlb, x.dom ≠ d) ∧
      (kind = 1 → ∀ x ∈ (e.tile t).tlb, x.dom = d → ¬ (x.first ≤ a.toNat / 65536 ∧ a.toNat / 65536 < x.first + szPages x.sz)) ∧
      (∀ x ∈ (c.tile t).tlb, x.dom ≠ d → x ∈ (e.tile t).tlb) ∧ (kind ≠ 0 → kind ≠ 3 → (e.tile t).regions = (c.tile t).regions) ∧
      (kind = 3 → (e.tile t).tlb = (c.tile t).tlb ∧ (e.tile t).regions = []) ∧
      ∀ r x, r.tile = t → c.ctx? r = some x → ∃ y, e.ctx? r = some y ∧ y.r = x.r ∧ y.q = x.q ∧ y.pc = x.pc)) ∧
  (∀ (o : OpRR) (s : State), s.guardOk o.gd → s.old.isSup = true → s.readable o.a → let a := s.scalar o.a
    let answer := fun n => exec (.ctxSv o) s = .next (s.wrS o.d (BitVec.ofNat 64 (2 ^ 40 + n)))
    (a.toNat % 65536 ≠ 0 → answer 1) ∧
    (a.toNat % 65536 = 0 → s.toCore.suspended s.ref = none → ((∃ i, s.toCore.translate (s.toCore.who s.ref) (.store 3) a = .error (.trap i)) → answer 2) ∧
      ((∀ va, va = a ∨ va = a + 65536 → ∃ l pl, s.toCore.translate (s.toCore.who s.ref) (.store 3) va = .ok l ∧
        s.toCore.placeOf (s.toCore.who s.ref) (.store 3) l = .ok pl) → answer 3))) ∧
  (∀ (c : Core) (r : CtxRef) (va : Word) (n : Nat), (c.bufferPages r va 0 = .ok (some [])) ∧
    (∀ i, c.translate (c.who r) (.store 3) va = .error (.trap i) → c.bufferPages r va (n + 1) = .ok none) ∧
    (∀ l pl ps, c.translate (c.who r) (.store 3) va = .ok l → c.placeOf (c.who r) (.store 3) l = .ok pl → c.bufferPages r (va + 65536) n = .ok ps →
      c.bufferPages r va (n + 1) = .ok (ps.map fun t => (l, pl) :: t))) ∧
  (∀ (o : OpRR) (s : State) (t k p : Nat) (x : Ctx), s.ref = .hc t k → s.guardOk o.gd → s.old.isSup = true → s.readable o.a →
    s.toCore.suspended s.ref = some p → (s.scalar o.a).toNat % 65536 = 0 → (s.toCore.tile t).pair = none → s.toCore.ctx? (.task t p) = some x →
    let n := (x.imgLen + 65535) / 65536
    (s.asked = none → (x.still = false ∨ s.toCore.released (.task t p) .mod = false) → exec (.ctxSv o) s = .next (s.wait .task)) ∧
    (s.asked = none → x.still = true → s.toCore.released (.task t p) .mod = true →
      (s.toCore.bufferPages s.ref (s.scalar o.a) n = .ok none → exec (.ctxSv o) s = .next (s.wrS o.d (BitVec.ofNat 64 (2 ^ 40 + 2)))) ∧
      ∀ ps, s.toCore.bufferPages s.ref (s.scalar o.a) n = .ok (some ps) → exec (.ctxSv o) s = .next (s.wait (.save (s.scalar o.a)))) ∧
    (s.asked.isSome → ReleaseReady s .mod → ∃ u h, exec (.ctxSv o) s = .next u ∧ SameMemory s u ∧
      (u.toCore.tile t).queue = (s.toCore.tile t).queue.eraseIdx p ∧ (o.d ≠ 0 → u.me.r.getS o.d.toNat = BitVec.ofNat 64 x.imgLen) ∧
      u.me.hc = some h ∧ h.savedTask = true ∧ h.asked = none ∧
      (u.toCore.dom (s.toCore.domOf t)).away = (s.toCore.dom (s.toCore.domOf t)).away ++ [x.id.taskid])) ∧
  (∀ (c : Core) (t k p : Nat) (va : Word) (y : Ctx) (h : HcInfo) (ps : List (Loc × Place)), let r := CtxRef.hc t k
    c.ctx? r = some y → y.status = .waiting (.save va) → y.hc = some h → h.asked = none → c.suspended r = some p → (c.tile t).pair = none →
    c.bufferPages r va (((c.ctx (.task t p)).imgLen + 65535) / 65536) = .ok (some ps) → c.home = [] → c.pages = [] → c.poison = [] →
    c.aden (c.domOf t) = false → (∀ e ∈ ps, e.2 = .primary ∧ e.1.pa % 65536 = 0 ∧ ∃ f, paRegion e.1.pa = .hbm f) → (ps.map fun e => e.1.pa).Nodup →
    let img := c.taskImage t p none
    let e := c.beginSave r
    (∃ g, (e.ctx r).hc = some g ∧ g.asked = some false) ∧
    ∀ i l pl n, ps[i]? = some (l, pl) → n < 65536 → i * 65536 + n < img.length → e.homeByte (l.pa + n) = img.getD (i * 65536 + n) 0) ∧
  (∀ (s : State) (va : Word) (n fuel : Nat) (acq : Bool), 0 < n → let first := 65536 - va.toNat % 65536
    (∀ i, s.toCore.translateSpan (s.toCore.whoFor s.ref (.load 3)) (.load 3) va (min n first) = .error (.trap i) → s.readOperand va n acq (fuel + 1) = .ok (none, s)) ∧
    (∀ l pl, n ≤ first → LoadReady s (.load 3) va n true l pl → let u := s.afterLoad n false true l pl
      (acq = true → AcquireFree u va n) → s.readOperand va n acq (fuel + 1) = .ok (some (s.loadValue va n true l pl), u)) ∧
    (∀ l pl o t, first < n → LoadReady s (.load 3) va first true l pl → let u := s.afterLoad first false true l pl
      (acq = true → AcquireFree u va first) → u.readOperand (va + BitVec.ofNat 64 first) (n - first) acq fuel = .ok (o, t) →
      s.readOperand va n acq (fuel + 1) = .ok (o.map fun bs => s.loadValue va first true l pl ++ bs, t))) ∧
  (∀ (o : OpRRR) (s s1 s2 : State) (hd img : List Byte), s.here → s.guardOk o.gd → s.old.isSup = true → s.readable o.a → s.readable o.b →
    s.readOperand (s.scalar o.a) 0x1000 true 3 = .ok (some hd, s1) → numAt hd 8 8 ≤ 2 * (0x20000 + 0x1000 * 256 + 0x400 * 4096) →
    s1.readOperand (s.scalar o.a) (numAt hd 8 8) true 200 = .ok (some img, s2) → s2.here →
    let t := wbits (s.scalar o.b) 0 9
    let d := s.toCore.domOf s.ref.tile
    let dm := s2.toCore.dom d
    let i := dm.identOf img
    let sound := dm.imageSound img
    let codes := [(!s2.toCore.inDomain d t, 1), (sound && (s2.toCore.tile t).learner != i.side, 2),
      (sound && !s2.toCore.fitsBoth t i ((imageMate img).map fun m => dm.identOf m), 3), (!sound, 4), ((s2.toCore.tile t).closed, 5)]
    (∀ n, leastOf codes = some n → exec (.ctxLd o) s = .next (s2.status o.d n)) ∧
    (leastOf codes = none → imageMate img = none → s.ref.isHc = true → ∃ u z, exec (.ctxLd o) s = .next u ∧ SameMemory s2 u ∧
      (u.toCore.tile t).queue = (s2.toCore.tile t).queue ++ [z] ∧ z.id = i ∧ (o.d ≠ 0 → u.me.r.getS o.d.toNat = 0) ∧
      ∀ w ∈ (u.toCore.dom d).away, idKey w ≠ idKey i.taskid)) ∧
  (∀ (o : OpRRR) (s s1 : State), s.guardOk o.gd → s.old.isSup = true → s.readable o.a → s.readable o.b →
    s.readOperand (s.scalar o.a) 0x1000 true 3 = .ok (none, s1) → (s1.toCore.inDomain (s.toCore.domOf s.ref.tile) (wbits (s.scalar o.b) 0 9) = true) →
    exec (.ctxLd o) s = .next (s1.status o.d 4)) ∧
  (∀ (o : OpRR) (s : State), s.guardOk o.gd → s.old.isSup = true → s.readable o.a →
    let t := wbits (s.scalar o.a) 0 9
    (s.asked = some true → exec (.tilePre o) s = .next (s.status o.d 0)) ∧
    (s.asked = some false → exec (.tilePre o) s = .next (if s.toCore.hasReq t .pre then s.wait (.pre t) else s.status o.d 0)) ∧
    (s.asked = none → (s.toCore.tile t).dom ≠ some (s.toCore.domOf s.ref.tile) → exec (.tilePre o) s = .next (s.status o.d 1)) ∧
    (s.asked = none → (s.toCore.tile t).dom = some (s.toCore.domOf s.ref.tile) →
      (s.toCore.running t = true → exec (.tilePre o) s = .next (s.wait (.pre t))) ∧
      (s.toCore.running t = false → exec (.tilePre o) s = .next (s.status o.d (if (s.toCore.tile t).stage = .draining then 0 else 2))))) ∧
  (∀ (c : Core) (r : CtxRef) (t : Nat) (x : Ctx) (h : HcInfo) (y : Ctx) (ys : List Ctx), c.ctx? r = some x → x.hc = some h → h.asked = none →
    r.isHc = true → (c.tile t).queue = y :: ys → (c.request r (.pre t)).hasReq t .pre = true ∧
      ∃ z, (c.request r (.pre t)).ctx? r = some z ∧ z.hc = some { h with asked := some false }) ∧
  (∀ (o : OpRRR) (s s1 : State) (mask : Option (List Byte)), s.guardOk o.gd → s.old.isSup = true → s.readable o.a → s.readable o.b →
    let d := s.toCore.domOf s.ref.tile
    let learner := wbits (s.scalar o.b) 0 1 == 1
    (s.asked = some true → exec (.brdMov o) s = .next (s.status o.d 0)) ∧
    (s.asked = some false → exec (.brdMov o) s =
      .next (if (s.toCore.dom d).move.isSome then s.wait (.move [] learner) else s.status o.d 0)) ∧
    (s.asked = none → s.readOperand (s.scalar o.a) 64 false 3 = .ok (mask, s1) →
      (∀ n, s1.toCore.movStatus d mask (s.scalar o.b) = some n → exec (.brdMov o) s = .next (s1.status o.d n)) ∧
      (s1.toCore.movStatus d mask (s.scalar o.b) = none → exec (.brdMov o) s = .next (s.wait (.move ((List.range Config.tiles).filter fun t =>
        ((mask.getD []).getD (t / 8) 0).getLsbD (t % 8) && (s1.toCore.tile t).learner != learner) learner))))) ∧
  (∀ (c : Core) (d : Nat) (b : Word), c.movStatus d none b = (if (c.dom d).move.isSome then some 4 else some 5)) ∧
  (∀ (c : Core) (d : Nat) (b : Word) (m : List Byte), let named := fun t => t < Config.tiles ∧ (m.getD (t / 8) 0).getLsbD (t % 8) = true
    let side := wbits b 0 1 == 1
    (c.movStatus d (some m) b = none ↔ (∀ t, named t → c.inDomain d t = true) ∧ (∃ t, named t ∧ (c.tile t).learner ≠ side) ∧
      (∃ t, t < Config.tiles ∧ c.inDomain d t = true ∧ (c.tile t).learner ≠ side ∧ ¬ named t) ∧ (c.dom d).move = none ∧ wbits b 1 63 = 0) ∧
    ((∃ t, named t ∧ c.inDomain d t = false) → c.movStatus d (some m) b = some 1) ∧
    ((∀ t, named t → c.inDomain d t = true ∧ (c.tile t).learner = side) → c.movStatus d (some m) b = some 2)) ∧
  (∀ (o : OpRR) (s s1 : State) (img : List Byte), s.guardOk o.gd → s.old.isSup = true → s.readable o.a →
    (s.readOperand (s.scalar o.a) 2160 false 3 = .ok (none, s1) → exec (.ucVfy o) s = .next (s1.status o.d 3)) ∧
    (s.readOperand (s.scalar o.a) 2160 false 3 = .ok (some img, s1) →
      (s1.toCore.imageSigned img = false → exec (.ucVfy o) s = .next (s1.status o.d 1)) ∧
      (s1.toCore.imageSigned img = true → ((img.drop 8).take 8).any (· != 0) = true → exec (.ucVfy o) s = .next (s1.status o.d 2)) ∧
      (s1.toCore.imageSigned img = true → ((img.drop 8).take 8).all (· == 0) = true → (s.scalar o.a).toNat % 64 ≠ 0 →
        exec (.ucVfy o) s = .next (s1.status o.d 4)) ∧
      (s1.toCore.imageSigned img = true → ((img.drop 8).take 8).all (· == 0) = true → (s.scalar o.a).toNat % 64 = 0 →
        exec (.ucVfy o) s = .next (s1.status o.d 0)))) ∧
  (∀ (s : State) (d : BitVec 6) (n : Nat), s.here → d ≠ 0 → SameMemory s (s.status d n) ∧ (s.status d n).me.r.getS d.toNat = BitVec.ofNat 64 n ∧
    (s.status d n).doms = s.doms ∧ ∀ k, k ≠ d.toNat → (s.status d n).me.r.getS k = s.me.r.getS k)

/-! The tables of the I/O dies, the host ports, the fabric, and the management controller (06 R151, R152, 18 R416 to R432, 19 R433 to R441, 00 R3, R15, 17 R412 to R415). -/

/-- An event that only the management controller's own registers take. -/
def McOnly (s t : State) : Prop := t = { s with mc := t.mc }

/-- 06 R151, R152, 18 R416 to R432, 19 R433 to R441, 00 R3, R15, 17 R412 to R415: the stores to the device tables; host writes and reads through a bound function,
in order; CXL snoops; flits, ports and weight broadcasts; the resets; attestation in order; the power tick; margins; errors and self-tests.
The model's choices in it are those of log entries 1, 3, 4, 5, 11, 22, 29, 33, 34, 37, 39 and 40. -/
def Obligations.DevicesAndManagement : Prop :=
  (∀ (s : State) (d r w : Nat) (v : Word), s.event = some (.regionEntryStore d r w v) → ∃ t, exec .regionEntryStore s = .next t ∧ SameMemory s t ∧
    t.tiles = s.tiles ∧ (∀ k, k ≠ d → t.toCore.dom k = s.toCore.dom k) ∧
    (r = headerEntry → t.toCore.dom d = { s.toCore.dom d with lver := v.setWidth 16 }) ∧
    (r ≠ headerEntry → let rg := (s.toCore.dom d).region r
      let rt := (t.toCore.dom d).region r
      (∀ k, k ≠ r → (t.toCore.dom d).region k = (s.toCore.dom d).region k) ∧
      (rg.en = true → w ≠ 0 → rt = { rg with merr := true }) ∧
      (rg.en = true → w = 0 → rt = { rg with en := wbits v 0 1 == 1, merr := rg.merr && wbits v 1 1 == 0 }) ∧
      (rg.en = false → w ≠ 0 → rt = rg.write w v) ∧
      (rg.en = false → w = 0 → wbits v 0 1 = 1 → (s.toCore.dom d).enableRefused r (rg.write 0 v) = true → rt = { rg.write 0 v with merr := true }) ∧
      (rg.en = false → w = 0 → wbits v 0 1 = 1 → (s.toCore.dom d).enableRefused r (rg.write 0 v) = false → rt = { rg.write 0 v with en := true }))) ∧
  (∀ (s : State) (d g w : Nat) (v : Word), s.event = some (.replicaGroupEntryStore d g w v) → w < 4 → ∃ t, exec .replicaGroupEntryStore s = .next t ∧
    SameMemory s t ∧ t.tiles = s.tiles ∧ let old := (s.toCore.dom d).groups
    let new := (t.toCore.dom d).groups
    (wbits (mapGet 0 old (4 * g)) 0 1 = 1 → w ≠ 0 → new = old) ∧
    (wbits (mapGet 0 old (4 * g)) 0 1 ≠ 1 → w ≠ 0 → mapGet 0 new (4 * g + w) = v &&& groupFields w) ∧
    ∀ k, k ≠ 4 * g + w → mapGet 0 new k = mapGet 0 old k) ∧
  (∀ (s : State) (d : Nat) (v : Word), s.event = some (.mcRequestSubmit d v) → ∃ t, exec .mcRequestSubmit s = .next t ∧ SameMemory s t ∧
    (t.toCore.dom d).req = v &&& 0xFFFFFFFF00000002 ∧ (wbits v 0 1 = 0 → t.toCore.dom d = { s.toCore.dom d with req := v &&& 0xFFFFFFFF00000002 }) ∧
    (d < 4 → wbits v 0 1 = 1 → wbits v 1 1 = 1 → 36 ≤ wbits v 32 6 → ∃ m, (t.toCore.dom d).devmsgs = (s.toCore.dom d).devmsgs ++ [m] ∧ m.cls = 0x41 ∧
      m.payload = leBytes 8 1)) ∧
  (∀ (s : State) (f ofs : Nat) (bar2 : Bool) (bytes : List Byte), s.event = some (.hostPostedWrite f bar2 ofs bytes) →
    (s.toCore.boundDomain f = none → exec .hostPostedWrite s = .next s) ∧
    (∀ d, s.toCore.boundDomain f = some d → s.toCore.portStalled f = true →
      exec .hostPostedWrite s = .next { s with msgs := .hostPostedWrite f bar2 ofs bytes :: s.msgs }) ∧
    (∀ d, s.toCore.boundDomain f = some d → s.toCore.portStalled f = false → let w := hostWho d f
      let find := fun (c : Core) (va : Word) => if bar2 then c.engineLoc w .engWr va else c.bar0 w .engWr va.toNat
      let start := if bar2 then ofs % 2 ^ 42 else Config.windowBase + ofs % 2 ^ 33
      let out := s.toCore.outsidePut w (hostSender f) find (BitVec.ofNat 64 start) bytes [] (bytes.length / 64 + 3)
      (∀ c ids, out = .ok (c, ids, none) → (isMessage s.toCore c = false ∨ s.toCore.hostArrived = true) →
        exec .hostPostedWrite s = .next { s with toCore := c }) ∧
      (∀ c ids i, out = .ok (c, ids, some i) →
        exec .hostPostedWrite s = .next { s with toCore := s.toCore.faultMsg d (s.toCore.deviceRecord d i) }))) ∧
  (∀ (c : Core) (w : Who) (from' : BitVec 32) (find : Core → Word → Op Loc) (va : Word) (bs : List Byte) (ids : List Nat) (n : Nat),
    c.outsidePut w from' find va [] ids n = .ok (c, ids, none) ∧
    (∀ i, bs ≠ [] → find c va = .error (.trap i) → c.outsidePut w from' find va bs ids (n + 1) = .ok (c, ids, some i)) ∧
    (∀ l u off, bs ≠ [] → find c va = .ok l → paRegion l.pa = .win u off → off < 0x530000 → let k := min bs.length (128 - l.pa % 128)
      c.outsidePut w from' find va bs ids (n + 1) =
        (c.windowPuts u off ((bs.take k).map some)).outsidePut w from' find (va + BitVec.ofNat 64 k) (bs.drop k) ids n) ∧
    (∀ l h pl, bs ≠ [] → find c va = .ok l → paRegion l.pa = .hbm h → c.placeOf w .engWr l = .ok pl → c.aden w.dom = false →
      (c.homeLine pl (l.pa / 128)).recalled = false → (c.page (l.pa / 65536)).mode ≠ .draining → let k := min bs.length (128 - l.pa % 128)
      let m : StoreMsg := ⟨c.nid, Config.tiles, pl, l.pa, (bs.take k).map some, none, false⟩
      let e : Core := { c with nid := c.nid + 1 }
      c.outsidePut w from' find va bs ids (n + 1) =
        ((e.storeAt m).setTags m).outsidePut w from' find (va + BitVec.ofNat 64 k) (bs.drop k) (ids ++ [c.nid]) n)) ∧
  (∀ (s : State) (f ofs n : Nat) (bar2 : Bool), s.event = some (.hostRead f bar2 ofs n) →
    (s.toCore.boundDomain f = none → exec .hostRead s = .next { s with toCore := s.toCore.hostAnswer none }) ∧
    (∀ d, s.toCore.boundDomain f = some d → s.toCore.portStalled f = true →
      exec .hostRead s = .next { s with msgs := .hostRead f bar2 ofs n :: s.msgs }) ∧
    (∀ d bs, s.toCore.boundDomain f = some d → s.toCore.portStalled f = false → bar2 = false →
      s.toCore.hostBytes (hostWho d f) bar2 ofs n = .ok bs → exec .hostRead s = .next { s with toCore := s.toCore.hostAnswer (some bs) })) ∧
  (∀ (s : State) (pa : Nat), s.event = some (.cxlSnoop pa) → exec .cxlSnoop s = .next { s with toCore := s.toCore.writeBack (pa / 128) }) ∧
  (∀ (c : Core) (line p off : Nat), paRegion (line * 128) = .coh p off → line ∈ c.cxlDirty → let e := c.writeBack line
    line ∉ e.cxlDirty ∧ (∀ i, i < 128 → mapGet 0 e.hostMem (c.hostKey p 8 off + i) = c.mem.get (c.cell (line * 128) + i)) ∧
    ∀ w ∈ e.setOf .primary line, w.line = placeKey .primary line → w.dirty = false) ∧
  (∀ (s : State) (pa : Nat), s.event = some (.cxlBackInvalidationDone pa) → exec .cxlBackInvalidationDone s =
    .next { s with backInv := s.backInv.filter (· != pa / 128) }) ∧
  (∀ (s : State) (p : Nat), s.event = some (.offloadFlushReadDone p) → ∃ t, exec .offloadFlushReadDone s = .next t ∧ McOnly s t ∧
    t.mc = { s.mc with flush := s.mc.flush.filter fun e => e.1 != p }) ∧
  (∀ (s : State) (f : Flit), s.event = some (.flitReceive f) → let x := s.toCore.port f.port
    (x.state ≠ 1 → exec .flitReceive s = .next s) ∧
    (x.state = 1 → f.crcOk = false → x.retries + 1 < 16 → ∃ t, exec .flitReceive s = .next t ∧ McOnly s t ∧
      t.toCore.port f.port = { x with retries := x.retries + 1 }) ∧
    (x.state = 1 → f.crcOk = false → 16 ≤ x.retries + 1 → exec .flitReceive s = .next { s with toCore := s.toCore.portRetrain f.port }) ∧
    (x.state = 1 → f.crcOk = true → let n := mapGet 0 x.rxSeq (chanCode f.chan)
      (f.seq ≠ n → ∃ t, exec .flitReceive s = .next t ∧ McOnly s t ∧ t.toCore.port f.port = { x with retries := 0 }) ∧
      (f.seq = n → ∃ c, exec .flitReceive s = .next { s with toCore := c.takeFlit f } ∧ McOnly s { s with toCore := c } ∧
        (c.port f.port).retries = 0 ∧ mapGet 0 (c.port f.port).rxSeq (chanCode f.chan) = n + 1))) ∧
  (∀ (c : Core) (f : Flit), (f.body = none → c.takeFlit f = c) ∧
    (∀ m, f.body = some m → f.dest ≠ c.mc.modnum → c.takeFlit f = { c with out := c.out ++ [(BitVec.ofNat 20 f.dest.toNat, m)] }) ∧
    (∀ src dom region ver fin id data, f.body = some (.weights src dom region ver fin id data) → f.dest = c.mc.modnum →
      c.takeFlit f = c.send (.weightBroadcastReceive ⟨dom, region, ver, fin, f.port, src, id, data, none⟩)) ∧
    (∀ die tile id pa kind wide signed x cmp tag acq, 8 ≤ die → f.body = some (.atomic die tile id pa kind wide signed x cmp tag acq) →
      f.dest = c.mc.modnum → c.takeFlit f = c.send (.forwardedAtomic (farTile ((die - 8) / 8) tile) id pa kind wide signed x cmp tag acq)) ∧
    (∀ d, f.body = some (.diff d) → f.dest = c.mc.modnum → 
      let o : DiffOut := ⟨c.nid, d.die, 4, d.page, 1, 0, .module ((d.die - 8) / 8) d.id⟩
      let e : Core := { c with nid := c.nid + 1, diffs := c.diffs ++ [o] }
      c.takeFlit f = e.send (.diffAtPrimary { d with id := c.nid })) ∧
    (∀ tile id val, f.body = some (.result tile id val) → f.dest = c.mc.modnum → c.takeFlit f = c.send (.registerWriteLand tile id val))) ∧
  (∀ (s : State) (b : WBcast), s.event = some (.weightBroadcastReceive b) → b.put = none →
    let hold := s.toCore.updPort b.port fun x => { x with held := x.held ++ [b] }
    ((s.toCore.port b.port).held ≠ [] → exec .weightBroadcastReceive s = .next { s with toCore := hold }) ∧
    ((s.toCore.port b.port).held = [] →
      (s.toCore.takeBroadcast b = .discard → exec .weightBroadcastReceive s = .next { s with toCore := s.toCore.ackBroadcast b }) ∧
      (s.toCore.takeBroadcast b = .hold → exec .weightBroadcastReceive s = .next { s with toCore := hold }) ∧
      (s.toCore.takeBroadcast b = .busy → exec .weightBroadcastReceive s = .next { s with toCore := s.toCore.send (.weightBroadcastReceive b) }) ∧
      (∀ c k ids, s.toCore.takeBroadcast b = .taken c k ids →
        exec .weightBroadcastReceive s = .next { s with toCore := c.send (.weightBroadcastReceive { b with put := some (k, ids) }) }))) ∧
  (∀ (s : State) (b : WBcast) (k : Nat) (ids : List Nat), s.event = some (.weightBroadcastReceive b) → b.put = some (k, ids) →
    (s.toCore.weightsWait b = true → exec .weightBroadcastReceive s = .next { s with toCore := s.toCore.send (.weightBroadcastReceive b) }) ∧
    (s.toCore.weightsWait b = false →
      exec .weightBroadcastReceive s = .next { s with toCore := (s.toCore.publishBroadcast b k).ackBroadcast b })) ∧
  (∀ (c : Core) (b : WBcast), c.ackBroadcast b = { c with out := c.out ++ [(BitVec.ofNat 20 b.src, .weightsDone b.id c.mc.modnum.toNat)] }) ∧
  (∀ (c e : Core) (b : WBcast) (k : Nat) (ids : List Nat), c.takeBroadcast b = .taken e k ids → let rg := (c.dom b.dom).region b.region
    rg.en = true ∧ 0 < sext16 (b.ver - rg.cur).toNat ∧ (c.dom b.dom).claimable rg = some k ∧
      ((e.dom b.dom).region b.region).cur = rg.cur ∧ (mapGet Copy.init ((e.dom b.dom).region b.region).copies k).state = 1) ∧
  (∀ (c : Core) (b : WBcast) (k : Nat), let rg := (c.dom b.dom).region b.region
    let e := ((c.publishBroadcast b k).dom b.dom).region b.region
    (mapGet Copy.init rg.copies k).state = 1 →
    (rg.takes b.ver = true → e.cur = b.ver ∧ (mapGet Copy.init e.copies k).state = 2 ∧ (mapGet Copy.init e.copies k).ver = b.ver ∧
      ((c.publishBroadcast b k).dom b.dom).lver = if b.fin then b.ver else (c.dom b.dom).lver) ∧
    (rg.takes b.ver = false → e.cur = rg.cur ∧ (mapGet Copy.init e.copies k).state = 0)) ∧
  (∀ (s : State) (p : Nat) (b : WBcast) (rest : List WBcast), s.event = some (.heldBroadcastResume p) → (s.toCore.port p).held = b :: rest →
    (s.toCore.takeBroadcast b = .discard →
      exec .heldBroadcastResume s = .next { s with toCore := (s.toCore.updPort p fun x => { x with held := rest }).ackBroadcast b }) ∧
    (∀ c k ids, s.toCore.takeBroadcast b = .taken c k ids → exec .heldBroadcastResume s =
      .next { s with toCore := (c.updPort p fun x => { x with held := rest }).send (.weightBroadcastReceive { b with put := some (k, ids) }) }) ∧
    (s.toCore.takeBroadcast b = .hold → exec .heldBroadcastResume s = .next s)) ∧
  (∀ (s : State) (p : Nat), let x := s.toCore.port p
    (s.event = some (.portLinkFail p) → exec .portLinkFail s = .next (if x.state = 1 then { s with toCore := s.toCore.portRetrain p } else s)) ∧
    (s.event = some (.portTrained p) → exec .portTrained s = .next (if x.state = 2 ∧ (s.ftick - x.since).toNat ≤ 2000000
      then { s with toCore := s.toCore.portUp p } else s)) ∧
    (s.event = some (.retrainTimeout p) → exec .retrainTimeout s = .next (if x.state = 2 ∧ 2000000 ≤ (s.ftick - x.since).toNat
      then { s with toCore := s.toCore.portDown p false } else s)) ∧
    (∀ v, s.event = some (.portBlockWrite p v) → exec .portBlockWrite s = .next (if p < 36 then { s with toCore := s.toCore.writePort p v } else s))) ∧
  (∀ (c : Core) (p : Nat), ((c.portUp p).port p).state = 1 ∧ ((c.portRetrain p).port p).state = 2 ∧ ((c.portDown p false).port p).state = 0 ∧
    ((c.portDown p true).port p).state = 3 ∧ ∀ x ∈ (c.portUp p).rels, x.ended = none → ∀ e ∈ x.ports, e.1 ≠ p) ∧
  (∀ (s : State) (p ofs : Nat) (bytes : List Byte), s.event = some (.cxlMemAccess p false ofs bytes) →
    (s.toCore.cxlMemPa p ofs bytes.length = none → exec .cxlMemAccess s = .next { s with toCore := s.toCore.hostAnswer none }) ∧
    (∀ pa, s.toCore.cxlMemPa p ofs bytes.length = some pa →
      ((splitLines (bytes.length / 128 + 2) pa (bytes.map some)).any fun e => s.toCore.recallBusy e.1 || (s.toCore.page (e.1 / 65536)).mode == .draining) = false →
      ∃ t, exec .cxlMemAccess s = .next t ∧ BytesSame s t ∧ t.tiles = s.tiles ∧ t.doms = s.doms ∧
        t.mc.hostDone = s.mc.hostDone ++ [some (s.toCore.homeBytes pa bytes.length)])) ∧
  (∀ (s : State) (n : Nat) (v : Word), s.event = some (.hostFunctionBinding n v) → (10 ≤ n → exec .hostFunctionBinding s = .next s) ∧
    (n < 6 → ∃ t, exec .hostFunctionBinding s = .next t ∧ McOnly s t ∧ mapGet 0 t.mc.hfunc n = v &&& 0x103 ∧
      ∀ k, k ≠ n → mapGet 0 t.mc.hfunc k = mapGet 0 s.mc.hfunc k)) ∧
  (∀ (s : State) (i : Nat), s.event = some (.sidebandLogClear i) → ∃ t, exec .sidebandLogClear s = .next t ∧ McOnly s t ∧
    t.mc = { s.mc with log := s.mc.log.eraseIdx i }) ∧
  (∀ (s : State) (n : Nat) (v : BitVec 16), s.event = some (.sidebandPowerSetting n v) → ∃ t, exec .sidebandPowerSetting s = .next t ∧ McOnly s t ∧
    (n < 8 → t.toCore.power n = { s.toCore.power n with plim := v }) ∧ (n = 8 → t.mc = { s.mc with mlim := v }) ∧ (8 < n → t = s)) ∧
  (∀ (s : State) (t : Nat) (d : Option Nat), s.event = some (.tilePassingToDomain t d) → t < Config.tiles → (∀ k, d = some k → k < 4) →
    ((s.toCore.tile t).idle = false → exec .tilePassingToDomain s = .next s) ∧
    ((s.toCore.tile t).idle = true → ∃ u, exec .tilePassingToDomain s = .next u ∧ SameMemory s u ∧ u.doms = s.doms ∧ (u.toCore.tile t).dom = d ∧
      (u.toCore.tile t).learner = false ∧ (u.toCore.tile t).ucode = [] ∧ (u.toCore.tile t).tlb = [] ∧ ∀ k, k ≠ t → u.toCore.tile k = s.toCore.tile k)) ∧
  (∀ (s : State) (tries : List StartTry) (key : Nat × Nat) (modes : List (BitVec 2)), s.event = some (.moduleReset tries key modes) →
    ∃ u, exec .moduleReset s = .next u ∧ u.mem = s.mem ∧ u.hostMem = s.hostMem ∧ u.msgs = [] ∧ u.rels = [] ∧ u.reps = [] ∧ u.bundle = none ∧
      u.mc.boot = s.mc.boot + 1 ∧
      (∀ t, (u.toCore.tile t).dom = none ∧ (u.toCore.tile t).queue = [] ∧ (u.toCore.tile t).win = [] ∧ (u.toCore.tile t).learner = false) ∧
      (∀ d, (u.toCore.dom d).ctl = [] ∧ (u.toCore.dom d).regions = [] ∧ (u.toCore.dom d).lver = 0 ∧ (u.toCore.dom d).serial = 0) ∧
      (s.mc.log = [] → tries = [] → u.mc.started = true ∧ u.mc.ukey = some key ∧ ∀ t, (u.toCore.tile t).serv = true)) ∧
  (∀ (s : State) (d : Nat), s.event = some (.domainReset d) → ∃ u, exec .domainReset s = .next u ∧ SameMemory s u ∧ u.hostMem = s.hostMem ∧
    u.toCore.dom d = .init ∧ (∀ k, k ≠ d → u.toCore.dom k = s.toCore.dom k) ∧ u.phase = s.phase ∧
    (∀ t, (s.toCore.tile t).dom = some d → let x := u.toCore.tile t
      let y := s.toCore.tile t
      x.dom = none ∧ x.queue = [] ∧ x.hcs = [] ∧ x.tlb = [] ∧ x.msgq = [] ∧ x.cmds = [] ∧ x.learner = false ∧ x.win = y.win ∧ x.acc = y.acc ∧
        x.banks = y.banks ∧ x.l1 = y.l1 ∧ x.serv = y.serv) ∧
    ∀ t, (s.toCore.tile t).dom ≠ some d → u.toCore.tile t = s.toCore.tile t) ∧
  (∀ s : State, ∃ t, exec .spdmGetVersion s = .next t ∧ McOnly s t ∧ t.mc.spdm = ⟨true, false, false, [0x10, 0x04, 0, 0, 0, 1, 0x00, 0x12]⟩) ∧
  (∀ s : State, ∃ t, exec .spdmGetCapabilities s = .next t ∧ McOnly s t ∧ t.mc.spdm.caps = (s.mc.spdm.caps || s.mc.spdm.version) ∧
    (s.mc.spdm.version = false → t.mc.spdm.answer = spdmError 4)) ∧
  (∀ (s : State) (a h : BitVec 32), s.event = some (.spdmNegotiateAlgorithms a h) → ∃ t, exec .spdmNegotiateAlgorithms s = .next t ∧ McOnly s t ∧
    (s.mc.spdm.caps = true → t.mc.spdm.algs = (a.getLsbD 7 && h.getLsbD 1)) ∧ (s.mc.spdm.caps = false → t.mc.spdm = { s.mc.spdm with answer := spdmError 4 })) ∧
  (∀ s : State, ∃ t, exec .spdmGetDigests s = .next t ∧ McOnly s t ∧
    t.mc.spdm = { s.mc.spdm with answer := if s.mc.spdm.algs then [0x12, 0x01, 0, 1] ++ chainDigest else spdmError 4 }) ∧
  (∀ (s : State) (slot ofs len : Nat), s.event = some (.spdmGetCertificate slot ofs len) → ∃ t, exec .spdmGetCertificate s = .next t ∧ McOnly s t ∧
    (s.mc.spdm.algs = false → t.mc.spdm.answer = spdmError 4) ∧ (s.mc.spdm.algs = true → slot = 0 → if ofs < Config.certificate.length
      then t.mc.spdm.answer.drop 8 = (Config.certificate.drop ofs).take len else t.mc.spdm.answer = spdmError 1)) ∧
  (∀ (s : State) (slot nonce : Nat), s.event = some (.spdmChallenge slot nonce) → ∃ t, exec .spdmChallenge s = .next t ∧ McOnly s t ∧
    (s.mc.spdm.algs = false → t.mc.spdm.answer = spdmError 4) ∧ (s.mc.spdm.algs = true → slot ≠ 0 → t.mc.spdm.answer = spdmError 1) ∧
    (s.mc.spdm.algs = true → slot = 0 → let body := [0x12, 0x03, 0, 1] ++ chainDigest ++ leBytes 32 (Config.spdmNonce s.seq).toNat ++ [0, 0]
      t.mc.spdm.answer = body ++ Config.identitySign (leBytes 32 nonce ++ body))) ∧
  (∀ (s : State) (i : Nat), s.event = some (.spdmGetMeasurements i) → ∃ t, exec .spdmGetMeasurements s = .next t ∧ McOnly s t ∧
    (s.mc.spdm.algs = false → t.mc.spdm.answer = spdmError 4) ∧ (s.mc.spdm.algs = true → 4 < i → i ≠ 255 → t.mc.spdm.answer = spdmError 1) ∧
    (s.mc.spdm.algs = true → i = 0 → t.mc.spdm.answer.take 5 = [0x12, 0x60, 4, 0, 0]) ∧
    (s.mc.spdm.algs = true → 1 ≤ i → i ≤ 4 → (t.mc.spdm.answer.drop 8).take (s.toCore.measBlock i).length = s.toCore.measBlock i)) ∧
  (∀ (s : State) (p : PowerRead), s.event = some (.powerControlTick p) → ∃ t, exec .powerControlTick s = .next t ∧ McOnly s t ∧ t.mc.mnow = p.mnow ∧
    ∀ d, d < 8 → t.toCore.power d = (s.toCore.power d).tick (p.pnow.getD d 0) (decide (s.mc.mlim.toNat < p.mnow.toNat) && d == topDie p)) ∧
  (∀ (x : Power) (n : BitVec 16) (above : Bool), ((x.plim.toNat < n.toNat ∨ above = true) → (x.tick n above).swal.toNat = min 255 (x.swal.toNat + 8)) ∧
    (n.toNat + 20 < x.plim.toNat → above = false → (x.tick n above).swal.toNat = x.swal.toNat - 1) ∧
    (n.toNat ≤ x.plim.toNat → x.plim.toNat ≤ n.toNat + 20 → above = false → (x.tick n above).swal = x.swal)) ∧
  (∀ (s : State) (d steps stretch : Nat) (pass : Bool), s.event = some (.marginReplan d steps stretch pass) → let x := s.toCore.power d
    (((s.ftick - x.plannedAt).toNat < replanTime ∨ 8 ≤ d) → exec .marginReplan s = .next s) ∧
    (replanTime ≤ (s.ftick - x.plannedAt).toNat → d < 8 → ∃ t, exec .marginReplan s = .next t ∧ SameMemory s t ∧ t.tiles = s.tiles ∧
      t.toCore.power d = x.plan (Config.voltCeiling d) steps stretch pass s.ftick ∧ ∀ k, k ≠ d → t.toCore.power k = s.toCore.power k)) ∧
  (∀ (s : State) (u : UnitKind) (i pa : Nat) (fixed : Bool), s.event = some (.eccErrorDetected u i pa fixed) → ∃ t, exec .eccErrorDetected s = .next t ∧
    SameMemory s t ∧ t.doms = s.doms ∧ (t.mc.testing.any fun e => e.1 == u && e.2.1 == i) = true ∧ (fixed = true → t.poison = s.poison) ∧
    ∀ k, fixed = false → s.toCore.errorKey u i pa = some k → mapGet false t.poison k = true) ∧
  (∀ (s : State) (u : UnitKind) (i pa : Nat) (a b : Bool), s.event = some (.selfTestComplete u i a b) →
    ((s.mc.testing.any fun e => e.1 == u && e.2.1 == i) = false → exec .selfTestComplete s = .next s) ∧
    (s.mc.testing.find? (fun e => e.1 == u && e.2.1 == i) = some (u, i, pa) → (∀ t, unitTile u i = some t → (s.toCore.tile t).testing = some u) →
      ∃ t, exec .selfTestComplete s = .next t ∧ (t.mc.testing.any fun e => e.1 == u && e.2.1 == i) = false ∧
        ((a || b) = true → SameMemory s t ∧ ∀ k, unitTile u i = some k → (t.toCore.tile k).testing = none ∧ (t.toCore.tile k).serv = (s.toCore.tile k).serv) ∧
        (a = false → b = false → u = .scratchpad → (t.toCore.tile i).serv = false ∧ (t.toCore.tile i).closed = true) ∧
        (a = false → b = false → u = .homeSlice → i ∈ t.mc.slicesOut) ∧ (a = false → b = false → u = .walePort → (t.toCore.port i).lasting = true)))
end

