-- ==== Sys2Proof/Laws/Codec.lean ====
section
/-!
SUPPORT. Reading back what the encoder wrote: a word gives its fields, a field gives its value.
-/

namespace Sys2Proof

/-! Fields of a concatenation. -/

@[simp] theorem extract_low {v w : Nat} (x : BitVec v) (y : BitVec w) {start len : Nat} (h : start + len ≤ w) :
    BitVec.extractLsb' start len (BitVec.append x y) = BitVec.extractLsb' start len y :=
  BitVec.extractLsb'_append_eq_of_add_le h

@[simp] theorem extract_high {v w : Nat} (x : BitVec v) (y : BitVec w) {start len : Nat} (h : w ≤ start) :
    BitVec.extractLsb' start len (BitVec.append x y) = BitVec.extractLsb' (start - w) len x :=
  BitVec.extractLsb'_append_eq_of_le h

/-- X has no bit from n upward when the field above is zero. -/
@[simp] theorem xBelow_eq (g : Grid) (n : Nat) (h : n ≤ 20) : g.xBelow n = (g.x.extractLsb' n (20 - n) == 0#(20 - n)) := by
  have hx : g.x.toNat < 2 ^ 20 := g.x.isLt
  have hp : (2 : Nat) ^ 20 = 2 ^ n * 2 ^ (20 - n) := by rw [← Nat.pow_add]; congr 1; omega
  have hlt : g.x.toNat / 2 ^ n < 2 ^ (20 - n) := Nat.div_lt_of_lt_mul (by omega)
  have hz : (g.x.extractLsb' n (20 - n) = 0#(20 - n)) ↔ g.x.toNat < 2 ^ n := by
    rw [← BitVec.toNat_inj]
    simp only [BitVec.extractLsb'_toNat, Nat.shiftRight_eq_div_pow, BitVec.toNat_ofNat, Nat.zero_mod, Nat.mod_eq_of_lt hlt,
      Nat.div_eq_zero_iff]
    have : 2 ^ n ≠ 0 := by positivity
    omega
  by_cases h : g.x.toNat < 2 ^ n
  · simp [Grid.xBelow, h, hz.2 h]
  · have : ¬ g.x.extractLsb' n (20 - n) = 0#(20 - n) := fun e => h (hz.1 e)
    simp [Grid.xBelow, h, this]

/-! Checks and results. -/

@[simp] theorem need_true (e : DecodeError) : need true e = .ok () := rfl
@[simp] theorem noA_eq (g : Grid) : g.noA = (g.a == 0) := rfl
@[simp] theorem noB_eq (g : Grid) : g.noB = (g.b == 0) := rfl
@[simp] theorem noC_eq (g : Grid) : g.noC = (g.c == 0) := rfl
@[simp] theorem noD_eq (g : Grid) : g.noD = (g.d == 0) := rfl
@[simp] theorem noMk_eq (g : Grid) : g.noMk = (g.msk == 0) := rfl
@[simp] theorem noRm_eq (g : Grid) : g.noRm = (g.rm == 0) := rfl
@[simp] theorem xOnlySb_eq (g : Grid) : g.xOnlySb = (g.x.extractLsb' 0 19 == 0#19) := rfl
@[simp] theorem plain_eq (g : Grid) : g.plain = (g.noMk && g.noRm) := rfl
@[simp] theorem xGp_eq (g : Grid) : g.xGp = (g.x.extractLsb' 0 16 == 0#16) := rfl
@[simp] theorem dec_bind_ok {α β : Type} (a : α) (f : α → Dec β) : ((Except.ok a : Dec α) >>= f) = f a := rfl
@[simp] theorem dec_map_ok {α β : Type} (a : α) (f : α → β) : (f <$> (Except.ok a : Dec α)) = .ok (f a) := rfl
@[simp] theorem dec_pure {α : Type} (a : α) : (pure a : Dec α) = .ok a := rfl

/-! Words. -/

theorem Grid.ofWord_pack (g : Grid) : Grid.ofWord g.pack = g := by
  obtain ⟨x, rm, msk, c, b, a, d, opc, gs, grd⟩ := g
  simp only [Grid.ofWord, Grid.pack]
  dsimp only [HAppend.hAppend]
  simp (disch := decide) only [extract_low, extract_high, BitVec.extractLsb'_eq_self, Nat.reduceSub, Nat.reduceAdd]

theorem Grid.pack_ne_zero (g : Grid) (h : g.opc ≠ 0) : g.pack ≠ 0 := by
  intro e
  apply h
  have := congrArg Grid.opc g.ofWord_pack
  rw [e] at this
  rw [← this]
  decide

/-- The table of a slot class. -/
def decodeGrid (cls : SlotClass) (g : Grid) : Dec Instr :=
  match cls with
  | .s => decodeS g
  | .c => decodeC g
  | .l => decodeL g
  | .st => decodeSt g
  | .v => decodeV g
  | .p => decodeP g
  | .m => decodeM g
  | .k => decodeK g
  | .f => decodeF g
  | .a => decodeA g

/-- A word with an opcode goes to the table of its slot class. -/
theorem decodeSlot_pack (cls : SlotClass) (g : Grid) (h : g.opc ≠ 0) : decodeSlot cls g.pack = decodeGrid cls g := by
  unfold decodeSlot
  rw [if_neg (g.pack_ne_zero h), g.ofWord_pack]
  dsimp only
  rw [if_neg h]
  cases cls <;> rfl

theorem encodeSlot_eq (cls : SlotClass) (i : Instr) (h : i ≠ .nop) : encodeSlot cls i = (encodeGrid cls i).map Grid.pack := by
  cases i <;> first | rfl | exact absurd rfl h

/-! Field kinds. -/

@[simp] theorem guard_enc (g : Guard) : (⟨encBit g.neg == 1#1, g.reg⟩ : Guard) = g := by
  obtain ⟨n, r⟩ := g
  cases n <;> rfl

@[simp] theorem decBit_enc (b : Bool) : decBit (encBit b) = b := by cases b <;> rfl

@[simp] theorem decBit_zero : decBit 0#1 = false := rfl
@[simp] theorem decBit_one : decBit 1#1 = true := rfl

@[simp] theorem decQSrc_enc (q : QSrc) : decQSrc (encQSrc q) = q := by
  obtain ⟨k, q⟩ := q
  revert k q
  decide

@[simp] theorem decQDst_enc (d : QDst) : decQDst (encQDst d) = .ok d := by
  cases d with
  | none => decide
  | some q => revert q; decide

@[simp] theorem decLow4 (f : BitVec 4) : decLow 4 (BitVec.append 0#2 f) = .ok f := by revert f; decide
@[simp] theorem decLow3 (f : BitVec 3) : decLow 3 (BitVec.append 0#3 f) = .ok f := by revert f; decide
@[simp] theorem decLow2 (f : BitVec 2) : decLow 2 (BitVec.append 0#4 f) = .ok f := by revert f; decide
@[simp] theorem decLow1 (f : BitVec 1) : decLow 1 (BitVec.append 0#5 f) = .ok f := by revert f; decide
@[simp] theorem decPair_enc (k : BitVec 3) : decPair (encPair k) = .ok k := by revert k; decide
@[simp] theorem decGp_enc (k : BitVec 3) : decGp (encGp k) = .ok k := by revert k; decide
@[simp] theorem decRnd_enc (r : Rnd) : decRnd (encRnd r) = .ok r := by cases r <;> rfl
@[simp] theorem decScope_enc (q : Scope) : decScope (encScope q) = .ok q := by cases q <;> rfl
@[simp] theorem decFmt_enc (f : MxFmt) : decFmt (encFmt f) = .ok f := by cases f <;> rfl
@[simp] theorem decBlk_enc (b : Blk) : decBlk (encBlk b) = .ok b := by cases b <;> rfl
@[simp] theorem decLFmt_enc (f : LFmt) : decLFmt (encLFmt f) = .ok f := by cases f <;> rfl
@[simp] theorem decEWidth_enc (w : EWidth) : decEWidth (encEWidth w) = .ok w := by cases w <;> rfl

/-- A format I immediate read back. -/
@[simp] theorem imm_enc (i : BitVec 32) :
    BitVec.append (BitVec.append (BitVec.append (BitVec.append (i.extractLsb' 19 13) (i.extractLsb' 16 3)) (i.extractLsb' 12 4))
      (i.extractLsb' 6 6)) (i.extractLsb' 0 6) = i := by
  apply BitVec.eq_of_toNat_eq
  show (((((i.extractLsb' 19 13) ++ (i.extractLsb' 16 3)) ++ (i.extractLsb' 12 4)) ++ (i.extractLsb' 6 6)) ++ (i.extractLsb' 0 6) :
    BitVec (13 + 3 + 4 + 6 + 6)).toNat = _
  have := i.isLt
  simp only [BitVec.toNat_append, BitVec.extractLsb'_toNat, Nat.shiftRight_eq_div_pow]
  rw [← Nat.shiftLeft_add_eq_or_of_lt (Nat.mod_lt _ (by decide)), ← Nat.shiftLeft_add_eq_or_of_lt (Nat.mod_lt _ (by decide)),
    ← Nat.shiftLeft_add_eq_or_of_lt (Nat.mod_lt _ (by decide)), ← Nat.shiftLeft_add_eq_or_of_lt (Nat.mod_lt _ (by decide))]
  simp only [Nat.shiftLeft_eq]
  omega

/-- A format O displacement read back. -/
@[simp] theorem ofs_enc (i : BitVec 32) :
    BitVec.append (BitVec.append (BitVec.append (BitVec.append (BitVec.append (BitVec.append (i.extractLsb' 31 1)
      (i.extractLsb' 28 3)) (i.extractLsb' 24 4)) (i.extractLsb' 18 6)) (i.extractLsb' 12 6)) (i.extractLsb' 6 6))
      (i.extractLsb' 0 6) = i := by
  apply BitVec.eq_of_toNat_eq
  show ((((((((i.extractLsb' 31 1) ++ (i.extractLsb' 28 3)) ++ (i.extractLsb' 24 4)) ++ (i.extractLsb' 18 6)) ++
    (i.extractLsb' 12 6)) ++ (i.extractLsb' 6 6)) ++ (i.extractLsb' 0 6)) : BitVec (1 + 3 + 4 + 6 + 6 + 6 + 6)).toNat = _
  have := i.isLt
  simp only [BitVec.toNat_append, BitVec.extractLsb'_toNat, Nat.shiftRight_eq_div_pow]
  iterate 6 rw [← Nat.shiftLeft_add_eq_or_of_lt (Nat.mod_lt _ (by decide))]
  simp only [Nat.shiftLeft_eq]
  omega

/-- A 16-bit code in a format I immediate. -/
theorem code_imm (k : BitVec 16) :
    BitVec.append (BitVec.append (BitVec.append (BitVec.append 0#13 0#3) (k.extractLsb' 12 4)) (k.extractLsb' 6 6))
      (k.extractLsb' 0 6) = BitVec.append 0#16 k := by
  apply BitVec.eq_of_toNat_eq
  show ((((0#13 ++ 0#3) ++ (k.extractLsb' 12 4)) ++ (k.extractLsb' 6 6)) ++ (k.extractLsb' 0 6) :
    BitVec (13 + 3 + 4 + 6 + 6)).toNat = ((0#16 ++ k : BitVec (16 + 16))).toNat
  have := k.isLt
  simp only [BitVec.toNat_append, BitVec.extractLsb'_toNat, Nat.shiftRight_eq_div_pow, BitVec.toNat_ofNat, Nat.zero_mod]
  iterate 2 rw [← Nat.shiftLeft_add_eq_or_of_lt (Nat.mod_lt _ (by decide))]
  simp only [Nat.shiftLeft_eq, Nat.zero_mul, Nat.zero_or]
  omega

/-! Checks that a well-formed instruction passes. -/

theorem needThen {b : Bool} {e : DecodeError} {α : Type} {v : α} (h : b = true) :
    (need b e >>= fun _ => (Except.ok v : Dec α)) = .ok v := by subst h; rfl

theorem needMap {b : Bool} {e : DecodeError} {α β : Type} {v : α} {f : α → β} (h : b = true) :
    (f <$> (need b e >>= fun _ => (Except.ok v : Dec α))) = .ok (f v) := by subst h; rfl

@[simp] theorem encBit_false : encBit false = 0#1 := rfl
@[simp] theorem encBit_true : encBit true = 1#1 := rfl
@[simp] theorem append_zeros (m n : Nat) : BitVec.append (BitVec.ofNat m 0) (BitVec.ofNat n 0) = BitVec.ofNat (m + n) 0 :=
  BitVec.zero_append_zero
@[simp] theorem low_zeros (off : BitVec 11) :
    BitVec.extractLsb' 0 3 (BitVec.append (BitVec.append off 0#2) 0#1) = 0#3 := by
  apply BitVec.eq_of_toNat_eq
  show ((((off ++ 0#2) ++ 0#1 : BitVec (11 + 2 + 1))).extractLsb' 0 3).toNat = _
  simp only [BitVec.extractLsb'_toNat, BitVec.toNat_append, BitVec.toNat_ofNat, Nat.zero_mod, Nat.or_zero, Nat.shiftLeft_eq]
  omega

theorem code_lt (k : BitVec 16) : (BitVec.append 0#16 k).toNat < 65536 := by
  show (0#16 ++ k : BitVec (16 + 16)).toNat < 65536
  have := k.isLt
  simp only [BitVec.toNat_append, BitVec.toNat_ofNat, Nat.zero_mod, Nat.zero_shiftLeft, Nat.zero_or]
  omega

theorem one_bit (v : BitVec 1) : v = 0#1 ∨ v = 1#1 := by revert v; decide

@[simp] theorem decScope_zero : decScope 0#4 = .ok .ctx := rfl
@[simp] theorem decLow5 (f : BitVec 5) : decLow 5 (BitVec.append 0#1 f) = .ok f := by revert f; decide

theorem code_imm0 (k : BitVec 16) :
    BitVec.append (BitVec.append (BitVec.append 0#16 (k.extractLsb' 12 4)) (k.extractLsb' 6 6)) (k.extractLsb' 0 6) =
      BitVec.append 0#16 k := code_imm k

theorem rsKind_high (k : BitVec 3) :
    BitVec.extractLsb' 3 5 (BitVec.append 0#4 (BitVec.append 0#1 k)) = 0#5 := by revert k; decide

end Sys2Proof
end

