-- ==== Sys2Proof/Laws/Map.lean ====
section
/-!
SUPPORT. The laws of the sparse stores: a read after a write, and that every write keeps the canonical form.
-/

namespace Sys2Proof.Machine

variable {α : Type}

/-! Read after write, key by key. -/

@[simp] theorem mapGet_mapIns_same (d v : α) (m : Map α) (k : Nat) : mapGet d (mapIns k v m) k = v := by
  induction m with
  | nil => simp [mapIns, mapGet]
  | cons e t ih =>
    obtain ⟨i, x⟩ := e
    simp only [mapIns]
    split
    · simp [mapGet]
    · split
      · simp [mapGet]
      · rename_i h
        simp [mapGet, Ne.symm h, ih]

theorem mapGet_mapIns_ne (d v : α) (m : Map α) {j k : Nat} (h : j ≠ k) : mapGet d (mapIns k v m) j = mapGet d m j := by
  induction m with
  | nil => simp [mapIns, mapGet, Ne.symm h]
  | cons e t ih =>
    obtain ⟨i, x⟩ := e
    simp only [mapIns]
    split
    · simp [mapGet, Ne.symm h]
    · split
      · rename_i hk
        subst hk
        simp [mapGet, Ne.symm h]
      · simp only [mapGet, ih]

@[simp] theorem mapGet_mapErase_same (d : α) (m : Map α) (k : Nat) : mapGet d (mapErase m k) k = d := by
  induction m with
  | nil => simp [mapErase, mapGet]
  | cons e t ih =>
    obtain ⟨i, x⟩ := e
    by_cases h : i = k
    · simpa [mapErase, h] using ih
    · simpa [mapErase, h, mapGet] using ih

theorem mapGet_mapErase_ne (d : α) (m : Map α) {j k : Nat} (h : j ≠ k) : mapGet d (mapErase m k) j = mapGet d m j := by
  induction m with
  | nil => simp [mapErase, mapGet]
  | cons e t ih =>
    obtain ⟨i, x⟩ := e
    by_cases hi : i = k
    · subst hi
      simpa [mapErase, mapGet, Ne.symm h] using ih
    · have : mapErase ((i, x) :: t) k = (i, x) :: mapErase t k := by simp [mapErase, hi]
      simp only [this, mapGet, ih]

/-! The canonical form. -/

theorem keysRise_cons {i : Nat} {x : α} {t : Map α} :
    keysRise ((i, x) :: t) = true ↔ (∀ e ∈ t, i < e.1) ∧ keysRise t = true := by
  induction t generalizing i x with
  | nil => simp [keysRise]
  | cons e t ih =>
    obtain ⟨j, y⟩ := e
    have hj := @ih j y
    simp only [keysRise, Bool.and_eq_true, decide_eq_true_eq, List.mem_cons, forall_eq_or_imp]
    constructor
    · rintro ⟨h, r⟩
      exact ⟨⟨h, fun e he => Nat.lt_trans h ((hj.1 r).1 e he)⟩, r⟩
    · rintro ⟨⟨h, -⟩, r⟩
      exact ⟨h, r⟩

theorem mem_mapIns {k : Nat} {v : α} {m : Map α} {e : Nat × α} (h : e ∈ mapIns k v m) : e = (k, v) ∨ e ∈ m := by
  induction m with
  | nil => simpa [mapIns] using h
  | cons a t ih =>
    obtain ⟨i, x⟩ := a
    simp only [mapIns] at h
    split at h
    · simpa using h
    · split at h
      · rcases List.mem_cons.1 h with h | h
        · exact .inl h
        · exact .inr (List.mem_cons_of_mem _ h)
      · rcases List.mem_cons.1 h with h | h
        · exact .inr (by simp [h])
        · rcases ih h with h | h
          · exact .inl h
          · exact .inr (List.mem_cons_of_mem _ h)

theorem keysRise_mapIns {k : Nat} {v : α} {m : Map α} (h : keysRise m = true) : keysRise (mapIns k v m) = true := by
  induction m with
  | nil => simp [mapIns, keysRise]
  | cons a t ih =>
    obtain ⟨i, x⟩ := a
    have ht := keysRise_cons.1 h
    simp only [mapIns]
    split
    · rename_i hk
      refine keysRise_cons.2 ⟨?_, h⟩
      intro e he
      rcases List.mem_cons.1 he with rfl | he
      · exact hk
      · exact Nat.lt_trans hk (ht.1 e he)
    · split
      · rename_i hk
        subst hk
        exact keysRise_cons.2 ht
      · rename_i h1 h2
        refine keysRise_cons.2 ⟨?_, ih ht.2⟩
        intro e he
        rcases mem_mapIns he with rfl | he
        · change i < k
          omega
        · exact ht.1 e he

theorem keysRise_mapErase {k : Nat} {m : Map α} (h : keysRise m = true) : keysRise (mapErase m k) = true := by
  induction m with
  | nil => simp [mapErase, keysRise]
  | cons a t ih =>
    obtain ⟨i, x⟩ := a
    have ht := keysRise_cons.1 h
    have ih := ih ht.2
    by_cases hi : i = k
    · simpa [mapErase, hi] using ih
    · have e : mapErase ((i, x) :: t) k = (i, x) :: mapErase t k := by simp [mapErase, hi]
      rw [e]
      exact keysRise_cons.2 ⟨fun e he => ht.1 e (List.mem_of_mem_filter he), ih⟩

theorem mapIns_mapIns (k : Nat) (v w : α) (m : Map α) : mapIns k w (mapIns k v m) = mapIns k w m := by
  induction m with
  | nil => simp [mapIns]
  | cons e t ih =>
    obtain ⟨i, x⟩ := e
    simp only [mapIns]
    split
    · simp [mapIns]
    · split
      · simp [mapIns]
      · simp [mapIns, *]

theorem mapErase_mapIns (k : Nat) (v : α) (m : Map α) : mapErase (mapIns k v m) k = mapErase m k := by
  induction m with
  | nil => simp [mapIns, mapErase]
  | cons e t ih =>
    obtain ⟨i, x⟩ := e
    simp only [mapIns]
    split
    · simp [mapErase]
    · split
      · rename_i h
        simp [mapErase, h]
      · simp only [mapErase, List.filter_cons] at ih ⊢
        rw [ih]

variable [DecidableEq α]

/-- A read of the key just written. -/
@[simp] theorem mapGet_mapSet_same (d v : α) (m : Map α) (k : Nat) : mapGet d (mapSet d m k v) k = v := by
  unfold mapSet
  split
  · simp_all
  · simp

/-- A write leaves every other key alone. -/
theorem mapGet_mapSet_ne (d v : α) (m : Map α) {j k : Nat} (h : j ≠ k) : mapGet d (mapSet d m k v) j = mapGet d m j := by
  unfold mapSet
  split
  · exact mapGet_mapErase_ne d m h
  · exact mapGet_mapIns_ne d v m h

theorem mapGet_mapSet (d v : α) (m : Map α) (j k : Nat) :
    mapGet d (mapSet d m k v) j = if j = k then v else mapGet d m j := by
  split
  · simp_all
  · exact mapGet_mapSet_ne d v m ‹_›

/-- Of two writes at one key the later one stands. -/
theorem mapSet_mapSet {d v : α} (w : α) (m : Map α) (k : Nat) (h : v ≠ d) :
    mapSet d (mapSet d m k v) k w = mapSet d m k w := by
  simp only [mapSet, if_neg h]
  split
  · exact mapErase_mapIns k v m
  · exact mapIns_mapIns k v w m

/-- A write keeps the canonical form. -/
theorem mapSet_wf (d v : α) (m : Map α) (k : Nat) (h : mapWf d m = true) : mapWf d (mapSet d m k v) = true := by
  simp only [mapWf, Bool.and_eq_true, List.all_eq_true, decide_eq_true_eq] at h ⊢
  unfold mapSet
  split
  · exact ⟨keysRise_mapErase h.1, fun e he => h.2 e (List.mem_of_mem_filter he)⟩
  · refine ⟨keysRise_mapIns h.1, fun e he => ?_⟩
    rcases mem_mapIns he with rfl | he
    · assumption
    · exact h.2 e he

theorem mapUpd_wf (d : α) (m : Map α) (k : Nat) (f : α → α) (h : mapWf d m = true) : mapWf d (mapUpd d m k f) = true :=
  mapSet_wf d _ m k h

/-! Memory. -/

@[simp] theorem Memory.get_set_same (m : Memory) (k : Nat) (b : Byte) : (m.set k b).get k = b := by
  simp [Memory.get, Memory.set]

theorem Memory.get_set_ne (m : Memory) {j k : Nat} (b : Byte) (h : j ≠ k) : (m.set k b).get j = m.get j :=
  mapGet_mapSet_ne 0 b m h

/-- A write of one byte keeps memory canonical. -/
theorem Memory.set_wf (m : Memory) (k : Nat) (b : Byte) (h : m.wf = true) : (m.set k b).wf = true := mapSet_wf 0 b m k h

/-- A run of bytes written keeps the canonical form. -/
theorem writeRun_wf (m : Map Byte) (k : Nat) (bs : List Byte) (h : mapWf 0 m = true) : mapWf 0 (writeRun m k bs) = true := by
  induction bs generalizing m k with
  | nil => exact h
  | cons b t ih => exact ih _ _ (mapSet_wf 0 b m k h)

/-- Bytes written one by one keep memory canonical. -/
theorem foldl_set_wf {β : Type} (f : β → Nat) (g : β → Byte) (l : List β) (m : Memory) (h : m.wf = true) :
    (l.foldl (fun (m : Memory) e => m.set (f e) (g e)) m).wf = true := by
  induction l generalizing m with
  | nil => exact h
  | cons e t ih => exact ih _ (Memory.set_wf m _ _ h)

/-- A read after a run of writes, outside it. -/
theorem mapGet_writeRun_out (m : Map Byte) (k j : Nat) (bs : List Byte) (h : j < k ∨ k + bs.length ≤ j) :
    mapGet 0 (writeRun m k bs) j = mapGet 0 m j := by
  induction bs generalizing m k with
  | nil => rfl
  | cons b t ih =>
    simp only [List.length_cons] at h
    rw [writeRun, ih _ _ (by omega), mapGet_mapSet_ne]
    omega

/-! Lists. -/

@[simp] theorem listSet_length {β : Type} (l : List β) (i : Nat) (v : β) : (listSet l i v).length = l.length := by
  induction l generalizing i with
  | nil => simp [listSet]
  | cons a t ih => cases i <;> simp [listSet, ih]

theorem getElem?_listSet {β : Type} (l : List β) (i j : Nat) (v : β) :
    (listSet l i v)[j]? = if i = j then l[j]?.map (fun _ => v) else l[j]? := by
  induction l generalizing i j with
  | nil => simp [listSet]
  | cons a t ih =>
    cases i <;> cases j <;> simp [listSet, ih]

theorem listSet_listSet {β : Type} (l : List β) (i : Nat) (v w : β) : listSet (listSet l i v) i w = listSet l i w := by
  induction l generalizing i with
  | nil => simp [listSet]
  | cons a t ih => cases i <;> simp [listSet, ih]

end Sys2Proof.Machine
end

