-- ==== Sys2Proof/Laws/State.lean ====
section
/-!
SUPPORT. One lemma per field per update of the machine, so that no proof unfolds a record update; and what a read of a tile, a
domain or a context gives after a write of one.
-/

namespace Sys2Proof.Machine

open Sys2Proof

/-! The machine's fields after the update of one of them. -/

@[simp] theorem Core.setTile_mem (c : Core) (t : Nat) (x : Tile) : (c.setTile t x).mem = c.mem := rfl
@[simp] theorem Core.setTile_poison (c : Core) (t : Nat) (x : Tile) : (c.setTile t x).poison = c.poison := rfl
@[simp] theorem Core.setTile_doms (c : Core) (t : Nat) (x : Tile) : (c.setTile t x).doms = c.doms := rfl
@[simp] theorem Core.setTile_home (c : Core) (t : Nat) (x : Tile) : (c.setTile t x).home = c.home := rfl
@[simp] theorem Core.setTile_phase (c : Core) (t : Nat) (x : Tile) : (c.setTile t x).phase = c.phase := rfl
@[simp] theorem Core.setTile_slices (c : Core) (t : Nat) (x : Tile) : (c.setTile t x).slices = c.slices := rfl
@[simp] theorem Core.setTile_tags (c : Core) (t : Nat) (x : Tile) : (c.setTile t x).tags = c.tags := rfl
@[simp] theorem Core.setTile_reps (c : Core) (t : Nat) (x : Tile) : (c.setTile t x).reps = c.reps := rfl
@[simp] theorem Core.setTile_pages (c : Core) (t : Nat) (x : Tile) : (c.setTile t x).pages = c.pages := rfl
@[simp] theorem Core.setTile_diffs (c : Core) (t : Nat) (x : Tile) : (c.setTile t x).diffs = c.diffs := rfl
@[simp] theorem Core.setTile_refused (c : Core) (t : Nat) (x : Tile) : (c.setTile t x).refused = c.refused := rfl
@[simp] theorem Core.setTile_msgs (c : Core) (t : Nat) (x : Tile) : (c.setTile t x).msgs = c.msgs := rfl
@[simp] theorem Core.setTile_out (c : Core) (t : Nat) (x : Tile) : (c.setTile t x).out = c.out := rfl
@[simp] theorem Core.setTile_rels (c : Core) (t : Nat) (x : Tile) : (c.setTile t x).rels = c.rels := rfl
@[simp] theorem Core.setTile_hostMem (c : Core) (t : Nat) (x : Tile) : (c.setTile t x).hostMem = c.hostMem := rfl
@[simp] theorem Core.setTile_cxlDirty (c : Core) (t : Nat) (x : Tile) : (c.setTile t x).cxlDirty = c.cxlDirty := rfl
@[simp] theorem Core.setTile_backInv (c : Core) (t : Nat) (x : Tile) : (c.setTile t x).backInv = c.backInv := rfl
@[simp] theorem Core.setTile_mc (c : Core) (t : Nat) (x : Tile) : (c.setTile t x).mc = c.mc := rfl
@[simp] theorem Core.setTile_ftick (c : Core) (t : Nat) (x : Tile) : (c.setTile t x).ftick = c.ftick := rfl
@[simp] theorem Core.setTile_sclk (c : Core) (t : Nat) (x : Tile) : (c.setTile t x).sclk = c.sclk := rfl
@[simp] theorem Core.setTile_seq (c : Core) (t : Nat) (x : Tile) : (c.setTile t x).seq = c.seq := rfl
@[simp] theorem Core.setTile_nid (c : Core) (t : Nat) (x : Tile) : (c.setTile t x).nid = c.nid := rfl

@[simp] theorem Core.updTile_mem (c : Core) (t : Nat) (f : Tile → Tile) : (c.updTile t f).mem = c.mem := rfl
@[simp] theorem Core.updTile_poison (c : Core) (t : Nat) (f : Tile → Tile) : (c.updTile t f).poison = c.poison := rfl
@[simp] theorem Core.updTile_doms (c : Core) (t : Nat) (f : Tile → Tile) : (c.updTile t f).doms = c.doms := rfl
@[simp] theorem Core.updTile_home (c : Core) (t : Nat) (f : Tile → Tile) : (c.updTile t f).home = c.home := rfl
@[simp] theorem Core.updTile_phase (c : Core) (t : Nat) (f : Tile → Tile) : (c.updTile t f).phase = c.phase := rfl
@[simp] theorem Core.updTile_slices (c : Core) (t : Nat) (f : Tile → Tile) : (c.updTile t f).slices = c.slices := rfl
@[simp] theorem Core.updTile_tags (c : Core) (t : Nat) (f : Tile → Tile) : (c.updTile t f).tags = c.tags := rfl
@[simp] theorem Core.updTile_reps (c : Core) (t : Nat) (f : Tile → Tile) : (c.updTile t f).reps = c.reps := rfl
@[simp] theorem Core.updTile_pages (c : Core) (t : Nat) (f : Tile → Tile) : (c.updTile t f).pages = c.pages := rfl
@[simp] theorem Core.updTile_diffs (c : Core) (t : Nat) (f : Tile → Tile) : (c.updTile t f).diffs = c.diffs := rfl
@[simp] theorem Core.updTile_refused (c : Core) (t : Nat) (f : Tile → Tile) : (c.updTile t f).refused = c.refused := rfl
@[simp] theorem Core.updTile_msgs (c : Core) (t : Nat) (f : Tile → Tile) : (c.updTile t f).msgs = c.msgs := rfl
@[simp] theorem Core.updTile_out (c : Core) (t : Nat) (f : Tile → Tile) : (c.updTile t f).out = c.out := rfl
@[simp] theorem Core.updTile_rels (c : Core) (t : Nat) (f : Tile → Tile) : (c.updTile t f).rels = c.rels := rfl
@[simp] theorem Core.updTile_hostMem (c : Core) (t : Nat) (f : Tile → Tile) : (c.updTile t f).hostMem = c.hostMem := rfl
@[simp] theorem Core.updTile_cxlDirty (c : Core) (t : Nat) (f : Tile → Tile) : (c.updTile t f).cxlDirty = c.cxlDirty := rfl
@[simp] theorem Core.updTile_backInv (c : Core) (t : Nat) (f : Tile → Tile) : (c.updTile t f).backInv = c.backInv := rfl
@[simp] theorem Core.updTile_mc (c : Core) (t : Nat) (f : Tile → Tile) : (c.updTile t f).mc = c.mc := rfl
@[simp] theorem Core.updTile_ftick (c : Core) (t : Nat) (f : Tile → Tile) : (c.updTile t f).ftick = c.ftick := rfl
@[simp] theorem Core.updTile_sclk (c : Core) (t : Nat) (f : Tile → Tile) : (c.updTile t f).sclk = c.sclk := rfl
@[simp] theorem Core.updTile_seq (c : Core) (t : Nat) (f : Tile → Tile) : (c.updTile t f).seq = c.seq := rfl
@[simp] theorem Core.updTile_nid (c : Core) (t : Nat) (f : Tile → Tile) : (c.updTile t f).nid = c.nid := rfl

@[simp] theorem Core.setDom_mem (c : Core) (d : Nat) (x : Domain) : (c.setDom d x).mem = c.mem := rfl
@[simp] theorem Core.setDom_poison (c : Core) (d : Nat) (x : Domain) : (c.setDom d x).poison = c.poison := rfl
@[simp] theorem Core.setDom_tiles (c : Core) (d : Nat) (x : Domain) : (c.setDom d x).tiles = c.tiles := rfl
@[simp] theorem Core.setDom_home (c : Core) (d : Nat) (x : Domain) : (c.setDom d x).home = c.home := rfl
@[simp] theorem Core.setDom_phase (c : Core) (d : Nat) (x : Domain) : (c.setDom d x).phase = c.phase := rfl
@[simp] theorem Core.setDom_slices (c : Core) (d : Nat) (x : Domain) : (c.setDom d x).slices = c.slices := rfl
@[simp] theorem Core.setDom_tags (c : Core) (d : Nat) (x : Domain) : (c.setDom d x).tags = c.tags := rfl
@[simp] theorem Core.setDom_reps (c : Core) (d : Nat) (x : Domain) : (c.setDom d x).reps = c.reps := rfl
@[simp] theorem Core.setDom_pages (c : Core) (d : Nat) (x : Domain) : (c.setDom d x).pages = c.pages := rfl
@[simp] theorem Core.setDom_diffs (c : Core) (d : Nat) (x : Domain) : (c.setDom d x).diffs = c.diffs := rfl
@[simp] theorem Core.setDom_refused (c : Core) (d : Nat) (x : Domain) : (c.setDom d x).refused = c.refused := rfl
@[simp] theorem Core.setDom_msgs (c : Core) (d : Nat) (x : Domain) : (c.setDom d x).msgs = c.msgs := rfl
@[simp] theorem Core.setDom_out (c : Core) (d : Nat) (x : Domain) : (c.setDom d x).out = c.out := rfl
@[simp] theorem Core.setDom_rels (c : Core) (d : Nat) (x : Domain) : (c.setDom d x).rels = c.rels := rfl
@[simp] theorem Core.setDom_hostMem (c : Core) (d : Nat) (x : Domain) : (c.setDom d x).hostMem = c.hostMem := rfl
@[simp] theorem Core.setDom_cxlDirty (c : Core) (d : Nat) (x : Domain) : (c.setDom d x).cxlDirty = c.cxlDirty := rfl
@[simp] theorem Core.setDom_backInv (c : Core) (d : Nat) (x : Domain) : (c.setDom d x).backInv = c.backInv := rfl
@[simp] theorem Core.setDom_mc (c : Core) (d : Nat) (x : Domain) : (c.setDom d x).mc = c.mc := rfl
@[simp] theorem Core.setDom_ftick (c : Core) (d : Nat) (x : Domain) : (c.setDom d x).ftick = c.ftick := rfl
@[simp] theorem Core.setDom_sclk (c : Core) (d : Nat) (x : Domain) : (c.setDom d x).sclk = c.sclk := rfl
@[simp] theorem Core.setDom_seq (c : Core) (d : Nat) (x : Domain) : (c.setDom d x).seq = c.seq := rfl
@[simp] theorem Core.setDom_nid (c : Core) (d : Nat) (x : Domain) : (c.setDom d x).nid = c.nid := rfl

@[simp] theorem Core.updDom_mem (c : Core) (d : Nat) (f : Domain → Domain) : (c.updDom d f).mem = c.mem := rfl
@[simp] theorem Core.updDom_poison (c : Core) (d : Nat) (f : Domain → Domain) : (c.updDom d f).poison = c.poison := rfl
@[simp] theorem Core.updDom_tiles (c : Core) (d : Nat) (f : Domain → Domain) : (c.updDom d f).tiles = c.tiles := rfl
@[simp] theorem Core.updDom_home (c : Core) (d : Nat) (f : Domain → Domain) : (c.updDom d f).home = c.home := rfl
@[simp] theorem Core.updDom_phase (c : Core) (d : Nat) (f : Domain → Domain) : (c.updDom d f).phase = c.phase := rfl
@[simp] theorem Core.updDom_slices (c : Core) (d : Nat) (f : Domain → Domain) : (c.updDom d f).slices = c.slices := rfl
@[simp] theorem Core.updDom_tags (c : Core) (d : Nat) (f : Domain → Domain) : (c.updDom d f).tags = c.tags := rfl
@[simp] theorem Core.updDom_reps (c : Core) (d : Nat) (f : Domain → Domain) : (c.updDom d f).reps = c.reps := rfl
@[simp] theorem Core.updDom_pages (c : Core) (d : Nat) (f : Domain → Domain) : (c.updDom d f).pages = c.pages := rfl
@[simp] theorem Core.updDom_diffs (c : Core) (d : Nat) (f : Domain → Domain) : (c.updDom d f).diffs = c.diffs := rfl
@[simp] theorem Core.updDom_refused (c : Core) (d : Nat) (f : Domain → Domain) : (c.updDom d f).refused = c.refused := rfl
@[simp] theorem Core.updDom_msgs (c : Core) (d : Nat) (f : Domain → Domain) : (c.updDom d f).msgs = c.msgs := rfl
@[simp] theorem Core.updDom_out (c : Core) (d : Nat) (f : Domain → Domain) : (c.updDom d f).out = c.out := rfl
@[simp] theorem Core.updDom_rels (c : Core) (d : Nat) (f : Domain → Domain) : (c.updDom d f).rels = c.rels := rfl
@[simp] theorem Core.updDom_hostMem (c : Core) (d : Nat) (f : Domain → Domain) : (c.updDom d f).hostMem = c.hostMem := rfl
@[simp] theorem Core.updDom_cxlDirty (c : Core) (d : Nat) (f : Domain → Domain) : (c.updDom d f).cxlDirty = c.cxlDirty := rfl
@[simp] theorem Core.updDom_backInv (c : Core) (d : Nat) (f : Domain → Domain) : (c.updDom d f).backInv = c.backInv := rfl
@[simp] theorem Core.updDom_mc (c : Core) (d : Nat) (f : Domain → Domain) : (c.updDom d f).mc = c.mc := rfl
@[simp] theorem Core.updDom_ftick (c : Core) (d : Nat) (f : Domain → Domain) : (c.updDom d f).ftick = c.ftick := rfl
@[simp] theorem Core.updDom_sclk (c : Core) (d : Nat) (f : Domain → Domain) : (c.updDom d f).sclk = c.sclk := rfl
@[simp] theorem Core.updDom_seq (c : Core) (d : Nat) (f : Domain → Domain) : (c.updDom d f).seq = c.seq := rfl
@[simp] theorem Core.updDom_nid (c : Core) (d : Nat) (f : Domain → Domain) : (c.updDom d f).nid = c.nid := rfl

@[simp] theorem Core.send_mem (c : Core) (m : Event) : (c.send m).mem = c.mem := rfl
@[simp] theorem Core.send_poison (c : Core) (m : Event) : (c.send m).poison = c.poison := rfl
@[simp] theorem Core.send_tiles (c : Core) (m : Event) : (c.send m).tiles = c.tiles := rfl
@[simp] theorem Core.send_doms (c : Core) (m : Event) : (c.send m).doms = c.doms := rfl
@[simp] theorem Core.send_home (c : Core) (m : Event) : (c.send m).home = c.home := rfl
@[simp] theorem Core.send_phase (c : Core) (m : Event) : (c.send m).phase = c.phase := rfl
@[simp] theorem Core.send_slices (c : Core) (m : Event) : (c.send m).slices = c.slices := rfl
@[simp] theorem Core.send_tags (c : Core) (m : Event) : (c.send m).tags = c.tags := rfl
@[simp] theorem Core.send_reps (c : Core) (m : Event) : (c.send m).reps = c.reps := rfl
@[simp] theorem Core.send_pages (c : Core) (m : Event) : (c.send m).pages = c.pages := rfl
@[simp] theorem Core.send_diffs (c : Core) (m : Event) : (c.send m).diffs = c.diffs := rfl
@[simp] theorem Core.send_refused (c : Core) (m : Event) : (c.send m).refused = c.refused := rfl
@[simp] theorem Core.send_out (c : Core) (m : Event) : (c.send m).out = c.out := rfl
@[simp] theorem Core.send_rels (c : Core) (m : Event) : (c.send m).rels = c.rels := rfl
@[simp] theorem Core.send_hostMem (c : Core) (m : Event) : (c.send m).hostMem = c.hostMem := rfl
@[simp] theorem Core.send_cxlDirty (c : Core) (m : Event) : (c.send m).cxlDirty = c.cxlDirty := rfl
@[simp] theorem Core.send_backInv (c : Core) (m : Event) : (c.send m).backInv = c.backInv := rfl
@[simp] theorem Core.send_mc (c : Core) (m : Event) : (c.send m).mc = c.mc := rfl
@[simp] theorem Core.send_ftick (c : Core) (m : Event) : (c.send m).ftick = c.ftick := rfl
@[simp] theorem Core.send_sclk (c : Core) (m : Event) : (c.send m).sclk = c.sclk := rfl
@[simp] theorem Core.send_seq (c : Core) (m : Event) : (c.send m).seq = c.seq := rfl
@[simp] theorem Core.send_nid (c : Core) (m : Event) : (c.send m).nid = c.nid := rfl

@[simp] theorem Core.setCtx_mem (c : Core) (r : CtxRef) (x : Ctx) : (c.setCtx r x).mem = c.mem := by cases r <;> rfl
@[simp] theorem Core.setCtx_poison (c : Core) (r : CtxRef) (x : Ctx) : (c.setCtx r x).poison = c.poison := by cases r <;> rfl
@[simp] theorem Core.setCtx_doms (c : Core) (r : CtxRef) (x : Ctx) : (c.setCtx r x).doms = c.doms := by cases r <;> rfl
@[simp] theorem Core.setCtx_home (c : Core) (r : CtxRef) (x : Ctx) : (c.setCtx r x).home = c.home := by cases r <;> rfl
@[simp] theorem Core.setCtx_phase (c : Core) (r : CtxRef) (x : Ctx) : (c.setCtx r x).phase = c.phase := by cases r <;> rfl
@[simp] theorem Core.setCtx_slices (c : Core) (r : CtxRef) (x : Ctx) : (c.setCtx r x).slices = c.slices := by cases r <;> rfl
@[simp] theorem Core.setCtx_tags (c : Core) (r : CtxRef) (x : Ctx) : (c.setCtx r x).tags = c.tags := by cases r <;> rfl
@[simp] theorem Core.setCtx_reps (c : Core) (r : CtxRef) (x : Ctx) : (c.setCtx r x).reps = c.reps := by cases r <;> rfl
@[simp] theorem Core.setCtx_pages (c : Core) (r : CtxRef) (x : Ctx) : (c.setCtx r x).pages = c.pages := by cases r <;> rfl
@[simp] theorem Core.setCtx_diffs (c : Core) (r : CtxRef) (x : Ctx) : (c.setCtx r x).diffs = c.diffs := by cases r <;> rfl
@[simp] theorem Core.setCtx_refused (c : Core) (r : CtxRef) (x : Ctx) : (c.setCtx r x).refused = c.refused := by cases r <;> rfl
@[simp] theorem Core.setCtx_msgs (c : Core) (r : CtxRef) (x : Ctx) : (c.setCtx r x).msgs = c.msgs := by cases r <;> rfl
@[simp] theorem Core.setCtx_out (c : Core) (r : CtxRef) (x : Ctx) : (c.setCtx r x).out = c.out := by cases r <;> rfl
@[simp] theorem Core.setCtx_rels (c : Core) (r : CtxRef) (x : Ctx) : (c.setCtx r x).rels = c.rels := by cases r <;> rfl
@[simp] theorem Core.setCtx_hostMem (c : Core) (r : CtxRef) (x : Ctx) : (c.setCtx r x).hostMem = c.hostMem := by cases r <;> rfl
@[simp] theorem Core.setCtx_cxlDirty (c : Core) (r : CtxRef) (x : Ctx) : (c.setCtx r x).cxlDirty = c.cxlDirty := by cases r <;> rfl
@[simp] theorem Core.setCtx_backInv (c : Core) (r : CtxRef) (x : Ctx) : (c.setCtx r x).backInv = c.backInv := by cases r <;> rfl
@[simp] theorem Core.setCtx_mc (c : Core) (r : CtxRef) (x : Ctx) : (c.setCtx r x).mc = c.mc := by cases r <;> rfl
@[simp] theorem Core.setCtx_ftick (c : Core) (r : CtxRef) (x : Ctx) : (c.setCtx r x).ftick = c.ftick := by cases r <;> rfl
@[simp] theorem Core.setCtx_sclk (c : Core) (r : CtxRef) (x : Ctx) : (c.setCtx r x).sclk = c.sclk := by cases r <;> rfl
@[simp] theorem Core.setCtx_seq (c : Core) (r : CtxRef) (x : Ctx) : (c.setCtx r x).seq = c.seq := by cases r <;> rfl
@[simp] theorem Core.setCtx_nid (c : Core) (r : CtxRef) (x : Ctx) : (c.setCtx r x).nid = c.nid := by cases r <;> rfl

@[simp] theorem Core.updCtx_mem (c : Core) (r : CtxRef) (f : Ctx → Ctx) : (c.updCtx r f).mem = c.mem := by cases r <;> rfl
@[simp] theorem Core.updCtx_poison (c : Core) (r : CtxRef) (f : Ctx → Ctx) : (c.updCtx r f).poison = c.poison := by cases r <;> rfl
@[simp] theorem Core.updCtx_doms (c : Core) (r : CtxRef) (f : Ctx → Ctx) : (c.updCtx r f).doms = c.doms := by cases r <;> rfl
@[simp] theorem Core.updCtx_home (c : Core) (r : CtxRef) (f : Ctx → Ctx) : (c.updCtx r f).home = c.home := by cases r <;> rfl
@[simp] theorem Core.updCtx_phase (c : Core) (r : CtxRef) (f : Ctx → Ctx) : (c.updCtx r f).phase = c.phase := by cases r <;> rfl
@[simp] theorem Core.updCtx_slices (c : Core) (r : CtxRef) (f : Ctx → Ctx) : (c.updCtx r f).slices = c.slices := by cases r <;> rfl
@[simp] theorem Core.updCtx_tags (c : Core) (r : CtxRef) (f : Ctx → Ctx) : (c.updCtx r f).tags = c.tags := by cases r <;> rfl
@[simp] theorem Core.updCtx_reps (c : Core) (r : CtxRef) (f : Ctx → Ctx) : (c.updCtx r f).reps = c.reps := by cases r <;> rfl
@[simp] theorem Core.updCtx_pages (c : Core) (r : CtxRef) (f : Ctx → Ctx) : (c.updCtx r f).pages = c.pages := by cases r <;> rfl
@[simp] theorem Core.updCtx_diffs (c : Core) (r : CtxRef) (f : Ctx → Ctx) : (c.updCtx r f).diffs = c.diffs := by cases r <;> rfl
@[simp] theorem Core.updCtx_refused (c : Core) (r : CtxRef) (f : Ctx → Ctx) : (c.updCtx r f).refused = c.refused := by cases r <;> rfl
@[simp] theorem Core.updCtx_msgs (c : Core) (r : CtxRef) (f : Ctx → Ctx) : (c.updCtx r f).msgs = c.msgs := by cases r <;> rfl
@[simp] theorem Core.updCtx_out (c : Core) (r : CtxRef) (f : Ctx → Ctx) : (c.updCtx r f).out = c.out := by cases r <;> rfl
@[simp] theorem Core.updCtx_rels (c : Core) (r : CtxRef) (f : Ctx → Ctx) : (c.updCtx r f).rels = c.rels := by cases r <;> rfl
@[simp] theorem Core.updCtx_hostMem (c : Core) (r : CtxRef) (f : Ctx → Ctx) : (c.updCtx r f).hostMem = c.hostMem := by cases r <;> rfl
@[simp] theorem Core.updCtx_cxlDirty (c : Core) (r : CtxRef) (f : Ctx → Ctx) : (c.updCtx r f).cxlDirty = c.cxlDirty := by cases r <;> rfl
@[simp] theorem Core.updCtx_backInv (c : Core) (r : CtxRef) (f : Ctx → Ctx) : (c.updCtx r f).backInv = c.backInv := by cases r <;> rfl
@[simp] theorem Core.updCtx_mc (c : Core) (r : CtxRef) (f : Ctx → Ctx) : (c.updCtx r f).mc = c.mc := by cases r <;> rfl
@[simp] theorem Core.updCtx_ftick (c : Core) (r : CtxRef) (f : Ctx → Ctx) : (c.updCtx r f).ftick = c.ftick := by cases r <;> rfl
@[simp] theorem Core.updCtx_sclk (c : Core) (r : CtxRef) (f : Ctx → Ctx) : (c.updCtx r f).sclk = c.sclk := by cases r <;> rfl
@[simp] theorem Core.updCtx_seq (c : Core) (r : CtxRef) (f : Ctx → Ctx) : (c.updCtx r f).seq = c.seq := by cases r <;> rfl
@[simp] theorem Core.updCtx_nid (c : Core) (r : CtxRef) (f : Ctx → Ctx) : (c.updCtx r f).nid = c.nid := by cases r <;> rfl

@[simp] theorem Core.updTileCtxs_mem (c : Core) (t : Nat) (f : Ctx → Ctx) : (c.updTileCtxs t f).mem = c.mem := rfl
@[simp] theorem Core.updTileCtxs_poison (c : Core) (t : Nat) (f : Ctx → Ctx) : (c.updTileCtxs t f).poison = c.poison := rfl
@[simp] theorem Core.updTileCtxs_doms (c : Core) (t : Nat) (f : Ctx → Ctx) : (c.updTileCtxs t f).doms = c.doms := rfl
@[simp] theorem Core.updTileCtxs_home (c : Core) (t : Nat) (f : Ctx → Ctx) : (c.updTileCtxs t f).home = c.home := rfl
@[simp] theorem Core.updTileCtxs_phase (c : Core) (t : Nat) (f : Ctx → Ctx) : (c.updTileCtxs t f).phase = c.phase := rfl
@[simp] theorem Core.updTileCtxs_slices (c : Core) (t : Nat) (f : Ctx → Ctx) : (c.updTileCtxs t f).slices = c.slices := rfl
@[simp] theorem Core.updTileCtxs_tags (c : Core) (t : Nat) (f : Ctx → Ctx) : (c.updTileCtxs t f).tags = c.tags := rfl
@[simp] theorem Core.updTileCtxs_reps (c : Core) (t : Nat) (f : Ctx → Ctx) : (c.updTileCtxs t f).reps = c.reps := rfl
@[simp] theorem Core.updTileCtxs_pages (c : Core) (t : Nat) (f : Ctx → Ctx) : (c.updTileCtxs t f).pages = c.pages := rfl
@[simp] theorem Core.updTileCtxs_diffs (c : Core) (t : Nat) (f : Ctx → Ctx) : (c.updTileCtxs t f).diffs = c.diffs := rfl
@[simp] theorem Core.updTileCtxs_refused (c : Core) (t : Nat) (f : Ctx → Ctx) : (c.updTileCtxs t f).refused = c.refused := rfl
@[simp] theorem Core.updTileCtxs_msgs (c : Core) (t : Nat) (f : Ctx → Ctx) : (c.updTileCtxs t f).msgs = c.msgs := rfl
@[simp] theorem Core.updTileCtxs_out (c : Core) (t : Nat) (f : Ctx → Ctx) : (c.updTileCtxs t f).out = c.out := rfl
@[simp] theorem Core.updTileCtxs_rels (c : Core) (t : Nat) (f : Ctx → Ctx) : (c.updTileCtxs t f).rels = c.rels := rfl
@[simp] theorem Core.updTileCtxs_hostMem (c : Core) (t : Nat) (f : Ctx → Ctx) : (c.updTileCtxs t f).hostMem = c.hostMem := rfl
@[simp] theorem Core.updTileCtxs_cxlDirty (c : Core) (t : Nat) (f : Ctx → Ctx) : (c.updTileCtxs t f).cxlDirty = c.cxlDirty := rfl
@[simp] theorem Core.updTileCtxs_backInv (c : Core) (t : Nat) (f : Ctx → Ctx) : (c.updTileCtxs t f).backInv = c.backInv := rfl
@[simp] theorem Core.updTileCtxs_mc (c : Core) (t : Nat) (f : Ctx → Ctx) : (c.updTileCtxs t f).mc = c.mc := rfl
@[simp] theorem Core.updTileCtxs_ftick (c : Core) (t : Nat) (f : Ctx → Ctx) : (c.updTileCtxs t f).ftick = c.ftick := rfl
@[simp] theorem Core.updTileCtxs_sclk (c : Core) (t : Nat) (f : Ctx → Ctx) : (c.updTileCtxs t f).sclk = c.sclk := rfl
@[simp] theorem Core.updTileCtxs_seq (c : Core) (t : Nat) (f : Ctx → Ctx) : (c.updTileCtxs t f).seq = c.seq := rfl
@[simp] theorem Core.updTileCtxs_nid (c : Core) (t : Nat) (f : Ctx → Ctx) : (c.updTileCtxs t f).nid = c.nid := rfl

@[simp] theorem Core.send_msgs (c : Core) (m : Event) : (c.send m).msgs = c.msgs ++ [m] := rfl

/-! The state's fields after the acting context is replaced. -/

@[simp] theorem State.setMe_mem (s : State) (x : Ctx) : (s.setMe x).mem = s.mem := by simp [State.setMe]
@[simp] theorem State.setMe_poison (s : State) (x : Ctx) : (s.setMe x).poison = s.poison := by simp [State.setMe]
@[simp] theorem State.setMe_doms (s : State) (x : Ctx) : (s.setMe x).doms = s.doms := by simp [State.setMe]
@[simp] theorem State.setMe_home (s : State) (x : Ctx) : (s.setMe x).home = s.home := by simp [State.setMe]
@[simp] theorem State.setMe_phase (s : State) (x : Ctx) : (s.setMe x).phase = s.phase := by simp [State.setMe]
@[simp] theorem State.setMe_slices (s : State) (x : Ctx) : (s.setMe x).slices = s.slices := by simp [State.setMe]
@[simp] theorem State.setMe_tags (s : State) (x : Ctx) : (s.setMe x).tags = s.tags := by simp [State.setMe]
@[simp] theorem State.setMe_reps (s : State) (x : Ctx) : (s.setMe x).reps = s.reps := by simp [State.setMe]
@[simp] theorem State.setMe_pages (s : State) (x : Ctx) : (s.setMe x).pages = s.pages := by simp [State.setMe]
@[simp] theorem State.setMe_diffs (s : State) (x : Ctx) : (s.setMe x).diffs = s.diffs := by simp [State.setMe]
@[simp] theorem State.setMe_refused (s : State) (x : Ctx) : (s.setMe x).refused = s.refused := by simp [State.setMe]
@[simp] theorem State.setMe_msgs (s : State) (x : Ctx) : (s.setMe x).msgs = s.msgs := by simp [State.setMe]
@[simp] theorem State.setMe_out (s : State) (x : Ctx) : (s.setMe x).out = s.out := by simp [State.setMe]
@[simp] theorem State.setMe_rels (s : State) (x : Ctx) : (s.setMe x).rels = s.rels := by simp [State.setMe]
@[simp] theorem State.setMe_hostMem (s : State) (x : Ctx) : (s.setMe x).hostMem = s.hostMem := by simp [State.setMe]
@[simp] theorem State.setMe_cxlDirty (s : State) (x : Ctx) : (s.setMe x).cxlDirty = s.cxlDirty := by simp [State.setMe]
@[simp] theorem State.setMe_backInv (s : State) (x : Ctx) : (s.setMe x).backInv = s.backInv := by simp [State.setMe]
@[simp] theorem State.setMe_mc (s : State) (x : Ctx) : (s.setMe x).mc = s.mc := by simp [State.setMe]
@[simp] theorem State.setMe_ftick (s : State) (x : Ctx) : (s.setMe x).ftick = s.ftick := by simp [State.setMe]
@[simp] theorem State.setMe_sclk (s : State) (x : Ctx) : (s.setMe x).sclk = s.sclk := by simp [State.setMe]
@[simp] theorem State.setMe_seq (s : State) (x : Ctx) : (s.setMe x).seq = s.seq := by simp [State.setMe]
@[simp] theorem State.setMe_nid (s : State) (x : Ctx) : (s.setMe x).nid = s.nid := by simp [State.setMe]
@[simp] theorem State.setMe_ref (s : State) (x : Ctx) : (s.setMe x).ref = s.ref := rfl
@[simp] theorem State.setMe_slot (s : State) (x : Ctx) : (s.setMe x).slot = s.slot := rfl
@[simp] theorem State.setMe_event (s : State) (x : Ctx) : (s.setMe x).event = s.event := rfl
@[simp] theorem State.setMe_bundle (s : State) (x : Ctx) : (s.setMe x).bundle = s.bundle := rfl
@[simp] theorem State.setMe_saved (s : State) (x : Ctx) : (s.setMe x).saved = s.saved := rfl

@[simp] theorem State.setMe_toCore (s : State) (x : Ctx) : (s.setMe x).toCore = s.toCore.setCtx s.ref x := rfl

/-! Tiles and domains. -/

@[simp] theorem Core.tile_setTile_same (c : Core) (t : Nat) (x : Tile) : (c.setTile t x).tile t = x := by
  simp [Core.tile, Core.setTile]

theorem Core.tile_setTile_ne (c : Core) {t u : Nat} (x : Tile) (h : u ≠ t) : (c.setTile t x).tile u = c.tile u :=
  mapGet_mapSet_ne _ _ _ h

@[simp] theorem Core.tile_updTile_same (c : Core) (t : Nat) (f : Tile → Tile) : (c.updTile t f).tile t = f (c.tile t) := by
  simp [Core.updTile]

theorem Core.tile_updTile_ne (c : Core) {t u : Nat} (f : Tile → Tile) (h : u ≠ t) : (c.updTile t f).tile u = c.tile u :=
  c.tile_setTile_ne _ h

@[simp] theorem Core.dom_setDom_same (c : Core) (d : Nat) (x : Domain) : (c.setDom d x).dom d = x := by
  simp [Core.dom, Core.setDom]

theorem Core.dom_setDom_ne (c : Core) {d e : Nat} (x : Domain) (h : e ≠ d) : (c.setDom d x).dom e = c.dom e :=
  mapGet_mapSet_ne _ _ _ h

@[simp] theorem Core.dom_updDom_same (c : Core) (d : Nat) (f : Domain → Domain) : (c.updDom d f).dom d = f (c.dom d) := by
  simp [Core.updDom]

theorem Core.dom_updDom_ne (c : Core) {d e : Nat} (f : Domain → Domain) (h : e ≠ d) : (c.updDom d f).dom e = c.dom e :=
  c.dom_setDom_ne _ h

/-! Contexts. -/

/-- A context that is there reads as it was written. -/
theorem Core.ctx?_setCtx_same (c : Core) (r : CtxRef) (x : Ctx) (h : (c.ctx? r).isSome = true) :
    (c.setCtx r x).ctx? r = some x := by
  cases r with
  | task t p =>
    simp only [Core.ctx?] at h
    simp only [Core.setCtx, Core.ctx?, Core.tile_updTile_same, getElem?_listSet, if_true]
    cases hq : (c.tile t).queue[p]? with
    | none => simp [hq] at h
    | some y => simp
  | hc t k =>
    simp only [Core.ctx?] at h
    simp [Core.setCtx, Core.ctx?, h]

theorem Core.ctx_setCtx_same (c : Core) (r : CtxRef) (x : Ctx) (h : (c.ctx? r).isSome = true) : (c.setCtx r x).ctx r = x := by
  simp [Core.ctx, c.ctx?_setCtx_same r x h]

/-- A context write leaves every other context alone. -/
theorem Core.ctx?_setCtx_ne (c : Core) {r q : CtxRef} (x : Ctx) (h : q ≠ r) : (c.setCtx r x).ctx? q = c.ctx? q := by
  cases r with
  | task t p =>
    cases q with
    | task u k =>
      by_cases hu : u = t
      · subst hu
        have : p ≠ k := fun e => h (by rw [e])
        simp [Core.setCtx, Core.ctx?, getElem?_listSet, this]
      · simp [Core.setCtx, Core.ctx?, Core.tile_updTile_ne _ _ hu]
    | hc u k =>
      by_cases hu : u = t
      · subst hu
        simp [Core.setCtx, Core.ctx?]
      · simp [Core.setCtx, Core.ctx?, Core.tile_updTile_ne _ _ hu]
  | hc t p =>
    cases q with
    | task u k =>
      by_cases hu : u = t
      · subst hu
        simp only [Core.setCtx, Core.ctx?, Core.tile_updTile_same]
        split <;> rfl
      · simp [Core.setCtx, Core.ctx?, Core.tile_updTile_ne _ _ hu]
    | hc u k =>
      by_cases hu : u = t
      · subst hu
        have : k ≠ p := fun e => h (by rw [e])
        simp only [Core.setCtx, Core.ctx?, Core.tile_updTile_same]
        split
        · exact mapGet_mapSet_ne (none : Option Ctx) (some x) (c.tile u).hcs this
        · rfl
      · simp [Core.setCtx, Core.ctx?, Core.tile_updTile_ne _ _ hu]

theorem Core.setTile_setTile (c : Core) (t : Nat) {x : Tile} (y : Tile) (h : x ≠ .init) :
    (c.setTile t x).setTile t y = c.setTile t y := by
  simp only [Core.setTile, mapSet_mapSet y c.tiles t h]

/-- Of two writes of a context that is there the later one stands. -/
theorem Core.setCtx_setCtx (c : Core) (r : CtxRef) (x y : Ctx) (h : (c.ctx? r).isSome = true) :
    (c.setCtx r x).setCtx r y = c.setCtx r y := by
  cases r with
  | task t p =>
    simp only [Core.ctx?] at h
    have hne : ({ c.tile t with queue := listSet (c.tile t).queue p x } : Tile) ≠ .init := by
      intro e
      have he := congrArg (fun z : Tile => z.queue.length) e
      simp only [listSet_length] at he
      have hz : (c.tile t).queue.length = 0 := he
      rw [List.length_eq_zero_iff.1 hz] at h
      simp at h
    simp only [Core.setCtx, Core.updTile, Core.tile_setTile_same]
    rw [Core.setTile_setTile _ _ _ hne]
    simp [listSet_listSet]
  | hc t k =>
    simp only [Core.ctx?] at h
    have hne : ({ c.tile t with hcs := mapSet none (c.tile t).hcs k (some x) } : Tile) ≠ .init := by
      intro e
      have he := congrArg (fun z : Tile => mapGet none z.hcs k) e
      simp [Tile.init, mapGet] at he
    simp only [Core.setCtx, Core.updTile, Core.tile_setTile_same, if_pos h]
    rw [Core.setTile_setTile _ _ _ hne]
    simp [mapSet_mapSet (d := none) (some y) (c.tile t).hcs k (Option.some_ne_none x)]

/-- The acting context as it was written. -/
@[simp] theorem State.me_setMe (s : State) (x : Ctx) (h : s.here = true) : (s.setMe x).me = x :=
  s.toCore.ctx_setCtx_same s.ref x h

@[simp] theorem State.here_setMe (s : State) (x : Ctx) (h : s.here = true) : (s.setMe x).here = true := by
  simp [State.here, s.toCore.ctx?_setCtx_same s.ref x h]

/-- Of two writes of the acting context the later one stands. -/
theorem State.setMe_setMe (s : State) (x y : Ctx) (h : s.here = true) : (s.setMe x).me = x ∧ ((s.setMe x).setMe y).me = y :=
  ⟨s.me_setMe x h, (s.setMe x).me_setMe y (s.here_setMe x h)⟩

/-! Registers. -/

@[simp] theorem Regs.getS_zero (r : Regs) : r.getS 0 = 0 := rfl

theorem Regs.getS_setS (r : Regs) (n k : Nat) (v : Word) :
    (r.setS n v).getS k = if k = n ∧ n ≠ 0 then v else r.getS k := by
  unfold Regs.setS Regs.getS
  by_cases hn : n = 0
  · simp [hn]
  · by_cases hk : k = n
    · subst hk
      simp [hn]
    · simp [hn, hk, mapGet_mapSet_ne]

@[simp] theorem Regs.getG_zero (r : Regs) : r.getG 0 = true := rfl
@[simp] theorem Regs.getG_one (r : Regs) : r.getG 1 = false := rfl
@[simp] theorem Regs.getM_zero (r : Regs) : r.getM 0 = BitVec.allOnes 64 := rfl
@[simp] theorem Regs.getM_one (r : Regs) : r.getM 1 = 0 := rfl

end Sys2Proof.Machine
end

