-- ==== Sys2Proof/Laws/Memory.lean ====
section
/-!
SUPPORT. Every operation that writes memory keeps its canonical form, and a byte of HBM reads as it was written.
-/

namespace Sys2Proof.Machine

open Sys2Proof

/-- Clearing the marks of words that are written whole changes neither memory nor the host's. -/
theorem Core.cleanse_mem (c : Core) (pa : Nat) (bs : List (Option Byte)) :
    (c.cleanse pa bs).mem = c.mem ∧ (c.cleanse pa bs).hostMem = c.hostMem := by
  unfold Core.cleanse
  split
  · exact ⟨rfl, rfl⟩
  · generalize List.range (bs.length / 8 + 1) = l
    generalize hc : c = c0
    have h0 : c0.mem = c.mem ∧ c0.hostMem = c.hostMem := by subst hc; exact ⟨rfl, rfl⟩
    rw [← hc]
    rw [hc] at *
    clear hc
    suffices h : ∀ (d : Core), d.mem = c0.mem ∧ d.hostMem = c0.hostMem → ∀ l : List Nat,
        (l.foldl (fun (c : Core) k =>
          let w := (pa + 7) / 8 * 8 + 8 * k
          if w + 8 ≤ pa + bs.length && ((bs.drop (w - pa)).take 8).all Option.isSome then
            { c with poison := mapSet false c.poison (c.poisonKey w) false }
          else c) d).mem = c0.mem ∧
        (l.foldl (fun (c : Core) k =>
          let w := (pa + 7) / 8 * 8 + 8 * k
          if w + 8 ≤ pa + bs.length && ((bs.drop (w - pa)).take 8).all Option.isSome then
            { c with poison := mapSet false c.poison (c.poisonKey w) false }
          else c) d).hostMem = c0.hostMem from h c0 ⟨rfl, rfl⟩ l
    intro d hd l
    induction l generalizing d with
    | nil => exact hd
    | cons k t ih =>
      simp only [List.foldl_cons]
      apply ih
      split
      · exact hd
      · exact hd

/-- A coherent line taken from the host keeps memory canonical. -/
theorem Core.takeCoh_wf (c : Core) (pa : Nat) (h : c.mem.wf = true) : (c.takeCoh pa).mem.wf = true := by
  unfold Core.takeCoh
  simp only
  split
  · split
    · exact h
    · exact writeRun_wf _ _ _ h
  · exact h

/-- A coherent line written back keeps memory canonical. -/
theorem Core.flushCoh_wf (c : Core) (line : Nat) (h : c.mem.wf = true) : (c.flushCoh line).mem.wf = true := by
  unfold Core.flushCoh
  generalize hb : List.replicate 128 (0 : Byte) = z
  split
  · split
    · exact writeRun_wf _ _ z h
    · exact h
  · exact h

/-- A store of bytes keeps memory canonical. -/
theorem Core.putBytes_wf (c : Core) (pa : Nat) (bs : List (Option Byte)) (h : c.mem.wf = true) : (c.putBytes pa bs).mem.wf = true := by
  have h1 : (c.cleanse pa bs).mem.wf = true := by rw [(c.cleanse_mem pa bs).1]; exact h
  unfold Core.putBytes
  split
  · exact h1
  · exact foldl_set_wf _ _ _ _ (Core.takeCoh_wf _ _ h1)
  · exact h1
  · exact foldl_set_wf _ _ _ _ h1
  · exact h1

/-- The reset memory is canonical. -/
theorem reset_mem_wf : State.reset.mem.wf = true := by decide

end Sys2Proof.Machine
end

