-- ==== Sys2Proof/Laws/Ops.lean ====
section
/-!
SUPPORT. What each shared operation of the slots can do: the outcome under a guard, the reads and writes of registers, the
heads and tails of the queues, the rollback of a bundle.
-/

namespace Sys2Proof.Machine

open Sys2Proof

/-! Outcomes. -/

@[simp] theorem finish_ok (s t : State) : finish s (.ok t) = .next t := rfl
@[simp] theorem finish_trap (s : State) (t : TrapInfo) : finish s (.error (.trap t)) = .next (s.trap t) := rfl
@[simp] theorem finish_wait (s : State) (w : Wait) : finish s (.error (.wait w)) = .next (s.wait w) := rfl

/-- Every outcome of an operation of a slot is a next state. -/
theorem finish_next (s : State) (r : Op State) : ∃ t, finish s r = .next t := by
  match r with
  | .ok t => exact ⟨t, rfl⟩
  | .error (.trap t) => exact ⟨s.trap t, rfl⟩
  | .error (.wait w) => exact ⟨s.wait w, rfl⟩

theorem guarded_next (s : State) (g : Guard) (off on : State → Op State) : ∃ t, guarded s g off on = .next t := finish_next _ _

theorem guarded_on {s : State} {g : Guard} (off on : State → Op State) (h : s.guardOk g = true) :
    guarded s g off on = finish s (on s) := by
  simp [guarded, h]

theorem guarded_off {s : State} {g : Guard} (off on : State → Op State) (h : s.guardOk g = false) :
    guarded s g off on = finish s (off s) := by
  simp [guarded, h]

/-! Registers. -/

theorem State.rdS_readable {s : State} {n : BitVec 6} (h : s.readable n = true) : s.rdS n = .ok (s.scalar n) := by
  simp only [State.readable, Bool.not_eq_true'] at h
  simp [State.rdS, h, State.scalar]

theorem State.rdS_wait {s : State} {n : BitVec 6} (h : s.readable n = false) : s.rdS n = .error (.wait .reg) := by
  simp only [State.readable, Bool.not_eq_false'] at h
  simp [State.rdS, h]

/-- The acting context after a scalar write. -/
theorem State.wrS_me (s : State) (d : BitVec 6) (v : Word) (h : s.here = true) :
    (s.wrS d v).me = { s.me with r := s.me.r.setS d.toNat v, pend := s.me.pend.filter fun e => decide (e.reg ≠ .s d) } :=
  State.me_setMe s _ h

/-- All that a scalar write does. -/
theorem State.wrS_written (s : State) (d : BitVec 6) (v : Word) (h : s.here = true) : ScalarWritten s (s.wrS d v) d v 0 := by
  have hm := s.wrS_me d v h
  refine ⟨?_, fun hz => ?_, Regs.getS_zero _, fun n hn => ?_, ?_, fun e => ?_, ?_, fun k => ?_⟩
  · show s.wrS d v = s.setMe _
    rw [hm]; rfl
  · rw [hm]
    simp only [Regs.getS_setS]
    exact if_pos ⟨trivial, fun h0 => hz (BitVec.eq_of_toNat_eq (by simpa using h0))⟩
  · rw [hm]
    simp [Regs.getS_setS, hn]
  · rw [hm]
    simp only [Regs.setS]
    split <;> simp
  · rw [hm]; simp
  · rw [hm]
    simp only [Regs.setS]
    split <;> rfl
  · simp [State.wrS, State.upd]

/-- A flag joined to FPSF after a scalar write. -/
theorem State.wrS_flag_written (s : State) (d : BitVec 6) (v : Word) (f : Flags) (h : s.here = true) :
    ScalarWritten s ((s.wrS d v).flag f) d v f := by
  have w := s.wrS_written d v h
  have h1 : (s.wrS d v).here = true := State.here_setMe s _ h
  have hm : ((s.wrS d v).flag f).me = { (s.wrS d v).me with r := { (s.wrS d v).me.r with fpsf := (s.wrS d v).me.r.fpsf ||| f } } :=
    State.me_setMe _ _ h1
  refine ⟨?_, fun hz => ?_, Regs.getS_zero _, fun n hn => ?_, ?_, fun e => ?_, ?_, fun k => ?_⟩
  · show ((s.wrS d v).flag f) = s.setMe _
    have hx := w.here
    rw [OnlyHere] at hx
    rw [hm]
    show (s.wrS d v).setMe _ = s.setMe _
    conv => lhs; arg 1; rw [hx]
    simp only [State.setMe]
    rw [Core.setCtx_setCtx _ _ _ _ h]
  · rw [hm]; exact w.value hz
  · rw [hm]; exact w.scalars n hn
  · rw [hm]
    simp only
    rw [w.flags]
    simp
  · rw [hm]; exact w.pending e
  · rw [hm]
    have hc := w.context
    simp only
    rw [hc]
  · rw [State.flag, State.updRegs, State.upd]
    simpa using w.memory k

/-- Bits of a guard word after one is written. -/
theorem setBit16_get (w : BitVec 16) (n i : Nat) (b : Bool) (hi : i < 16) :
    (setBit16 w n b).getLsbD i = if i = n then b else w.getLsbD i := by
  cases b <;> by_cases h : i = n <;> by_cases hl : i < n <;> simp_all [setBit16] <;> omega

/-- The acting context after a guard write. -/
theorem State.wrG_me (s : State) (k : BitVec 3) (b : Bool) (h : s.here = true) :
    (s.wrG k b).me = { s.me with r := s.me.r.setGPair k.toNat b } := State.me_setMe s _ h

/-- All that a guard write does. -/
theorem State.wrG_written (s : State) (k : BitVec 3) (b : Bool) (h : s.here = true) : GuardsWritten s (s.wrG k b) k b := by
  have hm := s.wrG_me k b h
  have hk : k.toNat < 8 := k.isLt
  refine ⟨?_, fun hz => ?_, ⟨rfl, rfl⟩, fun n hn hne => ?_, ?_, fun m => ?_⟩
  · show s.wrG k b = s.setMe _
    rw [hm]; rfl
  · have h0 : k.toNat ≠ 0 := fun e => hz (BitVec.eq_of_toNat_eq (by simpa using e))
    rw [hm]
    simp only [Regs.getG, Regs.setGPair, if_neg h0]
    constructor
    · rw [if_neg (by omega), if_neg (by omega), setBit16_get _ _ _ _ (by omega), setBit16_get _ _ _ _ (by omega)]
      simp
    · rw [if_neg (by omega), if_neg (by omega), setBit16_get _ _ _ _ (by omega)]
      simp
  · rw [hm]
    simp only [Regs.setGPair]
    split
    · rfl
    · simp only [Regs.getG]
      split
      · rfl
      · split
        · rfl
        · rw [setBit16_get _ _ _ _ hn, if_neg (by omega), setBit16_get _ _ _ _ hn, if_neg (by omega)]
  · rw [hm]
    simp only [Regs.setGPair]
    split <;> rfl
  · simp [State.wrG, State.updRegs, State.upd]

/-! Queues. -/

/-- A push with room adds the entry behind the others. -/
theorem State.pushQ_room {s : State} {q : Nat} (e : Entry) (h : s.roomQ q 1 = true) : s.pushQ q e = .ok (s.pushedQ q e) := by
  simp only [State.roomQ, decide_eq_true_eq] at h
  have : ¬ s.depth q ≤ (s.entries q).length := by omega
  simp [State.pushQ, State.addQ, this, Core.fresh, State.pushedQ, bind, Except.bind, pure, Except.pure]

/-- A push onto a full queue overflows. -/
theorem State.pushQ_full {s : State} {q : Nat} (e : Entry) (h : s.roomQ q 1 = false) :
    s.pushQ q e = .error (.trap (overflowTrap (s.toCore.qname s.ref q) (s.entries q).length)) := by
  simp only [State.roomQ, decide_eq_false_iff_not] at h
  have : s.depth q ≤ (s.entries q).length := by omega
  simp [State.pushQ, State.addQ, this, raise, bind, Except.bind]

theorem State.dst_room {s : State} {d : QDst} (e : Entry) (h : s.room d 1 = true) : s.dst d e = .ok (s.pushed d e) := by
  cases d with
  | none => rfl
  | some q => exact s.pushQ_room e h

/-- The head of a queue that has landed and is not poisoned. -/
theorem State.headQ_landed {s : State} {q : Nat} {x : QEnt} {l : List QEnt} {e : Entry} (hq : s.entries q = x :: l)
    (hd : x.data = some e) (hp : mapGet false s.poison (entryKey x.id) = false) : s.headQ q = .ok (s.forwarded q e, s) := by
  simp [State.headQ, hq, hd, hp]

/-- A pop of a landed head. -/
theorem State.readQ_pop {s : State} {q : Nat} {x : QEnt} {l : List QEnt} {e : Entry} (hq : s.entries q = x :: l)
    (hd : x.data = some e) (hp : mapGet false s.poison (entryKey x.id) = false) :
    s.readQ q false = .ok (s.forwarded q e, s.popQ q) := by
  simp [State.readQ, State.headQ_landed hq hd hp, bind, Except.bind, pure, Except.pure]

/-- A peek at a landed head. -/
theorem State.readQ_peek {s : State} {q : Nat} {x : QEnt} {l : List QEnt} {e : Entry} (hq : s.entries q = x :: l)
    (hd : x.data = some e) (hp : mapGet false s.poison (entryKey x.id) = false) :
    s.readQ q true = .ok (s.forwarded q e, s) := by
  simp [State.readQ, State.headQ_landed hq hd hp, bind, Except.bind, pure, Except.pure]

/-- A read of an empty queue underflows, or freezes when another tile feeds it. -/
theorem State.readQ_empty {s : State} {q : Nat} (p : Bool) (hq : s.entries q = []) :
    s.readQ q p = .error (if s.me.id.isRemote q then .wait .remote
      else .trap { mkTrap (if q < 32 then kUnderflow else kImbalance) 0 with detail := s.toCore.qname s.ref q }) := by
  simp only [State.readQ, State.headQ, hq]
  split <;> rfl

/-! Rollback. -/

@[simp] theorem State.rollback_bundle (s : State) : s.rollback.bundle = none := rfl
@[simp] theorem State.rollback_saved (s : State) : s.rollback.saved = none := rfl
@[simp] theorem State.rollback_ref (s : State) : s.rollback.ref = s.ref := rfl
@[simp] theorem State.rollback_slot (s : State) : s.rollback.slot = s.slot := rfl

/-- A wait leaves no bundle in progress. -/
@[simp] theorem State.wait_bundle (s : State) (w : Wait) : (s.wait w).bundle = none := rfl
@[simp] theorem State.wait_saved (s : State) (w : Wait) : (s.wait w).saved = none := rfl

/-- A trap leaves no bundle in progress. -/
@[simp] theorem State.trap_bundle (s : State) (t : TrapInfo) : (s.trap t).bundle = none := rfl
@[simp] theorem State.trap_saved (s : State) (t : TrapInfo) : (s.trap t).saved = none := rfl

/-! Loads and the checks of an atomic. -/

@[simp] theorem Core.whoFor_tile (c : Core) (r : CtxRef) (acc : Acc) : (c.whoFor r acc).tile = r.tile := by
  cases acc <;> rfl

/-- All that a load within one page does when it can be made now. -/
theorem State.loadPart_ready {s : State} {acc : Acc} {va : Word} {n : Nat} {past : Bool} {l : Loc} {pl : Place} (alloc : Bool)
    (h : LoadReady s acc va n past l pl) :
    s.loadPart acc va n alloc past = .ok (s.loadValue va n past l pl, l.isScratch s.ref.tile, s.afterLoad n alloc past l pl) := by
  have hp : ∀ pa k, s.toCore.poisoned pa k = false := fun pa k => by simp [Core.poisoned, h.sound]
  have hq : ∀ t pa k, s.toCore.l1Poisoned t pa k = false := fun t pa k => by simp [Core.l1Poisoned, h.sound]
  unfold State.loadPart
  simp only [h.mapped, Core.whoFor_tile, hp, hq, bind, Except.bind, pure, Except.pure]
  cases hs : l.isScratch s.ref.tile with
  | true => simp [State.loadValue, State.afterLoad, hs]
  | false =>
    have hd : (l.isDevice && s.toCore.deviceBusy s.ref.tile) = false := by
      cases hv : l.isDevice with
      | false => rfl
      | true => simp [Core.deviceBusy, h.device hs hv]
    simp [h.placed hs, hd, h.atomics hs, h.lines hs, State.loadValue, State.afterLoad, hs]

/-- An atomic that can be performed now does not wait. -/
theorem State.atomicWaits_ready {s : State} {l : Loc} {n : Nat} (h : AtomicReady s l n) : s.atomicWaits l n = false := by
  simp [State.atomicWaits, h.fence, h.stores, h.atomics, h.unrecalled, h.line]

/-- An operation that waits for the replay queue goes on when nothing is parked. -/
theorem State.replayEmpty_ready {s : State} {q : Scope} (h : ReleaseReady s q) : s.replayEmpty = .ok () := by
  simp [State.replayEmpty, Ctx.deadTrap, h.parked, h.late]

/-- A release that is met at once changes nothing. -/
theorem State.release_ready {s : State} {q : Scope} (h : ReleaseReady s q) : s.release q = .ok s := by
  have hr : s.rels.find? (fun x => decide (x.kind = .wait && x.r = s.ref)) = none := by
    have hs := h.stores
    simp only [State.releasedNow, Core.released, Bool.and_eq_true, List.all_eq_true] at hs
    rw [List.find?_eq_none]
    intro x hx
    have := hs.1.1.2 x hx
    simp at this
    simp [this]
  unfold State.release
  simp only [State.replayEmpty_ready h, State.unitsIdle, Ctx.matrixIdle, h.matrix.1, h.matrix.2, h.forest, hr, h.stores, bind, Except.bind, pure,
    Except.pure, Option.isNone_none, List.isEmpty_nil, Bool.and_self, Bool.not_true, Option.isSome_none, if_true, Bool.false_eq_true, if_false]

end Sys2Proof.Machine
end

