-- ==== Sys2Proof/Laws/PerInstr.lean ====
section
/-!
SUPPORT. The statement made of every instruction: its word, where it has one, decodes to it.
-/

set_option linter.unusedSimpArgs false
set_option linter.constructorNameAsVariable false

namespace Sys2Proof.Laws.WordRoundTrip

set_option Elab.async false

open Sys2Proof

/-- A well-formed instruction comes back from its slot word and from its micro-op word. -/
def Statement (i : Instr) : Prop :=
  (∀ cls w, wellFormed i = true → encodeSlot cls i = some w → decodeSlot cls w = .ok i) ∧
  (∀ w, wellFormed i = true → encodeUop i = some w → decodeUop w = .ok i)

/-- What no slot and no routine encodes. -/
theorem noWord {i : Instr} (h : ∀ cls, encodeSlot cls i = none) (hu : encodeUop i = none) : Statement i :=
  ⟨fun cls w _ e => by simp [h cls] at e, fun w _ e => by simp [hu] at e⟩

/-- What the slots of one class encode. -/
theorem slotWord {i : Instr} {g : Grid} (c0 : SlotClass) (he : ∀ cls, encodeGrid cls i = if cls = c0 then some g else none)
    (hn : i ≠ .nop) (ho : g.opc ≠ 0) (hu : encodeUop i = none) (hd : wellFormed i = true → decodeGrid c0 g = .ok i) :
    Statement i := by
  refine ⟨fun cls w hwf h => ?_, fun w _ e => by simp [hu] at e⟩
  rw [encodeSlot_eq cls i hn, he] at h
  split at h
  · rename_i hc
    simp only [Option.map_some, Option.some.injEq] at h
    rw [← h, hc, decodeSlot_pack _ _ ho]
    exact hd hwf
  · simp at h

theorem nop : Statement .nop := by
  refine ⟨fun cls w _ h => ?_, fun w _ h => by simp [encodeUop] at h⟩
  simp only [encodeSlot, Option.some.injEq] at h
  subst h
  simp [decodeSlot]

theorem bundleDispatch : Statement .bundleDispatch := noWord (fun cls => by cases cls <;> rfl) rfl

theorem bundleCommit : Statement .bundleCommit := noWord (fun cls => by cases cls <;> rfl) rfl

theorem queueEntryLand : Statement .queueEntryLand := noWord (fun cls => by cases cls <;> rfl) rfl

theorem registerWriteLand : Statement .registerWriteLand := noWord (fun cls => by cases cls <;> rfl) rfl

theorem add (o : OpRRR) : Statement (.add o) := by
  refine slotWord .s (fun x => by cases x <;> rfl) (by simp) (by simp [encRRR, gridOf]) rfl fun h => ?_
  show (Instr.add <$> decRRR _) = _
  simp only [decRRR, encRRR, gridOf, Grid.gd]
  try dsimp only [HAppend.hAppend]
  simp (disch := decide) [-BitVec.append_eq]

theorem sub (o : OpRRR) : Statement (.sub o) := by
  refine slotWord .s (fun x => by cases x <;> rfl) (by simp) (by simp [encRRR, gridOf]) rfl fun h => ?_
  show (Instr.sub <$> decRRR _) = _
  simp only [decRRR, encRRR, gridOf, Grid.gd]
  try dsimp only [HAppend.hAppend]
  simp (disch := decide) [-BitVec.append_eq]

theorem mul (o : OpRRR) : Statement (.mul o) := by
  refine slotWord .s (fun x => by cases x <;> rfl) (by simp) (by simp [encRRR, gridOf]) rfl fun h => ?_
  show (Instr.mul <$> decRRR _) = _
  simp only [decRRR, encRRR, gridOf, Grid.gd]
  try dsimp only [HAppend.hAppend]
  simp (disch := decide) [-BitVec.append_eq]

theorem mulh (o : OpRRR) : Statement (.mulh o) := by
  refine slotWord .s (fun x => by cases x <;> rfl) (by simp) (by simp [encRRR, gridOf]) rfl fun h => ?_
  show (Instr.mulh <$> decRRR _) = _
  simp only [decRRR, encRRR, gridOf, Grid.gd]
  try dsimp only [HAppend.hAppend]
  simp (disch := decide) [-BitVec.append_eq]

theorem mulhu (o : OpRRR) : Statement (.mulhu o) := by
  refine slotWord .s (fun x => by cases x <;> rfl) (by simp) (by simp [encRRR, gridOf]) rfl fun h => ?_
  show (Instr.mulhu <$> decRRR _) = _
  simp only [decRRR, encRRR, gridOf, Grid.gd]
  try dsimp only [HAppend.hAppend]
  simp (disch := decide) [-BitVec.append_eq]

theorem divu (o : OpRRR) : Statement (.divu o) := by
  refine slotWord .s (fun x => by cases x <;> rfl) (by simp) (by simp [encRRR, gridOf]) rfl fun h => ?_
  show (Instr.divu <$> decRRR _) = _
  simp only [decRRR, encRRR, gridOf, Grid.gd]
  try dsimp only [HAppend.hAppend]
  simp (disch := decide) [-BitVec.append_eq]

theorem and (o : OpRRR) : Statement (.and o) := by
  refine slotWord .s (fun x => by cases x <;> rfl) (by simp) (by simp [encRRR, gridOf]) rfl fun h => ?_
  show (Instr.and <$> decRRR _) = _
  simp only [decRRR, encRRR, gridOf, Grid.gd]
  try dsimp only [HAppend.hAppend]
  simp (disch := decide) [-BitVec.append_eq]

theorem or (o : OpRRR) : Statement (.or o) := by
  refine slotWord .s (fun x => by cases x <;> rfl) (by simp) (by simp [encRRR, gridOf]) rfl fun h => ?_
  show (Instr.or <$> decRRR _) = _
  simp only [decRRR, encRRR, gridOf, Grid.gd]
  try dsimp only [HAppend.hAppend]
  simp (disch := decide) [-BitVec.append_eq]

theorem xor (o : OpRRR) : Statement (.xor o) := by
  refine slotWord .s (fun x => by cases x <;> rfl) (by simp) (by simp [encRRR, gridOf]) rfl fun h => ?_
  show (Instr.xor <$> decRRR _) = _
  simp only [decRRR, encRRR, gridOf, Grid.gd]
  try dsimp only [HAppend.hAppend]
  simp (disch := decide) [-BitVec.append_eq]

theorem shl (o : OpRRR) : Statement (.shl o) := by
  refine slotWord .s (fun x => by cases x <;> rfl) (by simp) (by simp [encRRR, gridOf]) rfl fun h => ?_
  show (Instr.shl <$> decRRR _) = _
  simp only [decRRR, encRRR, gridOf, Grid.gd]
  try dsimp only [HAppend.hAppend]
  simp (disch := decide) [-BitVec.append_eq]

theorem shr (o : OpRRR) : Statement (.shr o) := by
  refine slotWord .s (fun x => by cases x <;> rfl) (by simp) (by simp [encRRR, gridOf]) rfl fun h => ?_
  show (Instr.shr <$> decRRR _) = _
  simp only [decRRR, encRRR, gridOf, Grid.gd]
  try dsimp only [HAppend.hAppend]
  simp (disch := decide) [-BitVec.append_eq]

theorem sra (o : OpRRR) : Statement (.sra o) := by
  refine slotWord .s (fun x => by cases x <;> rfl) (by simp) (by simp [encRRR, gridOf]) rfl fun h => ?_
  show (Instr.sra <$> decRRR _) = _
  simp only [decRRR, encRRR, gridOf, Grid.gd]
  try dsimp only [HAppend.hAppend]
  simp (disch := decide) [-BitVec.append_eq]

theorem min (o : OpRRR) : Statement (.min o) := by
  refine slotWord .s (fun x => by cases x <;> rfl) (by simp) (by simp [encRRR, gridOf]) rfl fun h => ?_
  show (Instr.min <$> decRRR _) = _
  simp only [decRRR, encRRR, gridOf, Grid.gd]
  try dsimp only [HAppend.hAppend]
  simp (disch := decide) [-BitVec.append_eq]

theorem max (o : OpRRR) : Statement (.max o) := by
  refine slotWord .s (fun x => by cases x <;> rfl) (by simp) (by simp [encRRR, gridOf]) rfl fun h => ?_
  show (Instr.max <$> decRRR _) = _
  simp only [decRRR, encRRR, gridOf, Grid.gd]
  try dsimp only [HAppend.hAppend]
  simp (disch := decide) [-BitVec.append_eq]

theorem minu (o : OpRRR) : Statement (.minu o) := by
  refine slotWord .s (fun x => by cases x <;> rfl) (by simp) (by simp [encRRR, gridOf]) rfl fun h => ?_
  show (Instr.minu <$> decRRR _) = _
  simp only [decRRR, encRRR, gridOf, Grid.gd]
  try dsimp only [HAppend.hAppend]
  simp (disch := decide) [-BitVec.append_eq]

theorem maxu (o : OpRRR) : Statement (.maxu o) := by
  refine slotWord .s (fun x => by cases x <;> rfl) (by simp) (by simp [encRRR, gridOf]) rfl fun h => ?_
  show (Instr.maxu <$> decRRR _) = _
  simp only [decRRR, encRRR, gridOf, Grid.gd]
  try dsimp only [HAppend.hAppend]
  simp (disch := decide) [-BitVec.append_eq]

theorem clz (o : OpRR) : Statement (.clz o) := by
  refine slotWord .s (fun x => by cases x <;> rfl) (by simp) (by simp [encRR, gridOf]) rfl fun h => ?_
  show (Instr.clz <$> decRR _) = _
  simp only [decRR, encRR, gridOf, Grid.gd]
  try dsimp only [HAppend.hAppend]
  simp (disch := decide) [-BitVec.append_eq]

theorem pcnt (o : OpRR) : Statement (.pcnt o) := by
  refine slotWord .s (fun x => by cases x <;> rfl) (by simp) (by simp [encRR, gridOf]) rfl fun h => ?_
  show (Instr.pcnt <$> decRR _) = _
  simp only [decRR, encRR, gridOf, Grid.gd]
  try dsimp only [HAppend.hAppend]
  simp (disch := decide) [-BitVec.append_eq]

theorem bfx (o : OpBfx) : Statement (.bfx o) := by
  refine slotWord .s (fun x => by cases x <;> rfl) (by simp) (by simp [encBfx, gridOf]) rfl fun h => ?_
  simp only [decodeGrid, decodeS, decBfxS, encBfx, gridOf, Grid.gd]
  try dsimp only [HAppend.hAppend]
  simp only [wellFormed] at h
  simp (disch := decide) [-BitVec.append_eq, h]

theorem bfxS (o : OpBfx) : Statement (.bfxS o) := by
  refine slotWord .s (fun x => by cases x <;> rfl) (by simp) (by simp [encBfx, gridOf]) rfl fun h => ?_
  simp only [decodeGrid, decodeS, decBfxS, encBfx, gridOf, Grid.gd]
  try dsimp only [HAppend.hAppend]
  simp only [wellFormed] at h
  simp (disch := decide) [-BitVec.append_eq, h]

theorem bfi (o : OpBfi) : Statement (.bfi o) := by
  refine slotWord .s (fun x => by cases x <;> rfl) (by simp) (by simp [gridOf]) rfl fun h => ?_
  show (Instr.bfi <$> decBfi _) = _
  simp only [decBfi, gridOf, Grid.gd]
  try dsimp only [HAppend.hAppend]
  simp only [wellFormed] at h
  simp (disch := decide) [-BitVec.append_eq, h]

theorem addi (o : OpRRI) : Statement (.addi o) := by
  refine slotWord .s (fun x => by cases x <;> rfl) (by simp) (by simp [encRRI, gridOf, Grid.withImm]) rfl fun h => ?_
  show (Instr.addi <$> decRRI _) = _
  simp only [decRRI, encRRI, gridOf, Grid.withImm, Grid.imm, Grid.gd]
  try dsimp only [HAppend.hAppend]
  simp (disch := decide) [-BitVec.append_eq]

theorem muli (o : OpRRI) : Statement (.muli o) := by
  refine slotWord .s (fun x => by cases x <;> rfl) (by simp) (by simp [encRRI, gridOf, Grid.withImm]) rfl fun h => ?_
  show (Instr.muli <$> decRRI _) = _
  simp only [decRRI, encRRI, gridOf, Grid.withImm, Grid.imm, Grid.gd]
  try dsimp only [HAppend.hAppend]
  simp (disch := decide) [-BitVec.append_eq]

theorem andi (o : OpRRI) : Statement (.andi o) := by
  refine slotWord .s (fun x => by cases x <;> rfl) (by simp) (by simp [encRRI, gridOf, Grid.withImm]) rfl fun h => ?_
  show (Instr.andi <$> decRRI _) = _
  simp only [decRRI, encRRI, gridOf, Grid.withImm, Grid.imm, Grid.gd]
  try dsimp only [HAppend.hAppend]
  simp (disch := decide) [-BitVec.append_eq]

theorem ori (o : OpRRI) : Statement (.ori o) := by
  refine slotWord .s (fun x => by cases x <;> rfl) (by simp) (by simp [encRRI, gridOf, Grid.withImm]) rfl fun h => ?_
  show (Instr.ori <$> decRRI _) = _
  simp only [decRRI, encRRI, gridOf, Grid.withImm, Grid.imm, Grid.gd]
  try dsimp only [HAppend.hAppend]
  simp (disch := decide) [-BitVec.append_eq]

theorem xori (o : OpRRI) : Statement (.xori o) := by
  refine slotWord .s (fun x => by cases x <;> rfl) (by simp) (by simp [encRRI, gridOf, Grid.withImm]) rfl fun h => ?_
  show (Instr.xori <$> decRRI _) = _
  simp only [decRRI, encRRI, gridOf, Grid.withImm, Grid.imm, Grid.gd]
  try dsimp only [HAppend.hAppend]
  simp (disch := decide) [-BitVec.append_eq]

theorem shli (o : OpShI) : Statement (.shli o) := by
  refine slotWord .s (fun x => by cases x <;> rfl) (by simp) (by simp [encShI, gridOf]) rfl fun h => ?_
  show (Instr.shli <$> decShI _) = _
  simp only [decShI, encShI, gridOf, Grid.gd]
  try dsimp only [HAppend.hAppend]
  simp (disch := decide) [-BitVec.append_eq]

theorem shri (o : OpShI) : Statement (.shri o) := by
  refine slotWord .s (fun x => by cases x <;> rfl) (by simp) (by simp [encShI, gridOf]) rfl fun h => ?_
  show (Instr.shri <$> decShI _) = _
  simp only [decShI, encShI, gridOf, Grid.gd]
  try dsimp only [HAppend.hAppend]
  simp (disch := decide) [-BitVec.append_eq]

theorem srai (o : OpShI) : Statement (.srai o) := by
  refine slotWord .s (fun x => by cases x <;> rfl) (by simp) (by simp [encShI, gridOf]) rfl fun h => ?_
  show (Instr.srai <$> decShI _) = _
  simp only [decShI, encShI, gridOf, Grid.gd]
  try dsimp only [HAppend.hAppend]
  simp (disch := decide) [-BitVec.append_eq]

theorem cmpEq (o : OpCmp) : Statement (.cmpEq o) := by
  refine slotWord .s (fun x => by cases x <;> rfl) (by simp) (by simp [encCmp, gridOf]) rfl fun h => ?_
  show (Instr.cmpEq <$> decCmp _) = _
  simp only [decCmp, encCmp, gridOf, Grid.gd]
  try dsimp only [HAppend.hAppend]
  simp (disch := decide) [-BitVec.append_eq]

theorem cmpNe (o : OpCmp) : Statement (.cmpNe o) := by
  refine slotWord .s (fun x => by cases x <;> rfl) (by simp) (by simp [encCmp, gridOf]) rfl fun h => ?_
  show (Instr.cmpNe <$> decCmp _) = _
  simp only [decCmp, encCmp, gridOf, Grid.gd]
  try dsimp only [HAppend.hAppend]
  simp (disch := decide) [-BitVec.append_eq]

theorem cmpLt (o : OpCmp) : Statement (.cmpLt o) := by
  refine slotWord .s (fun x => by cases x <;> rfl) (by simp) (by simp [encCmp, gridOf]) rfl fun h => ?_
  show (Instr.cmpLt <$> decCmp _) = _
  simp only [decCmp, encCmp, gridOf, Grid.gd]
  try dsimp only [HAppend.hAppend]
  simp (disch := decide) [-BitVec.append_eq]

theorem cmpGe (o : OpCmp) : Statement (.cmpGe o) := by
  refine slotWord .s (fun x => by cases x <;> rfl) (by simp) (by simp [encCmp, gridOf]) rfl fun h => ?_
  show (Instr.cmpGe <$> decCmp _) = _
  simp only [decCmp, encCmp, gridOf, Grid.gd]
  try dsimp only [HAppend.hAppend]
  simp (disch := decide) [-BitVec.append_eq]

theorem cmpLtu (o : OpCmp) : Statement (.cmpLtu o) := by
  refine slotWord .s (fun x => by cases x <;> rfl) (by simp) (by simp [encCmp, gridOf]) rfl fun h => ?_
  show (Instr.cmpLtu <$> decCmp _) = _
  simp only [decCmp, encCmp, gridOf, Grid.gd]
  try dsimp only [HAppend.hAppend]
  simp (disch := decide) [-BitVec.append_eq]

theorem cmpGeu (o : OpCmp) : Statement (.cmpGeu o) := by
  refine slotWord .s (fun x => by cases x <;> rfl) (by simp) (by simp [encCmp, gridOf]) rfl fun h => ?_
  show (Instr.cmpGeu <$> decCmp _) = _
  simp only [decCmp, encCmp, gridOf, Grid.gd]
  try dsimp only [HAppend.hAppend]
  simp (disch := decide) [-BitVec.append_eq]

theorem cmpiEq (o : OpCmpI) : Statement (.cmpiEq o) := by
  refine slotWord .s (fun x => by cases x <;> rfl) (by simp) (by simp [encCmpI, gridOf, Grid.withImm]) rfl fun h => ?_
  show (Instr.cmpiEq <$> decCmpI _) = _
  simp only [decCmpI, encCmpI, gridOf, Grid.withImm, Grid.imm, Grid.gd]
  try dsimp only [HAppend.hAppend]
  simp (disch := decide) [-BitVec.append_eq]

theorem cmpiNe (o : OpCmpI) : Statement (.cmpiNe o) := by
  refine slotWord .s (fun x => by cases x <;> rfl) (by simp) (by simp [encCmpI, gridOf, Grid.withImm]) rfl fun h => ?_
  show (Instr.cmpiNe <$> decCmpI _) = _
  simp only [decCmpI, encCmpI, gridOf, Grid.withImm, Grid.imm, Grid.gd]
  try dsimp only [HAppend.hAppend]
  simp (disch := decide) [-BitVec.append_eq]

theorem cmpiLt (o : OpCmpI) : Statement (.cmpiLt o) := by
  refine slotWord .s (fun x => by cases x <;> rfl) (by simp) (by simp [encCmpI, gridOf, Grid.withImm]) rfl fun h => ?_
  show (Instr.cmpiLt <$> decCmpI _) = _
  simp only [decCmpI, encCmpI, gridOf, Grid.withImm, Grid.imm, Grid.gd]
  try dsimp only [HAppend.hAppend]
  simp (disch := decide) [-BitVec.append_eq]

theorem cmpiGe (o : OpCmpI) : Statement (.cmpiGe o) := by
  refine slotWord .s (fun x => by cases x <;> rfl) (by simp) (by simp [encCmpI, gridOf, Grid.withImm]) rfl fun h => ?_
  show (Instr.cmpiGe <$> decCmpI _) = _
  simp only [decCmpI, encCmpI, gridOf, Grid.withImm, Grid.imm, Grid.gd]
  try dsimp only [HAppend.hAppend]
  simp (disch := decide) [-BitVec.append_eq]

theorem cmpiLtu (o : OpCmpI) : Statement (.cmpiLtu o) := by
  refine slotWord .s (fun x => by cases x <;> rfl) (by simp) (by simp [encCmpI, gridOf, Grid.withImm]) rfl fun h => ?_
  show (Instr.cmpiLtu <$> decCmpI _) = _
  simp only [decCmpI, encCmpI, gridOf, Grid.withImm, Grid.imm, Grid.gd]
  try dsimp only [HAppend.hAppend]
  simp (disch := decide) [-BitVec.append_eq]

theorem cmpiGeu (o : OpCmpI) : Statement (.cmpiGeu o) := by
  refine slotWord .s (fun x => by cases x <;> rfl) (by simp) (by simp [encCmpI, gridOf, Grid.withImm]) rfl fun h => ?_
  show (Instr.cmpiGeu <$> decCmpI _) = _
  simp only [decCmpI, encCmpI, gridOf, Grid.withImm, Grid.imm, Grid.gd]
  try dsimp only [HAppend.hAppend]
  simp (disch := decide) [-BitVec.append_eq]

theorem sel (o : OpSel) : Statement (.sel o) := by
  refine slotWord .s (fun x => by cases x <;> rfl) (by simp) (by simp [gridOf]) rfl fun h => ?_
  show (Instr.sel <$> decSel _) = _
  simp only [decSel, gridOf, Grid.gd]
  try dsimp only [HAppend.hAppend]
  simp (disch := decide) [-BitVec.append_eq]

theorem li (o : OpLi) : Statement (.li o) := by
  refine slotWord .s (fun x => by cases x <;> rfl) (by simp) (by simp [gridOf, Grid.withImm]) rfl fun h => ?_
  show (Instr.li <$> decLi _) = _
  simp only [decLi, gridOf, Grid.withImm, Grid.imm, Grid.gd]
  try dsimp only [HAppend.hAppend]
  simp (disch := decide) [-BitVec.append_eq]

theorem lih (o : OpRRI) : Statement (.lih o) := by
  refine slotWord .s (fun x => by cases x <;> rfl) (by simp) (by simp [encRRI, gridOf, Grid.withImm]) rfl fun h => ?_
  show (Instr.lih <$> decRRI _) = _
  simp only [decRRI, encRRI, gridOf, Grid.withImm, Grid.imm, Grid.gd]
  try dsimp only [HAppend.hAppend]
  simp (disch := decide) [-BitVec.append_eq]

theorem ctlRd (o : OpCtlRd) : Statement (.ctlRd o) := by
  refine slotWord .s (fun x => by cases x <;> rfl) (by simp) (by simp [gridOf]) rfl fun h => ?_
  show (Instr.ctlRd <$> decCtlRd _) = _
  simp only [decCtlRd, gridOf, Grid.gd]
  try dsimp only [HAppend.hAppend]
  simp only [wellFormed] at h
  simp (disch := decide) [-BitVec.append_eq, h]

theorem ctlWr (o : OpCtlWr) : Statement (.ctlWr o) := by
  refine slotWord .s (fun x => by cases x <;> rfl) (by simp) (by simp [gridOf]) rfl fun h => ?_
  show (Instr.ctlWr <$> decCtlWr _) = _
  simp only [decCtlWr, gridOf, Grid.gd]
  try dsimp only [HAppend.hAppend]
  simp only [wellFormed] at h
  simp (disch := decide) [-BitVec.append_eq, h]

theorem br (o : OpBr) : Statement (.br o) := by
  refine slotWord .c (fun x => by cases x <;> rfl) (by simp) (by simp [encBr, gridOf]) rfl fun h => ?_
  show (Instr.br <$> decBr _) = _
  simp only [decBr, encBr, gridOf, Grid.ofs, Grid.gd]
  try dsimp only [HAppend.hAppend]
  simp (disch := decide) [-BitVec.append_eq]

theorem call (o : OpBr) : Statement (.call o) := by
  refine slotWord .c (fun x => by cases x <;> rfl) (by simp) (by simp [encBr, gridOf]) rfl fun h => ?_
  show (Instr.call <$> decBr _) = _
  simp only [decBr, encBr, gridOf, Grid.ofs, Grid.gd]
  try dsimp only [HAppend.hAppend]
  simp (disch := decide) [-BitVec.append_eq]

theorem jmp (o : OpJmp) : Statement (.jmp o) := by
  refine slotWord .c (fun x => by cases x <;> rfl) (by simp) (by simp [gridOf]) rfl fun h => ?_
  show (Instr.jmp <$> decJmp _) = _
  simp only [decJmp, gridOf, Grid.gd]
  try dsimp only [HAppend.hAppend]
  simp (disch := decide) [-BitVec.append_eq]

theorem ret (o : OpJmp) : Statement (.ret o) := by
  refine slotWord .c (fun x => by cases x <;> rfl) (by simp) (by simp [gridOf]) rfl fun h => ?_
  show (Instr.ret <$> decJmp _) = _
  simp only [decJmp, gridOf, Grid.gd]
  try dsimp only [HAppend.hAppend]
  simp (disch := decide) [-BitVec.append_eq]

theorem loop (o : OpLoop) : Statement (.loop o) := by
  refine slotWord .c (fun x => by cases x <;> rfl) (by simp) (by simp [encLoop, gridOf, Grid.withImm]) rfl fun h => ?_
  show (Instr.loop <$> decLoop _) = _
  simp only [decLoop, encLoop, gridOf, Grid.withImm, Grid.imm, Grid.gd]
  try dsimp only [HAppend.hAppend]
  simp (disch := decide) [-BitVec.append_eq]

theorem lbrk (o : OpLoop) : Statement (.lbrk o) := by
  refine slotWord .c (fun x => by cases x <;> rfl) (by simp) (by simp [encLoop, gridOf, Grid.withImm]) rfl fun h => ?_
  show (Instr.lbrk <$> decLoop _) = _
  simp only [decLoop, encLoop, gridOf, Grid.withImm, Grid.imm, Grid.gd]
  try dsimp only [HAppend.hAppend]
  simp (disch := decide) [-BitVec.append_eq]

theorem sync (o : OpSync) : Statement (.sync o) := by
  refine slotWord .c (fun x => by cases x <;> rfl) (by simp) (by simp [gridOf]) rfl fun h => ?_
  show (Instr.sync <$> decSync _) = _
  simp only [decSync, gridOf, Grid.gd]
  try dsimp only [HAppend.hAppend]
  simp (disch := decide) [-BitVec.append_eq]

theorem halt (g : Guard) : Statement (.halt g) := by
  refine slotWord .c (fun x => by cases x <;> rfl) (by simp) (by simp [gridOf]) rfl fun h => ?_
  show (Instr.halt <$> decN _) = _
  simp only [decN, gridOf, Grid.gd]
  try dsimp only [HAppend.hAppend]
  simp (disch := decide) [-BitVec.append_eq]

theorem trap (o : OpTrap) : Statement (.trap o) := by
  refine slotWord .c (fun x => by cases x <;> rfl) (by simp) (by simp [gridOf, Grid.withImm]) rfl fun h => ?_
  show (Instr.trap <$> decTrap _) = _
  simp only [decTrap, gridOf, Grid.withImm, Grid.imm, Grid.gd]
  try dsimp only [HAppend.hAppend]
  simp (disch := decide) [-BitVec.append_eq, code_imm, code_imm0, code_lt]

theorem evtWt (o : OpEvtWt) : Statement (.evtWt o) := by
  refine slotWord .c (fun x => by cases x <;> rfl) (by simp) (by simp [gridOf]) rfl fun h => ?_
  show (Instr.evtWt <$> decEvtWt _) = _
  simp only [decEvtWt, gridOf, Grid.gd]
  try dsimp only [HAppend.hAppend]
  simp only [wellFormed] at h
  simp (disch := decide) [-BitVec.append_eq, h]

theorem hret (g : Guard) : Statement (.hret g) := by
  refine slotWord .c (fun x => by cases x <;> rfl) (by simp) (by simp [gridOf]) rfl fun h => ?_
  show (Instr.hret <$> decN _) = _
  simp only [decN, gridOf, Grid.gd]
  try dsimp only [HAppend.hAppend]
  simp (disch := decide) [-BitVec.append_eq]

theorem tlbInv (o : OpTlbInv) : Statement (.tlbInv o) := by
  refine slotWord .c (fun x => by cases x <;> rfl) (by simp) (by simp [gridOf]) rfl fun h => ?_
  show (Instr.tlbInv <$> decTlbInv _) = _
  simp only [decTlbInv, gridOf, Grid.gd]
  try dsimp only [HAppend.hAppend]
  simp (disch := decide) [-BitVec.append_eq]

theorem ctxSv (o : OpRR) : Statement (.ctxSv o) := by
  refine slotWord .c (fun x => by cases x <;> rfl) (by simp) (by simp [encRR, gridOf]) rfl fun h => ?_
  show (Instr.ctxSv <$> decRR _) = _
  simp only [decRR, encRR, gridOf, Grid.gd]
  try dsimp only [HAppend.hAppend]
  simp (disch := decide) [-BitVec.append_eq]

theorem ctxLd (o : OpRRR) : Statement (.ctxLd o) := by
  refine slotWord .c (fun x => by cases x <;> rfl) (by simp) (by simp [encRRR, gridOf]) rfl fun h => ?_
  show (Instr.ctxLd <$> decRRR _) = _
  simp only [decRRR, encRRR, gridOf, Grid.gd]
  try dsimp only [HAppend.hAppend]
  simp (disch := decide) [-BitVec.append_eq]

theorem tilePre (o : OpRR) : Statement (.tilePre o) := by
  refine slotWord .c (fun x => by cases x <;> rfl) (by simp) (by simp [encRR, gridOf]) rfl fun h => ?_
  show (Instr.tilePre <$> decRR _) = _
  simp only [decRR, encRR, gridOf, Grid.gd]
  try dsimp only [HAppend.hAppend]
  simp (disch := decide) [-BitVec.append_eq]

theorem brdMov (o : OpRRR) : Statement (.brdMov o) := by
  refine slotWord .c (fun x => by cases x <;> rfl) (by simp) (by simp [encRRR, gridOf]) rfl fun h => ?_
  show (Instr.brdMov <$> decRRR _) = _
  simp only [decRRR, encRRR, gridOf, Grid.gd]
  try dsimp only [HAppend.hAppend]
  simp (disch := decide) [-BitVec.append_eq]

theorem ucVfy (o : OpRR) : Statement (.ucVfy o) := by
  refine slotWord .c (fun x => by cases x <;> rfl) (by simp) (by simp [encRR, gridOf]) rfl fun h => ?_
  show (Instr.ucVfy <$> decRR _) = _
  simp only [decRR, encRR, gridOf, Grid.gd]
  try dsimp only [HAppend.hAppend]
  simp (disch := decide) [-BitVec.append_eq]

theorem sdLd (o : OpSdLd) : Statement (.sdLd o) := by
  refine slotWord .l (fun x => by cases x <;> rfl) (by simp) (by simp [gridOf]) rfl fun h => ?_
  show (Instr.sdLd <$> decSdLd _) = _
  simp only [decSdLd, gridOf, Grid.gd]
  try dsimp only [HAppend.hAppend]
  simp (disch := decide) [-BitVec.append_eq]

theorem ldQ (o : OpLdQ) : Statement (.ldQ o) := by
  obtain ⟨gd, d, a, sq⟩ := o
  refine slotWord .l (fun x => by cases x <;> rfl) (by simp) (by simp [gridOf]) rfl fun _ => ?_
  show (Instr.ldQ <$> decLdQ _) = _
  simp only [decLdQ, gridOf, Grid.gd]
  dsimp only [HAppend.hAppend]
  rcases sq with _ | v
  · simp (disch := decide) [-BitVec.append_eq]
  · obtain rfl | rfl : v = 0#1 ∨ v = 1#1 := one_bit v
    all_goals simp (disch := decide) [-BitVec.append_eq]

theorem ldSc (o : OpLdSc) : Statement (.ldSc o) := by
  refine slotWord .l (fun x => by cases x <;> rfl) (by simp) (by simp [gridOf]) rfl fun h => ?_
  show (Instr.ldSc <$> decLdSc _) = _
  simp only [decLdSc, gridOf, Grid.gd]
  try dsimp only [HAppend.hAppend]
  simp (disch := decide) [-BitVec.append_eq]

theorem ldG (o : OpLdG) : Statement (.ldG o) := by
  refine slotWord .l (fun x => by cases x <;> rfl) (by simp) (by simp [encWX, gridOf]) rfl fun h => ?_
  show (Instr.ldG <$> decLdG _) = _
  simp only [decLdG, decW, encWX, gridOf, Grid.gd]
  try dsimp only [HAppend.hAppend]
  simp only [wellFormed] at h
  simp (disch := decide) [-BitVec.append_eq, h]

theorem ldS (o : OpLdS) : Statement (.ldS o) := by
  refine slotWord .l (fun x => by cases x <;> rfl) (by simp) (by simp [encWX, gridOf]) rfl fun h => ?_
  show (Instr.ldS <$> decLdS _) = _
  simp only [decLdS, decW, encWX, gridOf, Grid.gd]
  try dsimp only [HAppend.hAppend]
  simp only [wellFormed] at h
  simp (disch := decide) [-BitVec.append_eq, h]

theorem ldAcq (o : OpLdAcq) : Statement (.ldAcq o) := by
  refine slotWord .l (fun x => by cases x <;> rfl) (by simp) (by simp [encWX, gridOf]) rfl fun h => ?_
  show (Instr.ldAcq <$> decLdAcq _) = _
  simp only [decLdAcq, decW, encWX, gridOf, Grid.gd]
  try dsimp only [HAppend.hAppend]
  simp only [wellFormed] at h
  simp (disch := decide) [-BitVec.append_eq, h]

theorem stQ (o : OpStQ) : Statement (.stQ o) := by
  refine slotWord .st (fun x => by cases x <;> rfl) (by simp) (by simp [gridOf]) rfl fun h => ?_
  show (Instr.stQ <$> decStQ _) = _
  simp only [decStQ, gridOf, Grid.gd]
  try dsimp only [HAppend.hAppend]
  simp (disch := decide) [-BitVec.append_eq]

theorem stCt (o : OpStCt) : Statement (.stCt o) := by
  refine slotWord .st (fun x => by cases x <;> rfl) (by simp) (by simp [gridOf]) rfl fun h => ?_
  show (Instr.stCt <$> decStCt _) = _
  simp only [decStCt, gridOf, Grid.gd]
  try dsimp only [HAppend.hAppend]
  simp (disch := decide) [-BitVec.append_eq]

theorem stX (o : OpStX) : Statement (.stX o) := by
  refine slotWord .st (fun x => by cases x <;> rfl) (by simp) (by simp [encWX, gridOf]) rfl fun h => ?_
  show (Instr.stX <$> decStX _) = _
  simp only [decStX, encWX, gridOf, Grid.gd]
  try dsimp only [HAppend.hAppend]
  simp only [wellFormed] at h
  simp (disch := decide) [-BitVec.append_eq, h]

theorem stS (o : OpStS) : Statement (.stS o) := by
  refine slotWord .st (fun x => by cases x <;> rfl) (by simp) (by simp [encWX, gridOf]) rfl fun h => ?_
  show (Instr.stS <$> decStS _) = _
  simp only [decStS, encWX, gridOf, Grid.gd]
  try dsimp only [HAppend.hAppend]
  simp (disch := decide) [-BitVec.append_eq]

theorem stRel (o : OpStRel) : Statement (.stRel o) := by
  refine slotWord .st (fun x => by cases x <;> rfl) (by simp) (by simp [encWX, gridOf]) rfl fun h => ?_
  show (Instr.stRel <$> decStRel _) = _
  simp only [decStRel, encWX, gridOf, Grid.gd]
  try dsimp only [HAppend.hAppend]
  simp (disch := decide) [-BitVec.append_eq]

theorem atmAdd (o : OpAtm) : Statement (.atmAdd o) := by
  obtain ⟨gd, d, a, b, c, off, wide, ord⟩ := o
  cases ord <;>
    refine slotWord .st (fun x => by cases x <;> rfl) (by simp) (by simp [encAtm, encAtmS, encOrd, gridOf]) rfl fun h => ?_
  all_goals
    show (Instr.atmAdd <$> decAtm _) = _
    simp only [decAtm, decAtmS, decOrd, encAtm, encAtmS, encOrd, gridOf, Grid.gd]
    try dsimp only [HAppend.hAppend]
    simp (disch := decide) [-BitVec.append_eq]

theorem atmMin (o : OpAtmS) : Statement (.atmMin o) := by
  obtain ⟨gd, d, a, b, c, off, wide, signed, ord⟩ := o
  cases ord <;>
    refine slotWord .st (fun x => by cases x <;> rfl) (by simp) (by simp [encAtmS, encOrd, gridOf]) rfl fun h => ?_
  all_goals
    show (Instr.atmMin <$> decAtmS _) = _
    simp only [decAtmS, decOrd, encAtmS, encOrd, gridOf, Grid.gd]
    try dsimp only [HAppend.hAppend]
    simp (disch := decide) [-BitVec.append_eq]

theorem atmMax (o : OpAtmS) : Statement (.atmMax o) := by
  obtain ⟨gd, d, a, b, c, off, wide, signed, ord⟩ := o
  cases ord <;>
    refine slotWord .st (fun x => by cases x <;> rfl) (by simp) (by simp [encAtmS, encOrd, gridOf]) rfl fun h => ?_
  all_goals
    show (Instr.atmMax <$> decAtmS _) = _
    simp only [decAtmS, decOrd, encAtmS, encOrd, gridOf, Grid.gd]
    try dsimp only [HAppend.hAppend]
    simp (disch := decide) [-BitVec.append_eq]

theorem atmAnd (o : OpAtm) : Statement (.atmAnd o) := by
  obtain ⟨gd, d, a, b, c, off, wide, ord⟩ := o
  cases ord <;>
    refine slotWord .st (fun x => by cases x <;> rfl) (by simp) (by simp [encAtm, encAtmS, encOrd, gridOf]) rfl fun h => ?_
  all_goals
    show (Instr.atmAnd <$> decAtm _) = _
    simp only [decAtm, decAtmS, decOrd, encAtm, encAtmS, encOrd, gridOf, Grid.gd]
    try dsimp only [HAppend.hAppend]
    simp (disch := decide) [-BitVec.append_eq]

theorem atmOr (o : OpAtm) : Statement (.atmOr o) := by
  obtain ⟨gd, d, a, b, c, off, wide, ord⟩ := o
  cases ord <;>
    refine slotWord .st (fun x => by cases x <;> rfl) (by simp) (by simp [encAtm, encAtmS, encOrd, gridOf]) rfl fun h => ?_
  all_goals
    show (Instr.atmOr <$> decAtm _) = _
    simp only [decAtm, decAtmS, decOrd, encAtm, encAtmS, encOrd, gridOf, Grid.gd]
    try dsimp only [HAppend.hAppend]
    simp (disch := decide) [-BitVec.append_eq]

theorem atmXchg (o : OpAtm) : Statement (.atmXchg o) := by
  obtain ⟨gd, d, a, b, c, off, wide, ord⟩ := o
  cases ord <;>
    refine slotWord .st (fun x => by cases x <;> rfl) (by simp) (by simp [encAtm, encAtmS, encOrd, gridOf]) rfl fun h => ?_
  all_goals
    show (Instr.atmXchg <$> decAtm _) = _
    simp only [decAtm, decAtmS, decOrd, encAtm, encAtmS, encOrd, gridOf, Grid.gd]
    try dsimp only [HAppend.hAppend]
    simp (disch := decide) [-BitVec.append_eq]

theorem atmCas (o : OpAtm) : Statement (.atmCas o) := by
  obtain ⟨gd, d, a, b, c, off, wide, ord⟩ := o
  cases ord <;>
    refine slotWord .st (fun x => by cases x <;> rfl) (by simp) (by simp [encAtm, encAtmS, encOrd, gridOf]) rfl fun h => ?_
  all_goals
    show (Instr.atmCas <$> decAtm _) = _
    simp only [decAtm, decAtmS, decOrd, encAtm, encAtmS, encOrd, gridOf, Grid.gd]
    try dsimp only [HAppend.hAppend]
    simp (disch := decide) [-BitVec.append_eq]

theorem redAdd (o : OpRed) : Statement (.redAdd o) := by
  obtain ⟨gd, a, b, t, msk⟩ := o
  cases t <;>
    refine slotWord .st (fun x => by cases x <;> rfl) (by simp) (by simp [encRedT, gridOf]) rfl fun h => ?_
  all_goals
    show (Instr.redAdd <$> decRed _) = _
    simp only [decRed, encRedT, gridOf, Grid.gd]
    try dsimp only [HAppend.hAppend]
    simp (disch := decide) [-BitVec.append_eq]

theorem fenceRw (o : OpScope) : Statement (.fenceRw o) := by
  refine slotWord .st (fun x => by cases x <;> rfl) (by simp) (by simp [encFence, gridOf]) rfl fun h => ?_
  show (Instr.fenceRw <$> decFence _) = _
  simp only [decFence, encFence, gridOf, Grid.gd]
  try dsimp only [HAppend.hAppend]
  simp (disch := decide) [-BitVec.append_eq]

theorem fenceAcq (o : OpScope) : Statement (.fenceAcq o) := by
  refine slotWord .st (fun x => by cases x <;> rfl) (by simp) (by simp [encFence, gridOf]) rfl fun h => ?_
  show (Instr.fenceAcq <$> decFence _) = _
  simp only [decFence, encFence, gridOf, Grid.gd]
  try dsimp only [HAppend.hAppend]
  simp (disch := decide) [-BitVec.append_eq]

theorem fenceRel (o : OpScope) : Statement (.fenceRel o) := by
  refine slotWord .st (fun x => by cases x <;> rfl) (by simp) (by simp [encFence, gridOf]) rfl fun h => ?_
  show (Instr.fenceRel <$> decFence _) = _
  simp only [decFence, encFence, gridOf, Grid.gd]
  try dsimp only [HAppend.hAppend]
  simp (disch := decide) [-BitVec.append_eq]

theorem vaddF (o : OpVArith) : Statement (.vaddF o) := by
  obtain ⟨gd, d, a, b, msk, rm⟩ := o
  cases b <;>
    refine slotWord .v (fun x => by cases x <;> rfl) (by simp) (by simp [encVArith, encQorS, gridOf]) rfl fun h => ?_
  all_goals
    show (Instr.vaddF <$> decVArith _) = _
    simp only [decVArith, decQorS, encVArith, encQorS, gridOf, Grid.gd]
    try dsimp only [HAppend.hAppend]
    simp (disch := decide) [-BitVec.append_eq]

theorem vsubF (o : OpVArith) : Statement (.vsubF o) := by
  obtain ⟨gd, d, a, b, msk, rm⟩ := o
  cases b <;>
    refine slotWord .v (fun x => by cases x <;> rfl) (by simp) (by simp [encVArith, encQorS, gridOf]) rfl fun h => ?_
  all_goals
    show (Instr.vsubF <$> decVArith _) = _
    simp only [decVArith, decQorS, encVArith, encQorS, gridOf, Grid.gd]
    try dsimp only [HAppend.hAppend]
    simp (disch := decide) [-BitVec.append_eq]

theorem vmulF (o : OpVArith) : Statement (.vmulF o) := by
  obtain ⟨gd, d, a, b, msk, rm⟩ := o
  cases b <;>
    refine slotWord .v (fun x => by cases x <;> rfl) (by simp) (by simp [encVArith, encQorS, gridOf]) rfl fun h => ?_
  all_goals
    show (Instr.vmulF <$> decVArith _) = _
    simp only [decVArith, decQorS, encVArith, encQorS, gridOf, Grid.gd]
    try dsimp only [HAppend.hAppend]
    simp (disch := decide) [-BitVec.append_eq]

theorem vfmaF (o : OpVFma) : Statement (.vfmaF o) := by
  obtain ⟨gd, d, a, b, c, msk, rm⟩ := o
  cases b <;>
    refine slotWord .v (fun x => by cases x <;> rfl) (by simp) (by simp [encVFma, encQorS, gridOf]) rfl fun h => ?_
  all_goals
    show (Instr.vfmaF <$> decVFma _) = _
    simp only [decVFma, decQorS, encVFma, encQorS, gridOf, Grid.gd]
    try dsimp only [HAppend.hAppend]
    simp (disch := decide) [-BitVec.append_eq]

theorem vfmsF (o : OpVFma) : Statement (.vfmsF o) := by
  obtain ⟨gd, d, a, b, c, msk, rm⟩ := o
  cases b <;>
    refine slotWord .v (fun x => by cases x <;> rfl) (by simp) (by simp [encVFma, encQorS, gridOf]) rfl fun h => ?_
  all_goals
    show (Instr.vfmsF <$> decVFma _) = _
    simp only [decVFma, decQorS, encVFma, encQorS, gridOf, Grid.gd]
    try dsimp only [HAppend.hAppend]
    simp (disch := decide) [-BitVec.append_eq]

theorem vminF (o : OpVBin) : Statement (.vminF o) := by
  obtain ⟨gd, d, a, b, msk⟩ := o
  cases b <;>
    refine slotWord .v (fun x => by cases x <;> rfl) (by simp) (by simp [encVBin, encQorS, gridOf]) rfl fun h => ?_
  all_goals
    show (Instr.vminF <$> decVBin _) = _
    simp only [decVBin, decQorS, encVBin, encQorS, gridOf, Grid.gd]
    try dsimp only [HAppend.hAppend]
    simp (disch := decide) [-BitVec.append_eq]

theorem vmaxF (o : OpVBin) : Statement (.vmaxF o) := by
  obtain ⟨gd, d, a, b, msk⟩ := o
  cases b <;>
    refine slotWord .v (fun x => by cases x <;> rfl) (by simp) (by simp [encVBin, encQorS, gridOf]) rfl fun h => ?_
  all_goals
    show (Instr.vmaxF <$> decVBin _) = _
    simp only [decVBin, decQorS, encVBin, encQorS, gridOf, Grid.gd]
    try dsimp only [HAppend.hAppend]
    simp (disch := decide) [-BitVec.append_eq]

theorem vabsF (o : OpVUn) : Statement (.vabsF o) := by
  refine slotWord .v (fun x => by cases x <;> rfl) (by simp) (by simp [encVUn, gridOf]) rfl fun h => ?_
  show (Instr.vabsF <$> decVUn _) = _
  simp only [decVUn, encVUn, gridOf, Grid.gd]
  try dsimp only [HAppend.hAppend]
  simp (disch := decide) [-BitVec.append_eq]

theorem vnegF (o : OpVUn) : Statement (.vnegF o) := by
  refine slotWord .v (fun x => by cases x <;> rfl) (by simp) (by simp [encVUn, gridOf]) rfl fun h => ?_
  show (Instr.vnegF <$> decVUn _) = _
  simp only [decVUn, encVUn, gridOf, Grid.gd]
  try dsimp only [HAppend.hAppend]
  simp (disch := decide) [-BitVec.append_eq]

theorem vaddI (o : OpVBin) : Statement (.vaddI o) := by
  obtain ⟨gd, d, a, b, msk⟩ := o
  cases b <;>
    refine slotWord .v (fun x => by cases x <;> rfl) (by simp) (by simp [encVBin, encQorS, gridOf]) rfl fun h => ?_
  all_goals
    show (Instr.vaddI <$> decVBin _) = _
    simp only [decVBin, decQorS, encVBin, encQorS, gridOf, Grid.gd]
    try dsimp only [HAppend.hAppend]
    simp (disch := decide) [-BitVec.append_eq]

theorem vsubI (o : OpVBin) : Statement (.vsubI o) := by
  obtain ⟨gd, d, a, b, msk⟩ := o
  cases b <;>
    refine slotWord .v (fun x => by cases x <;> rfl) (by simp) (by simp [encVBin, encQorS, gridOf]) rfl fun h => ?_
  all_goals
    show (Instr.vsubI <$> decVBin _) = _
    simp only [decVBin, decQorS, encVBin, encQorS, gridOf, Grid.gd]
    try dsimp only [HAppend.hAppend]
    simp (disch := decide) [-BitVec.append_eq]

theorem vmulI (o : OpVBin) : Statement (.vmulI o) := by
  obtain ⟨gd, d, a, b, msk⟩ := o
  cases b <;>
    refine slotWord .v (fun x => by cases x <;> rfl) (by simp) (by simp [encVBin, encQorS, gridOf]) rfl fun h => ?_
  all_goals
    show (Instr.vmulI <$> decVBin _) = _
    simp only [decVBin, decQorS, encVBin, encQorS, gridOf, Grid.gd]
    try dsimp only [HAppend.hAppend]
    simp (disch := decide) [-BitVec.append_eq]

theorem vmulhI (o : OpVBin) : Statement (.vmulhI o) := by
  obtain ⟨gd, d, a, b, msk⟩ := o
  cases b <;>
    refine slotWord .v (fun x => by cases x <;> rfl) (by simp) (by simp [encVBin, encQorS, gridOf]) rfl fun h => ?_
  all_goals
    show (Instr.vmulhI <$> decVBin _) = _
    simp only [decVBin, decQorS, encVBin, encQorS, gridOf, Grid.gd]
    try dsimp only [HAppend.hAppend]
    simp (disch := decide) [-BitVec.append_eq]

theorem vminI (o : OpVBin) : Statement (.vminI o) := by
  obtain ⟨gd, d, a, b, msk⟩ := o
  cases b <;>
    refine slotWord .v (fun x => by cases x <;> rfl) (by simp) (by simp [encVBin, encQorS, gridOf]) rfl fun h => ?_
  all_goals
    show (Instr.vminI <$> decVBin _) = _
    simp only [decVBin, decQorS, encVBin, encQorS, gridOf, Grid.gd]
    try dsimp only [HAppend.hAppend]
    simp (disch := decide) [-BitVec.append_eq]

theorem vmaxI (o : OpVBin) : Statement (.vmaxI o) := by
  obtain ⟨gd, d, a, b, msk⟩ := o
  cases b <;>
    refine slotWord .v (fun x => by cases x <;> rfl) (by simp) (by simp [encVBin, encQorS, gridOf]) rfl fun h => ?_
  all_goals
    show (Instr.vmaxI <$> decVBin _) = _
    simp only [decVBin, decQorS, encVBin, encQorS, gridOf, Grid.gd]
    try dsimp only [HAppend.hAppend]
    simp (disch := decide) [-BitVec.append_eq]

theorem vminuI (o : OpVBin) : Statement (.vminuI o) := by
  obtain ⟨gd, d, a, b, msk⟩ := o
  cases b <;>
    refine slotWord .v (fun x => by cases x <;> rfl) (by simp) (by simp [encVBin, encQorS, gridOf]) rfl fun h => ?_
  all_goals
    show (Instr.vminuI <$> decVBin _) = _
    simp only [decVBin, decQorS, encVBin, encQorS, gridOf, Grid.gd]
    try dsimp only [HAppend.hAppend]
    simp (disch := decide) [-BitVec.append_eq]

theorem vmaxuI (o : OpVBin) : Statement (.vmaxuI o) := by
  obtain ⟨gd, d, a, b, msk⟩ := o
  cases b <;>
    refine slotWord .v (fun x => by cases x <;> rfl) (by simp) (by simp [encVBin, encQorS, gridOf]) rfl fun h => ?_
  all_goals
    show (Instr.vmaxuI <$> decVBin _) = _
    simp only [decVBin, decQorS, encVBin, encQorS, gridOf, Grid.gd]
    try dsimp only [HAppend.hAppend]
    simp (disch := decide) [-BitVec.append_eq]

theorem vand (o : OpVBin) : Statement (.vand o) := by
  obtain ⟨gd, d, a, b, msk⟩ := o
  cases b <;>
    refine slotWord .v (fun x => by cases x <;> rfl) (by simp) (by simp [encVBin, encQorS, gridOf]) rfl fun h => ?_
  all_goals
    show (Instr.vand <$> decVBin _) = _
    simp only [decVBin, decQorS, encVBin, encQorS, gridOf, Grid.gd]
    try dsimp only [HAppend.hAppend]
    simp (disch := decide) [-BitVec.append_eq]

theorem vor (o : OpVBin) : Statement (.vor o) := by
  obtain ⟨gd, d, a, b, msk⟩ := o
  cases b <;>
    refine slotWord .v (fun x => by cases x <;> rfl) (by simp) (by simp [encVBin, encQorS, gridOf]) rfl fun h => ?_
  all_goals
    show (Instr.vor <$> decVBin _) = _
    simp only [decVBin, decQorS, encVBin, encQorS, gridOf, Grid.gd]
    try dsimp only [HAppend.hAppend]
    simp (disch := decide) [-BitVec.append_eq]

theorem vxor (o : OpVBin) : Statement (.vxor o) := by
  obtain ⟨gd, d, a, b, msk⟩ := o
  cases b <;>
    refine slotWord .v (fun x => by cases x <;> rfl) (by simp) (by simp [encVBin, encQorS, gridOf]) rfl fun h => ?_
  all_goals
    show (Instr.vxor <$> decVBin _) = _
    simp only [decVBin, decQorS, encVBin, encQorS, gridOf, Grid.gd]
    try dsimp only [HAppend.hAppend]
    simp (disch := decide) [-BitVec.append_eq]

theorem vshl (o : OpVBin) : Statement (.vshl o) := by
  obtain ⟨gd, d, a, b, msk⟩ := o
  cases b <;>
    refine slotWord .v (fun x => by cases x <;> rfl) (by simp) (by simp [encVBin, encQorS, gridOf]) rfl fun h => ?_
  all_goals
    show (Instr.vshl <$> decVBin _) = _
    simp only [decVBin, decQorS, encVBin, encQorS, gridOf, Grid.gd]
    try dsimp only [HAppend.hAppend]
    simp (disch := decide) [-BitVec.append_eq]

theorem vshr (o : OpVBin) : Statement (.vshr o) := by
  obtain ⟨gd, d, a, b, msk⟩ := o
  cases b <;>
    refine slotWord .v (fun x => by cases x <;> rfl) (by simp) (by simp [encVBin, encQorS, gridOf]) rfl fun h => ?_
  all_goals
    show (Instr.vshr <$> decVBin _) = _
    simp only [decVBin, decQorS, encVBin, encQorS, gridOf, Grid.gd]
    try dsimp only [HAppend.hAppend]
    simp (disch := decide) [-BitVec.append_eq]

theorem vsra (o : OpVBin) : Statement (.vsra o) := by
  obtain ⟨gd, d, a, b, msk⟩ := o
  cases b <;>
    refine slotWord .v (fun x => by cases x <;> rfl) (by simp) (by simp [encVBin, encQorS, gridOf]) rfl fun h => ?_
  all_goals
    show (Instr.vsra <$> decVBin _) = _
    simp only [decVBin, decQorS, encVBin, encQorS, gridOf, Grid.gd]
    try dsimp only [HAppend.hAppend]
    simp (disch := decide) [-BitVec.append_eq]

theorem vaddsI (o : OpVBin) : Statement (.vaddsI o) := by
  obtain ⟨gd, d, a, b, msk⟩ := o
  cases b <;>
    refine slotWord .v (fun x => by cases x <;> rfl) (by simp) (by simp [encVBin, encQorS, gridOf]) rfl fun h => ?_
  all_goals
    show (Instr.vaddsI <$> decVBin _) = _
    simp only [decVBin, decQorS, encVBin, encQorS, gridOf, Grid.gd]
    try dsimp only [HAppend.hAppend]
    simp (disch := decide) [-BitVec.append_eq]

theorem vrcp (o : OpVTr) : Statement (.vrcp o) := by
  refine slotWord .v (fun x => by cases x <;> rfl) (by simp) (by simp [encVTr, gridOf]) rfl fun h => ?_
  show (Instr.vrcp <$> decVTr _) = _
  simp only [decVTr, encVTr, gridOf, Grid.gd]
  try dsimp only [HAppend.hAppend]
  simp (disch := decide) [-BitVec.append_eq]

theorem vrsq (o : OpVTr) : Statement (.vrsq o) := by
  refine slotWord .v (fun x => by cases x <;> rfl) (by simp) (by simp [encVTr, gridOf]) rfl fun h => ?_
  show (Instr.vrsq <$> decVTr _) = _
  simp only [decVTr, encVTr, gridOf, Grid.gd]
  try dsimp only [HAppend.hAppend]
  simp (disch := decide) [-BitVec.append_eq]

theorem vexp2 (o : OpVTr) : Statement (.vexp2 o) := by
  refine slotWord .v (fun x => by cases x <;> rfl) (by simp) (by simp [encVTr, gridOf]) rfl fun h => ?_
  show (Instr.vexp2 <$> decVTr _) = _
  simp only [decVTr, encVTr, gridOf, Grid.gd]
  try dsimp only [HAppend.hAppend]
  simp (disch := decide) [-BitVec.append_eq]

theorem vlg2 (o : OpVTr) : Statement (.vlg2 o) := by
  refine slotWord .v (fun x => by cases x <;> rfl) (by simp) (by simp [encVTr, gridOf]) rfl fun h => ?_
  show (Instr.vlg2 <$> decVTr _) = _
  simp only [decVTr, encVTr, gridOf, Grid.gd]
  try dsimp only [HAppend.hAppend]
  simp (disch := decide) [-BitVec.append_eq]

theorem vcmpEq (o : OpVCmp) : Statement (.vcmpEq o) := by
  obtain ⟨gd, d, a, b, msk⟩ := o
  cases b <;>
    refine slotWord .v (fun x => by cases x <;> rfl) (by simp) (by simp [encVCmp, encQorS, gridOf]) rfl fun h => ?_
  all_goals
    show (Instr.vcmpEq <$> decVCmp _) = _
    simp only [decVCmp, decQorS, encVCmp, encQorS, gridOf, Grid.gd]
    try dsimp only [HAppend.hAppend]
    simp (disch := decide) [-BitVec.append_eq]

theorem vcmpNe (o : OpVCmp) : Statement (.vcmpNe o) := by
  obtain ⟨gd, d, a, b, msk⟩ := o
  cases b <;>
    refine slotWord .v (fun x => by cases x <;> rfl) (by simp) (by simp [encVCmp, encQorS, gridOf]) rfl fun h => ?_
  all_goals
    show (Instr.vcmpNe <$> decVCmp _) = _
    simp only [decVCmp, decQorS, encVCmp, encQorS, gridOf, Grid.gd]
    try dsimp only [HAppend.hAppend]
    simp (disch := decide) [-BitVec.append_eq]

theorem vcmpLt (o : OpVCmp) : Statement (.vcmpLt o) := by
  obtain ⟨gd, d, a, b, msk⟩ := o
  cases b <;>
    refine slotWord .v (fun x => by cases x <;> rfl) (by simp) (by simp [encVCmp, encQorS, gridOf]) rfl fun h => ?_
  all_goals
    show (Instr.vcmpLt <$> decVCmp _) = _
    simp only [decVCmp, decQorS, encVCmp, encQorS, gridOf, Grid.gd]
    try dsimp only [HAppend.hAppend]
    simp (disch := decide) [-BitVec.append_eq]

theorem vcmpLe (o : OpVCmp) : Statement (.vcmpLe o) := by
  obtain ⟨gd, d, a, b, msk⟩ := o
  cases b <;>
    refine slotWord .v (fun x => by cases x <;> rfl) (by simp) (by simp [encVCmp, encQorS, gridOf]) rfl fun h => ?_
  all_goals
    show (Instr.vcmpLe <$> decVCmp _) = _
    simp only [decVCmp, decQorS, encVCmp, encQorS, gridOf, Grid.gd]
    try dsimp only [HAppend.hAppend]
    simp (disch := decide) [-BitVec.append_eq]

theorem vcmpGt (o : OpVCmp) : Statement (.vcmpGt o) := by
  obtain ⟨gd, d, a, b, msk⟩ := o
  cases b <;>
    refine slotWord .v (fun x => by cases x <;> rfl) (by simp) (by simp [encVCmp, encQorS, gridOf]) rfl fun h => ?_
  all_goals
    show (Instr.vcmpGt <$> decVCmp _) = _
    simp only [decVCmp, decQorS, encVCmp, encQorS, gridOf, Grid.gd]
    try dsimp only [HAppend.hAppend]
    simp (disch := decide) [-BitVec.append_eq]

theorem vcmpGe (o : OpVCmp) : Statement (.vcmpGe o) := by
  obtain ⟨gd, d, a, b, msk⟩ := o
  cases b <;>
    refine slotWord .v (fun x => by cases x <;> rfl) (by simp) (by simp [encVCmp, encQorS, gridOf]) rfl fun h => ?_
  all_goals
    show (Instr.vcmpGe <$> decVCmp _) = _
    simp only [decVCmp, decQorS, encVCmp, encQorS, gridOf, Grid.gd]
    try dsimp only [HAppend.hAppend]
    simp (disch := decide) [-BitVec.append_eq]

theorem vcmpUn (o : OpVCmp) : Statement (.vcmpUn o) := by
  obtain ⟨gd, d, a, b, msk⟩ := o
  cases b <;>
    refine slotWord .v (fun x => by cases x <;> rfl) (by simp) (by simp [encVCmp, encQorS, gridOf]) rfl fun h => ?_
  all_goals
    show (Instr.vcmpUn <$> decVCmp _) = _
    simp only [decVCmp, decQorS, encVCmp, encQorS, gridOf, Grid.gd]
    try dsimp only [HAppend.hAppend]
    simp (disch := decide) [-BitVec.append_eq]

theorem vicmpEq (o : OpVCmp) : Statement (.vicmpEq o) := by
  obtain ⟨gd, d, a, b, msk⟩ := o
  cases b <;>
    refine slotWord .v (fun x => by cases x <;> rfl) (by simp) (by simp [encVCmp, encQorS, gridOf]) rfl fun h => ?_
  all_goals
    show (Instr.vicmpEq <$> decVCmp _) = _
    simp only [decVCmp, decQorS, encVCmp, encQorS, gridOf, Grid.gd]
    try dsimp only [HAppend.hAppend]
    simp (disch := decide) [-BitVec.append_eq]

theorem vicmpNe (o : OpVCmp) : Statement (.vicmpNe o) := by
  obtain ⟨gd, d, a, b, msk⟩ := o
  cases b <;>
    refine slotWord .v (fun x => by cases x <;> rfl) (by simp) (by simp [encVCmp, encQorS, gridOf]) rfl fun h => ?_
  all_goals
    show (Instr.vicmpNe <$> decVCmp _) = _
    simp only [decVCmp, decQorS, encVCmp, encQorS, gridOf, Grid.gd]
    try dsimp only [HAppend.hAppend]
    simp (disch := decide) [-BitVec.append_eq]

theorem vicmpLt (o : OpVCmp) : Statement (.vicmpLt o) := by
  obtain ⟨gd, d, a, b, msk⟩ := o
  cases b <;>
    refine slotWord .v (fun x => by cases x <;> rfl) (by simp) (by simp [encVCmp, encQorS, gridOf]) rfl fun h => ?_
  all_goals
    show (Instr.vicmpLt <$> decVCmp _) = _
    simp only [decVCmp, decQorS, encVCmp, encQorS, gridOf, Grid.gd]
    try dsimp only [HAppend.hAppend]
    simp (disch := decide) [-BitVec.append_eq]

theorem vicmpGe (o : OpVCmp) : Statement (.vicmpGe o) := by
  obtain ⟨gd, d, a, b, msk⟩ := o
  cases b <;>
    refine slotWord .v (fun x => by cases x <;> rfl) (by simp) (by simp [encVCmp, encQorS, gridOf]) rfl fun h => ?_
  all_goals
    show (Instr.vicmpGe <$> decVCmp _) = _
    simp only [decVCmp, decQorS, encVCmp, encQorS, gridOf, Grid.gd]
    try dsimp only [HAppend.hAppend]
    simp (disch := decide) [-BitVec.append_eq]

theorem vicmpLtu (o : OpVCmp) : Statement (.vicmpLtu o) := by
  obtain ⟨gd, d, a, b, msk⟩ := o
  cases b <;>
    refine slotWord .v (fun x => by cases x <;> rfl) (by simp) (by simp [encVCmp, encQorS, gridOf]) rfl fun h => ?_
  all_goals
    show (Instr.vicmpLtu <$> decVCmp _) = _
    simp only [decVCmp, decQorS, encVCmp, encQorS, gridOf, Grid.gd]
    try dsimp only [HAppend.hAppend]
    simp (disch := decide) [-BitVec.append_eq]

theorem vicmpGeu (o : OpVCmp) : Statement (.vicmpGeu o) := by
  obtain ⟨gd, d, a, b, msk⟩ := o
  cases b <;>
    refine slotWord .v (fun x => by cases x <;> rfl) (by simp) (by simp [encVCmp, encQorS, gridOf]) rfl fun h => ?_
  all_goals
    show (Instr.vicmpGeu <$> decVCmp _) = _
    simp only [decVCmp, decQorS, encVCmp, encQorS, gridOf, Grid.gd]
    try dsimp only [HAppend.hAppend]
    simp (disch := decide) [-BitVec.append_eq]

theorem vsel (o : OpVBin) : Statement (.vsel o) := by
  obtain ⟨gd, d, a, b, msk⟩ := o
  cases b <;>
    refine slotWord .v (fun x => by cases x <;> rfl) (by simp) (by simp [encVBin, encQorS, gridOf]) rfl fun h => ?_
  all_goals
    show (Instr.vsel <$> decVBin _) = _
    simp only [decVBin, decQorS, encVBin, encQorS, gridOf, Grid.gd]
    try dsimp only [HAppend.hAppend]
    simp (disch := decide) [-BitVec.append_eq]

theorem vsplat (o : OpVSplat) : Statement (.vsplat o) := by
  refine slotWord .v (fun x => by cases x <;> rfl) (by simp) (by simp [gridOf]) rfl fun h => ?_
  show (Instr.vsplat <$> decVSplat _) = _
  simp only [decVSplat, gridOf, Grid.gd]
  try dsimp only [HAppend.hAppend]
  simp (disch := decide) [-BitVec.append_eq]

theorem viota (o : OpVIota) : Statement (.viota o) := by
  refine slotWord .v (fun x => by cases x <;> rfl) (by simp) (by simp [gridOf]) rfl fun h => ?_
  show (Instr.viota <$> decVIota _) = _
  simp only [decVIota, gridOf, Grid.gd]
  try dsimp only [HAppend.hAppend]
  simp (disch := decide) [-BitVec.append_eq]

theorem vmov (o : OpVUn) : Statement (.vmov o) := by
  refine slotWord .v (fun x => by cases x <;> rfl) (by simp) (by simp [encVUn, gridOf]) rfl fun h => ?_
  show (Instr.vmov <$> decVUn _) = _
  simp only [decVUn, encVUn, gridOf, Grid.gd]
  try dsimp only [HAppend.hAppend]
  simp (disch := decide) [-BitVec.append_eq]

theorem vcvt (o : OpVCvt) : Statement (.vcvt o) := by
  refine slotWord .v (fun x => by cases x <;> rfl) (by simp) (by simp [gridOf]) rfl fun h => ?_
  show (Instr.vcvt <$> decVCvt _) = _
  simp only [decVCvt, gridOf, Grid.gd]
  try dsimp only [HAppend.hAppend]
  simp only [wellFormed] at h
  simp (disch := decide) [-BitVec.append_eq, h]

theorem vred (o : OpVRed) : Statement (.vred o) := by
  obtain ⟨gd, dst, a, op, msk, rm⟩ := o
  cases dst <;>
    refine slotWord .v (fun x => by cases x <;> rfl) (by simp) (by simp [encVRed, gridOf]) rfl fun h => ?_
  all_goals
    show (Instr.vred <$> decVRed _) = _
    simp only [decVRed, encVRed, gridOf, Grid.gd]
    try dsimp only [HAppend.hAppend]
    simp only [wellFormed] at h
    simp (disch := decide) [-BitVec.append_eq]
    exact needThen (by cases rm <;> simp_all [OpVRed.ok, encRnd])

theorem vredDeferredReduction : Statement .vredDeferredReduction := noWord (fun cls => by cases cls <;> rfl) rfl

theorem vdot (o : OpVDot) : Statement (.vdot o) := by
  refine slotWord .v (fun x => by cases x <;> rfl) (by simp) (by simp [gridOf]) rfl fun h => ?_
  show (Instr.vdot <$> decVDot _) = _
  simp only [decVDot, gridOf, Grid.gd]
  try dsimp only [HAppend.hAppend]
  simp (disch := decide) [-BitVec.append_eq]

theorem vupd (o : OpVUpd) : Statement (.vupd o) := by
  obtain ⟨gd, d, a, b, c, mode, vs, msk, rm⟩ := o
  cases mode <;>
    refine slotWord .v (fun x => by cases x <;> rfl) (by simp) (by simp [encOptMode, gridOf]) rfl fun h => ?_
  all_goals
    show (Instr.vupd <$> decVUpd _) = _
    simp only [decVUpd, encOptMode, gridOf, Grid.gd]
    try dsimp only [HAppend.hAppend]
    simp only [wellFormed] at h
    simp (disch := decide) [-BitVec.append_eq]
    exact needThen h

theorem pkMx (o : OpPkMx) : Statement (.pkMx o) := by
  obtain ⟨gd, d, a, b, c, split, blk, fmt, rm⟩ := o
  cases c <;>
    refine slotWord .p (fun x => by cases x <;> rfl) (by simp) (by simp [encScm, gridOf]) rfl fun h => ?_
  all_goals
    show (Instr.pkMx <$> decPkMx _) = _
    simp only [decPkMx, decScm, encScm, gridOf, Grid.gd]
    try dsimp only [HAppend.hAppend]
    simp (disch := decide) [-BitVec.append_eq]

theorem upkMx (o : OpUpkMx) : Statement (.upkMx o) := by
  obtain ⟨gd, d, a, c, blk, fmt⟩ := o
  cases c <;>
    refine slotWord .p (fun x => by cases x <;> rfl) (by simp) (by simp [encScm, gridOf]) rfl fun h => ?_
  all_goals
    show (Instr.upkMx <$> decUpkMx _) = _
    simp only [decUpkMx, decScm, encScm, gridOf, Grid.gd]
    try dsimp only [HAppend.hAppend]
    simp (disch := decide) [-BitVec.append_eq]

theorem shf (o : OpShf) : Statement (.shf o) := by
  refine slotWord .p (fun x => by cases x <;> rfl) (by simp) (by simp [gridOf]) rfl fun h => ?_
  show (Instr.shf <$> decShf _) = _
  simp only [decShf, gridOf, Grid.gd]
  try dsimp only [HAppend.hAppend]
  simp (disch := decide) [-BitVec.append_eq]

theorem xpo (o : OpXpo) : Statement (.xpo o) := by
  refine slotWord .p (fun x => by cases x <;> rfl) (by simp) (by simp [gridOf]) rfl fun h => ?_
  show (Instr.xpo <$> decXpo _) = _
  simp only [decXpo, gridOf, Grid.gd]
  try dsimp only [HAppend.hAppend]
  simp (disch := decide) [-BitVec.append_eq]

theorem bct (o : OpBct) : Statement (.bct o) := by
  refine slotWord .p (fun x => by cases x <;> rfl) (by simp) (by simp [gridOf]) rfl fun h => ?_
  show (Instr.bct <$> decBct _) = _
  simp only [decBct, gridOf, Grid.gd]
  try dsimp only [HAppend.hAppend]
  simp only [wellFormed] at h
  simp (disch := decide) [-BitVec.append_eq]
  exact needThen h

theorem scGet (o : OpScGet) : Statement (.scGet o) := by
  obtain ⟨gd, dst, a⟩ := o
  cases dst <;>
    refine slotWord .p (fun x => by cases x <;> rfl) (by simp) (by simp [gridOf]) rfl fun h => ?_
  all_goals
    show (Instr.scGet <$> decScGet _) = _
    simp only [decScGet, gridOf, Grid.gd]
    try dsimp only [HAppend.hAppend]
    simp (disch := decide) [-BitVec.append_eq]

theorem zip (o : OpZip) : Statement (.zip o) := by
  refine slotWord .p (fun x => by cases x <;> rfl) (by simp) (by simp [encZip, gridOf]) rfl fun h => ?_
  show (Instr.zip <$> decZip _) = _
  simp only [decZip, encZip, gridOf, Grid.gd]
  try dsimp only [HAppend.hAppend]
  simp (disch := decide) [-BitVec.append_eq]

theorem unzip (o : OpZip) : Statement (.unzip o) := by
  refine slotWord .p (fun x => by cases x <;> rfl) (by simp) (by simp [encZip, gridOf]) rfl fun h => ?_
  show (Instr.unzip <$> decZip _) = _
  simp only [decZip, encZip, gridOf, Grid.gd]
  try dsimp only [HAppend.hAppend]
  simp (disch := decide) [-BitVec.append_eq]

theorem pkH (o : OpPkH) : Statement (.pkH o) := by
  refine slotWord .p (fun x => by cases x <;> rfl) (by simp) (by simp [gridOf]) rfl fun h => ?_
  show (Instr.pkH <$> decPkH _) = _
  simp only [decPkH, gridOf, Grid.gd]
  try dsimp only [HAppend.hAppend]
  simp (disch := decide) [-BitVec.append_eq]

theorem upkH (o : OpUpkH) : Statement (.upkH o) := by
  refine slotWord .p (fun x => by cases x <;> rfl) (by simp) (by simp [gridOf]) rfl fun h => ?_
  show (Instr.upkH <$> decUpkH _) = _
  simp only [decUpkH, gridOf, Grid.gd]
  try dsimp only [HAppend.hAppend]
  simp (disch := decide) [-BitVec.append_eq]

theorem mpWr (o : OpMpWr) : Statement (.mpWr o) := by
  refine slotWord .m (fun x => by cases x <;> rfl) (by simp) (by simp [gridOf]) rfl fun h => ?_
  show (Instr.mpWr <$> decMpWr _) = _
  simp only [decMpWr, gridOf, Grid.gd]
  try dsimp only [HAppend.hAppend]
  simp (disch := decide) [-BitVec.append_eq]

theorem mpRd (o : OpMpRd) : Statement (.mpRd o) := by
  obtain ⟨gd, d, a⟩ := o
  cases a <;>
    refine slotWord .m (fun x => by cases x <;> rfl) (by simp) (by simp [gridOf]) rfl fun h => ?_
  all_goals
    show (Instr.mpRd <$> decMpRd _) = _
    simp only [decMpRd, gridOf, Grid.gd]
    try dsimp only [HAppend.hAppend]
    simp (disch := decide) [-BitVec.append_eq]

theorem mxCall (o : OpMxCall) : Statement (.mxCall o) := by
  refine slotWord .m (fun x => by cases x <;> rfl) (by simp) (by simp [gridOf]) rfl fun h => ?_
  show (Instr.mxCall <$> decMxCall _) = _
  simp only [decMxCall, gridOf, Grid.gd]
  try dsimp only [HAppend.hAppend]
  simp (disch := decide) [-BitVec.append_eq]

theorem mxLat (o : OpMxLat) : Statement (.mxLat o) := by
  refine slotWord .m (fun x => by cases x <;> rfl) (by simp) (by simp [gridOf]) rfl fun h => ?_
  show (Instr.mxLat <$> decMxLat _) = _
  simp only [decMxLat, gridOf, Grid.gd]
  try dsimp only [HAppend.hAppend]
  simp (disch := decide) [-BitVec.append_eq]

theorem mxPrm (o : OpMxPrm) : Statement (.mxPrm o) := by
  refine slotWord .m (fun x => by cases x <;> rfl) (by simp) (by simp [gridOf]) rfl fun h => ?_
  show (Instr.mxPrm <$> decMxPrm _) = _
  simp only [decMxPrm, gridOf, Grid.gd]
  try dsimp only [HAppend.hAppend]
  simp (disch := decide) [-BitVec.append_eq]

theorem mxUcw (o : OpRR) : Statement (.mxUcw o) := by
  refine slotWord .m (fun x => by cases x <;> rfl) (by simp) (by simp [encRR, gridOf]) rfl fun h => ?_
  show (Instr.mxUcw <$> decRR _) = _
  simp only [decRR, encRR, gridOf, Grid.gd]
  try dsimp only [HAppend.hAppend]
  simp (disch := decide) [-BitVec.append_eq]

theorem accRd (o : OpAccRd) : Statement (.accRd o) := by
  obtain ⟨gd, d, a, b, c, cd, sort, tmp, gum, conv, rm⟩ := o
  cases conv <;>
    refine slotWord .m (fun x => by cases x <;> rfl) (by simp) (by simp [encConv, gridOf]) rfl fun h => ?_
  all_goals
    show (Instr.accRd <$> decAccRd _) = _
    simp only [decAccRd, decConv, encConv, gridOf, Grid.gd]
    try dsimp only [HAppend.hAppend]
    simp only [wellFormed] at h
    simp (disch := decide) [-BitVec.append_eq]
    exact needThen h

theorem accClr (o : OpAccClr) : Statement (.accClr o) := by
  refine slotWord .m (fun x => by cases x <;> rfl) (by simp) (by simp [gridOf]) rfl fun h => ?_
  show (Instr.accClr <$> decAccClr _) = _
  simp only [decAccClr, gridOf, Grid.gd]
  try dsimp only [HAppend.hAppend]
  simp (disch := decide) [-BitVec.append_eq]

theorem accCp (o : OpAccCp) : Statement (.accCp o) := by
  refine slotWord .m (fun x => by cases x <;> rfl) (by simp) (by simp [gridOf]) rfl fun h => ?_
  show (Instr.accCp <$> decAccCp _) = _
  simp only [decAccCp, gridOf, Grid.gd]
  try dsimp only [HAppend.hAppend]
  simp (disch := decide) [-BitVec.append_eq]

theorem uopEnd (mkr : Bool) : Statement (.uopEnd mkr) := by
  refine ⟨fun cls w _ h => (by cases cls <;> cases h), fun w hwf h => ?_⟩
  simp only [encodeUop, Option.some.injEq] at h
  subst h
  simp only [decodeUop, uf, uz]
  dsimp only [HAppend.hAppend]
  simp (disch := decide) [-BitVec.append_eq]

theorem uopMac (o : UMac) : Statement (.uopMac o) := by
  refine ⟨fun cls w _ h => (by cases cls <;> cases h), fun w hwf h => ?_⟩
  simp only [encodeUop, Option.some.injEq] at h
  subst h
  simp only [decodeUop, decUMac, uf, uz]
  dsimp only [HAppend.hAppend]
  simp only [wellFormed] at hwf
  obtain ⟨mkr, pl, aq, ak, sq, sk, afmt, sr, rb, rofs, cg, ovw, ri, w64, kr⟩ := o
  cases sr <;>
  simp (disch := decide) [-BitVec.append_eq]
  all_goals exact needThen hwf

theorem macResultLand : Statement .macResultLand := noWord (fun cls => by cases cls <;> rfl) rfl

theorem uopLat (o : ULat) : Statement (.uopLat o) := by
  refine ⟨fun cls w _ h => (by cases cls <;> cases h), fun w hwf h => ?_⟩
  simp only [encodeUop, Option.some.injEq] at h
  subst h
  simp only [decodeUop, decULat, uf, uz]
  dsimp only [HAppend.hAppend]
  simp only [wellFormed] at hwf
  simp (disch := decide) [-BitVec.append_eq]
  exact needThen hwf

theorem uopSet (o : USet) : Statement (.uopSet o) := by
  refine ⟨fun cls w _ h => (by cases cls <;> cases h), fun w hwf h => ?_⟩
  simp only [encodeUop, Option.some.injEq] at h
  subst h
  simp only [decodeUop, decUSet, uf, uz]
  dsimp only [HAppend.hAppend]
  simp only [wellFormed] at hwf
  simp (disch := decide) [-BitVec.append_eq]
  exact needThen hwf

theorem uopLoop (o : ULoop) : Statement (.uopLoop o) := by
  refine ⟨fun cls w _ h => (by cases cls <;> cases h), fun w hwf h => ?_⟩
  simp only [encodeUop, Option.some.injEq] at h
  subst h
  simp only [decodeUop, decULoop, uf, uz]
  dsimp only [HAppend.hAppend]
  simp only [wellFormed] at hwf
  simp (disch := decide) [-BitVec.append_eq]
  exact needThen hwf

theorem uopEndl (o : UEndl) : Statement (.uopEndl o) := by
  refine ⟨fun cls w _ h => (by cases cls <;> cases h), fun w hwf h => ?_⟩
  simp only [encodeUop, Option.some.injEq] at h
  subst h
  simp only [decodeUop, decUEndl, uf, uz]
  dsimp only [HAppend.hAppend]
  simp (disch := decide) [-BitVec.append_eq]

theorem uopBrz (o : UBrz) : Statement (.uopBrz o) := by
  refine ⟨fun cls w _ h => (by cases cls <;> cases h), fun w hwf h => ?_⟩
  simp only [encodeUop, Option.some.injEq] at h
  subst h
  simp only [decodeUop, decUBrz, uf, uz]
  dsimp only [HAppend.hAppend]
  simp only [wellFormed] at hwf
  simp (disch := decide) [-BitVec.append_eq]
  exact needThen hwf

theorem uopClr (o : UClr) : Statement (.uopClr o) := by
  refine ⟨fun cls w _ h => (by cases cls <;> cases h), fun w hwf h => ?_⟩
  simp only [encodeUop, Option.some.injEq] at h
  subst h
  simp only [decodeUop, decUClr, uf, uz]
  dsimp only [HAppend.hAppend]
  simp only [wellFormed] at hwf
  simp (disch := decide) [-BitVec.append_eq]
  exact needThen hwf

theorem uopAcp (o : UAcp) : Statement (.uopAcp o) := by
  refine ⟨fun cls w _ h => (by cases cls <;> cases h), fun w hwf h => ?_⟩
  simp only [encodeUop, Option.some.injEq] at h
  subst h
  simp only [decodeUop, decUAcp, uf, uz]
  dsimp only [HAppend.hAppend]
  simp only [wellFormed] at hwf
  simp (disch := decide) [-BitVec.append_eq]
  exact needThen hwf

theorem uopNop (mkr : Bool) : Statement (.uopNop mkr) := by
  refine ⟨fun cls w _ h => (by cases cls <;> cases h), fun w hwf h => ?_⟩
  simp only [encodeUop, Option.some.injEq] at h
  subst h
  simp only [decodeUop, uf, uz]
  dsimp only [HAppend.hAppend]
  simp (disch := decide) [-BitVec.append_eq]

theorem routinePause : Statement .routinePause := noWord (fun cls => by cases cls <;> rfl) rfl

theorem routineFault : Statement .routineFault := noWord (fun cls => by cases cls <;> rfl) rfl

theorem rngSet (o : OpRngSet) : Statement (.rngSet o) := by
  refine slotWord .k (fun x => by cases x <;> rfl) (by simp) (by simp [gridOf]) rfl fun h => ?_
  show (Instr.rngSet <$> decRngSet _) = _
  simp only [decRngSet, gridOf, Grid.gd]
  try dsimp only [HAppend.hAppend]
  simp only [wellFormed] at h
  simp (disch := decide) [-BitVec.append_eq, h]

theorem cdClr (o : OpCdClr) : Statement (.cdClr o) := by
  refine slotWord .k (fun x => by cases x <;> rfl) (by simp) (by simp [gridOf]) rfl fun h => ?_
  show (Instr.cdClr <$> decCdClr _) = _
  simp only [decCdClr, gridOf, Grid.gd]
  try dsimp only [HAppend.hAppend]
  simp (disch := decide) [-BitVec.append_eq]

theorem cdMrg (o : OpCdMrg) : Statement (.cdMrg o) := by
  refine slotWord .k (fun x => by cases x <;> rfl) (by simp) (by simp [gridOf]) rfl fun h => ?_
  show (Instr.cdMrg <$> decCdMrg _) = _
  simp only [decCdMrg, gridOf, Grid.gd]
  try dsimp only [HAppend.hAppend]
  simp (disch := decide) [-BitVec.append_eq]

theorem cdTop (o : OpCdTop) : Statement (.cdTop o) := by
  refine slotWord .k (fun x => by cases x <;> rfl) (by simp) (by simp [gridOf]) rfl fun h => ?_
  show (Instr.cdTop <$> decCdTop _) = _
  simp only [decCdTop, gridOf, Grid.gd]
  try dsimp only [HAppend.hAppend]
  simp (disch := decide) [-BitVec.append_eq]

theorem cdArg (o : OpCdArg) : Statement (.cdArg o) := by
  refine slotWord .k (fun x => by cases x <;> rfl) (by simp) (by simp [gridOf]) rfl fun h => ?_
  show (Instr.cdArg <$> decCdArg _) = _
  simp only [decCdArg, gridOf, Grid.gd]
  try dsimp only [HAppend.hAppend]
  simp (disch := decide) [-BitVec.append_eq]

theorem cdThr (o : OpCdThr) : Statement (.cdThr o) := by
  refine slotWord .k (fun x => by cases x <;> rfl) (by simp) (by simp [gridOf]) rfl fun h => ?_
  show (Instr.cdThr <$> decCdThr _) = _
  simp only [decCdThr, gridOf, Grid.gd]
  try dsimp only [HAppend.hAppend]
  simp (disch := decide) [-BitVec.append_eq]

theorem foMd (o : OpFoMd) : Statement (.foMd o) := by
  obtain ⟨gd, fmt⟩ := o
  cases fmt <;>
    refine slotWord .f (fun x => by cases x <;> rfl) (by simp) (by simp [encFMode, gridOf]) rfl fun h => ?_
  all_goals
    show (Instr.foMd <$> decFoMd _) = _
    simp only [decFoMd, encFMode, gridOf, Grid.gd]
    try dsimp only [HAppend.hAppend]
    simp (disch := decide) [-BitVec.append_eq]

theorem foShp (o : OpFoShp) : Statement (.foShp o) := by
  refine slotWord .f (fun x => by cases x <;> rfl) (by simp) (by simp [gridOf]) rfl fun h => ?_
  show (Instr.foShp <$> decFoShp _) = _
  simp only [decFoShp, gridOf, Grid.gd]
  try dsimp only [HAppend.hAppend]
  simp (disch := decide) [-BitVec.append_eq]

theorem foLd (o : OpFoLd) : Statement (.foLd o) := by
  obtain ⟨gd, a, b, lay⟩ := o
  cases lay <;>
    refine slotWord .f (fun x => by cases x <;> rfl) (by simp) (by simp [encLay, gridOf]) rfl fun h => ?_
  all_goals
    show (Instr.foLd <$> decFoLd _) = _
    simp only [decFoLd, decLay, encLay, gridOf, Grid.gd]
    try dsimp only [HAppend.hAppend]
    simp (disch := decide) [-BitVec.append_eq]

theorem foSt (o : OpFoSt) : Statement (.foSt o) := by
  obtain ⟨gd, d, b, lay⟩ := o
  cases lay <;>
    refine slotWord .f (fun x => by cases x <;> rfl) (by simp) (by simp [encLay, gridOf]) rfl fun h => ?_
  all_goals
    show (Instr.foSt <$> decFoSt _) = _
    simp only [decFoSt, decLay, encLay, gridOf, Grid.gd]
    try dsimp only [HAppend.hAppend]
    simp (disch := decide) [-BitVec.append_eq]

theorem foUp (o : OpFoUp) : Statement (.foUp o) := by
  refine slotWord .f (fun x => by cases x <;> rfl) (by simp) (by simp [gridOf]) rfl fun h => ?_
  show (Instr.foUp <$> decFoUp _) = _
  simp only [decFoUp, gridOf, Grid.gd]
  try dsimp only [HAppend.hAppend]
  simp (disch := decide) [-BitVec.append_eq]

theorem foDn (o : OpFoDn) : Statement (.foDn o) := by
  refine slotWord .f (fun x => by cases x <;> rfl) (by simp) (by simp [gridOf]) rfl fun h => ?_
  show (Instr.foDn <$> decFoDn _) = _
  simp only [decFoDn, gridOf, Grid.gd]
  try dsimp only [HAppend.hAppend]
  simp (disch := decide) [-BitVec.append_eq]

theorem foNrm (o : OpFoNrm) : Statement (.foNrm o) := by
  refine slotWord .f (fun x => by cases x <;> rfl) (by simp) (by simp [gridOf]) rfl fun h => ?_
  show (Instr.foNrm <$> decFoNrm _) = _
  simp only [decFoNrm, gridOf, Grid.gd]
  try dsimp only [HAppend.hAppend]
  simp (disch := decide) [-BitVec.append_eq]

theorem forestOpLand : Statement .forestOpLand := noWord (fun cls => by cases cls <;> rfl) rfl

theorem cp (o : OpCp) : Statement (.cp o) := by
  refine slotWord .a (fun x => by cases x <;> rfl) (by simp) (by simp [encFl, gridOf]) rfl fun h => ?_
  show (Instr.cp <$> decCp _) = _
  simp only [decCp, decFl, encFl, gridOf, Grid.gd]
  try dsimp only [HAppend.hAppend]
  simp only [wellFormed] at h
  simp (disch := decide) [-BitVec.append_eq]
  exact needThen h

theorem cpRs (o : OpCpRs) : Statement (.cpRs o) := by
  obtain ⟨gd, d, a, b, c, rk, fl⟩ := o
  cases rk <;>
    refine slotWord .a (fun x => by cases x <;> rfl) (by simp) (by simp [encFl, encRk, gridOf]) rfl fun h => ?_
  all_goals
    show (Instr.cpRs <$> decCpRs _) = _
    simp only [decCpRs, decFl, decRk, encFl, encRk, gridOf, Grid.gd]
    try dsimp only [HAppend.hAppend]
    simp only [wellFormed] at h
    simp (disch := decide) [-BitVec.append_eq, rsKind_high]
    exact needThen h

theorem cpBc (o : OpCpDesc) : Statement (.cpBc o) := by
  refine slotWord .a (fun x => by cases x <;> rfl) (by simp) (by simp [encCpDesc, encFl, gridOf]) rfl fun h => ?_
  show (Instr.cpBc <$> decCpDesc _) = _
  simp only [decCpDesc, decFl, encCpDesc, encFl, gridOf, Grid.gd]
  try dsimp only [HAppend.hAppend]
  simp only [wellFormed] at h
  simp (disch := decide) [-BitVec.append_eq]
  exact needThen h

theorem cpGt (o : OpCpDesc) : Statement (.cpGt o) := by
  refine slotWord .a (fun x => by cases x <;> rfl) (by simp) (by simp [encCpDesc, encFl, gridOf]) rfl fun h => ?_
  show (Instr.cpGt <$> decCpDesc _) = _
  simp only [decCpDesc, decFl, encCpDesc, encFl, gridOf, Grid.gd]
  try dsimp only [HAppend.hAppend]
  simp only [wellFormed] at h
  simp (disch := decide) [-BitVec.append_eq]
  exact needThen h

theorem cpLk (o : OpCpDesc) : Statement (.cpLk o) := by
  refine slotWord .a (fun x => by cases x <;> rfl) (by simp) (by simp [encCpDesc, encFl, gridOf]) rfl fun h => ?_
  show (Instr.cpLk <$> decCpDesc _) = _
  simp only [decCpDesc, decFl, encCpDesc, encFl, gridOf, Grid.gd]
  try dsimp only [HAppend.hAppend]
  simp only [wellFormed] at h
  simp (disch := decide) [-BitVec.append_eq]
  exact needThen h

theorem engineCommandComplete : Statement .engineCommandComplete := noWord (fun cls => by cases cls <;> rfl) rfl

theorem engineCommandFault : Statement .engineCommandFault := noWord (fun cls => by cases cls <;> rfl) rfl

theorem linkRoundSend : Statement .linkRoundSend := noWord (fun cls => by cases cls <;> rfl) rfl

theorem linkTransferLand : Statement .linkTransferLand := noWord (fun cls => by cases cls <;> rfl) rfl

theorem barInit (o : OpBarInit) : Statement (.barInit o) := by
  refine slotWord .a (fun x => by cases x <;> rfl) (by simp) (by simp [gridOf]) rfl fun h => ?_
  show (Instr.barInit <$> decBarInit _) = _
  simp only [decBarInit, gridOf, Grid.gd]
  try dsimp only [HAppend.hAppend]
  simp (disch := decide) [-BitVec.append_eq]

theorem barArr (o : OpBarUpd) : Statement (.barArr o) := by
  refine slotWord .a (fun x => by cases x <;> rfl) (by simp) (by simp [encBarUpd, gridOf]) rfl fun h => ?_
  show (Instr.barArr <$> decBarUpd _) = _
  simp only [decBarUpd, encBarUpd, gridOf, Grid.gd]
  try dsimp only [HAppend.hAppend]
  simp (disch := decide) [-BitVec.append_eq]

theorem barArd (o : OpBarUpd) : Statement (.barArd o) := by
  refine slotWord .a (fun x => by cases x <;> rfl) (by simp) (by simp [encBarUpd, gridOf]) rfl fun h => ?_
  show (Instr.barArd <$> decBarUpd _) = _
  simp only [decBarUpd, encBarUpd, gridOf, Grid.gd]
  try dsimp only [HAppend.hAppend]
  simp (disch := decide) [-BitVec.append_eq]

theorem barExp (o : OpBarUpd) : Statement (.barExp o) := by
  refine slotWord .a (fun x => by cases x <;> rfl) (by simp) (by simp [encBarUpd, gridOf]) rfl fun h => ?_
  show (Instr.barExp <$> decBarUpd _) = _
  simp only [decBarUpd, encBarUpd, gridOf, Grid.gd]
  try dsimp only [HAppend.hAppend]
  simp (disch := decide) [-BitVec.append_eq]

theorem barWt (o : OpBarWt) : Statement (.barWt o) := by
  refine slotWord .a (fun x => by cases x <;> rfl) (by simp) (by simp [gridOf]) rfl fun h => ?_
  show (Instr.barWt <$> decBarWt _) = _
  simp only [decBarWt, gridOf, Grid.gd]
  try dsimp only [HAppend.hAppend]
  simp (disch := decide) [-BitVec.append_eq]

theorem barrierUpdateAtHome : Statement .barrierUpdateAtHome := noWord (fun cls => by cases cls <;> rfl) rfl

theorem barrierWaitSatisfied : Statement .barrierWaitSatisfied := noWord (fun cls => by cases cls <;> rfl) rfl

theorem evtSg (o : OpEvtSg) : Statement (.evtSg o) := by
  refine slotWord .a (fun x => by cases x <;> rfl) (by simp) (by simp [gridOf]) rfl fun h => ?_
  show (Instr.evtSg <$> decEvtSg _) = _
  simp only [decEvtSg, gridOf, Grid.gd]
  try dsimp only [HAppend.hAppend]
  simp (disch := decide) [-BitVec.append_eq]

theorem eventSignalDeliver : Statement .eventSignalDeliver := noWord (fun cls => by cases cls <;> rfl) rfl

theorem msg (o : OpMsg) : Statement (.msg o) := by
  obtain ⟨gd, a, b, c, len, rel, acq, scope⟩ := o
  cases len <;>
    refine slotWord .a (fun x => by cases x <;> rfl) (by simp) (by simp [encMsgLen, gridOf]) rfl fun h => ?_
  all_goals
    show (Instr.msg <$> decMsg _) = _
    simp only [decMsg, encMsgLen, gridOf, Grid.gd]
    try dsimp only [HAppend.hAppend]
    simp (disch := decide) [-BitVec.append_eq]

theorem spawn (o : OpSpawn) : Statement (.spawn o) := by
  refine slotWord .a (fun x => by cases x <;> rfl) (by simp) (by simp [encXGp, gridOf]) rfl fun h => ?_
  show (Instr.spawn <$> decSpawn _) = _
  simp only [decSpawn, encXGp, gridOf, Grid.gd]
  try dsimp only [HAppend.hAppend]
  simp (disch := decide) [-BitVec.append_eq]

theorem wtRet (o : OpWt) : Statement (.wtRet o) := by
  refine slotWord .a (fun x => by cases x <;> rfl) (by simp) (by simp [encWt, gridOf]) rfl fun h => ?_
  show (Instr.wtRet <$> decWt _) = _
  simp only [decWt, encWt, gridOf, Grid.gd]
  try dsimp only [HAppend.hAppend]
  simp (disch := decide) [-BitVec.append_eq]

theorem wtBrw (o : OpWt) : Statement (.wtBrw o) := by
  refine slotWord .a (fun x => by cases x <;> rfl) (by simp) (by simp [encWt, gridOf]) rfl fun h => ?_
  show (Instr.wtBrw <$> decWt _) = _
  simp only [decWt, encWt, gridOf, Grid.gd]
  try dsimp only [HAppend.hAppend]
  simp (disch := decide) [-BitVec.append_eq]

theorem lnch (o : OpLnch) : Statement (.lnch o) := by
  refine slotWord .a (fun x => by cases x <;> rfl) (by simp) (by simp [encLnch, encXGp, gridOf]) rfl fun h => ?_
  show (Instr.lnch <$> decLnch _) = _
  simp only [decLnch, encLnch, encXGp, gridOf, Grid.gd]
  try dsimp only [HAppend.hAppend]
  simp (disch := decide) [-BitVec.append_eq]

theorem crlPut (o : OpCrlPut) : Statement (.crlPut o) := by
  refine slotWord .a (fun x => by cases x <;> rfl) (by simp) (by simp [gridOf]) rfl fun h => ?_
  show (Instr.crlPut <$> decCrlPut _) = _
  simp only [decCrlPut, gridOf, Grid.gd]
  try dsimp only [HAppend.hAppend]
  simp (disch := decide) [-BitVec.append_eq]

theorem crlSeal (g : Guard) : Statement (.crlSeal g) := by
  refine slotWord .a (fun x => by cases x <;> rfl) (by simp) (by simp [gridOf]) rfl fun h => ?_
  show (Instr.crlSeal <$> decN _) = _
  simp only [decN, gridOf, Grid.gd]
  try dsimp only [HAppend.hAppend]
  simp (disch := decide) [-BitVec.append_eq]

theorem crlPutRej (o : OpCrlRej) : Statement (.crlPutRej o) := by
  refine slotWord .a (fun x => by cases x <;> rfl) (by simp) (by simp [encXGp, gridOf]) rfl fun h => ?_
  show (Instr.crlPutRej <$> decCrlRej _) = _
  simp only [decCrlRej, encXGp, gridOf, Grid.gd]
  try dsimp only [HAppend.hAppend]
  simp (disch := decide) [-BitVec.append_eq]

theorem verPubClm (o : OpLnch) : Statement (.verPubClm o) := by
  refine slotWord .a (fun x => by cases x <;> rfl) (by simp) (by simp [encLnch, encXGp, gridOf]) rfl fun h => ?_
  show (Instr.verPubClm <$> decLnch _) = _
  simp only [decLnch, encLnch, encXGp, gridOf, Grid.gd]
  try dsimp only [HAppend.hAppend]
  simp (disch := decide) [-BitVec.append_eq]

theorem verPub (o : OpVerPub) : Statement (.verPub o) := by
  refine slotWord .a (fun x => by cases x <;> rfl) (by simp) (by simp [encVerPub, gridOf]) rfl fun h => ?_
  show (Instr.verPub <$> decVerPub _) = _
  simp only [decVerPub, encVerPub, gridOf, Grid.gd]
  try dsimp only [HAppend.hAppend]
  simp (disch := decide) [-BitVec.append_eq]

theorem verPubFin (o : OpVerPub) : Statement (.verPubFin o) := by
  refine slotWord .a (fun x => by cases x <;> rfl) (by simp) (by simp [encVerPub, gridOf]) rfl fun h => ?_
  show (Instr.verPubFin <$> decVerPub _) = _
  simp only [decVerPub, encVerPub, gridOf, Grid.gd]
  try dsimp only [HAppend.hAppend]
  simp (disch := decide) [-BitVec.append_eq]

theorem verAdp (o : OpScope) : Statement (.verAdp o) := by
  refine slotWord .a (fun x => by cases x <;> rfl) (by simp) (by simp [encFence, gridOf]) rfl fun h => ?_
  show (Instr.verAdp <$> decFence _) = _
  simp only [decFence, encFence, gridOf, Grid.gd]
  try dsimp only [HAppend.hAppend]
  simp (disch := decide) [-BitVec.append_eq]

theorem kvAlloc (o : OpLnch) : Statement (.kvAlloc o) := by
  refine slotWord .a (fun x => by cases x <;> rfl) (by simp) (by simp [encLnch, encXGp, gridOf]) rfl fun h => ?_
  show (Instr.kvAlloc <$> decLnch _) = _
  simp only [decLnch, encLnch, encXGp, gridOf, Grid.gd]
  try dsimp only [HAppend.hAppend]
  simp (disch := decide) [-BitVec.append_eq]

theorem kvAllocMust (o : OpRR) : Statement (.kvAllocMust o) := by
  refine slotWord .a (fun x => by cases x <;> rfl) (by simp) (by simp [encRR, gridOf]) rfl fun h => ?_
  show (Instr.kvAllocMust <$> decRR _) = _
  simp only [decRR, encRR, gridOf, Grid.gd]
  try dsimp only [HAppend.hAppend]
  simp (disch := decide) [-BitVec.append_eq]

theorem kvTrunc (o : OpKvTrunc) : Statement (.kvTrunc o) := by
  refine slotWord .a (fun x => by cases x <;> rfl) (by simp) (by simp [encXGp, gridOf]) rfl fun h => ?_
  show (Instr.kvTrunc <$> decKvTrunc _) = _
  simp only [decKvTrunc, encXGp, gridOf, Grid.gd]
  try dsimp only [HAppend.hAppend]
  simp (disch := decide) [-BitVec.append_eq]

theorem kvFree (o : OpWt) : Statement (.kvFree o) := by
  refine slotWord .a (fun x => by cases x <;> rfl) (by simp) (by simp [encWt, gridOf]) rfl fun h => ?_
  show (Instr.kvFree <$> decWt _) = _
  simp only [decWt, encWt, gridOf, Grid.gd]
  try dsimp only [HAppend.hAppend]
  simp (disch := decide) [-BitVec.append_eq]

theorem kvMap (o : OpKvMap) : Statement (.kvMap o) := by
  refine slotWord .a (fun x => by cases x <;> rfl) (by simp) (by simp [encXGp, gridOf]) rfl fun h => ?_
  show (Instr.kvMap <$> decKvMap _) = _
  simp only [decKvMap, encXGp, gridOf, Grid.gd]
  try dsimp only [HAppend.hAppend]
  simp (disch := decide) [-BitVec.append_eq]

theorem storeAtHome : Statement .storeAtHome := noWord (fun cls => by cases cls <;> rfl) rfl

theorem fill : Statement .fill := noWord (fun cls => by cases cls <;> rfl) rfl

theorem loadMissAtHome : Statement .loadMissAtHome := noWord (fun cls => by cases cls <;> rfl) rfl

theorem setprev : Statement .setprev := noWord (fun cls => by cases cls <;> rfl) rfl

theorem setnext : Statement .setnext := noWord (fun cls => by cases cls <;> rfl) rfl

theorem sethead : Statement .sethead := noWord (fun cls => by cases cls <;> rfl) rfl

theorem upd : Statement .upd := noWord (fun cls => by cases cls <;> rfl) rfl

theorem ack : Statement .ack := noWord (fun cls => by cases cls <;> rfl) rfl

theorem nack : Statement .nack := noWord (fun cls => by cases cls <;> rfl) rfl

theorem recallLine : Statement .recallLine := noWord (fun cls => by cases cls <;> rfl) rfl

theorem l1Evict : Statement .l1Evict := noWord (fun cls => by cases cls <;> rfl) rfl

theorem homeSliceEvict : Statement .homeSliceEvict := noWord (fun cls => by cases cls <;> rfl) rfl

theorem releaseComplete : Statement .releaseComplete := noWord (fun cls => by cases cls <;> rfl) rfl

theorem forcedPublish : Statement .forcedPublish := noWord (fun cls => by cases cls <;> rfl) rfl

theorem replicaRequest : Statement .replicaRequest := noWord (fun cls => by cases cls <;> rfl) rfl

theorem replicaDrainComplete : Statement .replicaDrainComplete := noWord (fun cls => by cases cls <;> rfl) rfl

theorem dirtyGranuleFlushTimer : Statement .dirtyGranuleFlushTimer := noWord (fun cls => by cases cls <;> rfl) rfl

theorem diffAtPrimary : Statement .diffAtPrimary := noWord (fun cls => by cases cls <;> rfl) rfl

theorem forwardedDiffApply : Statement .forwardedDiffApply := noWord (fun cls => by cases cls <;> rfl) rfl

theorem replicaDrop : Statement .replicaDrop := noWord (fun cls => by cases cls <;> rfl) rfl

theorem forwardedAtomic : Statement .forwardedAtomic := noWord (fun cls => by cases cls <;> rfl) rfl

theorem pageWalkComplete : Statement .pageWalkComplete := noWord (fun cls => by cases cls <;> rfl) rfl

theorem streamPreTranslation : Statement .streamPreTranslation := noWord (fun cls => by cases cls <;> rfl) rfl

theorem regionDescriptorFetch : Statement .regionDescriptorFetch := noWord (fun cls => by cases cls <;> rfl) rfl

theorem parkedStoreRetry : Statement .parkedStoreRetry := noWord (fun cls => by cases cls <;> rfl) rfl

theorem remoteQueuePush : Statement .remoteQueuePush := noWord (fun cls => by cases cls <;> rfl) rfl

theorem pushBufferDrain : Statement .pushBufferDrain := noWord (fun cls => by cases cls <;> rfl) rfl

theorem messageSlotWrite : Statement .messageSlotWrite := noWord (fun cls => by cases cls <;> rfl) rfl

theorem heldSlotWriteRelease : Statement .heldSlotWriteRelease := noWord (fun cls => by cases cls <;> rfl) rfl

theorem handlerStart : Statement .handlerStart := noWord (fun cls => by cases cls <;> rfl) rfl

theorem deviceMessageDeliver : Statement .deviceMessageDeliver := noWord (fun cls => by cases cls <;> rfl) rfl

theorem unsupervisedDomainTimer : Statement .unsupervisedDomainTimer := noWord (fun cls => by cases cls <;> rfl) rfl

theorem dependenceWaitEnd : Statement .dependenceWaitEnd := noWord (fun cls => by cases cls <;> rfl) rfl

theorem placementDecision : Statement .placementDecision := noWord (fun cls => by cases cls <;> rfl) rfl

theorem taskStart : Statement .taskStart := noWord (fun cls => by cases cls <;> rfl) rfl

theorem splicePointCheck : Statement .splicePointCheck := noWord (fun cls => by cases cls <;> rfl) rfl

theorem spliceSharedRelease : Statement .spliceSharedRelease := noWord (fun cls => by cases cls <;> rfl) rfl

theorem taskResume : Statement .taskResume := noWord (fun cls => by cases cls <;> rfl) rfl

theorem alignedBoundaryReached : Statement .alignedBoundaryReached := noWord (fun cls => by cases cls <;> rfl) rfl

theorem yield : Statement .yield := noWord (fun cls => by cases cls <;> rfl) rfl

theorem abintWatchdog : Statement .abintWatchdog := noWord (fun cls => by cases cls <;> rfl) rfl

theorem budgetOverrun : Statement .budgetOverrun := noWord (fun cls => by cases cls <;> rfl) rfl

theorem borderSaveComplete : Statement .borderSaveComplete := noWord (fun cls => by cases cls <;> rfl) rfl

theorem borderBlockWrite : Statement .borderBlockWrite := noWord (fun cls => by cases cls <;> rfl) rfl

theorem verpolWrite : Statement .verpolWrite := noWord (fun cls => by cases cls <;> rfl) rfl

theorem creelRingRegWrite : Statement .creelRingRegWrite := noWord (fun cls => by cases cls <;> rfl) rfl

theorem hmsgWrite : Statement .hmsgWrite := noWord (fun cls => by cases cls <;> rfl) rfl

theorem fltrecWrite : Statement .fltrecWrite := noWord (fun cls => by cases cls <;> rfl) rfl

theorem drepWrite : Statement .drepWrite := noWord (fun cls => by cases cls <;> rfl) rfl

theorem hrctlWrite : Statement .hrctlWrite := noWord (fun cls => by cases cls <;> rfl) rfl

theorem kvpoolWrite : Statement .kvpoolWrite := noWord (fun cls => by cases cls <;> rfl) rfl

theorem regionEntryStore : Statement .regionEntryStore := noWord (fun cls => by cases cls <;> rfl) rfl

theorem replicaGroupEntryStore : Statement .replicaGroupEntryStore := noWord (fun cls => by cases cls <;> rfl) rfl

theorem hbandWrite : Statement .hbandWrite := noWord (fun cls => by cases cls <;> rfl) rfl

theorem mcRequestSubmit : Statement .mcRequestSubmit := noWord (fun cls => by cases cls <;> rfl) rfl

theorem hostPostedWrite : Statement .hostPostedWrite := noWord (fun cls => by cases cls <;> rfl) rfl

theorem hostRead : Statement .hostRead := noWord (fun cls => by cases cls <;> rfl) rfl

theorem cxlSnoop : Statement .cxlSnoop := noWord (fun cls => by cases cls <;> rfl) rfl

theorem cxlBackInvalidationDone : Statement .cxlBackInvalidationDone := noWord (fun cls => by cases cls <;> rfl) rfl

theorem offloadFlushReadDone : Statement .offloadFlushReadDone := noWord (fun cls => by cases cls <;> rfl) rfl

theorem flitReceive : Statement .flitReceive := noWord (fun cls => by cases cls <;> rfl) rfl

theorem weightBroadcastReceive : Statement .weightBroadcastReceive := noWord (fun cls => by cases cls <;> rfl) rfl

theorem heldBroadcastResume : Statement .heldBroadcastResume := noWord (fun cls => by cases cls <;> rfl) rfl

theorem portLinkFail : Statement .portLinkFail := noWord (fun cls => by cases cls <;> rfl) rfl

theorem portTrained : Statement .portTrained := noWord (fun cls => by cases cls <;> rfl) rfl

theorem retrainTimeout : Statement .retrainTimeout := noWord (fun cls => by cases cls <;> rfl) rfl

theorem fenceLinkWaitTimeout : Statement .fenceLinkWaitTimeout := noWord (fun cls => by cases cls <;> rfl) rfl

theorem portBlockWrite : Statement .portBlockWrite := noWord (fun cls => by cases cls <;> rfl) rfl

theorem moduleReset : Statement .moduleReset := noWord (fun cls => by cases cls <;> rfl) rfl

theorem domainReset : Statement .domainReset := noWord (fun cls => by cases cls <;> rfl) rfl

theorem spdmGetVersion : Statement .spdmGetVersion := noWord (fun cls => by cases cls <;> rfl) rfl

theorem spdmGetCapabilities : Statement .spdmGetCapabilities := noWord (fun cls => by cases cls <;> rfl) rfl

theorem spdmNegotiateAlgorithms : Statement .spdmNegotiateAlgorithms := noWord (fun cls => by cases cls <;> rfl) rfl

theorem spdmGetDigests : Statement .spdmGetDigests := noWord (fun cls => by cases cls <;> rfl) rfl

theorem spdmGetCertificate : Statement .spdmGetCertificate := noWord (fun cls => by cases cls <;> rfl) rfl

theorem spdmChallenge : Statement .spdmChallenge := noWord (fun cls => by cases cls <;> rfl) rfl

theorem spdmGetMeasurements : Statement .spdmGetMeasurements := noWord (fun cls => by cases cls <;> rfl) rfl

theorem powerControlTick : Statement .powerControlTick := noWord (fun cls => by cases cls <;> rfl) rfl

theorem marginReplan : Statement .marginReplan := noWord (fun cls => by cases cls <;> rfl) rfl

theorem eccErrorDetected : Statement .eccErrorDetected := noWord (fun cls => by cases cls <;> rfl) rfl

theorem selfTestComplete : Statement .selfTestComplete := noWord (fun cls => by cases cls <;> rfl) rfl

theorem cxlMemAccess : Statement .cxlMemAccess := noWord (fun cls => by cases cls <;> rfl) rfl

theorem hostFunctionBinding : Statement .hostFunctionBinding := noWord (fun cls => by cases cls <;> rfl) rfl

theorem sidebandLogClear : Statement .sidebandLogClear := noWord (fun cls => by cases cls <;> rfl) rfl

theorem sidebandPowerSetting : Statement .sidebandPowerSetting := noWord (fun cls => by cases cls <;> rfl) rfl

theorem tilePassingToDomain : Statement .tilePassingToDomain := noWord (fun cls => by cases cls <;> rfl) rfl

end Sys2Proof.Laws.WordRoundTrip
end

