-- ==== Sys2Proof/Tests/Slice0.lean ====
section
/-!
SUPPORT. The author's tests: what WellFormed and the decoder refuse, words composed from the encoding tables of the manual, results
of single steps worked out by hand, and for every statement states and operands that meet the hypotheses of its clauses together.
-/

namespace Sys2Proof.Tests

open Sys2Proof Sys2Proof.Machine

set_option Elab.async false

/-! Reading results. -/

/-- The instruction that a decoder read. -/
def got {ε : Type} (x : Except ε Instr) : Option Instr :=
  match x with
  | .ok i => some i
  | .error _ => none

/-- An operation succeeds and its result has the property. -/
def okAnd {α : Type} (x : Op α) (p : α → Bool) : Bool :=
  match x with
  | .ok v => p v
  | .error _ => false

/-- An operation ends in a trap with the property. -/
def trapAnd {α : Type} (x : Op α) (p : TrapInfo → Bool) : Bool :=
  match x with
  | .error (.trap i) => p i
  | _ => false

/-- A step answers a next state with the property. -/
def nextAnd (x : Host.Outcome State Fault Refusal) (p : State → Bool) : Bool :=
  match x with
  | .next t => p t
  | _ => false

/-! A small machine. -/

/-- The descriptor of a task with 16 KiB, 16 rows, two handler contexts, every forest lane, and queues of depth 8. -/
def desc0 : List Word :=
  [0x100000, 7, 0, 0, 0, 0, 0x3FC8020010, 0x8888888888888888, 0x8888888888888888, 0, 0, 0, 50] ++ List.replicate 19 0

/-- A live task at 0x100000 with some registers and queue entries. -/
def ctx0 : Ctx :=
  { Ctx.init with
    id := { Ident.init with taskid := 0x10000000000, desc := desc0 }
    life := .live, started := true, pc := 0x100000
    r := { Regs.init with s := [(1, 5), (2, 3), (4, 0x100000), (5, 0xFFFFFFFFFF000100), (7, 0x0200000000000000)], g := 4, twgt := 8 }
    q := [(1, [⟨1, some 0x3F8000003F800000⟩, ⟨2, some 7⟩]), (2, [⟨3, some 0x4000000040000000⟩]), (3, [⟨4, some 9⟩]), (32, [⟨5, some 0x3F800000⟩])] }

/-- The slot's bundle. -/
def bun0 (r : CtxRef) : Bundle :=
  { r := r, pc := 0x100000, hdr := 0, len := 16, rep := 0, todo := [], pres := [], words := [], own := [], target := none, ends := false,
    outs := [], sigs := [], cmds := [], late := [], lateA := [] }

/-- One page of HBM at 0x100000 (read, write, execute) and one that may not be written. -/
def tlb0 : List TlbEnt := [⟨0, 16, 0, 0x100071, 0⟩, ⟨0, 17, 0, 0x110051, 0⟩]

/-- Tile 0 of domain 0 with a task. -/
def tile0 (x : Ctx) : Tile := { Tile.init with dom := some 0, queue := [x], tlb := tlb0 }

/-- The task issues. -/
def st (x : Ctx) : State :=
  let b : State := { State.reset with tiles := [(0, tile0 x)], nid := 100, bundle := some (bun0 (.task 0 0)) }
  { b with saved := some b.toCore }

/-- The same between bundles. -/
def idle (x : Ctx) : State := { State.reset with tiles := [(0, tile0 x)], nid := 100 }

/-- An event acts. -/
def ev (s : State) (e : Event) : State := { s with bundle := none, saved := none, event := some e }

/-- A supervisor handler of slot 240 in context 0. -/
def hc0 : HcInfo :=
  { slot := 240, record := [1, 2, 3, 4, 5, 6, 7, 8], fault := true, parked := false, engine := false, serves := none, savedTask := false,
    sup := false, kill := false, selH := 0, selF := 1, start := 0x100000, asked := none }

def hctx0 : Ctx := { ctx0 with id := .init, hc := some hc0, q := [] }

/-- The handler issues beside a task. -/
def hst (x h : Ctx) : State :=
  let tl : Tile := { tile0 x with hcs := [(0, some h)] }
  let b : State := { State.reset with tiles := [(0, tl)], nid := 100, ref := .hc 0 0, bundle := some (bun0 (.hc 0 0)) }
  { b with saved := some b.toCore }

def g0 : Guard := ⟨false, 0⟩
def g1 : Guard := ⟨false, 1⟩

/-! What WellFormed refuses: one ill-formed term for each check. -/

theorem smoke_fields :
    ([Instr.bfx ⟨g0, 3, 1, 60, 5⟩, .bfx ⟨g0, 3, 1, 0, 0⟩, .bfxS ⟨g0, 3, 1, 63, 2⟩, .bfi ⟨g0, 3, 1, 2, 0, 65⟩, .ctlRd ⟨g0, 3, 0x00B⟩,
      .ctlWr ⟨g0, 0x0FF, 1⟩, .evtWt ⟨g0, 3, 0, .ctx⟩, .ldG ⟨g0, some 1, 0, 1, ⟨false, 3⟩, 0⟩, .ldS ⟨g0, 3, 1, 2, 0, ⟨true, 3⟩⟩,
      .ldAcq ⟨g0, 3, 1, 2, 0, ⟨true, 3⟩, .mod⟩, .stX ⟨g0, 1, ⟨false, 1⟩, ⟨false, 2⟩, 3, 0⟩,
      .vred ⟨g0, .scalar 3, ⟨false, 1⟩, 1, 0, .rz⟩, .vupd ⟨g0, some 1, 2, ⟨false, 3⟩, 0, .mom, 0, 0, .rne⟩,
      .vupd ⟨g0, some 1, 2, ⟨false, 3⟩, 60, .mom, 0, 0, .rne⟩, .vupd ⟨g0, some 2, 2, ⟨false, 3⟩, 8, .mom, 0, 0, .rne⟩,
      .vupd ⟨g0, some 1, 2, ⟨false, 2⟩, 8, .mom, 0, 0, .rne⟩, .vcvt ⟨g0, some 1, ⟨false, 2⟩, .f32, .f32, 0, .rne⟩,
      .bct ⟨g0, some 1, ⟨false, 2⟩, true, 8⟩, .accRd ⟨g0, some 1, 1, 2, 3, 0, false, false, false, .f32, .rne⟩,
      .accRd ⟨g0, some 1, 1, 2, 0, 1, false, false, false, .f32, .rne⟩, .accRd ⟨g0, some 1, 1, 2, 0, 0, true, false, false, .scp, .rne⟩,
      .accRd ⟨g0, some 1, 1, 2, 0, 0, false, false, true, .bf16, .rne⟩, .rngSet ⟨g0, 1, 2, false, false⟩,
      .cp ⟨g0, 1, 2, 3, 0, ⟨false, 0, false, false, false, .mod⟩⟩] :
      List Instr).all (fun i => !wellFormed i) = true := by decide +kernel

theorem smoke_fields_of_commands :
    ([Instr.cpRs ⟨g0, 1, 2, 3, 0, .f32, ⟨false, 0, false, false, false, .mod⟩⟩, .cpBc ⟨g0, 1, 0, ⟨false, 0, false, false, false, .tile⟩⟩,
      .cpGt ⟨g0, 1, 0, ⟨false, 0, false, false, false, .sys⟩⟩, .cpLk ⟨g0, 1, 0, ⟨false, 0, false, false, false, .pod⟩⟩,
      .uopMac ⟨false, 0, 1, false, 0, false, .e2m1, false, 7, 0, 0, false, true, false, 0⟩, .uopLat ⟨false, 0, 1, false, 0, false, 7, true⟩,
      .uopSet ⟨false, 7, 0, false, 1⟩,
      .uopSet ⟨false, 1, 7, true, 1⟩, .uopLoop ⟨false, false, true, 7, 0⟩, .uopBrz ⟨false, 7, false, 3⟩, .uopClr ⟨false, 7, 0, 3⟩,
      .uopAcp ⟨false, 1, 0, 7, 0, 3⟩, .uopMac ⟨false, 0, 1, false, 0, false, .e2m1, true, 1, 0, 0, false, true, false, 7⟩] : List Instr).all (fun i => !wellFormed i) = true := by decide +kernel

/-! Decoding: words composed from the fields of 08 R198, R199 and the tables of 08 R226, 10 R260, 11 R278, R293, 12 R309, R315,
13 R333, 14 R344, R353. -/

/-- A slot word in format G. -/
def wG (x : BitVec 20) (rm : BitVec 3) (mk : BitVec 4) (c b a d : BitVec 6) (opc : BitVec 8) : Word :=
  x ++ rm ++ mk ++ c ++ b ++ a ++ d ++ opc ++ 0#1 ++ 2#4

/-- A slot word in format I. -/
def wI (imm : BitVec 32) (a d : BitVec 6) (opc : BitVec 8) : Word := 0#7 ++ imm ++ a ++ d ++ opc ++ 1#1 ++ 3#4

/-- A slot word in format O. -/
def wO (ofs : BitVec 32) (opc : BitVec 8) : Word := 0#19 ++ ofs ++ opc ++ 0#1 ++ 0#4

def g2 : Guard := ⟨false, 2⟩
def n3 : Guard := ⟨true, 3⟩

theorem decode_scalar :
    got (decodeSlot .s (wG 0 0 0 0 2 1 3 0x01)) = some (.add ⟨g2, 3, 1, 2⟩) ∧
    got (decodeSlot .s (wG 0 0 0 0 2 1 3 0x06)) = some (.divu ⟨g2, 3, 1, 2⟩) ∧
    got (decodeSlot .s (wG 0 0 0 0 2 1 3 0x0D)) = some (.sra ⟨g2, 3, 1, 2⟩) ∧
    got (decodeSlot .s (wG 0 0 0 0 2 1 3 0x11)) = some (.maxu ⟨g2, 3, 1, 2⟩) ∧
    got (decodeSlot .s (wG 0 0 0 0 0 1 3 0x13)) = some (.pcnt ⟨g2, 3, 1⟩) ∧
    got (decodeSlot .s (wG (8 * 64 + 4) 0 0 0 0 1 3 0x14)) = some (.bfx ⟨g2, 3, 1, 4, 8⟩) ∧
    got (decodeSlot .s (wG (0x2000 + 8 * 64 + 4) 0 0 0 0 1 3 0x14)) = some (.bfxS ⟨g2, 3, 1, 4, 8⟩) ∧
    got (decodeSlot .s (wI 0xFFFFFFFF 1 3 0x21)) = some (.addi ⟨n3, 3, 1, 0xFFFFFFFF⟩) ∧
    got (decodeSlot .s (wI 5 1 3 0x2D)) = some (.srai ⟨n3, 3, 1, 5⟩) ∧
    got (decodeSlot .s (wI 64 1 3 0x2D)) = none ∧
    got (decodeSlot .s (wG 0 0 0 0 2 1 6 0x44)) = some (.cmpLtu ⟨g2, 3, 1, 2⟩) ∧
    got (decodeSlot .s (wG 0 0 0 0 2 1 5 0x44)) = none ∧
    got (decodeSlot .s (wG 0 0 0 9 2 1 3 0x50)) = some (.sel ⟨g2, 3, 1, 2, 9⟩) ∧
    got (decodeSlot .s (wI 0x80000000 0 3 0x60)) = some (.li ⟨n3, 3, 0x80000000⟩) ∧
    got (decodeSlot .s (wG 0x8 0 0 0 0 0 3 0x68)) = some (.ctlRd ⟨g2, 3, 8⟩) ∧
    got (decodeSlot .s (wG 0x10 0 0 0 0 1 0 0x69)) = some (.ctlWr ⟨g2, 0x10, 1⟩) ∧
    got (decodeSlot .s (wG 0 1 0 0 2 1 3 0x01)) = none ∧ got (decodeSlot .s (wG 0 0 0 0 2 1 3 0x07)) = none := by decide +kernel

theorem decode_control :
    got (decodeSlot .c (wO 0xFFFFFFFE 0x80)) = some (.br ⟨g0, 0xFFFFFFFE⟩) ∧
    got (decodeSlot .c (wO 3 0x82)) = some (.call ⟨g0, 3⟩) ∧
    got (decodeSlot .c (wG 0 0 0 0 0 1 0 0x81)) = some (.jmp ⟨g2, 1⟩) ∧
    got (decodeSlot .s (wO 3 0x80)) = none := by decide +kernel

theorem decode_memory :
    got (decodeSlot .l (wG 2 0 0 0 0 3 7 0x80)) = some (.ldQ ⟨g2, some 7, 3, some 1⟩) ∧
    got (decodeSlot .l (wG 3 0 0 0 0 3 7 0x80)) = none ∧
    got (decodeSlot .l (wG 0 0 0 0 0 3 0x20 0x80)) = some (.ldQ ⟨g2, none, 3, none⟩) ∧
    got (decodeSlot .l (wG 0 0 0 0 0 3 1 0x81)) = some (.ldSc ⟨g2, 1, 3⟩) ∧
    got (decodeSlot .l (wG 0x60 0 5 0 2 3 7 0x82)) = some (.ldG ⟨g2, some 7, 3, 2, ⟨true, 2⟩, 5⟩) ∧
    got (decodeSlot .l (wG (0x7FF * 512 + 0x50) 0 0 0 2 1 3 0x83)) = some (.ldS ⟨g2, 3, 1, 2, 0x7FF, ⟨true, 1⟩⟩) ∧
    got (decodeSlot .l (wG (8 * 512 + 0x30 + 5) 0 0 0 2 1 3 0x84)) = some (.ldAcq ⟨g2, 3, 1, 2, 8, ⟨false, 3⟩, .mod⟩) ∧
    got (decodeSlot .l (wG 0 0 0 0 0 1 3 0x88)) = some (.sdLd ⟨g2, 3, 1⟩) ∧
    got (decodeSlot .st (wG 0 0 4 0 0x21 3 0 0x80)) = some (.stQ ⟨g2, 3, ⟨true, 1⟩, 4⟩) ∧
    got (decodeSlot .st (wG 0 4 0 6 5 3 0 0x81)) = some (.stCt ⟨g2, 3, 5, ⟨false, 6⟩, .sr⟩) ∧
    got (decodeSlot .st (wG 0x20 0 4 6 5 1 0 0x82)) = some (.stX ⟨g2, 1, ⟨false, 5⟩, ⟨false, 6⟩, 2, 4⟩) ∧
    got (decodeSlot .st (wG (0x400 * 512 + 0x30) 0 0 3 2 1 0 0x83)) = some (.stS ⟨g2, 1, 2, 3, 0x400, 3⟩) ∧
    got (decodeSlot .st (wG (0x30 + 9) 0 0 3 2 1 0 0x84)) = some (.stRel ⟨g2, 1, 2, 3, 0, 3, .sys⟩) ∧
    got (decodeSlot .st (wG (2 * 128 + 0x30 + 4) 0 0 4 2 1 3 0x88)) = some (.atmAdd ⟨g2, 3, 1, 2, 4, 0, true, .rel .side⟩) ∧
    got (decodeSlot .st (wG 0x70 0 0 4 2 1 3 0x89)) = some (.atmMin ⟨g2, 3, 1, 2, 4, 0, true, true, .plain⟩) ∧
    got (decodeSlot .st (wG 0x20 0 0 4 2 1 3 0x8E)) = some (.atmCas ⟨g2, 3, 1, 2, 4, 0, false, .plain⟩) ∧
    got (decodeSlot .st (wG 0x20 0 4 0 5 3 0 0x90)) = some (.redAdd ⟨g2, 3, ⟨false, 5⟩, .i64, 4⟩) ∧
    got (decodeSlot .st (wG 3 0 0 0 0 0 0 0x99)) = some (.fenceAcq ⟨g2, .die⟩) := by decide +kernel

theorem decode_vector :
    got (decodeSlot .v (wG 0 3 5 0 2 1 4 0x03)) = some (.vmulF ⟨g2, some 4, ⟨false, 1⟩, .queue ⟨false, 2⟩, 5, .rdn⟩) ∧
    got (decodeSlot .v (wG 0x80000 0 5 0x23 2 1 4 0x04)) = some (.vfmaF ⟨g2, some 4, ⟨false, 1⟩, .scalar 2, ⟨true, 3⟩, 5, .rne⟩) ∧
    got (decodeSlot .v (wG 0 0 0 0 2 1 4 0x1E)) = some (.vaddsI ⟨g2, some 4, ⟨false, 1⟩, .queue ⟨false, 2⟩, 0⟩) ∧
    got (decodeSlot .v (wG 0 4 0 0 0 1 4 0x22)) = some (.vexp2 ⟨g2, some 4, ⟨false, 1⟩, 0, .sr⟩) ∧
    got (decodeSlot .v (wG 0 0 0 0 2 1 6 0x46)) = some (.vcmpUn ⟨g2, 3, ⟨false, 1⟩, .queue ⟨false, 2⟩, 0⟩) ∧
    got (decodeSlot .v (wG 0x53 0 0 0 0 1 4 0x68)) = some (.vcvt ⟨g2, some 4, ⟨false, 1⟩, .scp, .bf16, 0, .rne⟩) ∧
    got (decodeSlot .v (wG 0x08 4 0 0 0 1 9 0x80)) = some (.vred ⟨g2, .scalar 9, ⟨false, 1⟩, 0, 0, .sr⟩) ∧
    got (decodeSlot .v (wG 0x10 0 0 7 0 1 3 0x80)) = some (.vred ⟨g2, .vs 3 7, ⟨false, 1⟩, 0, 0, .rne⟩) ∧
    got (decodeSlot .v (wG 0x0A 0 0 8 3 1 4 0x82)) = some (.vupd ⟨g2, some 4, 1, ⟨false, 3⟩, 8, .adam, 2, 0, .rne⟩) ∧
    got (decodeSlot .v (wG 0 5 5 0 2 1 4 0x03)) = none := by decide +kernel

theorem decode_permute :
    got (decodeSlot .p (wG 0x58 0 0 9 2 1 4 0x80)) = some (.pkMx ⟨g2, some 4, ⟨false, 1⟩, ⟨false, 2⟩, some 9, true, .b24, .int8, .rne⟩) ∧
    got (decodeSlot .p (wG 0xA1 0 0 0 0 1 4 0x81)) = some (.upkMx ⟨g2, some 4, ⟨false, 1⟩, none, .b32, .e2m1⟩) ∧
    got (decodeSlot .p (wG 0x47 0 0 0 0 1 4 0x84)) = some (.bct ⟨g2, some 4, ⟨false, 1⟩, true, 7⟩) ∧
    got (decodeSlot .p (wG 1 0 0 0 0 1 1 0x85)) = some (.scGet ⟨g2, .sq 1, ⟨false, 1⟩⟩) ∧
    got (decodeSlot .p (wG 2 0 0 0 2 1 4 0x87)) = some (.unzip ⟨g2, some 4, ⟨false, 1⟩, ⟨false, 2⟩, .w8⟩) ∧
    got (decodeSlot .p (wG 3 0 0 0 2 1 4 0x87)) = none := by decide +kernel

theorem decode_matrix :
    got (decodeSlot .m (wG 0 0 0 0 0 1 5 0x60)) = some (.mpWr ⟨g2, 5, 1⟩) ∧
    got (decodeSlot .m (wG 1 0 0 0 0 0 3 0x61)) = some (.mpRd ⟨g2, 3, none⟩) ∧
    got (decodeSlot .m (wG 0xFE 0 0 0 0 0 0 0x80)) = some (.mxCall ⟨g2, 0xFE⟩) ∧
    got (decodeSlot .m (wG 0x24 0 0 0 0 1 2 0x82)) = some (.mxPrm ⟨g2, 2, 1, .b32, .e4m3⟩) ∧
    got (decodeSlot .m (wG 0x1C0 0 0 3 2 1 4 0x84)) = some (.accRd ⟨g2, some 4, 1, 2, 3, 3, true, false, false, .f32, .rne⟩) ∧
    got (decodeSlot .m (wG 0 0 0 3 2 1 0 0x86)) = some (.accCp ⟨g2, 1, 2, 3⟩) := by decide +kernel

theorem decode_micro_ops :
    got (decodeUop 0) = some (.uopEnd false) ∧
    got (decodeUop (1#1 ++ 1#4 ++ 2#2 ++ 9#5 ++ 1#1 ++ 1#1 ++ 0#1 ++ 4#4 ++ 4#3 ++ 3#3 ++ 7#8 ++ 1#2 ++ 1#1 ++ 1#1 ++ 0#1 ++ 5#3 ++ 0#23 : Word))
      = some (.uopMac ⟨true, 2, 9, true, 1, false, .e4m3, true, 3, 7, 1, true, true, false, 5⟩) ∧
    got (decodeUop (0#1 ++ 3#4 ++ 6#3 ++ 5#3 ++ 1#1 ++ 0#20 ++ 0xFFFFFFFF#32 : Word)) = some (.uopSet ⟨false, 6, 5, true, 0xFFFFFFFF⟩) ∧
    got (decodeUop (0#1 ++ 4#4 ++ 1#1 ++ 0#1 ++ 0#3 ++ 0#38 ++ 12#16 : Word)) = some (.uopLoop ⟨false, true, false, 0, 12⟩) ∧
    got (decodeUop (0#1 ++ 10#4 ++ 0#59 : Word)) = none := by decide +kernel

theorem decode_forest_and_sampling :
    got (decodeSlot .f (wG 2 0 0 0 0 0 0 0x60)) = some (.foMd ⟨g2, .scp⟩) ∧
    got (decodeSlot .f (wG (0x81#8 ++ 0#4 ++ 0#2 ++ 5#4 ++ 1#2) 0 0 0 2 1 0 0x81)) = some (.foLd ⟨g2, ⟨false, 1⟩, 2, .lanes 0x81 5⟩) ∧
    got (decodeSlot .f (wG (0xFF#8 ++ 0#1 ++ 1#1 ++ 6#4 ++ 33#6) 0 0 0 2 1 4 0x83)) = some (.foUp ⟨g2, some 4, 1, 2, 0xFF, true, 6, 33⟩) ∧
    got (decodeSlot .f (wG 3 0 0 0 0 0 0 0x60)) = none ∧
    got (decodeSlot .k (wG 3 0 0 0 2 1 0 0x60)) = some (.rngSet ⟨g2, 1, 2, true, true⟩) ∧
    got (decodeSlot .k (wG 7 0 4 0 2 1 0 0x81)) = some (.cdMrg ⟨g2, ⟨false, 1⟩, 2, 7, 4⟩) ∧
    got (decodeSlot .k (wG (4#4 ++ 0#11 ++ 1#1 ++ 0#1 ++ 5#3) 0 0 0 0 0 3 0x83)) = some (.cdArg ⟨g2, 3, 2, true, false, 5⟩) ∧
    got (decodeSlot .k (wG (3#4 ++ 0#11 ++ 1#1 ++ 0#1 ++ 5#3) 0 0 0 0 0 3 0x83)) = none := by decide +kernel

theorem decode_engine :
    got (decodeSlot .a 0x0003500698595000) = some (.cp ⟨g0, 10, 11, 12, 13, ⟨false, 0, false, true, true, .mod⟩⟩) ∧
    got (decodeSlot .a (wG (0#4 ++ 4#4 ++ 1#1 ++ 3#4 ++ 1#1 ++ 0#1 ++ 0#1 ++ 0#4) 0 0 4 3 2 1 0x81))
      = some (.cpRs ⟨g2, 1, 2, 3, 4, .i32, ⟨true, 3, true, false, false, .ctx⟩⟩) ∧
    got (decodeSlot .a (wG 4 0 0 3 2 1 0 0x88)) = some (.barInit ⟨g2, 1, 2, 3, .side⟩) ∧
    got (decodeSlot .a (wG (0#4 ++ 2#4 ++ 0#6 ++ 0#1 ++ 0#1 ++ 5#4) 0 0 3 2 1 0 0x91)) = some (.msg ⟨g2, 1, 2, 3, .b256, false, false, .mod⟩) ∧
    got (decodeSlot .a (wG (0#4 ++ 10#4 ++ 0#6 ++ 1#1 ++ 0#1 ++ 5#4) 0 0 3 2 1 0 0x91)) = none ∧
    got (decodeSlot .a (wG (0#4 ++ 2#4 ++ 0#6 ++ 1#1 ++ 0#1 ++ 5#4) 0 0 3 2 1 0 0x91)) = some (.msg ⟨g2, 1, 2, 3, .b256, true, false, .mod⟩) ∧
    got (decodeSlot .a (wG (6#4 ++ 0#16) 0 0 0 0 1 4 0x9B)) = some (.lnch ⟨g2, 4, 1, 3⟩) ∧
    got (decodeSlot .a (wG (2#4 ++ 3#4 ++ 0#12) 0 0 3 2 1 0 0xA0)) = some (.crlPut ⟨g2, 1, 2, 3, 1, true, true⟩) ∧
    got (decodeSlot .a (wG (2#4 ++ 0#16) 0 0 0 2 1 4 0xB4)) = some (.kvMap ⟨g2, 4, 1, 2, 1⟩) := by decide +kernel

/-- The table's own numbering of bits, and the order of the slot words in a bundle (08 R196, R197). -/
theorem decode_table_words :
    decodeTableWord 128 (0x04086020 * 2 ^ 64 + 0x00EEEEEE00000001) = some (.add ⟨g0, 3, 1, 2⟩) ∧
    decodeTableWord 128 (0x10E0 * 2 ^ 64 + 0x00EEEEEE00000002) = some (.halt g0) ∧ decodeTableWord 64 0 = some (.uopEnd false) := by
  decide +kernel

/-! Results of single steps, worked out by hand from the rules. -/

/-- 09 R228: 5 + 3 = 8, and 3 - 5 wraps. -/
theorem step_add_sub :
    nextAnd (exec (.add ⟨g0, 6, 1, 2⟩) (st ctx0)) (fun t => t.me.r.getS 6 == 8) = true ∧
    nextAnd (exec (.sub ⟨g0, 1, 2, 1⟩) (st ctx0)) (fun t => t.me.r.getS 1 == 0xFFFFFFFFFFFFFFFE) = true ∧
    nextAnd (exec (.add ⟨g0, 0, 1, 2⟩) (st ctx0)) (fun t => t == st ctx0) = true := by decide +kernel

/-- 09 R228: a division by zero answers all ones and sets DZ, bit 1 (03 R76). -/
theorem step_divu :
    nextAnd (exec (.divu ⟨g0, 6, 1, 0⟩) (st ctx0)) (fun t => t.me.r.getS 6 == 0xFFFFFFFFFFFFFFFF && t.me.r.fpsf == fDZ) = true ∧
    nextAnd (exec (.divu ⟨g0, 6, 1, 2⟩) (st ctx0)) (fun t => t.me.r.getS 6 == 1 && t.me.r.fpsf == 0) = true := by decide +kernel

/-- 09 R230: bits [1:0] of 5 are 1, and 3 signed in two bits is -1. -/
theorem step_fields :
    nextAnd (exec (.bfx ⟨g0, 6, 1, 0, 2⟩) (st ctx0)) (fun t => t.me.r.getS 6 == 1) = true ∧
    nextAnd (exec (.bfxS ⟨g0, 6, 2, 0, 2⟩) (st ctx0)) (fun t => t.me.r.getS 6 == 0xFFFFFFFFFFFFFFFF) = true := by decide +kernel

/-- 09 R231: 3 < 5 sets g4 and clears g5. -/
theorem step_compare :
    nextAnd (exec (.cmpLt ⟨g0, 2, 2, 1⟩) (st ctx0)) (fun t => t.me.r.getG 4 && !t.me.r.getG 5 && t.me.r.getG 2) = true := by decide +kernel

/-- 10 R265: eight bytes of the own scratchpad come at once, little-endian. -/
theorem step_load_scratchpad :
    nextAnd (exec (.ldS ⟨g0, 6, 5, 0, 0, ⟨false, 3⟩⟩)
      (let s := st ctx0
       { s with tiles := [(0, { tile0 ctx0 with win := [(0x100, 0x12), (0x101, 0x34)] })] }))
      (fun t => t.me.r.getS 6 == 0x3412 && t.me.pend == []) = true := by decide +kernel

/-- 10 R268, 08 R210: a store is held with its address and bytes. -/
theorem step_store_held :
    nextAnd (exec (.stS ⟨g0, 4, 0, 1, 8, 0⟩) (st ctx0)) (fun t =>
      ((t.bundle.map fun b => b.outs.map fun o => (o.2.pa, o.2.bytes)) == some [(0x100008, [some 5])]) && t.mem == []) = true := by decide +kernel

/-- 11 R279: 1.0 + 2.0 = 3.0 in lane 0; both queues lose their heads. -/
theorem step_vadd :
    nextAnd (exec (.vaddF ⟨g0, some 4, ⟨false, 1⟩, .queue ⟨false, 2⟩, 0, .rne⟩) (st ctx0)) (fun t =>
      ((t.entries 4).map fun e => (e.data.map fun x => (lane x 0, lane x 1))) == [some (0x40400000, 0x40400000)] &&
      (t.entries 1).length == 1 && t.entries 2 == []) = true := by decide +kernel

/-- 17 R403, R406: the trap instruction suspends the task and leaves a record of kind 16 with its code. -/
theorem step_trap :
    nextAnd (exec (.trap ⟨g0, 0x1234⟩) (st ctx0)) (fun t =>
      t.me.status == .suspended && t.me.pc == 0x100000 && t.bundle == none &&
      ((t.toCore.tile 0).faults.map fun f => (wbits (f.record.getD 0 0) 56 8, wbits (f.record.getD 0 0) 0 16, f.serves)) ==
        [(16, 0x1234, some 0x10000000000)]) = true := by decide +kernel

/-- 09 R245: the wait takes the masked events that are set. -/
theorem step_event_wait :
    nextAnd (exec (.evtWt ⟨g0, 6, 6, .ctx⟩) (st { ctx0 with r := { ctx0.r with ev := 0b1010 } }))
      (fun t => t.me.r.getS 6 == 2 && t.me.r.ev == 0b1000) = true := by decide +kernel

/-- 13 R334, R337: an entry goes to the banks when the operation lands, not before. -/
theorem step_forest_load :
    nextAnd (exec (.foLd ⟨g0, ⟨false, 3⟩, 0, .run 0 0⟩) (st ctx0)) (fun t =>
      (t.toCore.tile 0).banks == [] && (t.me.fo.map fun f => f.writes.head?) == some (some (0, 9))) = true := by decide +kernel

/-- 14 R366: the return of more weight than the task holds traps. -/
theorem step_weight_return_too_large :
    nextAnd (exec (.wtRet ⟨g0, 4⟩) (st ctx0)) (fun t => t.me.status == .suspended) = true := by decide +kernel

/-- 09 R246, 07 R175: a handler's return ends its context at the commit. -/
theorem step_handler_return :
    nextAnd (exec (.hret g0) (hst ctx0 hctx0)) (fun t => (t.bundle.map fun b => b.ends) == some true) = true := by decide +kernel

/-- 08 R221: a task may not invalidate translations: PRIV, kind 6 cause 0x0D. -/
theorem step_privileged :
    nextAnd (exec (.tlbInv ⟨g0, 0, 0, 0⟩) (st ctx0)) (fun t =>
      ((t.toCore.tile 0).faults.map fun f => (wbits (f.record.getD 0 0) 56 8, wbits (f.record.getD 0 0) 48 8)) == [(6, 0x0D)]) = true ∧
    nextAnd (exec (.tlbInv ⟨g0, 0, 0, 0⟩) (hst ctx0 hctx0)) (fun t => (t.toCore.tile 0).tlb == []) = true := by decide +kernel

/-- 02 R52: a store with no sharer is in memory and is acknowledged to its storer. -/
theorem step_store_at_home :
    nextAnd (exec .storeAtHome (ev (idle ctx0) (.storeAtHome ⟨7, 0, .primary, 0x100000, [some 0xAB], none, false⟩))) (fun t =>
      t.toCore.homeByte 0x100000 == 0xAB && t.msgs == [.ack false .primary 0x2000 7 0 ptrHome]) = true := by decide +kernel

/-- 19 R440: a die above its limit of 450 takes 8 steps more of swallowing. -/
theorem step_power :
    nextAnd (exec .powerControlTick (ev State.reset (.powerControlTick ⟨[451], 451⟩))) (fun t =>
      (t.toCore.power 0).swal == 8 && t.mc.mnow == 451) = true := by decide +kernel

/-- The machine takes its first steps from reset: with nothing there, time passes. -/
theorem step_from_reset : nextAnd (step State.reset) (fun t => t.tiles == [] && t.msgs == []) = true := by decide +kernel

/-- 08 R207: a word placed where the next step fetches is the one that the step runs: here `halt`. -/
theorem step_runs_placed_word :
    nextAnd (step (State.reset.withFetchWord 128 (0x10E0 * 2 ^ 64 + 0x00EEEEEE00000002))) (fun t =>
      (t.bundle.map fun b => b.ends) == some true) = true := by decide +kernel

/-! Witnesses: for every statement, states and operands that meet the hypotheses of its clauses together. -/

/-- The hypotheses most clauses share. -/
def ready (s : State) (g : Guard) (rs : List (BitVec 6)) : Bool := s.here && s.guardOk g && rs.all s.readable

/-- A context without a register write of its own, at its last registers. -/
def loops : Ctx := { ctx0 with lp := [(0, { LoopReg.init with act := true, count := 2, stop := 0x100010, start := 0x100008 })] }

theorem witness_RegisterArithmetic : ready (st ctx0) g0 [1, 0] = true ∧ ready (st ctx0) ⟨false, 2⟩ [1, 2, 63] = true ∧
    (st ctx0).scalar 0 = 0 ∧ (st ctx0).scalar 2 ≠ 0 ∧ (1 : BitVec 6) ≠ 0 := by decide +kernel

theorem witness_ImmediateArithmetic : ready (st ctx0) g0 [1] = true ∧ wbits (wI 64 1 3 0x2B) 5 8 = 0x2B ∧ wbits (wI 64 1 3 0x2B) 31 26 ≠ 0 ∧
    wbits (wI 0x80000000 1 3 0x2D) 5 8 = 0x2D ∧ wbits (wI 0x80000000 1 3 0x2D) 31 26 ≠ 0 := by decide +kernel

theorem witness_BitFields : bfOk 0 64 = true ∧ bfOk 63 1 = true ∧ bfOk 0 1 = true ∧ ready (st ctx0) g0 [1, 2] = true ∧
    got (decodeSlot .s (wG (64 * 64) 0 0 0 0 1 3 0x14)) = some (.bfx ⟨g2, 3, 1, 0, 64⟩) ∧
    got (decodeSlot .s (wG (0x2000 + 64) 0 0 0 0 1 3 0x14)) = some (.bfxS ⟨g2, 3, 1, 0, 1⟩) ∧
    wbits (wG 63 0 0 0 0 1 3 0x14) 50 7 = 0 ∧
      64 < wbits (wG (2 * 64 + 63) 0 0 0 0 1 3 0x15) 44 6 + wbits (wG (2 * 64 + 63) 0 0 0 0 1 3 0x15) 50 7 := by
  decide +kernel

theorem witness_ComparesAndSelect : ready (st ctx0) g0 [1, 2] = true ∧ (15 : BitVec 6).toNat < 16 ∧ 16 ≤ (16 : BitVec 6).toNat ∧
    (st ctx0).here = true ∧ (st ctx0).guardOk g1 = false := by decide +kernel

theorem witness_Immediates : ready (st ctx0) g0 [1] = true ∧ (63 : BitVec 6) ≠ 0 := by decide +kernel

/-- A task that is a supervisor's: none is; a plain message handler. -/
def plainHc : Ctx := { hctx0 with hc := some { hc0 with slot := 3, fault := false } }

theorem witness_ControlRegisterReads :
    ready (st ctx0) g0 [] = true ∧ (st ctx0).ref.isHc = false ∧ (st ctx0).old.hc = none ∧ (0x000, 0x10000000000#64) ∈ taskRegisters (st ctx0) ∧
    (0x021, 0#64) ∈ taskRegisters (st ctx0) ∧
    ready (hst ctx0 hctx0) g0 [] = true ∧ (hst ctx0 hctx0).ref.isHc = true ∧ (hst ctx0 hctx0).old.hc = some hc0 ∧
    (hst ctx0 hctx0).old.isSup = true ∧ (st ctx0).old.isSup = false ∧ (hst ctx0 plainHc).old.isSup = false ∧ (hst ctx0 plainHc).guardOk g0 = true ∧
    (hst ctx0 plainHc).here = true := by decide +kernel

/-- The domain holds a replica of die 1 in its pool. -/
def pooled : State :=
  let s := hst ctx0 hctx0
  let c := { s.toCore with reps := [⟨1, 16, 0, 0x100000, 0, [], [], 0, 0, false⟩], doms := [(0, { Domain.init with ctl := [(0x49, 0x0010000000000001)] })] }
  { s with toCore := c, saved := some c }

theorem witness_ControlRegisterWrites :
    ready (st ctx0) g0 [1] = true ∧ (st ctx0).ref.isHc = false ∧ (st ctx0).old.isSup = false ∧
    ready (hst ctx0 hctx0) g0 [1] = true ∧ (hst ctx0 hctx0).ref.isHc = true ∧ (hst ctx0 hctx0).old.isSup = true ∧
    (hst ctx0 hctx0).toCore.drepInUse 0 0x071 5 = false ∧ (hst ctx0 hctx0).toCore.drepInUse 0 0x040 5 = false ∧
    ready pooled g0 [1] = true ∧ pooled.old.isSup = true ∧ pooled.toCore.domOf pooled.ref.tile = 0 ∧ pooled.scalar 1 = 5 ∧
    pooled.toCore.drepInUse 0 0x049 5 = true ∧ ((st ctx0).toCore.ctx? (.task 0 0)).isSome = true := by decide +kernel

theorem witness_RegisterWriteSteps :
    (∀ e ∈ ([.verpolWrite (.task 0 0) 0x94, .verpolWrite (.task 0 0) 0xA3, .creelRingRegWrite (.task 0 0) true 5] : List Event),
      (ev (idle ctx0) e).event = some e ∧ ((ev (idle ctx0) e).toCore.ctx? (.task 0 0)).isSome = true) ∧ wbits 0x94 4 4 = 9 ∧ 9 < wbits 0xA3 4 4 ∧
    ((ev (hst ctx0 hctx0) (.hmsgWrite (.hc 0 0) 31)).toCore.ctx (.hc 0 0)).hc = some hc0 ∧
    ((ev (hst ctx0 hctx0) (.fltrecWrite (.hc 0 0) 0x107)).toCore.ctx? (.hc 0 0)).isSome = true ∧
    pooled.toCore.drepInUse 0 (0x048 + 1) 0 = true ∧ pooled.toCore.drepInUse 0 (0x048 + 1) 0x0010000000000000 = false ∧
    ((mapGet 0 (pooled.toCore.dom 0).ctl (0x048 + 1)).getLsbD 0) = true ∧ (0x0010000000000000 : Word).getLsbD 0 = false ∧
    ((idle ctx0).toCore.dom 0).kvOn = false ∧
    (({ idle ctx0 with doms := [(0, { Domain.init with ctl := [(0x60, 1)] })] } : State).toCore.dom 0).kvOn = true := by decide +kernel

theorem witness_BranchesAndCalls : ready (st ctx0) g0 [] = true ∧ (st ctx0).bundle = some (bun0 (.task 0 0)) ∧
    (usesOf 0 (.add ⟨g0, 63, 1, 2⟩)).s = some 63 := by decide +kernel

theorem witness_JumpsAndReturns : ready (st ctx0) g0 [4, 1] = true ∧ ((st ctx0).scalar 4).toNat % 8 = 0 ∧ ((st ctx0).scalar 1).toNat % 8 ≠ 0 ∧
    (st ctx0).bundle = some (bun0 (.task 0 0)) := by decide +kernel

theorem witness_LoopEntry : ready (st loops) g0 [1, 0] = true ∧ (st loops).bundle = some (bun0 (.task 0 0)) ∧
    ((st loops).scalar 0).toNat % 2 ^ 32 = 0 ∧ ((st loops).scalar 1).toNat % 2 ^ 32 ≠ 0 ∧ (loops.loopReg 0).act = true := by decide +kernel

theorem witness_LoopBreakAndBoundary : ready (st loops) g0 [1] = true ∧ (loops.loopReg 0).act = true ∧ (loops.loopReg 0).stop = 0x100010 ∧
    (0x100010 : Word).setWidth 57 = (0x100010 : BitVec 57) ∧
    (∀ k : Nat, k < 4 → k ≠ 0 → ¬ ((loops.loopReg k).act = true ∧ (loops.loopReg k).stop = 0x100010)) := by decide +kernel

/-- A context with a load on its way to a register and a queue. -/
def waiting : Ctx := { ctx0 with pend := [⟨9, .s 7⟩], q := [(1, [⟨9, none⟩])] }

theorem witness_WaitsOfTheControlSlot :
    (st ctx0).guardOk g0 = true ∧ (st ctx0).old.readsDone = true ∧ (st ctx0).old.rout = none ∧
    (st ctx0).old.macs = [] ∧ (st ctx0).old.fo = none ∧ (st ctx0).older.cmdsOf (st ctx0).ref = [] ∧
    (st waiting).guardOk g0 = true ∧ (st waiting).old.pend ≠ [] ∧
    ready (st { ctx0 with r := { ctx0.r with ev := 0x8000 } }) g0 [] = true ∧
    (st { ctx0 with r := { ctx0.r with ev := 0x8000 } }).me.r.ev &&& 0x8000 ≠ 0 ∧ (st ctx0).me.r.ev &&& 0x8000 = 0 := by decide +kernel

theorem witness_EndsOfContexts :
    (st ctx0).guardOk g0 = true ∧ (st ctx0).bundle = some (bun0 (.task 0 0)) ∧ (st ctx0).guardOk g1 = false ∧
    (st ctx0).old.replay = [] ∧ (st ctx0).old.late = [] ∧ (st ctx0).old.readsDone = true ∧ (st ctx0).old.rout = none ∧ (st ctx0).old.macs = [] ∧
    (st ctx0).old.fo = none ∧
    (hst ctx0 hctx0).guardOk g0 = true ∧ (hst ctx0 hctx0).bundle = some (bun0 (.hc 0 0)) ∧ (hst ctx0 hctx0).old.replay = [] ∧
    (hst ctx0 hctx0).old.late = [] ∧ (hst ctx0 hctx0).old.rout = none ∧ (hst ctx0 hctx0).old.macs = [] ∧ (hst ctx0 hctx0).old.fo = none ∧
    (hst ctx0 hctx0).rels = [] ∧ (hst ctx0 hctx0).releasedNow .mod = true := by decide +kernel

/-- A task that has halted, and one that has returned its weight. -/
def ending : Ctx := { ctx0 with life := .ending }

def weightless : Ctx := { ending with r := { ctx0.r with twgt := 0 } }

theorem witness_EndsOfContexts_later :
    (idle ending).bundle = none ∧ (idle ending).ref = .task 0 0 ∧ (idle ending).me.life = .ending ∧ (idle ending).me.r.twgt ≠ 0 ∧
    (idle ending).toCore.rootBusy ((idle ending).toCore.domOf 0) 0 (idle ending).me.id.rootVA = false ∧ (idle weightless).me.r.twgt = 0 ∧
    (idle ending).me.replay = [] ∧ (idle ending).me.late = [] ∧ (idle ending).me.readsDone = true ∧ (idle ending).me.rout = none ∧
    (idle ending).me.macs = [] ∧ (idle ending).me.fo = none ∧ (idle ending).toCore.released (idle ending).ref .mod = true ∧
    (idle weightless).toCore.ctx? (.task 0 0) = some weightless ∧ (idle weightless).toCore.released (.task 0 0) .mod = true ∧
    ((idle weightless).toCore.tile 0).pair = none ∧
    (hst ctx0 plainHc).toCore.ctx? (.hc 0 0) = some plainHc ∧ plainHc.hc = some { hc0 with slot := 3, fault := false } := by decide +kernel

theorem witness_TrapsSuspendTheTask :
    (st ctx0).guardOk g0 = true ∧ (st ctx0).bundle = some (bun0 (.task 0 0)) ∧ (st ctx0).saved = some (st ctx0).toCore ∧ (st ctx0).ref = .task 0 0 ∧
    (bun0 (.task 0 0)).r = (st ctx0).ref ∧ (bun0 (.task 0 0)).own = [] ∧ (st ctx0).toCore.ctx? (.task 0 0) = some ctx0 ∧ ctx0.id.logit = false ∧
    ctx0.started = true ∧ (mkTrap kData cUncorr).kind ≤ 17 ∧ (mkTrap kData cUncorr).kind ≠ kIllegal ∧ (mkTrap kData 255).cause < 256 ∧
    (mkTrap kData 255).flags < 256 ∧ (st ctx0).slot < 12 ∧ (mkTrap kData 255).slot = 0xF := by decide +kernel

/-! Bundles, queues and suppressed operations. -/

/-- Words of code at 0x100000: that page lies from cell 0x8000 on (01 R30). -/
def code (ws : List Word) : Memory := writeRun [] 0x8000 (wordsBytes ws)

/-- A task about to dispatch the code. -/
def fetching (x : Ctx) (ws : List Word) : State := ev { idle x with mem := code ws } (.bundleDispatch (.task 0 0))

/-- What the dispatch of the task's next bundle finds: an illegal slot, a queue trap. -/
def found (s : State) (p : Option (Nat × Word) → Option TrapInfo → Bool) : Bool :=
  let c := (dispatching s (.task 0 0)).firstBundle (.task 0 0)
  okAnd (readBundle ((dispatching s (.task 0 0)).fetchWords (.task 0 0)) ((dispatching s (.task 0 0)).ctx (.task 0 0)).pc) fun f =>
    let word := fun slot => Part.eff c ⟨.task 0 0, f⟩ slot
    let due := (List.range 12).filter fun slot => decide (word slot ≠ 0)
    p (c.illegalAt ⟨.task 0 0, f⟩ (effOwners (c.ctx (.task 0 0)).owners f.head) (List.range 12))
      (c.queueTrap ((List.range 12).filter fun slot => (f.word? slot).isSome) (due.map fun slot => (slot, .task 0 0, slotOp slot (word slot))))

/-- Whether reading the task's next bundle ends in a trap, or in a wait. -/
def unread (s : State) (trap : Bool) : Bool :=
  match readBundle ((dispatching s (.task 0 0)).fetchWords (.task 0 0)) ((dispatching s (.task 0 0)).ctx (.task 0 0)).pc with
  | .error (.trap _) => trap
  | .error (.wait _) => !trap
  | .ok _ => false

theorem witness_BundleDispatch :
    (fetching ctx0 []).event = some (.bundleDispatch (.task 0 0)) ∧ (fetching ctx0 []).toCore.ctx? (.task 0 0) = some ctx0 ∧ ctx0.life = .live ∧
    ctx0.status ≠ .suspended ∧ (fetching ctx0 []).toCore.form (.task 0 0) = .whole ∧
    (dispatching (fetching ctx0 []) (.task 0 0)).form (.task 0 0) = .whole ∧
    found (fetching ctx0 [0x00EEEEEE00000001, 0x0000000004086020]) (fun bad full => bad.isNone && full.isNone) = true ∧
    found (fetching ctx0 [0x00EEEEEE00000001, 0x00000000000000E0]) (fun bad _ => bad == some (0, 0xE0)) = true ∧
    found (fetching ctx0 [0x00EEEEE500000020, wG 0 0 0 0 0 9 4 0x62]) (fun bad full => bad.isNone && full.isSome) = true ∧
    unread (fetching ctx0 [0x00EEEEEC00003021]) true = true ∧ unread (fetching { ctx0 with pc := 0x200000 } []) false = true := by
  decide +kernel

theorem witness_DispatchTrapRecord :
    (fetching ctx0 []).toCore.ctx? (.task 0 0) = some ctx0 ∧ (fetching ctx0 []).ref = .task 0 0 ∧ ctx0.id.logit = false ∧
    (illegal 0 0xE0 0).kind ≤ 17 ∧ (illegal 0 0xE0 0).cause < 256 ∧ (illegal 0 0xE0 0).flags = 0 ∧ (illegal 0 0xE0 15).slot < 16 := by decide +kernel

/-- Bundles of a header alone: issued once, and issued three times. -/
def header1 (_ : Word) (_ : Nat) : Op (List Word) := .ok [0x00EEEEEE00000000]

def header3 (_ : Word) (_ : Nat) : Op (List Word) := .ok [0x00EEEEEE00002000]

theorem witness_BundleAdvance :
    okAnd (readBundle header1 0x100000) (fun f => decide (f.head.rep.toNat ≤ ctx0.rep) && f.len == 8) = true ∧
    okAnd (readBundle header3 0x100000) (fun f => decide (ctx0.rep < f.head.rep.toNat) && f.head.rep == 2) = true ∧
    (∀ k : Nat, k < 4 → ¬ ((ctx0.loopReg k).act = true ∧ (ctx0.loopReg k).stop = (ctx0.pc + 8).setWidth 57)) ∧
    (loops.loopReg 0).act = true ∧ (loops.loopReg 0).stop = (loops.pc + 16).setWidth 57 := by decide +kernel

/-- A bundle whose operations have issued. -/
def committing (late : List (CtxRef × Nat × Word)) : State :=
  let s := { st ctx0 with mem := code [0x00EEEEEE00000001, 0x0000000004086020] }
  { s with saved := some s.toCore, bundle := some { bun0 (.task 0 0) with late := late } }

/-- The bundle of that machine. -/
def held0 (late : List (CtxRef × Nat × Word)) : Bundle := { bun0 (.task 0 0) with late := late }

theorem witness_BundleCommit :
    (committing []).bundle = some (held0 []) ∧ (committing []).toCore.ctx? (.task 0 0) = some ctx0 ∧
    ((committing []).toCore.tile 0).pair = none ∧ ((committing []).older.tile 0).pair = none ∧
    okAnd (readBundle ((committing []).older.fetchWords (.task 0 0)) ((committing []).older.ctx (.task 0 0)).pc) (fun f => f.len == 16) = true ∧
    (held0 []).ends = false ∧ ({ held0 [] with ends := true } : Bundle).ends = true ∧ (held0 []).lateA = [] ∧ (held0 []).outs = [] ∧
    (held0 []).sigs = [] ∧ (held0 []).cmds = [] ∧ (committing [(.task 0 0, 0x011, 5)]).bundle = some (held0 [(.task 0 0, 0x011, 5)]) := by
  decide +kernel

/-- A task whose routine runs at step 3, with a nop there. -/
def routine0 : Routine := ⟨1, 0, 3, 2, 0, 1, 0, 0, 0, false, none⟩

def running : Ctx := { ctx0 with rout := some routine0 }

/-- One message in flight, and no other action. -/
def flight : State := { State.reset with msgs := [.ack false .primary 0x2000 7 0 ptrHome] }

theorem witness_StepRunsTheDecodedInstruction :
    ({ st ctx0 with bundle := some { bun0 (.task 0 0) with todo := [0, 5], words := [(0, 0x0000000004086020)] } } : State).bundle =
      some { bun0 (.task 0 0) with todo := [0, 5], words := [(0, 0x0000000004086020)] } ∧
    got (decodeSlot (slotClass 0) (mapGet 0 [(0, 0x0000000004086020#64)] 0)) = some (.add ⟨g0, 3, 1, 2⟩) ∧
    (bun0 (.task 0 0)).todo = [] ∧ State.reset.bundle = none ∧ State.reset.toCore.actions = [] ∧
    flight.toCore.actions = [.message 0] ∧ flight.msgs[0]? = some (.ack false .primary 0x2000 7 0 ptrHome) := by decide +kernel

/-- Whatever the open choice is, a single enabled action is the one taken. -/
theorem witness_step_message : pickAction flight.seq flight.toCore.actions = some (.message 0) := by
  have h : flight.toCore.actions = [.message 0] := by decide +kernel
  rw [h]; simp [pickAction]

theorem witness_NopsChangeNothing :
    (st running).toCore.ctx? (st running).ref = some running ∧ running.rout = some routine0 ∧ routine0.pc ≠ 255 := by decide +kernel

theorem witness_PreciseStateIsKept : BundleHasItsCopy (st ctx0) ∧ BundleHasItsCopy State.reset ∧
    nextAnd (step (committing [])) (fun t => t.bundle == none && t.saved == none) = true := by
  unfold BundleHasItsCopy; decide +kernel

theorem witness_EncodingsRoundTrip : wellFormed (.add ⟨g2, 3, 1, 2⟩) = true ∧ encodeSlot .s (.add ⟨g2, 3, 1, 2⟩) = some (wG 0 0 0 0 2 1 3 0x01) ∧
    wellFormed (.uopNop true) = true ∧ encodeUop (.uopNop true) = some 0xC800000000000000 := by decide +kernel

theorem witness_SuppressedOperations : (st ctx0).guardOk g1 = false ∧ (st ctx0).old.rout = none ∧ (st ctx0).old.fo = none ∧
    (Instr.add ⟨g1, 3, 1, 2⟩) ∈ [Instr.add ⟨g1, 3, 1, 2⟩] := by decide +kernel

/-- Queue 0 fed from another tile. -/
def fed : Ctx := { ctx0 with id := { ctx0.id with desc := desc0.set 9 1 } }

/-- Queue 1 full. -/
def full : Ctx := { ctx0 with q := [(1, List.replicate 8 ⟨1, some 7⟩)] }

def a1 : QSrc := ⟨false, 1⟩
def b2 : QSrc := ⟨false, 2⟩
def c3 : QSrc := ⟨false, 3⟩

/-- Two sources and room for the result. -/
def twoIn (s : State) (n : Nat) : Bool :=
  okAnd (s.src a1) fun r => okAnd (r.2.srcOr (.queue b2)) fun q => q.2.room (some 4) n && okAnd (r.2.src b2) fun w => w.2.room (some 4) n

theorem witness_QueueTraffic :
    (st ctx0).here = true ∧ (st ctx0).toCore.asConsumer (st ctx0).ref = none ∧
    (st ctx0).entries 1 = [⟨1, some 0x3F8000003F800000⟩, ⟨2, some 7⟩] ∧ (st ctx0).poison = [] ∧ (st ctx0).entries 0 = [] ∧
    (st ctx0).me.id.isRemote 0 = false ∧ (st fed).entries 0 = [] ∧ (st fed).me.id.isRemote 0 = true ∧
    (st ctx0).roomQ 1 1 = true ∧ (st full).roomQ 1 1 = false ∧ (st full).toCore.asConsumer (st full).ref = none ∧
    (st ctx0).guardOk g1 = false ∧ twoIn (st ctx0) 2 = true ∧ okAnd ((st ctx0).src b2) (fun _ => true) = true ∧
    (st ctx0).roomQ (32 + 1) 1 = true := by decide +kernel

/-! The V and P slots. -/

theorem witness_VectorFloatArithmetic : (st ctx0).guardOk g0 = true ∧ twoIn (st ctx0) 1 = true ∧
    okAnd ((st ctx0).src a1) (fun r => okAnd (r.2.srcOr (.queue b2)) fun q => okAnd (q.2.src c3) fun w => w.2.room (some 4) 1) = true ∧
    okAnd ((st ctx0).src a1) (fun r => okAnd (r.2.srcOr (.scalar 1)) fun q => q.2.room none 1) = true ∧
    (fmtF32.decode 0x7F800001).isNan = true := by decide +kernel

theorem witness_VectorIntegerArithmetic : (st ctx0).guardOk g0 = true ∧ twoIn (st ctx0) 1 = true := by decide +kernel

theorem witness_VectorCompares : (st ctx0).guardOk g0 = true ∧ twoIn (st ctx0) 1 = true ∧ (st ctx0).here = true ∧ (7 : BitVec 3) ≠ 0 := by
  decide +kernel

theorem witness_VectorMovesAndConversions : ready (st ctx0) g0 [1, 2] = true ∧ (st ctx0).room (some 4) 1 = true ∧ twoIn (st ctx0) 1 = true ∧
    okAnd ((st ctx0).src ⟨true, 1⟩) (fun r => r.2.room (some 4) 1) = true := by decide +kernel

/-- A reduction that waits for entry 9. -/
def deferred : Deferred := ⟨9, some 7, 2048, 0, .rne, 1, 0, 0⟩

def reducing : Ctx := { ctx0 with vs := [(3, ⟨0, 4, some deferred⟩)] }

theorem witness_ReductionsAndDots :
    ready (st ctx0) g0 [1] = true ∧ okAnd ((st ctx0).src a1) (fun r => r.2.room (some 4) 1) = true ∧
    (mapGet VScal.init (st ctx0).me.vs 3).wait = none ∧ ((st ctx0).entries 1).head?.map (fun h => h.data.isSome) = some true ∧
    ready (st waiting) g0 [1] = true ∧ (mapGet VScal.init (st waiting).me.vs 3).wait = none ∧ (st waiting).toCore.asConsumer (st waiting).ref = none ∧
    (st waiting).entries 1 = [⟨9, none⟩] ∧
    (ev (idle reducing) (.vredDeferredReduction 0 9)).toCore.ctx? (.task 0 0) = some reducing ∧
      (mapGet VScal.init reducing.vs 3).wait = some deferred ∧
    deferred.eid = 9 ∧ deferred.data = some 7 ∧ (∀ m, m < 8 → m ≠ 3 → (mapGet VScal.init reducing.vs m).wait = none) ∧
    okAnd ((st ctx0).src a1) (fun r => okAnd (r.2.src b2) fun q => okAnd (q.2.src c3) fun w => w.2.room (some 4) 1) = true := by decide +kernel

/-- Hyperparameters in s8 to s12, versioned scalar 2 of step 6. -/
def updating : Ctx := { ctx0 with r := { ctx0.r with s := [(8, 1), (12, 7)] }, vs := [(2, ⟨0, 6, none⟩)] }

theorem witness_OptimiserUpdate :
    (st updating).guardOk g0 = true ∧ (∀ k < 5, (st updating).readable ((8 : BitVec 6) + BitVec.ofNat 6 k) = true) ∧
    (mapGet VScal.init (st updating).old.vs 2).tag = ((st updating).scalar ((8 : BitVec 6) + 4)).extractLsb' 0 16 - 1 ∧
    (mapGet VScal.init (st updating).old.vs 2).wait = none ∧
    okAnd ((st updating).popN 1 (optCount .mom)) (fun r => okAnd (r.2.src b2) fun q => q.2.room (some 4) (optCount .mom)) = true ∧
    (mapGet VScal.init (st updating).old.vs 1).tag ≠ ((st updating).scalar ((8 : BitVec 6) + 4)).extractLsb' 0 16 - 1 := by decide +kernel

theorem witness_PackingAndPermutes : ready (st ctx0) g0 [9] = true ∧ twoIn (st ctx0) 2 = true ∧
    okAnd ((st ctx0).src a1) (fun r => r.2.room (some 4) 2 && r.2.roomQ (32 + 1) 1) = true ∧ (0 : Nat) < (xpoShape .w32).1 ∧
    (0 : Nat) < (xpoShape .w32).2 ∧ 0 < elemCount .w8 := by decide +kernel

/-! The M slot and the sequencer, the forest and the sampler. -/

/-- A state whose tile is changed. -/
def onTile (s : State) (f : Tile → Tile) : State :=
  let c := s.toCore.updTile 0 f
  { s with toCore := c, saved := s.saved.map fun _ => c }

theorem witness_MatrixSlotOperations :
    ready (st ctx0) g0 [1, 4, 7] = true ∧ (st ctx0).old.rout = none ∧
    okAnd ((st ctx0).src a1) (fun r => okAnd (r.2.readQ (32 + 0) false) fun q => q.2.here) = true ∧
    okAnd ((st ctx0).readOperand ((st ctx0).scalar 7) 2160 false 3) (fun r => r.1.isNone) = true ∧
    (st running).old.rout.isSome = true := by decide +kernel

/-- Registers that name rows: s16 = 15, s17 = 16, s18 = 1. -/
def rows : Ctx := { ctx0 with r := { ctx0.r with s := [(16, 15), (17, 16), (18, 1)] } }

theorem witness_AccumulatorOperations :
    ready (st rows) g0 [16, 0, 18] = true ∧ (st rows).old.rout = none ∧ (st rows).old.macs = [] ∧ (st rows).poison = [] ∧
    (st rows).room (some 4) 1 = true ∧ (st rows).old.id.accr = 16 ∧
    wbits ((st rows).scalar 16) 0 8 < (st rows).old.id.accr ∧ ¬ (wbits ((st rows).scalar 17) 0 8 < (st rows).old.id.accr) ∧
    wbits ((st rows).scalar 0) 0 8 < (st rows).old.id.accr / 2 ∧
    wbits ((st rows).scalar 16) 0 8 + wbits ((st rows).scalar 18) 0 9 ≤ (st rows).old.id.accr ∧ wbits ((st rows).scalar 18) 0 9 ≠ 0 ∧
    (st rows).old.id.accr < wbits ((st rows).scalar 17) 0 8 + wbits ((st rows).scalar 18) 0 9 ∧
    wbits ((st rows).scalar 0) 0 9 = 0 := by decide +kernel

/-- A step of the routine: mp1 is 0, mp2 is 15. -/
def stepping (u : Routine) : State :=
  let x := { ctx0 with rout := some u, r := { ctx0.r with mp := [(2, 15)] }, q := [(1, [⟨1, some 7⟩]), (32, [⟨5, some 0x7F⟩])] }
  onTile (idle x) fun tl => { tl with ucode := [(9, 0x2800000000000000)] }

theorem witness_MicroOpsOfControl :
    (stepping routine0).here = true ∧ (stepping routine0).me.rout = some routine0 ∧ routine0.pc ≠ 255 ∧
      ({ routine0 with pc := 254 } : Routine).pc ≠ 255 ∧
    (12 : BitVec 16) ≠ 0 ∧
    routine0.pc.toNat < 9 ∧ got (decodeUop (mapGet 0 ((stepping routine0).toCore.tile 0).ucode 9)) = some (.uopEndl ⟨false, false⟩) ∧
    (∀ i : Nat, i < 9 → routine0.pc.toNat < i → got (decodeUop (mapGet 0 ((stepping routine0).toCore.tile 0).ucode i)) = some (.uopEnd false)) ∧
    routine0.lc false ≠ 0 ∧
    ({ routine0 with lc0 := 1 } : Routine).lc false = 1 ∧ (stepping routine0).me.macs = [] ∧ (stepping routine0).poison = [] ∧
    (((marked (stepping routine0) routine0 true).mpReg 2).toNat + 0) % 256 + (0 + 1) ≤ (stepping routine0).me.id.accr ∧
    (((marked (stepping routine0) routine0 false).mpReg 1).toNat + 0) % 256 + (15 + 1) ≤ (stepping routine0).me.id.accr ∧
    (stepping routine0).toCore.windowPoisoned 0 (accOfs false ((stepping routine0).me.r.accb + 15) 0) (1 * 4096) = false := by decide +kernel

/-- A block result for row 3 that waits to land. -/
def landing : Ctx := { ctx0 with macs := [⟨3, false, true, 0, [[0x3F800000], [0x40000000]]⟩] }

theorem witness_MicroOpsOfTheArray :
    (stepping routine0).here = true ∧ (stepping routine0).me.rout = some routine0 ∧ (stepping routine0).poison = [] ∧
    mxCols ((stepping routine0).me.plane 2).fmt * (0 + 1) ≤ 1024 ∧
    mxCols ((stepping routine0).me.plane 2).fmt * (1024 / mxCols ((stepping routine0).me.plane 2).fmt) ≤ 1024 ∧
    okAnd ((atStep (stepping routine0) routine0 true).routineQ 1 false) (fun r => okAnd (r.2.routineQ (32 + 0) true) fun q =>
      q.2.here && decide (q.2.me.rout = some routine0)) = true ∧
    (((marked (stepping routine0) routine0 true).mpReg 2).toNat + 0) % 256 < (stepping routine0).me.id.accr ∧
    (((marked (stepping routine0) routine0 true).mpReg 1).toNat + 7) % 256 < (stepping routine0).me.id.accr / 2 ∧
    ((idle landing).toCore.tile 0).queue.findIdx? (fun x => !x.macs.isEmpty) = some 0 ∧ (idle landing).toCore.ctx? (.task 0 0) = some landing ∧
    landing.macs = [⟨3, false, true, 0, [[0x3F800000], [0x40000000]]⟩] ∧ (ev (idle landing) (.macResultLand 0)).event = some (.macResultLand 0) ∧
    (stepping routine0).toCore.routineOn 0 = some (.task 0 0) ∧ (stepping routine0).me.id.logit = false ∧
      (stepping routine0).me.status ≠ .suspended := by
  decide +kernel

/-- A forest operation that has not landed. -/
def growing : Ctx := { ctx0 with fo := some ⟨[(0, 9)], fDZ⟩ }

/-- A task with lane 0 only. -/
def oneLane : Ctx := { ctx0 with id := { ctx0.id with desc := desc0.set 6 0x48020010 } }

/-- Scalars at the ends of the banks: s20 = 192, s21 = 255, s22 = 256. -/
def banks : Ctx := { ctx0 with r := { ctx0.r with s := [(20, 192), (21, 255), (22, 256)] }, q := [(3, [⟨4, some 9⟩]), (5, [⟨6, some (1 <<< 48)⟩])] }

theorem witness_ForestOperations :
    ready (st banks) g0 [0, 20, 21, 22] = true ∧ (st banks).old.fo = none ∧
    okAnd ((st banks).src c3) (fun r => shapeOk (r.1.extractLsb' 0 256) && r.2.here && r.2.readable 20) = true ∧
    okAnd ((st banks).src ⟨false, 5⟩) (fun r => !shapeOk (r.1.extractLsb' 0 256)) = true ∧
    (∀ l, l < 8 → (layMask (.run 7 15)).testBit l → (st banks).me.id.flanes.testBit l) ∧
    (∀ w ∈ layWords (.run 7 15) ((st banks).scalar 20).toNat, w.2.2.2 ≤ 255) ∧
    (∀ l, l < 8 → (layMask (.lanes 0xFF 15)).testBit l → (st banks).me.id.flanes.testBit l) ∧ (st banks).poison = [] ∧
    (st banks).room none 1 = true ∧ (∀ l, l < 8 → (0xFF : BitVec 8).toNat.testBit l → (st banks).me.id.flanes.testBit l) ∧
    (∀ i ∈ shapeLeaves ((st banks).old.shape 0), ((st banks).scalar 21).toNat + (shapeLeaf ((st banks).old.shape 0) i).2 ≤ 255) ∧
    ((st banks).scalar 21).toNat ≤ 255 ∧ ((st banks).scalar 21).toNat + (st banks).old.r.ofs.toNat ≤ 255 ∧
    ((st banks).scalar 22).toNat ≤ 256 ∧ ((st banks).scalar 0).toNat + ((st banks).scalar 22).toNat - 1 ≤ 255 ∧
    okAnd ((st oneLane).src c3) (fun r => r.2.readable 1 && !r.2.me.id.flanes.testBit 1) = true ∧ (layMask (.run 1 0)).testBit 1 = true ∧
    ((idle growing).toCore.tile 0).queue.findIdx? (fun x => x.fo.isSome) = some 0 ∧ (idle growing).toCore.ctx? (.task 0 0) = some growing ∧
    growing.fo = some ⟨[(0, 9)], fDZ⟩ ∧ (ev (idle growing) (.forestOpLand 0)).event = some (.forestOpLand 0) := by decide +kernel

/-- A candidate list of two pairs, a void one, and thresholds: s20 = 1.0, s21 a NaN. -/
def sampling : Ctx :=
  { ctx0 with cds := [(1, ⟨[(0x40000000, 7), (0x3F800000, 3)], 64, false⟩), (2, ⟨[(0, 0)], 64, true⟩)]
              r := { ctx0.r with s := [(20, 0x3F800000), (21, 0x7FC00000), (22, 63), (23, 64)] } }

theorem witness_SamplingOperations :
    ready (st sampling) g0 [1, 2, 20, 22, 23] = true ∧ 1 ≤ ((st sampling).scalar 22).toNat ∧ ((st sampling).scalar 22).toNat ≤ 63 ∧
    okAnd ((st sampling).src a1) (fun r => r.2.here && r.2.readable 20) = true ∧ (st sampling).room (some 4) 2 = true ∧
    ((st sampling).me.cand 0).pairs = [] ∧ ((st sampling).me.cand 2).void = true ∧ ((st sampling).me.cand 1).pairs ≠ [] ∧
    ((st sampling).me.cand 1).void = false ∧ ((st sampling).me.cand 1).pairs.length ≤ ((st sampling).me.cand 1).kcap ∧
    ((List.range 64).filter fun i => ((st sampling).mask 1).getLsbD i) = [] ∧
    (fmtF32.decode (((st sampling).scalar 20).toNat % 2 ^ 32)).isNan = false ∧
      (fmtF32.decode (((st sampling).scalar 21).toNat % 2 ^ 32)).isNan = true ∧
    nextAnd (exec (.cdArg ⟨g0, 6, 1, false, false, 1⟩) (st sampling)) (fun t => t.me.r.getS 6 == 0x4000000000000007) = true := by decide +kernel

/-! Memory. What a load, a store or an atomic meets, as checks of a state, and that they say what the statements ask. -/

/-- A successful operation, from a check of its result. -/
theorem ok_of_okAnd {α : Type} (x : Op α) (p : α → Bool) (h : okAnd x p = true) : ∃ v, x = .ok v ∧ p v = true := by
  cases x with
  | error e => simp [okAnd] at h
  | ok v => exact ⟨v, rfl, h⟩

/-- Whether bytes in one page can be loaded now, from where the property holds. -/
def loads (s : State) (acc : Acc) (va : Word) (n : Nat) (past : Bool) (p : Loc → Place → Bool) : Bool :=
  okAnd (s.toCore.translateSpan (s.toCore.whoFor s.ref acc) acc va n) fun l =>
    okAnd (s.toCore.placeOf (s.toCore.whoFor s.ref acc) acc l) fun pl =>
      decide (s.poison = []) && decide ((s.toCore.tile s.ref.tile).devOut = []) && !s.older.atomicBusy s.ref.tile l.pa n &&
        !s.older.lineBusy s.ref.tile pl l n (past || l.mt != 0) && p l pl

theorem ready_of_loads {s : State} {acc : Acc} {va : Word} {n : Nat} {past : Bool} {p : Loc → Place → Bool} (h : loads s acc va n past p = true) :
    ∃ l pl, LoadReady s acc va n past l pl ∧ s.toCore.placeOf (s.toCore.whoFor s.ref acc) acc l = .ok pl ∧ p l pl = true := by
  obtain ⟨l, hl, h⟩ := ok_of_okAnd _ _ h
  obtain ⟨pl, hp, h⟩ := ok_of_okAnd _ _ h
  simp only [Bool.and_eq_true, decide_eq_true_eq, Bool.not_eq_true'] at h
  obtain ⟨⟨⟨⟨h1, h2⟩, h3⟩, h4⟩, h5⟩ := h
  exact ⟨l, pl, ⟨hl, h1, fun _ => hp, fun _ _ => h2, fun _ => h3, fun _ => h4⟩, hp, h5⟩

/-- The same of bytes over two pages. -/
def loadsAll (s : State) (acc : Acc) (va : Word) (n : Nat) (alloc past : Bool) (p : List Byte → Bool → State → Bool) : Bool :=
  let first := 65536 - va.toNat % 65536
  if n ≤ first then loads s acc va n past fun l pl => p (s.loadValue va n past l pl) (l.isScratch s.ref.tile) (s.afterLoad n alloc past l pl)
  else loads s acc va first past fun l pl =>
    let u := s.afterLoad first alloc past l pl
    loads u acc (va + BitVec.ofNat 64 first) (n - first) past fun l' pl' =>
      p (s.loadValue va first past l pl ++ u.loadValue (va + BitVec.ofNat 64 first) (n - first) past l' pl')
        (l.isScratch s.ref.tile && l'.isScratch s.ref.tile) (u.afterLoad (n - first) alloc past l' pl')

theorem loaded_of_loadsAll {s : State} {acc : Acc} {va : Word} {n : Nat} {alloc past : Bool} {p : List Byte → Bool → State → Bool}
    (h : loadsAll s acc va n alloc past p = true) : ∃ bs now t, Loaded s acc va n alloc past bs now t ∧ p bs now t = true := by
  unfold loadsAll at h
  by_cases hn : n ≤ 65536 - va.toNat % 65536
  · simp only [hn, if_true] at h
    obtain ⟨l, pl, hr, -, hp⟩ := ready_of_loads h
    exact ⟨_, _, _, .inl ⟨hn, l, pl, hr, rfl, rfl, rfl⟩, hp⟩
  · simp only [hn, if_false] at h
    obtain ⟨l, pl, hr, -, h⟩ := ready_of_loads h
    obtain ⟨l', pl', hr', -, hp⟩ := ready_of_loads h
    exact ⟨_, _, _, .inr ⟨by omega, l, pl, l', pl', hr, hr', rfl, rfl, rfl⟩, hp⟩

/-- Whether the selected lanes of a gather can be loaded now, in order. -/
def gathers (w : Width) (base : Word) (idx : Entry) (m : Word) : List Nat → State → (List Nat → Bool → State → Bool) → Bool
  | [], s, p => p [] true s
  | i :: rest, s, p =>
    if m.getLsbD i then
      let n := 2 ^ w.size.toNat
      let e := base + BitVec.ofNat 64 (lane idx i * n)
      decide (e.toNat % n = 0) && loads s (.load w.size.toNat) e n false fun l pl =>
        gathers w base idx m rest (s.afterLoad n true false l pl) fun vs now t =>
          p (extend32 w (leNat (s.loadValue e n false l pl)) :: vs) (l.isScratch s.ref.tile && now) t
    else gathers w base idx m rest s fun vs now t => p (0 :: vs) now t

theorem gathered_of_gathers (w : Width) (base : Word) (idx : Entry) (m : Word) (ls : List Nat) (s : State) (p : List Nat → Bool → State → Bool)
    (h : gathers w base idx m ls s p = true) : ∃ vs now t, Gathered w base idx m ls s vs now t ∧ p vs now t = true := by
  induction ls generalizing s p with
  | nil => exact ⟨_, _, _, ⟨rfl, rfl, rfl⟩, h⟩
  | cons i rest ih =>
    unfold gathers at h
    by_cases hm : m.getLsbD i
    · simp only [hm, if_true, Bool.and_eq_true, decide_eq_true_eq] at h
      obtain ⟨l, pl, hr, -, h⟩ := ready_of_loads h.2
      obtain ⟨vs, now, t, hg, hp⟩ := ih _ _ h
      refine ⟨_, _, t, ?_, hp⟩
      simp only [Gathered, hm, if_true]
      exact ⟨by simp_all, l, pl, vs, now, hr, hg, rfl, rfl⟩
    · simp only [hm] at h
      obtain ⟨vs, now, t, hg, hp⟩ := ih _ _ h
      refine ⟨_, _, t, ?_, hp⟩
      simp only [Gathered, hm]
      exact ⟨vs, hg, rfl⟩

/-- What a store meets. -/
def stores (s : State) (acc : Acc) (va : Word) (bytes : List (Option Byte)) : Bool :=
  bytes.any Option.isSome && decide (va.toNat % 65536 + bytes.length ≤ 65536) &&
    ((s.me.replay ++ s.me.late).all fun p => p.dead || decide (vpageOf p.va ≠ vpageOf va)) &&
    okAnd (s.toCore.translateSpan (s.toCore.whoFor s.ref acc) acc va bytes.length) (fun l =>
      okAnd (s.toCore.placeOf (s.toCore.whoFor s.ref acc) acc l) fun _ => true) &&
    !s.toCore.aden (s.toCore.domOf s.ref.tile)

theorem storable_of_stores {s : State} {acc : Acc} {va : Word} {bytes : List (Option Byte)} (h : stores s acc va bytes = true) :
    ∃ l pl, Storable s acc va bytes l pl := by
  simp only [stores, Bool.and_eq_true, decide_eq_true_eq, Bool.not_eq_true', List.all_eq_true, Bool.or_eq_true] at h
  obtain ⟨⟨⟨⟨h1, h2⟩, h3⟩, h4⟩, h5⟩ := h
  obtain ⟨l, hl, h4⟩ := ok_of_okAnd _ _ h4
  obtain ⟨pl, hp, -⟩ := ok_of_okAnd _ _ h4
  exact ⟨l, pl, h1, h2, h3, hl, hp, h5⟩

/-- What an atomic meets at its place. -/
def updates (s : State) (l : Loc) (n : Nat) : Bool :=
  !l.isDevice && decide (s.poison = []) && !s.toCore.fenced s.ref && !s.toCore.storesOver s.ref.tile l.pa n &&
    !s.older.atomicBusy s.ref.tile l.pa n && !s.toCore.recallBusy l.pa &&
    !s.older.lineBusy s.ref.tile (s.toCore.l1Place s.ref.tile (l.pa / 128)) l n true

theorem ready_of_updates {s : State} {l : Loc} {n : Nat} (h : updates s l n = true) : AtomicReady s l n := by
  simp only [updates, Bool.and_eq_true, decide_eq_true_eq, Bool.not_eq_true'] at h
  obtain ⟨⟨⟨⟨⟨⟨h1, h2⟩, h3⟩, h4⟩, h5⟩, h6⟩, h7⟩ := h
  exact ⟨h1, h2, h3, h4, h5, h6, h7⟩

/-- Whether a release goes on at once. -/
def releases (s : State) (q : Scope) : Bool :=
  decide (s.old.replay = []) && decide (s.old.late = []) && decide (s.old.rout = none) && decide (s.old.macs = []) && decide (s.old.fo = none) &&
    s.releasedNow q

theorem ready_of_releases {s : State} {q : Scope} (h : releases s q = true) : ReleaseReady s q := by
  simp only [releases, Bool.and_eq_true, decide_eq_true_eq] at h
  obtain ⟨⟨⟨⟨⟨h1, h2⟩, h3⟩, h4⟩, h5⟩, h6⟩ := h
  exact ⟨h1, h2, ⟨h3, h4⟩, h5, h6⟩

/-- Scalars: s8 = 1, a misaligned address; s9 a device page, s10 a page that may not be written, s11 the last word of the own scratchpad. -/
def addressing : Ctx := { ctx0 with r := { ctx0.r with s := [(1, 5), (4, 0x100000), (5, 0xFFFFFFFFFF000100), (8, 1), (9, 0x120000), (10, 0x110000), (11, 0xFFFFFFFFFF003FF8)] } }

/-- The same with a third page, of a device, and two pages side by side. -/
def mapped (x : Ctx) : State :=
  onTile (st x) fun tl => { tl with tlb := tlb0 ++ [⟨0, 18, 0, 0x121071, 0⟩, ⟨0, 32, 0, 0x200071, 0⟩, ⟨0, 33, 0, 0x210071, 0⟩] }

/-- A RAW stream of four steps at 0x100000, one over two pages, an MX one of block 32, and one of indices in the scratchpad. -/
def raw0 : BitVec 256 := 0x100000 + 4 * 2 ^ 128 + 1 * 2 ^ 216 + 1 * 2 ^ 200 + 32 * 2 ^ 168

def raw1 : BitVec 256 := raw0 + 0x10FF80

def mx0 : BitVec 256 := 0x100000 + 1 * 2 ^ 60 + 2 * 2 ^ 58 + 4 * 2 ^ 128 + 1 * 2 ^ 216 + 1 * 2 ^ 200 + 6 * 2 ^ 168 + 3 * 2 ^ 100 + 0x800 * 2 ^ 64

def streaming : Ctx :=
  { addressing with
    a := [(3, { Stream.init with desc := raw0 }), (4, { Stream.init with desc := raw0, i0 := 3 }), (5, { Stream.init with desc := mx0 }),
      (6, { Stream.init with desc := mx0 }), (7, { Stream.init with desc := raw1 })] }

/-- A narrow release of another quad covers the words at 0x100000, and that die has something to publish. -/
def narrow : State :=
  let s := st addressing
  let c := { s.toCore with tags := [⟨.primary, 0x20000, 0, 0, some 5⟩], reps := [⟨0, 32, 0, 32, 0, [0], [], 0, 0, false⟩] }
  { s with toCore := c, saved := some c }

theorem witness_ScalarLoads :
    ready (mapped addressing) g0 [4, 0, 5, 8] = true ∧ ((mapped addressing).scalar 4 + 0 + (0 : BitVec 11).signExtend 64).toNat % 8 = 0 ∧
    loads (mapped addressing) (.load 3) 0x100000 8 false (fun _ _ => true) = true ∧
    loads (mapped addressing) (.load 3) 0x120000 8 false (fun l _ => l.isDevice) = true ∧
    loads (mapped addressing) (.load 3) 0xFFFFFFFFFF003FF8 8 true (fun l _ => l.isScratch 0) = true ∧
    (0x100001 : Word).toNat % 8 ≠ 0 ∧
    okAnd ((mapped addressing).toCore.translate ((mapped addressing).toCore.who (.task 0 0)) (.load 3) 0x100001) (fun l => l.pa == 0x100001) = true ∧
    trapAnd ((mapped addressing).toCore.translate ((mapped addressing).toCore.who (.task 0 0)) (.load 3) 0xFFFFFFFFFF004000) (fun i => i.kind == kPerm) = true ∧
    loads (mapped addressing) (.load 3) 0x100000 8 true (fun l pl => let u := (mapped addressing).afterLoad 8 true true l pl
      u.toCore.widen (u.toCore.domOf 0) 0 pl l.pa 8 == none) = true ∧
    ready narrow g0 [4, 0] = true ∧ loads narrow (.load 3) 0x100000 8 true (fun l pl => let u := narrow.afterLoad 8 true true l pl
      u.toCore.widen (narrow.toCore.domOf 0) 0 pl l.pa 8 == some 0) = true ∧
    (mapped addressing).rels = [] ∧ ((mapped addressing).toCore.tile 0).pair = none ∧ (mapped addressing).msgs = [] ∧ (mapped addressing).pages = [] ∧
    (mapped addressing).me.replay = [] ∧ (mapped addressing).me.late = [] ∧ ((mapped addressing).toCore.tile 0).l1 = [] ∧
      (mapped addressing).reps = [] ∧
    (255 : Nat) < 2 ^ (8 * 2 ^ (0 : BitVec 2).toNat) ∧ (st ctx0).here = true ∧ (63 : BitVec 6) ≠ 0 := by decide +kernel

/-- A task whose atomic is performed elsewhere. -/
def waitingFar : Ctx := { waiting with far := some ⟨9, 0x100000, none⟩ }

theorem witness_Landings :
    (ev (idle waiting) (.queueEntryLand 0 9 false 7)).event = some (.queueEntryLand 0 9 false 7) ∧
    (ev (idle waiting) (.registerWriteLand 0 9 7)).event = some (.registerWriteLand 0 9 7) ∧ (idle waiting).toCore.ctx? (.task 0 0) = some waiting ∧
    waiting.pend.find? (fun p => p.id = 9) = some ⟨9, .s 7⟩ ∧ waiting.pend.find? (fun p => p.id = 10) = none ∧
    waitingFar.far = some ⟨9, 0x100000, none⟩ ∧ (7 : BitVec 6) ≠ 0 := by decide +kernel

/-- A pair whose loop is joined, between streams 4 of both. -/
def pair0 : Pair :=
  { phase := .joined, ploop := 0x100000, pbody := 0x100008, plabel := 0x100010, cloop := 0x100000, cbody := 0x100008, clabel := 0x100010, recs := [],
    pos := 0, count := 4, qmap := [], pq := 4, cq := 5, ebits := 2048, depth := 8, linked := true, pre := 0, fwd := 0, sig := [] }

def consumer : State :=
  let x : Ctx := { streaming with id := { streaming.id with desc := desc0.set 10 (BitVec.ofNat 64 (4 * 2 ^ 57)) } }
  { onTile (st streaming) (fun tl => { tl with queue := [streaming, x], pair := some pair0 }) with
    ref := .task 0 1, slot := 3, bundle := some { bun0 (.task 0 0) with pres := [3] } }

theorem witness_QueueLoads :
    ready (mapped streaming) g0 [4, 0] = true ∧ (mapped streaming).matched true 3 = none ∧ (mapped streaming).matched true 7 = none ∧
    (mapped streaming).old.pending (.stream 3) = false ∧ (mapped streaming).room (some 4) 1 = true ∧
    loadsAll (mapped streaming) (.stRd 3) 0x100000 256 false false (fun _ now _ => !now) = true ∧
    ((mapped streaming).me.stream 3).addr = 0x100000 ∧ ((mapped streaming).me.stream 3).eb = 256 ∧ ((mapped streaming).me.stream 3).alloc = false ∧
    ((mapped streaming).me.stream 3).mx = none ∧ ((mapped streaming).me.stream 7).addr = 0x20FF80 ∧
    loadsAll (mapped streaming) (.stRd 7) 0x20FF80 256 false false (fun bs _ _ => bs.length == 256) = true ∧
    ((mapped streaming).me.stream 5).mx.isSome = true ∧ ((mapped streaming).me.stream 5).addr = 0x100000 ∧
    ((mapped streaming).me.stream 5).saddr = 0x104000 ∧ ((mapped streaming).me.stream 5).eb = 48 ∧ ((mapped streaming).me.stream 5).nb = 3 ∧
    loadsAll (mapped streaming) (.stRd 5) 0x100000 48 false false (fun bs now t => loadsAll t (.stRd 5) 0x104000 3 false false fun _ _ u =>
      (u.loaded (some 4) (BitVec.ofNat 2048 (leNat bs)) now).roomQ (32 + 1) 1) = true ∧
    loadsAll (mapped streaming) (.stRd 5) 0x104000 3 false false (fun _ _ t => t.roomQ (32 + 1) 1) = true ∧
      (mapped streaming).roomQ (32 + 1) 1 = true ∧
    consumer.guardOk g0 = true ∧ consumer.old.pending (.stream 4) = false ∧ consumer.matched true 4 = some pair0 := by decide +kernel

/-- The masks of lanes 0 and 2, and of lanes 5 and 63. -/
def masked : State := mapped { streaming with r := { streaming.r with m := [(2, 5), (3, 0x8000000000000020)] } }

theorem witness_QueueLoads_gather :
    masked.mask 2 = 5 ∧ masked.guardOk g0 = true ∧ masked.readable 4 = true ∧ masked.room (some 4) 1 = true ∧ (masked.me.stream 3).mx = none ∧
    loadsAll masked (.stRd 3) 0x100000 256 false false (fun bs _ t =>
      gathers ⟨false, 2⟩ (masked.scalar 4) (BitVec.ofNat 2048 (leNat bs)) (masked.mask 2) (List.range 64) t fun vs nows _ => vs.length == 64 && !nows) = true := by
  decide +kernel

/-- The machine with a descriptor at 0x100000. -/
def described (w : Word) : State := { st streaming with mem := code [0x100000, 0, w, 0x0000000001000100] }

theorem witness_QueueLoads_descriptor :
    ready (described 4) g0 [4, 5] = true ∧ ((described 4).scalar 4).toNat % 32 = 0 ∧ ((described 4).scalar 5).toNat % 32 = 0 ∧
    loads (described 4) (.load 3) 0x100000 32 false (fun l pl =>
      descOk (BitVec.ofNat 256 (leNat ((described 4).loadValue 0x100000 32 false l pl))) && !l.isScratch 0) = true ∧
    loads (described 0) (.load 3) 0x100000 32 false (fun l pl =>
      !descOk (BitVec.ofNat 256 (leNat ((described 0).loadValue 0x100000 32 false l pl)))) = true ∧
    loads (onTile (st streaming) fun tl => { tl with win := writeRun [] 0x100 (wordsBytes [0x100000, 0, 4, 0x0000000001000100]) }) (.load 3) 0xFFFFFFFFFF000100 32 false
      (fun l pl => l.isScratch 0 && descOk (BitVec.ofNat 256 (leNat
        ((onTile (st streaming) fun tl => { tl with win := writeRun [] 0x100 (wordsBytes [0x100000, 0, 4, 0x0000000001000100]) }).loadValue 0xFFFFFFFFFF000100 32 false l pl)))) = true := by
  decide +kernel

theorem witness_StreamSteps :
    let x : Stream := { Stream.init with desc := raw0 }
    let y : Stream := { Stream.init with desc := raw0, i0 := 3 }
    x.i0.toNat < x.cnt0 ∧ x.i1.toNat < x.cnt1 ∧ x.i2.toNat < x.cnt2 ∧ x.i0.toNat + 1 < x.cnt0 ∧ y.i0.toNat < y.cnt0 ∧ y.i0.toNat + 1 = y.cnt0 ∧
    y.i1.toNat + 1 = y.cnt1 ∧ y.i2.toNat + 1 = y.cnt2 := by decide +kernel

def everyScope : List Scope := [.ctx, .tile, .quad, .die, .side, .mod, .host, .pod, .span, .sys]

def bytesOf (n : Nat) (v : Word) : List (Option Byte) := (leBytes n v.toNat).map some

/-- The bytes of an entry that a queue store writes. -/
def streamBytes (s : State) (x : Stream) (m : BitVec 4) (e : Entry) : List (Option Byte) :=
  (leBytes x.eb e.toNat).mapIdx fun i b => if x.mx.isSome || (s.mask m).getLsbD (i / 4) then some b else none

theorem witness_StoresAreHeld :
    ready (st addressing) g0 [4, 0, 1, 8] = true ∧ stores (st addressing) (.store 3) 0x100000 (bytesOf 8 5) = true ∧
    stores (st addressing) (.store 3) 0xFFFFFFFFFF003FF8 (bytesOf 8 5) = true ∧ stores (st addressing) (.store 0) 0x10FFFF (bytesOf 1 5) = true ∧
    ((st addressing).scalar 4 + (st addressing).scalar 8 + 0).toNat % 2 ≠ 0 ∧
    okAnd ((st addressing).toCore.translate ((st addressing).toCore.who (.task 0 0)) (.store 1) 0x100001) (fun l => l.pa == 0x100001) = true ∧
    (st addressing).bundle = some (bun0 (.task 0 0)) ∧ releases (st addressing) .host = true ∧ releases (st addressing) .pod = true ∧
    scopeCode .host < 7 ∧ 7 ≤ scopeCode .pod := by decide +kernel

theorem witness_StoresAreHeld_streams :
    (mapped streaming).guardOk g0 = true ∧ (mapped streaming).matched false 3 = none ∧ (mapped streaming).matched false 7 = none ∧
    okAnd ((mapped streaming).src a1) (fun r => !r.2.old.pending (.stream 3) && let x := r.2.me.stream 3
      stores r.2 (.stWr 3) x.addr (streamBytes r.2 x 0 r.1)) = true ∧
    okAnd ((mapped streaming).src a1) (fun r => !r.2.old.pending (.stream 7) && let x := r.2.me.stream 7
      let first := 65536 - x.addr.toNat % 65536
      decide (first < x.eb) && stores r.2 (.stWr 7) x.addr ((streamBytes r.2 x 0 r.1).take first) &&
        stores r.2 (.stWr 7) (x.addr + BitVec.ofNat 64 first) ((streamBytes r.2 x 0 r.1).drop first)) = true ∧
    ready masked g0 [4] = true ∧ okAnd (masked.src a1) (fun r => okAnd (r.2.src b2) fun q =>
      ((List.range 64).filter fun i => (q.2.mask 3).getLsbD i).all fun i =>
        let e := masked.scalar 4 + BitVec.ofNat 64 (lane r.1 i * 4)
        decide (e.toNat % 4 = 0) && stores q.2 (.store 2) e ((leBytes 4 (lane q.1 i)).map some)) = true := by decide +kernel

/-- The collection buffer one entry before its end, and at its end. -/
def collecting (n : Nat) : State := st { streaming with ctp := n, q := [(1, [⟨1, some 7⟩])] }

/-- 10 R269: the last entry of the buffer writes 96 rows plain and 96 transposed. -/
theorem witness_StoresAreHeld_collection : (collecting 143).guardOk g0 = true ∧
    okAnd ((collecting 142).src a1) (fun r => r.2.here && decide (r.2.me.ctp < 143)) = true ∧
    okAnd ((collecting 143).src a1) (fun r => r.2.here && r.2.me.ctp == 143 &&
      let s2 := r.2.setMe { r.2.me with ct := mapSet 0 r.2.me.ct 143 r.1, ctp := 0 }
      (s2.me.stream 5).mx.isSome && (s2.me.stream 6).mx.isSome &&
        okAnd (s2.writeRows 5 .rne (fun r c => ctElem s2.me.ct r c) (List.range 96)) fun t =>
          okAnd (t.writeRows 6 .rne (fun c r => ctElem s2.me.ct r c) (List.range 96)) fun _ => true) = true := by decide +kernel

/-- A replay queue of one store, and one whose handler's kill made it dead. -/
def parked0 (dead : Bool) : Parked := ⟨0x100000, 0xFF, 5, 0, dead, true, true, 0, 0, { mkTrap kPage cNotmapped with addr := 0x100000 }⟩

def replaying (dead : Bool) : Ctx := { ctx0 with replay := [parked0 dead], order := 1 }

/-- A task with sixteen parked stores. -/
def crowded : Ctx := { addressing with replay := (List.range 16).map fun i => { parked0 false with order := i }, order := 16 }

theorem witness_StoresAreHeld_waits : ready (st (replaying false)) g0 [4, 0, 1] = true ∧ (st (replaying false)).old.deadTrap = none ∧
    (st (replaying false)).old.replay ≠ [] := by decide +kernel

def msg0 : StoreMsg := ⟨7, 0, .primary, 0x100000, [some 5], none, false⟩

def msgW : StoreMsg := ⟨7, 0, .primary, 0xF000000100, [some 5], none, false⟩

/-- A store to device memory. -/
def msgD : StoreMsg := ⟨8, 0, .primary, 0x120000, [some 5], none, true⟩

/-- A release in progress of the task: a fence, or a release store of the held message. -/
def releasing0 (k : RelKind) (sig : List StoreMsg) : State :=
  let s := st ctx0
  { s with toCore := { s.toCore with rels := [⟨3, k, .task 0 0, 0x10000000000, .mod, [1], sig, [], none⟩] } }

def fencing : State := releasing0 .fence []

theorem witness_StoresParkOrPerform :
    ready (st addressing) g0 [10, 0, 1] = true ∧ (st addressing).here = true ∧ (st addressing).ref.isHc = false ∧
    ((st addressing).scalar 10 + 0).toNat % 8 = 0 ∧
    trapAnd ((st addressing).toCore.translate ((st addressing).toCore.who (.task 0 0)) (.store 3) 0x110000) (fun i => i.kind == kPerm) = true ∧
    (st addressing).me.id.logit = false ∧ (st addressing).me.late = [] ∧ (st addressing).me.replay.length < 16 ∧
    ready (st crowded) g0 [10, 0, 1] = true ∧ 16 ≤ (st crowded).me.replay.length ∧ (st crowded).me.late = [] ∧
    (∀ p ∈ (st crowded).me.replay, p.dead = false ∧ vpageOf p.va ≠ vpageOf 0x110000) ∧
    trapAnd ((st crowded).toCore.translate ((st crowded).toCore.who (.task 0 0)) (.store 3) 0x110000) (fun i => i.kind == kPerm) = true ∧
    (st ctx0).toCore.holder (.task 0 0) msgW = none ∧ paRegion msgW.pa = .win 0 0x100 ∧ (st ctx0).poison = [] ∧ msgW.tag = none ∧
    (st ctx0).toCore.holder (.task 0 0) msg0 = none ∧ msgDirect msg0 = false ∧ (st ctx0).toCore.ctx? (.task 0 0) = some ctx0 ∧ msg0.dev = false ∧
    (st ctx0).toCore.holder (.task 0 0) msgD = none ∧ msgDirect msgD = false ∧ msgD.dev = true ∧ ((st ctx0).toCore.tile 0).devOut = [] ∧
    ((onTile (st ctx0) fun tl => { tl with devOut := [msgD] }).toCore.tile 0).devOut ≠ [] ∧
    fencing.toCore.holder (.task 0 0) msg0 = some 3 ∧ fencing.toCore.ctx? (.task 0 0) = some ctx0 ∧
    (releasing0 .store [msg0]).toCore.holder (.task 0 0) msg0 = some 3 := by decide +kernel

/-- An atomic of n bytes at a VA can be performed now, in a place with the property, and needs no forced publish. -/
def atomicFree (s : State) (e : Word) (n : Nat) (p : Loc → Bool) : Bool :=
  okAnd (s.toCore.translate (s.toCore.who s.ref) (.atomic (if n = 8 then 3 else 2)) e) fun l =>
    updates s l n && !s.toCore.aden (s.toCore.domOf s.ref.tile) && decide (s.toCore.widen (s.toCore.domOf s.ref.tile) s.ref.tile .primary l.pa n = none) && p l

/-- A store of the tile to 0x100000 on its way. -/
def storing : State :=
  let s := st addressing
  { s with toCore := { s.toCore with msgs := [.storeAtHome msg0] } }

/-- A replica of the page at 0x100000 on the tile's die, without dirty bytes. -/
def replicated : State :=
  let s := st addressing
  let c := { s.toCore with reps := [⟨0, 16, 0, 0x100000, 0, [], [], 0, 0, false⟩] }
  { s with toCore := c, saved := some c }

theorem witness_Atomics :
    ready (st addressing) g0 [11, 4, 0, 1] = true ∧ (st addressing).here = true ∧ (st addressing).reps = [] ∧
      (∀ q ∈ everyScope, releases (st addressing) q = true) ∧
    atomicFree (st addressing) 0xFFFFFFFFFF003FF8 8 (fun l => l.isScratch 0 && decide (l.pa % Config.windowSize + 8 ≤ Config.windowSize)) = true ∧
    atomicFree (st addressing) 0xFFFFFFFFFF003FF8 4 (fun l => l.isScratch 0 && decide (l.pa % Config.windowSize + 4 ≤ Config.windowSize)) = true ∧
    atomicFree (st addressing) 0x100000 8 (fun l => !l.isScratch 0 && !(st addressing).toCore.atomicFar 0 l.pa && decide (paRegion l.pa = .hbm 0x100000) &&
      decide (l.pa % 8 = 0)) = true ∧ (6 : BitVec 6) ≠ 0 ∧
    ready replicated g0 [4, 0, 1] = true ∧ atomicFree replicated 0x100000 8 (fun l => !l.isScratch 0 && replicated.toCore.atomicFar 0 l.pa &&
      !isFar l.pa && decide (replicated.toCore.granules 0 l.pa 8 = [])) = true ∧ (∀ q ∈ everyScope, releases replicated q = true) ∧
    ready (mapped addressing) g0 [9, 0, 1] = true ∧ ((mapped addressing).scalar 9 + 0).toNat % 8 = 0 ∧
    okAnd ((mapped addressing).toCore.translate ((mapped addressing).toCore.who (.task 0 0)) (.atomic 3) 0x120000) (fun l => l.mt == 2) = true ∧
    ready storing g0 [4, 0, 1] = true ∧
    okAnd (storing.toCore.translate (storing.toCore.who (.task 0 0)) (.atomic 3) 0x100000) (fun l => !l.isDevice && storing.toCore.storesOver 0 l.pa 8) = true ∧
    okAnd (fencing.toCore.translate (fencing.toCore.who (.task 0 0)) (.atomic 3) 0x100000) (fun l => !l.isDevice && fencing.toCore.fenced fencing.ref) = true := by
  decide +kernel

/-- The units of a `red.add` can be added now, each at its place. -/
def reduces (s : State) (base : Word) (acc : Acc) : List (Nat × Nat × Nat) → Bool
  | [] => true
  | u :: us => okAnd (s.toCore.translate (s.toCore.who s.ref) acc (base + BitVec.ofNat 64 u.1)) (fun l => updates s l u.2.1) && reduces s base acc us

theorem witness_MemoryReductions :
    masked.guardOk g0 = true ∧ okAnd (masked.src a1) (fun r => !r.2.old.pending (.stream 3) && decide ((r.2.me.stream 3).mx = none) &&
      reduces r.2 (r.2.me.stream 3).addr (.atomic 2) (redUnits .i32 (r.2.mask 2) r.1) && decide ((redUnits .i32 (r.2.mask 2) r.1).length = 2) &&
      reduces r.2 (r.2.me.stream 3).addr (.atomic 3) (redUnits .i64 (r.2.mask 2) r.1)) = true ∧
    okAnd ((st streaming).src a1) (fun r => decide (r.2.mask 1 = 0)) = true ∧ (st streaming).guardOk g0 = true ∧
    atomicFree (st streaming) (0xFFFFFFFFFF000100 + BitVec.ofNat 64 252) 4 (fun l => l.isScratch 0 && decide (l.pa % Config.windowSize + 4 ≤ Config.windowSize)) = true ∧
    okAnd ((st streaming).src a1) (fun r => !r.2.old.pending (.stream 5) && (r.2.me.stream 5).mx.isSome) = true := by decide +kernel

/-- A task with an unacknowledged store. -/
def storing1 : Ctx := { ctx0 with unacked := [7] }

theorem witness_Fences :
    (st ctx0).guardOk g0 = true ∧ (∀ q ∈ everyScope, releases (st ctx0) q = true) ∧ (st storing1).guardOk g0 = true ∧ (st storing1).old.replay = [] ∧
    (st storing1).old.late = [] ∧ (st storing1).old.rout = none ∧ (st storing1).old.macs = [] ∧ (st storing1).old.fo = none ∧
    (st storing1).releasedNow .pod = false ∧ (st storing1).releasedNow .host = false ∧ (st storing1).rels = [] ∧
    (st storing1).here = true ∧ scopeCode .host < 7 ∧ 7 ≤ scopeCode .pod ∧ (st ctx0).old.pend = [] ∧ (st ctx0).old.far = none ∧
    (∀ q ∈ (st ctx0).old.q, ∀ e ∈ q.2, e.data.isSome = true) ∧ (st ctx0).old.vs = [] ∧ scopeCode .die < 4 ∧ (st ctx0).toCore.tagDie 0 = none ∧
    4 ≤ scopeCode .mod ∧ narrow.guardOk g0 = true ∧ narrow.toCore.tagDie 0 = some 0 ∧ narrow.old.replay = [] ∧ narrow.old.late = [] ∧
    narrow.old.pend = [] ∧ narrow.old.far = none ∧ (∀ q ∈ narrow.old.q, ∀ e ∈ q.2, e.data.isSome = true) ∧ narrow.old.vs = [] ∧
    (st (replaying false)).guardOk g0 = true ∧ (st (replaying false)).old.replay ≠ [] ∧ (∀ p ∈ (st (replaying false)).old.replay, p.dead = false) ∧
    (st (replaying true)).old.replay.find? (fun p => p.dead) = some (parked0 true) := by decide +kernel

/-! Barriers, launches, weights, versions, the Creel and KV pages. -/

/-- A barrier object in the own scratchpad, at s5. -/
def withBar (b : Bar) : State := onTile (st ctx0) fun tl => { tl with win := writeRun [] 0x100 (leBytes 16 b.image) }

/-- One in phase 3 with 2 of 4 pending, an erroneous one, and a retired one. -/
def bar0 : Bar := { Bar.start 3 4 with pending := 2, bytes := -5 }

/-- Whether n bytes at a PA are of HBM or a scratchpad, aligned. -/
def ordinary (pa n : Nat) : Bool :=
  decide (pa % n = 0) && match paRegion pa with
    | .hbm _ => true
    | .win _ k => decide (k + n ≤ 0x400000)
    | _ => false

theorem ordinaryPlace_of_ordinary {pa n : Nat} (h : ordinary pa n = true) : OrdinaryPlace pa n := by
  simp only [ordinary, Bool.and_eq_true, decide_eq_true_eq] at h
  refine ⟨h.1, ?_⟩
  have h2 := h.2
  split at h2 <;> simp_all

/-- Whether an atomic update of n bytes at a PA is not held back. -/
def isFree (s : State) (pa n : Nat) : Bool :=
  ordinary pa n && !s.toCore.overDirty (dieOf s.ref.tile) pa n && !s.toCore.storesOver s.ref.tile pa n && !s.older.atomicBusy s.ref.tile pa n &&
  !s.toCore.recallBusy pa && decide ((s.toCore.page (pa / 65536)).mode ≠ .draining) && decide (s.poison = []) && !s.toCore.aden (s.toCore.domOf s.ref.tile)

theorem placeFree_of_isFree {s : State} {pa n : Nat} (h : isFree s pa n = true) : PlaceFree s pa n := by
  simp only [isFree, Bool.and_eq_true, decide_eq_true_eq, Bool.not_eq_true'] at h
  obtain ⟨⟨⟨⟨⟨⟨⟨h0, h1⟩, h2⟩, h3⟩, h4⟩, h5⟩, h6⟩, h7⟩ := h
  exact ⟨ordinaryPlace_of_ordinary h0, h1, h2, h3, h4, h5, h6, h7⟩

def isBar (s : State) (va : Word) (q : Scope) (p : Loc → Bool) : Bool :=
  decide (va.toNat % 16 = 0) && okAnd (s.toCore.translate (s.toCore.who s.ref) (.atomic 4) va) fun l =>
    barPlace l && releases s q && isFree s l.pa 16 && p l

/-- With barFree as the statements say it. -/
theorem barFree_of_isBar {s : State} {va : Word} {q : Scope} {p : Loc → Bool} (h : isBar s va q p = true) : ∃ l, barFree s va l q ∧ p l = true := by
  simp only [isBar, Bool.and_eq_true, decide_eq_true_eq] at h
  obtain ⟨l, hl, h2⟩ := ok_of_okAnd _ _ h.2
  simp only [Bool.and_eq_true] at h2
  exact ⟨l, ⟨h.1, hl, h2.1.1.1, ready_of_releases h2.1.1.2, placeFree_of_isFree h2.1.2⟩, h2.2⟩

/-- What a wait for a barrier meets. -/
def seesBar (b : Bar) (p : Bar → Bool) : Bool :=
  let s := withBar b
  decide ((s.scalar 5).toNat % 16 = 0) && okAnd (s.toCore.translate (s.toCore.who s.ref) (.load 4) (s.scalar 5)) fun l =>
    barPlace l && decide (paRegion l.pa = .win s.ref.tile 0x100) && !s.older.lineBusy s.ref.tile (s.toCore.l1Place s.ref.tile (l.pa / 128)) l 16 true &&
      !s.older.forwarding (dieOf s.ref.tile) (l.pa / 65536) && decide (s.poison = []) &&
      decide (s.toCore.widen (s.toCore.domOf s.ref.tile) s.ref.tile .primary l.pa 16 = none) && p (Bar.read (leNat (s.toCore.readLoc s.ref.tile .primary l 16 true)))

/-- A context waiting for phase 3 of the barrier at 0xF000000100. -/
def barWaiter (n : BitVec 16) : Ctx := { ctx0 with status := .waiting (.bar 0xF000000100 n) }

theorem witness_BarrierOperations :
    ready (withBar bar0) g0 [5, 1, 2, 0] = true ∧ (withBar bar0).here = true ∧
      isBar (withBar bar0) ((withBar bar0).scalar 5) .die (fun _ => true) = true ∧
    isBar (st ctx0) ((st ctx0).scalar 4) .sys (fun l => decide (paRegion l.pa = .hbm 0x100000)) = true ∧
    0 < ((withBar bar0).scalar 1).toNat ∧ ((withBar bar0).scalar 1).toNat ≤ 65535 ∧ 65535 < ((withBar bar0).scalar 4).toNat ∧
    ((withBar bar0).scalar 0).toNat = 0 ∧
    isBar (withBar bar0) ((withBar bar0).scalar 5) .die (fun l => ((withBar bar0).toCore.barAt l.pa == bar0) &&
      ((withBar bar0).toCore.barAt l.pa).update 2 0 0 0 == some { bar0 with pending := 0 } &&
      ((withBar bar0).toCore.barAt l.pa).update 2 2 0 0 == some { bar0 with pending := 0, drops := 2 } &&
      (((withBar bar0).toCore.barAt l.pa).update 3 0 0 0).isNone && (((withBar bar0).toCore.barAt l.pa).update 0 0 5 0).isSome) = true ∧
    -2147483648 ≤ ((withBar bar0).scalar 1).toInt ∧ ((withBar bar0).scalar 1).toInt ≤ 2147483647 := by decide +kernel

theorem witness_BarrierOperations_objects :
    bar0.ini = true ∧ bar0.ret = false ∧ bar0.pending ≤ bar0.expected ∧ bar0.expected ≠ 0 ∧ 1 ≤ bar0.pending ∧ bar0.drops + 4 ≤ bar0.expected ∧
    -2147483648 ≤ bar0.bytes + 0 - 0 ∧ bar0.bytes + 5 - 0 = 0 ∧ ¬ (bar0.pending = 2 ∧ bar0.bytes + 0 - 0 = 0) ∧ bar0.pending = 2 ∧
    bar0.pending < 3 ∧ bar0.expected < bar0.drops + 5 ∧ bar0.phase < 65536 ∧ bar0.expected < 65536 ∧ bar0.drops < 65536 ∧
    seesBar { bar0 with err := true } (fun x => x.err) = true ∧ seesBar { bar0 with lost := true } (fun x => !x.err && x.lost) = true ∧
    seesBar bar0 (fun x => !x.err && !x.lost && decide (0 ≤ sext16 (BitVec.ofNat 16 x.phase - 3).toNat)) = true ∧
    seesBar bar0 (fun x => !x.err && !x.lost && !x.ret && decide (sext16 (BitVec.ofNat 16 x.phase - 4).toNat < 0)) = true ∧
    seesBar { bar0 with ret := true } (fun x => !x.err && !x.lost && x.ret && decide (sext16 (BitVec.ofNat 16 x.phase - 4).toNat < 0)) = true ∧
    (withBar bar0).toCore.recallBusy 0xF000000100 = false ∧ ((withBar bar0).toCore.page (0xF000000100 / 65536)).mode ≠ .draining ∧
    ordinary 0xF000000100 16 = true ∧
      ({ (st ctx0).toCore with home := [(placeKey .primary 0x2000, { HomeLine.init with recalled := true })] } : Core).recallBusy 0x100000 = true ∧
    bar0.update 2 0 5 0 = some { bar0 with phase := 4, pending := 4, bytes := 0 } ∧ bar0.update 3 0 0 0 = none ∧
    (let s := onTile (idle (barWaiter 3)) fun tl => { tl with win := writeRun [] 0x100 (leBytes 16 bar0.image) }
     s.toCore.ctx? (.task 0 0) = some (barWaiter 3) ∧ (s.toCore.barAt 0xF000000100).waitEnd 3 ≠ .waits ∧
       (s.toCore.barAt 0xF000000100).waitEnd 4 = .waits) := by
  decide +kernel

def launch0 : Launch :=
  { ident := { Ident.init with taskid := 0x10000000000, desc := desc0 }, side := false, lq := 0, dpen := false, dphase := 0, dbar := 0, dies := [0], n := 1,
    next := 0, ready := true, since := 0, root := 16, spawns := 0, live := 1 }

/-- The domain holds the launch of serial 1. -/
def dom0 : Domain := { Domain.init with launches := [(1, some launch0)], lqs := [(0, [1])] }

def withDom (s : State) (d : Domain) : State :=
  let c := { s.toCore with doms := [(0, d)] }
  { s with toCore := c, saved := s.saved.map fun _ => c }

def withMem (s : State) (m : Memory) : State :=
  let c := { s.toCore with mem := m }
  { s with toCore := c, saved := s.saved.map fun _ => c }

/-- A page table for the first 16 GiB that maps 0x100000 alone: one table, whose entry 0 points to itself. -/
def walked (s : State) : State :=
  withDom (withMem s ([(0x10000, 3), (0x10002, 0x20), (0x10080, 0x71), (0x10082, 0x10)] : Memory)) { dom0 with ctl := [(0x40, 0x200001)] }

def rc0 (w1 root : Word) : List Word := [0xFFFFFFFFFF000200, w1, 0, 0, 0, 0, root, 0]

/-- A launch record at s5 in the own scratchpad, whose descriptor is at 0x200 there. -/
def launching (w1 root : Word) : State :=
  withDom (onTile (st ctx0) fun tl => { tl with win := writeRun (writeRun [] 0x100 (wordsBytes (rc0 w1 root))) 0x200 (wordsBytes desc0) }) dom0

/-- What `lnch` meets: its record and descriptor can be read, and the machine then, with the codes of what they hold. -/
def launches (w1 root : Word) (p : State → List (Bool × Nat) → Bool) : Bool :=
  let s := launching w1 root
  s.guardOk g0 && s.readable 5 && releases s .mod && decide ((s.scalar 5).toNat % 64 = 0) &&
    loads s (.load 3) (s.scalar 5) 64 true fun l pl =>
      let rc := wordsIn (s.loadValue (s.scalar 5) 64 true l pl) 8
      let s1 := s.afterLoad 64 false true l pl
      let va := rc.getD 0 0
      decide (rc = rc0 w1 root) && decide (va.toNat % 256 = 0) && loads s1 (.load 3) va 256 true fun l' pl' =>
        let s2 := s1.afterLoad 256 false true l' pl'
        p s2 (launchCodes s2 rc (wordsIn (s1.loadValue va 256 true l' pl') 32))

theorem witness_LaunchesAndWeights :
    launches 0 0 (fun _ codes => (leastOf codes).isNone) = true ∧
      launches 0x400 0 (fun _ codes => leastOf codes == some 2) = true := by decide +kernel

theorem witness_LaunchesAndWeights_roots :
    launches 0 0x100001 (fun s _ => trapAnd (s.toCore.translateAligned (s.toCore.who s.ref) (.atomic 3) 0x100001 8) fun _ => true) = true ∧
    launches 0 0x100800 (fun s codes => (leastOf codes).isNone && s.here &&
      okAnd (s.toCore.translate (s.toCore.who s.ref) (.atomic 3) 0x100800) fun l => !l.isDevice && isFree s l.pa 8) = true ∧
    (0x100800 : Word).toNat % 8 = 0 := by decide +kernel

theorem witness_LaunchesAndWeights_waits :
    ready (st ctx0) g0 [1] = true ∧ releases (st ctx0) .mod = true ∧ ((st ctx0).scalar 1).toNat % 64 ≠ 0 ∧ ((st ctx0).scalar 1).toNat % 256 ≠ 0 ∧
    trapAnd ((st ctx0).toCore.translate ((st ctx0).toCore.who (.task 0 0)) (.load 3) 0xFFFFFFFFFF004000) (fun _ => true) = true ∧
    ready (st storing1) g0 [1] = true ∧ (st storing1).old.replay = [] ∧ (st storing1).old.late = [] ∧ (st storing1).old.rout = none ∧
    (st storing1).old.macs = [] ∧ (st storing1).old.fo = none ∧ (st storing1).rels = [] ∧ (st storing1).releasedNow .mod = false := by decide +kernel

/-- A task of the launch, with weight w and its root at a VA, or in the device. -/
def weighing (w : BitVec 48) (root : Word) : State :=
  let x := { ctx0 with id := { ctx0.id with rootVA := root }
                       r := { ctx0.r with twgt := w, s := [(1, 5), (2, 8), (4, 0xFFFFFFFFFF000200), (6, 0x1000000), (7, 0x1000001)] } }
  walked (onTile (st x) fun tl => { tl with win := writeRun [] 0x200 (wordsBytes desc0) })

/-- What `spawn` meets. -/
def spawns (w : BitVec 48) (p : List (Bool × Nat) → Bool) : Bool :=
  let s := weighing w 0
  ready s g0 [4, 1, 2] && releases s .mod && decide ((s.scalar 4).toNat % 256 = 0) && loads s (.load 3) (s.scalar 4) 256 true fun l pl =>
    let desc := wordsIn (s.loadValue (s.scalar 4) 256 true l pl) 32
    let s1 := s.afterLoad 256 false true l pl
    let d := s.toCore.domOf s.ref.tile
    let list := (s1.toCore.dom d).spawnsA
    !s.me.id.side && decide (mapGet none (s1.toCore.dom d).launches (serialOf s.me.id.taskid) = some launch0) &&
    p ((false, 1) :: (decide (s.me.r.twgt.toNat < 2), 12) :: (!(spatial desc).isEmpty, 11) :: (decide (4096 ≤ list.length), 9) ::
      s1.toCore.descCodes d false desc (s1.toCore.namedDies d false desc))

theorem witness_LaunchesAndWeights_weights :
    spawns 8 (fun codes => (leastOf codes).isNone) = true ∧ spawns 1 (fun codes => leastOf codes == some 12) = true ∧
    ready (weighing 8 0) g0 [0, 1, 2, 6, 7] = true ∧ ((weighing 8 0).scalar 0).toNat = 0 ∧
      (weighing 8 0).me.r.twgt.toNat < ((weighing 8 0).scalar 6).toNat ∧
    2 ^ 24 < ((weighing 8 0).scalar 7).toNat ∧
      2 ^ 48 ≤ (weighing (BitVec.allOnes 48) 0).me.r.twgt.toNat + ((weighing (BitVec.allOnes 48) 0).scalar 1).toNat ∧
    (weighing 8 0).me.id.rootVA = 0 ∧ mapGet none ((weighing 8 0).toCore.dom 0).launches (serialOf (weighing 8 0).me.id.taskid) = some launch0 ∧
    ((weighing 8 0).scalar 2).toNat ≠ 0 ∧ ((weighing 8 0).scalar 2).toNat ≤ (weighing 8 0).me.r.twgt.toNat ∧ releases (weighing 8 0) .mod = true ∧
    launch0.ident.cpen = false ∧ ((weighing 8 0).scalar 6).toNat ≤ 2 ^ 24 ∧
      (weighing 8 0).me.r.twgt.toNat + ((weighing 8 0).scalar 6).toNat < 2 ^ 48 ∧
    ({ launch0 with ident := { launch0.ident with cpen := true } } : Launch).ident.cpen = true ∧ launch0.root = BitVec.ofNat 64 16 ∧
      (0 : Nat) < 16 := by
  decide +kernel

theorem witness_LaunchesAndWeights_memory_root :
    let s := weighing 8 0x100800
    ready s g0 [2, 6] = true ∧ s.here = true ∧ s.me.id.rootVA ≠ 0 ∧ s.toCore.domOf 0 = 0 ∧
    mapGet none (s.toCore.dom 0).launches (serialOf s.me.id.taskid) = some launch0 ∧ (s.scalar 2).toNat ≠ 0 ∧
    (match s.toCore.translateNow { deviceWho 0 with tile := 0 } (.atomic 3) 0x100800 with
    | .ok x => ordinary x.pa 8
    | .error _ => false) = true ∧ s.toCore.rootBusy 0 0 0x100800 = false ∧ s.toCore.aden 0 = false ∧ releases s .mod = true := by decide +kernel

/-- Region 5: copy 0 published, copy 1 claimed, copy 2 free. -/
def region0 : Region :=
  { Region.init with en := true, cur := 0x7FFF, npg := 1, copies := [(0, ⟨0x10, 2, true, 0x7FFF⟩), (1, ⟨0x20, 1, true, 0⟩), (2, ⟨0x30, 0, true, 0⟩)] }

/-- One with no copy to claim, and one whose copy 1 is reclaimable. -/
def region1 : Region := { region0 with copies := [(0, ⟨0x10, 2, true, 0x7FFF⟩), (1, ⟨0x20, 1, true, 0⟩)] }

def region2 : Region := { region0 with copies := [(0, ⟨0x10, 2, true, 0x7FFF⟩), (1, ⟨0x20, 2, true, 0x7FF0⟩)] }

/-- A task of that domain, that has sent a publication or not. -/
def versions (cast : Option (Nat × List Nat)) : State :=
  withDom (st { ctx0 with cast := cast, r := { ctx0.r with s := [(1, 5), (2, 1), (3, 0x8000), (4, 6), (6, 7), (7, 0x7FFF), (8, 0)] } })
    { dom0 with regions := [(5, region0), (6, region1), (7, region2)], lver := 0x7FFF }

theorem witness_WeightVersions :
    ready (versions none) g0 [1, 2, 3, 4, 6, 7, 8] = true ∧ (versions none).here = true ∧ ((versions none).toCore.dom 0).lver = 0x7FFF ∧
    (((versions none).toCore.dom 0).region 0).en = false ∧ wbits ((versions none).scalar 8) 0 8 = 0 ∧
    ((versions none).toCore.dom 0).region (wbits ((versions none).scalar 4) 0 8) = region1 ∧ ((versions none).toCore.dom 0).claimable region1 = none ∧
    ((versions none).toCore.dom 0).region (wbits ((versions none).scalar 1) 0 8) = region0 ∧
      ((versions none).toCore.dom 0).claimable region0 = some 2 ∧
    ((versions none).toCore.dom 0).claimable region2 = some 1 ∧
    (mapGet Copy.init region0.copies (wbits ((versions none).scalar 8) 0 2)).state ≠ 1 ∧
      (mapGet Copy.init region0.copies (wbits ((versions none).scalar 2) 0 2)).state = 1 ∧
    sext16 (((versions none).scalar 7).extractLsb' 0 16 - region0.cur).toNat ≤ 0 ∧
      0 < sext16 (((versions none).scalar 3).extractLsb' 0 16 - region0.cur).toNat ∧
    0 < sext16 (((versions none).scalar 3).extractLsb' 0 16 - ((versions none).toCore.dom 0).lver).toNat ∧
    releases (versions none) .mod = true ∧ (versions none).me.cast = none ∧ (versions (some (9, []))).me.cast ≠ none ∧
    (∀ q ∈ everyScope, releases (versions (some (9, []))) q = true) ∧ 7 ≤ scopeCode .pod ∧
    (versions none).me.r.polMode = 0 ∧ (st { ctx0 with r := { ctx0.r with polMode := 2 } }).me.r.polMode ≠ 0 ∧
    (st { ctx0 with r := { ctx0.r with polMode := 2 } }).here = true := by decide +kernel

/-- A read acquires without waiting. -/
def acquires (s : State) (va : Word) (n : Nat) : Bool :=
  okAnd (s.toCore.translate (s.toCore.who s.ref) (.load 3) va) fun l => okAnd (s.toCore.placeOf (s.toCore.who s.ref) (.load 3) l) fun pl =>
    decide (s.toCore.widen (s.toCore.domOf s.ref.tile) s.ref.tile pl l.pa n = none)

theorem acquireFree_of_acquires {s : State} {va : Word} {n : Nat} (h : acquires s va n = true) : AcquireFree s va n := by
  obtain ⟨l, hl, h⟩ := ok_of_okAnd _ _ h
  obtain ⟨pl, hp, h⟩ := ok_of_okAnd _ _ h
  exact ⟨l, pl, hl, hp, of_decide_eq_true h⟩

/-- A task whose Creel ring of 16 records is in the own scratchpad at 0x2000, as far as WIDX w, with RIDX r; record 0 has POS 5. -/
def ringed (w : BitVec 32) (r : Nat) : State :=
  let x : Ctx := { ctx0 with r := { ctx0.r with crbase := 0x01FFFFFFFF002000, crlog := 4, crwi := w, crpos := 2 } }
  onTile (st x) fun tl => { tl with win := writeRun (writeRun [] 0x2008 (leBytes 8 r)) 0x204A [5] }

theorem witness_CreelAndPages_ring :
    ready (ringed 16 0) g0 [1, 2, 0] = true ∧ (ringed 16 0).me.ringOn = true ∧ (ringed 16 0).here = true ∧
    loadsAll (ringed 16 0) (.load 3) ((ringed 16 0).me.ringVA 8) 8 false true (fun bs _ _ =>
      decide (2 ^ (ringed 16 0).me.r.crlog.toNat ≤ ((ringed 16 0).me.r.crwi.toNat + 2 ^ 32 - wbits (leWord bs) 0 32) % 2 ^ 32)) = true ∧
    loadsAll (ringed 15 0) (.load 3) ((ringed 15 0).me.ringVA 8) 8 false true (fun bs _ s1 => acquires s1 ((ringed 15 0).me.ringVA 8) 8 &&
      decide (((ringed 15 0).me.r.crwi.toNat + 2 ^ 32 - wbits (leWord bs) 0 32) % 2 ^ 32 < 2 ^ (ringed 15 0).me.r.crlog.toNat) &&
      stores s1 (.store 3) ((ringed 15 0).me.recordVA 15) ((creelRecord 0 0 0 5 0 2 0 0 3).map some)) = true ∧
    (65535 : Nat) < 2 ^ 16 ∧ (4294967295 : Nat) < 2 ^ 32 ∧
    releases (ringed 1 0) .mod = true ∧ stores (ringed 1 0) (.store 3) ((ringed 1 0).me.ringVA 0) ((leBytes 8 1).map some) = true ∧
    (st ctx0).me.ringOn = false ∧ ready (st ctx0) g0 [1, 2, 0] = true ∧
    (let s := st { replaying false with r := { ctx0.r with crlog := 4 } }
     s.me.ringOn = true ∧ s.guardOk g0 = true ∧ s.old.replay ≠ [] ∧ ∀ p ∈ s.old.replay, p.dead = false) := by decide +kernel

/-- One store message holds a store. -/
theorem storeHeld_one (s : State) (pa : Nat) (pl : Place) (tag : Option (Nat × Nat × Option Nat)) (bytes : List (Option Byte)) :
    StoreHeld s { s with nid := s.nid + 1, bundle := s.bundle.map fun b => { b with outs := b.outs ++ [(s.ref, ⟨s.nid, s.ref.tile, pl, pa, bytes, tag, false⟩)] } }
      pa pl tag bytes := by
  refine ⟨[⟨s.nid, s.ref.tile, pl, pa, bytes, tag, false⟩], fun k => ?_, by simp, rfl⟩
  simp only [storedByte, List.findSome?]
  by_cases h : pa ≤ k
  · by_cases h2 : k < pa + bytes.length
    · simp only [h, h2, and_self, if_true]
      cases bytes.getD (k - pa) none <;> rfl
    · simp only [h, h2, and_false, if_false, if_true]
      rw [List.getD_eq_default _ _ (by omega)]
  · simp [h]

/-- The record i can be read and marked, as one that the rejection at p takes. -/
def marks1 (s : State) (i p : Nat) : Bool :=
  let va := s.me.recordVA i
  decide (s.me.parkedRun va 32 = none) && loadsAll s (.load 3) va 32 false true fun bs _ u =>
    decide (p ≤ leNat ((bs.drop 10).take 2) ∧ leNat ((bs.drop 12).take 4) = u.me.r.crseq.toNat) &&
      stores u (.store 1) (va + 20) ((leBytes 2 (leNat ((bs.drop 20).take 2) ||| 8)).map some)

theorem marked_of_marks1 {s : State} {i p : Nat} (any : Bool) (h : marks1 s i p = true) : ∃ t, Marked p 1 i any s true t := by
  simp only [marks1, Bool.and_eq_true, decide_eq_true_eq] at h
  obtain ⟨bs, now, u, hl, hp⟩ := loaded_of_loadsAll h.2
  simp only [Bool.and_eq_true, decide_eq_true_eq] at hp
  obtain ⟨l, pl, hs⟩ := storable_of_stores hp.2
  exact ⟨_, by
    unfold Marked
    refine ⟨bs, u, .inl ⟨h.1, now, hl⟩, ?_⟩
    rw [if_pos hp.1]
    exact ⟨_, .inl ⟨l, pl, hs, storeHeld_one u l.pa pl u.me.ftag _⟩, rfl, rfl⟩⟩

theorem witness_CreelAndPages_reject :
    loadsAll (ringed 1 0) (.load 3) ((ringed 1 0).me.ringVA 0) 8 false true (fun bs _ s1 => let wi := (ringed 1 0).me.r.crwi.toNat
      let k := min ((wi + 2 ^ 32 - wbits (leWord bs) 0 32) % 2 ^ 32) (2 ^ (ringed 1 0).me.r.crlog.toNat)
      decide (k = 1) && marks1 s1 (wi + 2 ^ 32 - k) 5) = true ∧ ready (ringed 1 0) g0 [1] = true ∧ wbits ((ringed 1 0).scalar 1) 0 16 = 5 ∧
    (ringed 1 0).me.ringOn = true ∧
    (∀ m : BitVec 2, (st { ctx0 with r := { ctx0.r with polMode := m, polPend := true } }).me.r.polMode = m ∧
      (st { ctx0 with r := { ctx0.r with polMode := m, polPend := true } }).me.r.polPend = true ∧ (st ctx0).me.r.polPend = false ∧
        (st ctx0).me.r.polAuto = false) := by
  decide +kernel

/-- A domain of one KV page, which tables hold or not; a table in the own scratchpad at s5, of CAP 2, with n pages of 32 tokens. -/
def table (held : List Nat) (n : Nat) : State :=
  withDom (onTile (st { ctx0 with r := { ctx0.r with s := [(1, 31), (2, 32), (5, 0xFFFFFFFFFF000100), (6, 0xFFFFFFFFFF000101)] } }) fun tl =>
    { tl with win := writeRun [] 0x100 (leBytes 10 (2 * 2 ^ 48 + n * 2 ^ 32 + 32 * n + 32 * 2 ^ 64)) })
    { dom0 with ctl := [(0x60, 0x10001), (0x61, 2)], kvHeld := held }

/-- The one page of the pool is the one taken, whichever of the free ones an allocation takes. -/
theorem takes_single (c : Core) (d : Nat) (h1 : (c.dom d).kvOn = true) (h2 : (c.dom d).kvHeld = []) (h3 : (c.dom d).kvCount = 1) : c.kvTake d = some 0 := by
  simp [Core.kvTake, h1, h2, h3, freePage, Nat.mod_one]

/-- An access to a sequence table can be made now. -/
def tableOk (s : State) (va : Word) (n : Nat) (p : Loc → Bool) : Bool :=
  decide (va.toNat % n = 0) && okAnd (s.toCore.translate (s.toCore.who s.ref) (.atomic (if n = 8 then 3 else 2)) va) fun l =>
    updates s l n && isFree s l.pa n && !s.older.forwarding (dieOf s.ref.tile) (l.pa / 65536) && p l

theorem tableReady_of_tableOk {s : State} {va : Word} {n : Nat} {p : Loc → Bool} (h : tableOk s va n p = true) : ∃ l, TableReady s va n l ∧
  p l = true := by
  simp only [tableOk, Bool.and_eq_true, decide_eq_true_eq] at h
  obtain ⟨l, hl, h2⟩ := ok_of_okAnd _ _ h.2
  simp only [Bool.and_eq_true, Bool.not_eq_true'] at h2
  exact ⟨l, ⟨h.1, hl, ready_of_updates h2.1.1.1, placeFree_of_isFree h2.1.1.2, h2.1.2⟩, h2.2⟩

/-- A sequence table is at a VA, with CAP 2, n pages of 32 tokens and LEN 32 n. -/
def tableAt (s : State) (va : Word) (n : Nat) : Bool :=
  s.here && s.saved.isSome && decide (s.me.ftag = none) && decide (va.toNat % 64 = 0) && decide (n < 2 ^ 16) &&
    tableOk s va 8 (fun l => leWord (s.toCore.homeBytes l.pa 8) == BitVec.ofNat 64 (2 * 2 ^ 48 + n * 2 ^ 32 + 32 * n)) &&
    tableOk s (va + 8) 8 fun l => wbits (leWord (s.toCore.homeBytes l.pa 8)) 0 16 == 32

theorem tableAt_of {s : State} {va : Word} {n : Nat} (h : tableAt s va n = true) : ∃ l0 l1, TableAt s va l0 l1 2 n (32 * n) 32 := by
  simp only [tableAt, Bool.and_eq_true, decide_eq_true_eq] at h
  obtain ⟨⟨⟨⟨⟨⟨h1, h2⟩, h3⟩, h4⟩, h5⟩, h6⟩, h7⟩ := h
  obtain ⟨l0, hr0, hw0⟩ := tableReady_of_tableOk h6
  obtain ⟨l1, hr1, hw1⟩ := tableReady_of_tableOk h7
  exact ⟨l0, l1, h1, h2, h3, h4, hr0, hr1, eq_of_beq hw0, ⟨by omega, h5, by omega⟩, eq_of_beq hw1, 5, by omega, rfl⟩

theorem witness_CreelAndPages_pages :
    ready (table [] 1) g0 [5, 1, 2] = true ∧ tableAt (table [] 1) ((table [] 1).scalar 5) 1 = true ∧ (1 : Nat) ≠ 2 ∧ (table [] 1).toCore.domOf 0 = 0 ∧
    ((table [] 1).toCore.dom 0).kvOn = true ∧ ((table [] 1).toCore.dom 0).kvHeld = [] ∧ ((table [] 1).toCore.dom 0).kvCount = 1 ∧
    tableOk (table [] 1) (entryVA ((table [] 1).scalar 5) 1) 4 (fun _ => true) = true ∧
    ready (table [0] 2) g0 [5] = true ∧ tableAt (table [0] 2) ((table [0] 2).scalar 5) 2 = true ∧
    ready (table [0] 1) g0 [5, 1, 2] = true ∧ tableAt (table [0] 1) ((table [0] 1).scalar 5) 1 = true ∧ (table [0] 1).toCore.kvTake 0 = none := by
  decide +kernel

theorem witness_CreelAndPages_cuts :
    releases (table [0] 1) .mod = true ∧ tableOk (table [0] 1) (entryVA ((table [0] 1).scalar 5) 0) 4 (fun _ => true) = true ∧
    31 = min (wbits ((table [0] 1).scalar 1) 0 32) (1 * 32) ∧ 1 = (31 + 32 - 1) / 32 ∧ ready (table [] 0) g0 [5] = true ∧
    tableAt (table [] 0) ((table [] 0).scalar 5) 0 = true ∧ wbits ((table [0] 1).scalar 1) 0 32 < 1 * 32 ∧
      1 * 32 ≤ wbits ((table [0] 1).scalar 2) 0 32 ∧
    (∀ d : List Nat, d ∈ [[], [0]] → ((table d 1).toCore.dom 0).kvOn = true ∧ 0 < ((table d 1).toCore.dom 0).kvCount) ∧
    ((table [] 1).scalar 6).toNat % 64 ≠ 0 ∧ ready (table [] 1) g0 [6] = true ∧
    okAnd ((table [] 1).toCore.translate ((table [] 1).toCore.who (.task 0 0)) (.atomic 3) 0xFFFFFFFFFF000101) (fun _ => true) = true := by decide +kernel

/-! Engines. -/

def flag0 : CmdFlags := ⟨false, 0, false, false, false, .mod⟩

/-- A copy of four bytes within the own scratchpad. -/
def cmd0 : Cmd := { (st ctx0).mkCmd .cp flag0 0xFFFFFFFFFF000200 0xFFFFFFFFFF000100 4 none with id := 7 }

def withCmds (s : State) (l : List Cmd) : State := onTile s fun tl => { tl with cmds := l }

theorem witness_EngineOperationsAreIssued :
    (st ctx0).bundle = some (bun0 (.task 0 0)) ∧ (st ctx0).guardOk g1 = false ∧ ready (st ctx0) g0 [1, 2, 4, 5, 0] = true ∧ cmd0.holds = false ∧
    (let m := (st ctx0).mkCmd (.evt 3) { flag0 with rel := true } 0 5 0 none
     let n := (st ctx0).mkCmd .cp { flag0 with acq := true } 0 5 0 none
     m.holds = true ∧ n.holds = true ∧ ((st ctx0).mkCmd .cp { flag0 with rel := true } 0 5 0 none).holds = false) ∧
    (∀ p ∈ (st (replaying false)).me.replay, p.dead = false) ∧ (st (replaying false)).guardOk g0 = true ∧ (st (replaying true)).guardOk g0 = true ∧
    (st (replaying true)).me.replay.find? (fun p => p.dead) = some (parked0 true) ∧
    ((withCmds (st ctx0) (List.replicate 63 cmd0)).toCore.tile 0).cmds.length + (bun0 (.task 0 0)).cmds.length < 64 ∧
    64 ≤ ((withCmds (st ctx0) (List.replicate 64 cmd0)).toCore.tile 0).cmds.length + (bun0 (.task 0 0)).cmds.length ∧
    (idle ctx0).bundle = none := by decide +kernel

/-- A command in a phase. -/
def engine (m : Cmd) : Core := (withCmds (idle ctx0) [m]).toCore

/-- The same where the tables map 0x100000. -/
def far0 (m : Cmd) : Core := (walked (withCmds (idle ctx0) [m])).toCore

/-- The next byte of a copy translates, in a page without access bits. -/
def copies (c : Core) (t : Nat) (m : Cmd) (acc : Acc) (va : Word) (p : Loc → Bool) : Bool :=
  decide (m.kind = .cp) && decide (m.bad = none) && decide (c.poison = []) && !c.aden (c.domOf t) &&
  okAnd (c.engineLoc (c.cmdWho t m) acc va) p

theorem copyAt_of_copies {c : Core} {t : Nat} {m : Cmd} {acc : Acc} {va : Word} {p : Loc → Bool} (h : copies c t m acc va p = true) :
    ∃ l, CopyAt c t m acc va l ∧ p l = true := by
  simp only [copies, Bool.and_eq_true, decide_eq_true_eq, Bool.not_eq_true'] at h
  obtain ⟨⟨⟨⟨h1, h2⟩, h3⟩, h4⟩, h5⟩ := h
  obtain ⟨l, hl, hp⟩ := ok_of_okAnd _ _ h5
  refine ⟨l, ⟨h1, h2, h3, h4, ?_⟩, hp⟩
  unfold Core.engineLoc at hl
  split at hl
  · rename_i x hx; rw [hx]; simpa using hl
  · simp [raise] at hl

/-- The same command's release in progress. -/
def ordering (ended : Option Bool) : Core :=
  let c := engine { cmd0 with phase := .acquiring }
  { c with rels := [⟨3, .cmd 7, .task 0 0, 0x10000000000, .mod, [], [], [], ended⟩] }

theorem witness_EngineCommandsProgress_phases :
    (∀ p ∈ ([.acquiring, .starting, .reading, .writing] : List CmdPhase), (engine { cmd0 with phase := p }).cmd? 0 7 = some { cmd0 with phase := p }) ∧
    (let m := { cmd0 with phase := .acquiring }
     (engine m).cmdRel m = none ∧ (engine m).issuer 0 m = some (.task 0 0) ∧ ((engine m).ctx (.task 0 0)).replay = [] ∧ m.rout = none ∧
     ((engine m).ctx (.task 0 0)).macs = [] ∧ ((engine m).ctx (.task 0 0)).fo = none ∧
       (engine m).lostRoute (.task 0 0) (relScope m.fl.scope) (some m.id) = none ∧
     ((ordering (some true)).cmdRel m).map (fun x => x.ended) = some (some true) ∧ m.fl.acq = false ∧ (ordering (some true)).cmd? 0 7 = some m ∧
     ((ordering (some false)).cmdRel m).map (fun x => x.ended) = some (some false) ∧ (ordering (some false)).cmd? 0 7 = some m) ∧
    cmd0.phase = .starting ∧ (engine { cmd0 with kind := .evt 3 }).cmd? 0 7 = some { cmd0 with kind := .evt 3 } ∧
    (let m := { cmd0 with phase := .reading }
     m.src.length < m.srcLen ∧ copies (engine m) 0 m .engRd (m.a + BitVec.ofNat 64 m.src.length) (fun l => paRegion l.pa == .win 0 0x100) = true ∧
     0x100 + min (m.srcLen - m.src.length) (128 - (m.a + BitVec.ofNat 64 m.src.length).toNat % 128) ≤ 0x400000) ∧
    (let m := { cmd0 with phase := .reading, a := 0x100010 }
     copies (far0 m) 0 m .engRd (m.a + BitVec.ofNat 64 m.src.length) (fun l => (paRegion l.pa == .hbm 0x100010) &&
       okAnd ((far0 m).placeOf ((far0 m).cmdWho 0 m) .engRd l) fun pl => (l.lines 4).all fun k => !((far0 m).homeLine pl k).recalled) = true ∧
     (far0 m).cmd? 0 7 = some m) ∧
    (let m := { cmd0 with phase := .reading, src := List.replicate 4 (some 9) }
     m.srcLen ≤ m.src.length ∧ m.kind ≠ .lk ∧ (engine m).cmd? 0 7 = some m ∧
       (engine { m with kind := .lk, desc := [0, 0, 0, 0, 4, 0, 0, 0] }).cmd? 0 7 =
       some { m with kind := .lk, desc := [0, 0, 0, 0, 4, 0, 0, 0] } ∧
     ({ m with kind := .lk, desc := [0, 0, 0, 0, 4, 0, 0, 0] } : Cmd).srcLen ≤ ({ m with kind := .lk, desc := [0, 0, 0, 0, 4, 0, 0, 0] } : Cmd).src.length) := by
  decide +kernel

theorem witness_EngineCommandsProgress_copies :
    (let m := { cmd0 with phase := .writing, src := List.replicate 4 (some 9) }
     m.wrote < m.dstLen ∧ copies (engine m) 0 m .engWr (m.d + BitVec.ofNat 64 m.wrote) (fun l => paRegion l.pa == .win 0 0x200) = true ∧
       0x200 < 0x530000 ∧
     0 + 4 ≤ m.src.length) ∧
    (let m := { cmd0 with phase := .writing, src := List.replicate 4 (some 9), d := 0x100010 }
     (far0 m).cmd? 0 7 = some m ∧
       copies (far0 m) 0 m .engWr (m.d + BitVec.ofNat 64 m.wrote) (fun l => (paRegion l.pa == .hbm 0x100010) && l.mt != 2 &&
       okAnd ((far0 m).placeOf ((far0 m).cmdWho 0 m) .engWr l) fun _ => !(m.given m.wrote (min (m.dstLen - m.wrote) (128 - l.pa % 128))).all Option.isNone) = true) ∧
    (let m := { cmd0 with phase := .writing, src := List.replicate 4 (some 9), d := 0x300000 }
     m.bad = none ∧
       trapAnd ((engine m).engineLoc ((engine m).cmdWho 0 m) .engWr (m.d + BitVec.ofNat 64 m.wrote)) (fun i => i.cause == cNotmapped) = true) ∧
    (let m := { cmd0 with phase := .writing, src := List.replicate 4 (some 9), wrote := 4 }
     m.dstLen ≤ m.wrote ∧ m.bad = none ∧ m.fl.rel = false ∧ ({ m with bad := some (4, mkTrap kData cUncorr) } : Cmd).bad.isSome = true ∧
     (let n := { m with fl := { flag0 with rel := true } }
      n.fl.rel = true ∧ n.dstLen ≤ n.wrote ∧ (engine n).issuer 0 n = some (.task 0 0) ∧ (engine n).cmd? 0 7 = some n ∧
      (engine n).lostRoute (.task 0 0) (relScope n.fl.scope) (some n.id) = none)) := by decide +kernel

theorem witness_EngineCommandsProgress_writes :
    0x3FFFFC + [1, 2, 3, 4].length ≤ 0x400000 ∧ (engine cmd0).poison = [] ∧
    (let m := { cmd0 with kind := .rs .f32, phase := .writing, src := (leBytes 4 0x3F800000).map some }
     (engine m).cmd? 0 7 = some m ∧ m.wrote < m.dstLen ∧ (m.src.drop 0).take 4 = (leBytes 4 0x3F800000).map some ∧ rsWidths .f32 = (4, 4) ∧
       m.bad = none ∧
     0x3F800000 < 256 ^ 4 ∧
     okAnd ((engine m).engineLoc ((engine m).cmdWho 0 m) .engWr (m.d + BitVec.ofNat 64 (0 * 4))) (fun l => (paRegion l.pa == .win 0 0x200) && !l.isDevice) = true) := by
  decide +kernel

/-- A command whose barrier is at a VA. -/
def barred (p : CmdPhase) (va : Word) : Cmd := { cmd0 with phase := p, bar := some va, bad := some (4, mkTrap kData cUncorr) }

/-- An event about a command, where the tables map 0x100000 as device memory. -/
def completing (m : Cmd) (e : Event) : State :=
  let s := withCmds (idle ctx0) [m]
  ev (withDom (withMem s ([(0x10000, 3), (0x10002, 0x20), (0x10080, 0x71), (0x10081, 0x10), (0x10082, 0x10)] : Memory)) { dom0 with ctl := [(0x40, 0x200001)] }) e

theorem witness_EngineCommandsProgress_ends :
    (∀ m ∈ ([{ cmd0 with phase := .done }, { cmd0 with phase := .done, fl := { flag0 with eve := true } }, barred .done 0xFFFFFFFFFF000100,
        barred .lost 0xFFFFFFFFFF000100, barred .done 0x100000, { barred .done 0x100000 with fl := { flag0 with eve := true } }] : List Cmd),
      (completing m (.engineCommandComplete 0 7)).toCore.cmd? 0 7 = some m ∧ (completing m (.engineCommandComplete 0 7)).toCore.cmdDone m = true ∧
        m.hc = none) ∧
    (∀ m ∈ ([{ cmd0 with phase := .faulted, bad := some (4, mkTrap kData cUncorr) }, { cmd0 with phase := .refused true }, { cmd0 with phase := .refused false },
        barred .faulted 0xFFFFFFFFFF000100] : List Cmd),
      (completing m (.engineCommandFault 0 7)).toCore.cmd? 0 7 = some m ∧ m.hc = none) ∧ cmd0.bar = none ∧
    ((0xFFFFFFFFFF000100 : Word).toNat % 16 = 0 ∧ (0x100000 : Word).toNat % 16 = 0) ∧
    (([.done, .lost, .faulted] : List CmdPhase).all fun p => ([(0xFFFFFFFFFF000100, true), (0x100000, false)] : List (Word × Bool)).all fun e =>
      let c := (completing (barred p e.1) (.engineCommandComplete 0 7)).toCore
      !c.aden (c.domOf 0) && okAnd (c.engineLoc (c.cmdWho 0 (barred p e.1)) (.atomic 4) e.1) (fun l => barPlace l == e.2)) = true := by decide +kernel

/-- A link transfer that waits for its round on port 0, which is up or not. -/
def linking (p : CmdPhase) (n : BitVec 2) : State :=
  let s := withCmds (idle ctx0) [{ cmd0 with kind := .lk, phase := p, desc := [0, 0, 0, 0, 4, 0, 0, 0] }]
  { s with toCore := { s.toCore with mc := { s.mc with ports := [(0, { Port.init with state := n })] } } }

/-- A write of this number has not been performed. -/
def awaiting : Core := { (walked (idle ctx0)).toCore with diffs := [⟨9, 0, 0, 16, 1, 0, .none⟩] }

theorem witness_EngineCommandsProgress_links :
    (let m := { cmd0 with kind := .lk, phase := .linkWait, desc := [0, 0, 0, 0, 4, 0, 0, 0] }
     (linking .linkWait 1).toCore.cmd? 0 7 = some m ∧ (linking .linkWait 1).toCore.roundOpen 0 m = true ∧
       (linking .linkWait 2).toCore.roundOpen 0 m = false ∧
     (linking .linkWait 2).toCore.cmd? 0 7 = some m) ∧
    ((linking .linkSent 1).toCore.cmd? 0 7).map (fun m => m.phase) = some .linkSent ∧
    okAnd ((walked (idle ctx0)).toCore.outsidePut (linkWho 0) linkSender (fun c va => c.engineLoc (linkWho 0) .engWr va) 0x100010 [1, 2] []
      ([(1 : Byte), 2].length / 64 + 3)) (fun r => r.1.homeBytes 0x100010 2 == [1, 2] && r.2.2.isNone && (r.1.landingWaits 0 none r.2.1 == false)) = true ∧
    okAnd ((walked (idle ctx0)).toCore.outsidePut (linkWho 0) linkSender (fun c va => c.engineLoc (linkWho 0) .engWr va) 0x300000 [1, 2] []
      ([(1 : Byte), 2].length / 64 + 3)) (fun r => r.2.2.isSome) = true ∧
    awaiting.landingWaits 0 (some .mod) [9] = true ∧ (walked (idle ctx0)).toCore.landingWaits 0 (some .mod) [9] = false ∧ scopeCode .mod < 6 ∧
    okAnd ((walked (idle ctx0)).toCore.engineLoc (linkWho 0) (.atomic 4) 0x100000) barPlace = true ∧ (0x100000 : Word).toNat % 16 = 0 ∧
    (walked (idle ctx0)).toCore.aden 0 = false ∧
    ((idle ctx0).toCore.tiles.find? fun e => e.2.dom == some 0 && e.2.queue.any fun x => idKey x.id.taskid == idKey 0x10000000000) = some (0, tile0 ctx0) ∧
    (tile0 ctx0).queue.any (fun x => (idKey x.id.taskid == idKey 0x10000000000) && x.life == .fresh) = false ∧
    (idle ctx0).toCore.ctx? (.task 0 0) = some ctx0 ∧ idKey ctx0.id.taskid = idKey 0x10000000000 := by decide +kernel

/-! Lines, replicas and releases. -/

/-- An event acts on a machine that differs from the small one in its shared parts. -/
def shared (e : Event) (f : Core → Core) : State := ev { idle ctx0 with toCore := f (idle ctx0).toCore } e

/-- What a store meets at its home. -/
def homeOk (s : State) (m : StoreMsg) : Bool :=
  decide ((s.toCore.page (m.pa / 65536)).mode ≠ .draining) && !(s.toCore.homeLine m.place (m.pa / 128)).recalled && (paRegion m.pa == .hbm m.pa) &&
  decide (m.pa % 128 + m.bytes.length ≤ 128) && decide (m.tile < Config.tiles) && decide (s.poison = []) && decide (m.tag = none)

theorem homeFree_of_homeOk (s : State) (m : StoreMsg) (h : homeOk s m = true) : homeFree s m := by
  simp only [homeOk, Bool.and_eq_true, decide_eq_true_eq, Bool.not_eq_true', beq_iff_eq] at h
  obtain ⟨⟨⟨⟨⟨⟨h1, h2⟩, h3⟩, h4⟩, h5⟩, h6⟩, h7⟩ := h
  exact ⟨h1, h2, ⟨m.pa, h3⟩, h4, h5, h6, h7⟩

/-- The home of the line at 0x100000, which its slice holds. -/
def lined (h : HomeLine) (c : Core) : Core := { c with home := [(0x20000, h)], slices := [(c.setKey .primary 0x2000, [⟨15, 0x20000, false⟩])] }

/-- A replica of its page on die 1 in frame 0x20, with byte 5 dirty and byte 6 sent. -/
def rep0 : Replica := ⟨1, 16, 0, 16, 32, [5], [(8, [6])], 0, 0, false⟩

def copied (m : PageMode) (c : Core) : Core := { c with reps := [rep0], pages := [(16, ⟨m, [], []⟩)] }

def draining (c : Core) : Core := { c with pages := [(16, ⟨.draining, [], [⟨1, 0, 16, 33⟩]⟩)] }

/-- The line in the L1 of tile 0, between neighbours; a store of byte 0 is on its way, and one that lies over byte 1. -/
def line0 (prev next : BitVec 7) (relay : Option Nat) : L1Line := { data := 0, prev := prev, next := next, pend := [(7, 1)], above := [([7], 2)], relay := relay }

def cached (x : L1Line) (c : Core) : Core := c.updTile 0 fun tl => { tl with l1 := [(0x2000, some x)] }

def passing0 : Event := .upd 5 .primary 0x2000 9 0 ptrHome []

theorem witness_LinesReplicasAndReleases_stores :
    homeOk (shared (.storeAtHome msg0) id) msg0 = true ∧ msg0.place = .primary ∧ (shared (.storeAtHome msg0) id).toCore.replicaDies 16 = [] ∧
      msg0.id ≠ 0 ∧
    ((shared (.storeAtHome msg0) id).toCore.homeLine .primary (msg0.pa / 128)).head = ptrEnd ∧ (shared (.storeAtHome msg0) id).diffs = [] ∧
    homeOk (shared (.storeAtHome msg0) (lined ⟨3, [], false⟩)) msg0 = true ∧
    ((shared (.storeAtHome msg0) (lined ⟨3, [], false⟩)).toCore.homeLine .primary (msg0.pa / 128)).head ≠ ptrEnd ∧
    (shared (.storeAtHome msg0) (lined ⟨3, [], false⟩)).toCore.replicaDies 16 = [] ∧
    homeOk (shared (.storeAtHome msg0) (copied .replica)) msg0 = true ∧ (shared (.storeAtHome msg0) (copied .replica)).toCore.replicaDies 16 = [1] ∧
    ((shared (.storeAtHome msg0) (copied .replica)).toCore.homeLine .primary (msg0.pa / 128)).head = ptrEnd ∧
    (shared (.storeAtHome msg0) (copied .replica)).diffs = [] ∧
    (let m : StoreMsg := { msg0 with place := .replica 1 }
     homeOk (shared (.storeAtHome m) (copied .replica)) m = true ∧
     (shared (.storeAtHome m) (copied .replica)).toCore.replica 1 (m.pa / 65536) = some rep0 ∧
       paRegion (rep0.frame * 65536 + m.pa % 65536) = .hbm 0x200000) ∧
    ((shared (.storeAtHome msg0) draining).toCore.page (msg0.pa / 65536)).mode = .draining ∧
    ((shared (.storeAtHome msg0) (lined ⟨3, [], true⟩)).toCore.page (msg0.pa / 65536)).mode ≠ .draining ∧
    ((shared (.storeAtHome msg0) (lined ⟨3, [], true⟩)).toCore.homeLine .primary (msg0.pa / 128)).recalled = true := by decide +kernel

theorem witness_LinesReplicasAndReleases_misses :
    ((shared (.loadMissAtHome 0 .primary 0x2000) (lined ⟨3, [], true⟩)).toCore.homeLine .primary 0x2000).recalled = true ∧
    ((shared (.loadMissAtHome 0 .primary 0x2000) id).toCore.homeLine .primary 0x2000).recalled = false ∧
    (shared (.loadMissAtHome 0 .primary 0x2000) id).toCore.inSlice .primary 0x2000 = false ∧
    ((shared (.loadMissAtHome 0 .primary 0x2000) (lined ⟨3, [], false⟩)).toCore.homeLine .primary 0x2000).recalled = false ∧
    (shared (.loadMissAtHome 0 .primary 0x2000) (lined ⟨3, [], false⟩)).toCore.inSlice .primary 0x2000 = true ∧
    (shared (.fill 0 .primary 0x2000 0 ptrEnd) id).toCore.ownFlight 0 0x2000 = [] ∧
      (shared (.fill 0 .primary 0x2000 0 ptrEnd) id).poison = [] := by decide +kernel

theorem witness_LinesReplicasAndReleases_lists :
    (idle ctx0).toCore.l1Tag 0 0x2000 = none ∧
      (cached (line0 ptrHome ptrEnd none) (idle ctx0).toCore).l1Tag 0 0x2000 = some (line0 ptrHome ptrEnd none) ∧
    (line0 ptrHome ptrEnd none).relay = none ∧ (line0 ptrHome ptrEnd none).above ≠ [] ∧
      ({ line0 ptrHome ptrEnd none with above := [] } : L1Line).above = [] ∧
    recallStorer ≠ 0 ∧ (0 : Nat) < Config.tiles ∧ (idle ctx0).toCore.ctx? (.task 0 0) = some ctx0 ∧ (5 : BitVec 7) ≠ selfIdx 0 ∧
    (line0 5 3 none).prev = 5 ∧ (line0 5 3 none).prev ≠ 4 ∧ (5 : BitVec 7) ≠ ptrHome ∧ (line0 ptrHome 3 none).next = 3 ∧
      (line0 ptrHome 3 none).next ≠ 4 ∧
    (line0 ptrHome 3 (some 1)).relay.isSome = true ∧ (3 : BitVec 7) ≠ ptrEnd ∧
    (cached (line0 ptrHome 3 (some 1)) (idle ctx0).toCore).l1Tag 0 0x2000 = some (line0 ptrHome 3 (some 1)) ∧
    (cached (line0 ptrHome 3 (some 1)) (idle ctx0).toCore).passing (dieOf 0) 0x2000 = false ∧
    ({ cached (line0 ptrHome 3 (some 1)) (idle ctx0).toCore with msgs := [passing0] } : Core).passing (dieOf 0) 0x2000 = true ∧
    (lined ⟨3, [], false⟩ (idle ctx0).toCore).homeLine .primary 0x2000 = ⟨3, [], false⟩ ∧ (3 : BitVec 7) ≠ 4 ∧
    (idle ctx0).toCore.atRest ((idle ctx0).toCore.l1Place 0 0x2000) 0x2000 = true ∧
    ({ (idle ctx0).toCore with msgs := [passing0] } : Core).atRest ((idle ctx0).toCore.l1Place 0 0x2000) 0x2000 = false ∧
    ((idle ctx0).toCore.atRest .primary 0x2000 && !(idle ctx0).toCore.refusing ((idle ctx0).toCore.placeDie .primary 0x2000) 0x2000) = true ∧
    (({ (idle ctx0).toCore with msgs := [passing0] } : Core).atRest .primary 0x2000) = false ∧
    (lined ⟨3, [(7, 0)], false⟩ (idle ctx0).toCore).homeLine .primary 0x2000 = ⟨3, [(7, 0)], false⟩ ∧
    ((idle ctx0).toCore.homeLine .primary 0x2000).head = ptrEnd ∧ ((idle ctx0).toCore.homeLine .primary 0x2000).sent = [] := by decide +kernel

/-- The domain may hold up to n replicas on die 1, in the frames from 0x20 on. -/
def granted (n : Nat) (c : Core) : Core := { c with doms := [(0, { Domain.init with ctl := [(0x49, BitVec.ofNat 64 (n * 2 ^ 52 + 0x200001))] })] }

theorem witness_LinesReplicasAndReleases_replicas :
    (granted 2 (idle ctx0).toCore).replica 1 16 = none ∧ (granted 2 (idle ctx0).toCore).drepOn 0 1 = true ∧ isFar (16 * 65536) = false ∧
    (granted 2 (idle ctx0).toCore).freeFrame 1 0 = some 32 ∧ ((granted 2 (idle ctx0).toCore).page 16).asking = [] ∧
    ((granted 2 (idle ctx0).toCore).page 16).mode = .line ∧ (idle ctx0).toCore.drepOn 0 1 = false ∧
    (let c := { granted 1 (idle ctx0).toCore with pages := [(17, ⟨.draining, [], [⟨1, 0, 17, 32⟩]⟩)] }
     c.replica 1 16 = none ∧ c.drepOn 0 1 = true ∧ c.freeFrame 1 0 = none ∧ (c.page 16).asking = []) ∧
    (∀ m ∈ ([.draining, .replica] : List PageMode), let c := { granted 2 (idle ctx0).toCore with pages := [(16, ⟨m, [], []⟩)] }
      c.replica 1 16 = none ∧ (c.page 16).asking = [] ∧ (c.page 16).mode = m ∧ c.drepOn 0 1 = true ∧ c.freeFrame 1 0 = some 32) ∧
    (idle ctx0).poison = [] ∧ paRegion (16 * 65536) = .hbm 0x100000 ∧ paRegion (33 * 65536) = .hbm 0x210000 ∧ (1 : Nat) < 8 ∧
    ((draining (idle ctx0).toCore).page 16) = ⟨.draining, [], [⟨1, 0, 16, 33⟩]⟩ ∧ (draining (idle ctx0).toCore).pageQuiet 16 = true ∧
    (lined ⟨3, [(7, 0)], false⟩ (draining (idle ctx0).toCore)).pageQuiet 16 = false := by decide +kernel

def diff0 : Diff := ⟨16, 1, [(6, 1)], 9, 0, []⟩

theorem witness_LinesReplicasAndReleases_diffs :
    (copied .replica (idle ctx0).toCore).replica 1 16 = some rep0 ∧ rep0.dirty ≠ [] ∧ ((idle ctx0).ftick - rep0.since).toNat < 2048 ∧
    2048 ≤ (({ idle ctx0 with ftick := 2048 } : State).ftick - rep0.since).toNat ∧ (idle ctx0).tags = [] ∧ isFar (rep0.page * 65536) = false ∧
    isFar ((2 ^ 48 + 16) * 65536) = true ∧ ({ rep0 with page := 2 ^ 48 + 16 } : Replica).dirty ≠ [] ∧
    (∀ e ∈ diff0.bytes, e.1 < 65536) ∧ (diff0.bytes.map (·.1)).Nodup ∧ paRegion (diff0.page * 65536) = .hbm 0x100000 ∧ diff0.die < 8 ∧
    ((copied .replica (idle ctx0).toCore).replica diff0.die diff0.page).isSome = true ∧
      1 ∈ (copied .replica (idle ctx0).toCore).replicaDies diff0.page ∧
    (1 : Nat) ≠ ({ diff0 with die := 2 } : Diff).die ∧ paRegion (rep0.frame * 65536) = .hbm 0x200000 ∧ diff0.bytes = [(6, 1)] ∧ diff0.tags = [] ∧
    (({ rep0 with sent := [] } : Replica).sent = []) ∧ (∀ e ∈ rep0.sent, e.1 ≠ diff0.id) ∧
      (∃ e ∈ rep0.sent, e.1 = ({ diff0 with id := 8 } : Diff).id) ∧
    (let r : Replica := { rep0 with dirty := [] }
     let c := { (idle ctx0).toCore with reps := [r] }
     c.replica 1 16 = some r ∧ c.msgs.any (replicaTraffic 1 16) = false ∧ c.home = [] ∧ c.diffs = []) ∧
    ((draining (idle ctx0).toCore).page (0x100000 / 65536)).mode = .draining ∧ ((idle ctx0).toCore.page (0x100000 / 65536)).mode ≠ .draining ∧
    ((idle ctx0).toCore.homeLine .primary (0x100000 / 128)).recalled = false ∧ ordinary 0x100000 8 = true := by decide +kernel

/-- A release in progress of the task, at a scope, on ports since 0. -/
def releasing (k : RelKind) (q : Scope) (need ports : List Nat) : Core :=
  { (idle ctx0).toCore with rels := [⟨3, k, .task 0 0, 0x10000000000, q, need, [], ports.map fun p => (p, 0), none⟩] }

/-- The release of number 3. -/
def rel3 (c : Core) (p : Release → Bool) : Bool := (c.rels.find? fun y => y.id = 3).any p

theorem witness_LinesReplicasAndReleases_releases :
    rel3 (releasing .fence .mod [] []) (fun x => (releasing .fence .mod [] []).releaseMet x && x.sig.isEmpty && decide (x.kind = .fence)) = true ∧
    rel3 (releasing .fence .mod [1] []) (fun x => !(releasing .fence .mod [1] []).releaseMet x) = true ∧ scopeCode .mod < 6 ∧
    rel3 (releasing .wait .sys [] []) (fun x => (releasing .wait .sys [] []).releaseMet x && decide (x.kind = .wait)) = true ∧
    (copied .replica (idle ctx0).toCore).dirtyReps 1 0 = [rep0] ∧ (idle ctx0).toCore.dirtyReps 1 0 = [] := by decide +kernel

/-- A release at .pod of the task that waits for port 4, which retrains, and on which a command of the task sends. -/
def linkWaiting (now : Word) : Core :=
  let c := (withCmds (idle ctx0) [{ cmd0 with kind := .lk, phase := .linkSent, fl := { flag0 with rel := true, scope := .pod }, desc := [0, 0, 4, 0, 4, 0, 0, 0], ports := [4] }]).toCore
  { c with rels := (releasing .wait .pod [] [4]).rels, mc := { c.mc with ports := [(4, { Port.init with state := 2 })] }, ftick := now }

theorem witness_LinesReplicasAndReleases_timeouts :
    ([(0, true), (2000000, false)] : List (Word × Bool)).all (fun e =>
      rel3 (linkWaiting e.1) fun x => decide (x.ports ≠ []) && decide (x.ended = none) && decide (x.kind = .wait) &&
        decide ((linkWaiting e.1).linkPorts x.r x.scope x.kind.cmd? = x.ports.map (·.1)) &&
        x.ports.all fun p => decide (((linkWaiting e.1).ftick - p.2).toNat < 2000000) == e.2) = true := by decide +kernel

/-! Walks, pushes, message slots and handlers. -/

/-- A machine between bundles whose page 0x10 is being walked, with its table. -/
def walking (e : Event) : State := ev (walked (onTile (idle ctx0) fun tl => { tl with walks := [16], tlb := [] })) e

/-- Queue 1 of the task is fed from outside; depth 8. -/
def fedCtx (n : Nat) : Ctx := { ctx0 with id := { ctx0.id with desc := desc0.set 9 2 }, q := [(1, List.replicate n ⟨5, some 7⟩)] }

/-- A tile that runs it, with some pushes held. -/
def pushed (n : Nat) (l : List PushEnt) : Core := ((onTile (idle (fedCtx n)) fun tl => { tl with pushBuf := l }).toCore)

theorem witness_WalksPushesAndHandlers_walks :
    (let c := (walking (.pageWalkComplete 0 16)).toCore
     let e := c.updTile 0 fun tl => { tl with walks := tl.walks.filter (· != 16) }
     16 ∈ (c.tile 0).walks ∧ (match e.walk (e.domOf 0) 0x100000 with | .ok f => f.word == 0x100071 | .error _ => false) = true ∧
     (e.tile 0).tlbFind (e.domOf 0) 16 = none ∧ (e.tile 0).tlb.length < 512 ∧ e.aden (e.domOf 0) = false) ∧ 16 ∉ ((idle ctx0).toCore.tile 0).walks ∧
    (let c := (onTile (idle ctx0) fun tl => { tl with walks := [17] }).toCore
     (match c.walk (c.domOf 0) 0x110000 with | .ok _ => false | .error k => k == cNotmapped) = true ∧ 17 ∈ (c.tile 0).walks) ∧
    (idle streaming).toCore.ctx? (.task 0 0) = some streaming ∧ (idle streaming).toCore.aden 0 = false ∧
    (streaming.stream 3).nextPage = none ∧ (streaming.stream 7).nextPage = some 33 ∧ canonical (streaming.stream 7).addr = true ∧
    (replaying false).retryable = some (parked0 false) ∧ ctx0.retryable = none := by decide +kernel

theorem witness_WalksPushesAndHandlers_retries :
    (let c := (walked (idle (replaying false))).toCore
     c.ctx? (.task 0 0) = some (replaying false) ∧ (replaying false).late = [] ∧ c.rels = [] ∧ c.aden (c.domOf 0) = false ∧
     (∀ i, i < 256 → 8 ≤ i → (parked0 false).mask.getLsbD i = false) ∧ (parked0 false).mask.getLsbD 7 = true ∧
       (parked0 false).info.detail / 4096 ≠ 1 ∧
     okAnd (c.engineLoc (c.who (.task 0 0)) (.store 3) 0x100000) (fun l => (paRegion l.pa == .hbm 0x100000) && l.mt != 2 &&
       decide (l.pa % 65536 + 8 ≤ 65536) && okAnd (c.placeOf (c.who (.task 0 0)) (.store 3) l) fun _ => true) = true ∧
     (spanVas 0x100000 8).all (fun v => okAnd (c.engineLoc (c.who (.task 0 0)) (.store 3) v) fun _ => true) = true) ∧
    (let c := (idle (replaying false)).toCore
     trapAnd (c.engineLoc (c.who (.task 0 0)) (.store 3) 0x100000) (fun _ => true) = true) := by decide +kernel

/-- A command of tile 0 whose write 9 has not been performed; a transfer that has landed with it. -/
def pushing : Core := (withCmds (idle (fedCtx 7)) [{ cmd0 with phase := .writing, unacked := [9] }]).toCore

def landed0 : Core := { (idle (fedCtx 7)).toCore with msgs := [.linkTransferLand (.landed 0 0 1 none [9] false)] }

theorem witness_WalksPushesAndHandlers_pushes :
    (pushed 7 []).takesPush 0 1 = true ∧ (pushed 7 []).takesPush 0 2 = false ∧ (pushed 7 []).pushRoom 0 1 = true ∧
      (pushed 8 []).pushRoom 0 1 = false ∧
    (pushed 8 []).takesPush 0 1 = true ∧ ((pushed 7 []).tile 0).pushBuf = [] ∧ (∃ p ∈ ((pushed 7 [⟨1, 5, 2, 9⟩]).tile 0).pushBuf, p.q = 1) ∧
    (pushed 7 []).ctx? (.task 0 0) = some (fedCtx 7) ∧ (pushed 7 []).pushReady 0 = none ∧ (pushed 7 [⟨1, 5, 2, 9⟩]).pushReady 0 = some ⟨1, 5, 2, 9⟩ ∧
    (pushed 7 [⟨2, 5, 2, 9⟩]).pushReady 0 = some ⟨2, 5, 2, 9⟩ ∧ (pushed 7 [⟨2, 5, 2, 9⟩]).takesPush 0 2 = false ∧
      (pushed 7 [⟨1, 5, 2, 9⟩]).takesPush 0 1 = true ∧
    pushing.takesPush 0 2 = false ∧ (0 : Nat) < Config.tiles ∧
      (((pushing.tile 0).cmds.find? fun m => m.unacked.contains 9).map fun m => m.id) = some 7 ∧
    landed0.takesPush 0 2 = false ∧ landed0.msgs = [] ++ [.linkTransferLand (.landed 0 0 1 none [9] false)] ∧ (pushed 7 []).domOf 0 < 4 ∧
    Config.tiles < Config.tiles + 1 := by
  decide +kernel

def write0 : HeldWrite := ⟨3, 0, [1, 2, 3, 4], 5, true, false, 0⟩

theorem witness_WalksPushesAndHandlers_slots :
    ((idle ctx0).toCore.tile 0).busy.contains 3 = false ∧ (∀ h ∈ ((idle ctx0).toCore.tile 0).held, h.slot ≠ 3) ∧
    ((onTile (idle ctx0) fun tl => { tl with busy := [3] }).toCore.tile 0).busy.contains 3 = true ∧
    (∃ h ∈ ((onTile (idle ctx0) fun tl => { tl with held := [write0] }).toCore.tile 0).held, h.slot = 3) ∧ write0.id = 0 ∧ write0.off = 0 ∧
    ({ write0 with off := 8 } : HeldWrite).off ≠ 0 ∧ (0 : Nat) < write0.bytes.length ∧
    (let tl := (onTile (idle ctx0) fun tl => { tl with held := [write0] }).toCore.tile 0
     tl.held.find? (fun h => h.slot == 3) = some write0 ∧ tl.busy.contains 3 = false) ∧
    (let tl := (onTile (idle ctx0) fun tl => { tl with held := [write0], busy := [3] }).toCore.tile 0
     tl.held.find? (fun h => h.slot == 3) = some write0 ∧ tl.busy.contains 3 = true) := by decide +kernel

def fault0 : QFault := ⟨[1, 2, 3, 4, 5, 6, 7, 8], false, false, some 0x10000000000⟩

def devMsg0 : DevMsg := ⟨0x41, [1], 0⟩

/-- Messages wait for the domain's supervisor tile, which is tile 0 or none. -/
def supervised (busy : List Nat) (sup : Word) : State :=
  withDom (onTile (idle ctx0) fun tl => { tl with busy := busy }) { dom0 with devmsgs := [devMsg0], ctl := [(0x68, sup)] }

theorem witness_WalksPushesAndHandlers_handlers :
    (let tl := (onTile (idle ctx0) fun tl => { tl with faults := [fault0] }).toCore.tile 0
     tl.faults = [fault0] ∧ tl.faultHc = some 7) ∧
    (let tl := (onTile (idle ctx0) fun tl => { tl with msgq := [⟨3, true, false⟩] }).toCore.tile 0
     tl.faults = [] ∧ tl.msgq = [⟨3, true, false⟩] ∧ tl.messageHc ⟨3, true, false⟩ = some 2 ∧ tl.messageHc ⟨255, true, false⟩ = some 7) ∧
    ((idle ctx0).toCore.tile 0).handlerPick = .none ∧
    (supervised [] 0x8000).toCore.supTile 0 = some 0 ∧ ((supervised [] 0x8000).toCore.dom 0).devmsgs = [devMsg0] ∧
    ((supervised [] 0x8000).toCore.tile 0).busy.contains 255 = false ∧ ((supervised [255] 0x8000).toCore.tile 0).busy.contains 255 = true ∧
    (supervised [] 0x8000).toCore.unsupervised 0 = false ∧ ({ supervised [] 0 with ftick := 1000000001 } : State).toCore.unsupervised 0 = true := by
  decide +kernel

/-! Tasks and the launch scheduler. -/

/-- A launch that waits for phase n of the barrier bar0 at 0x100000, at the head of queue 0 and the only one there. -/
def launchW (dbar : Word) (n : BitVec 16) : Launch := { launch0 with dpen := true, dbar := dbar, dphase := n, ready := false }

def depending (dbar : Word) (n : BitVec 16) (b : Bar) (lqs : Map (List Nat)) : Core :=
  let s := withMem (idle ctx0) (writeRun ([(0x10000, 3), (0x10002, 0x20), (0x10080, 0x71), (0x10082, 0x10)] : Memory) 0x8000 (leBytes 16 b.image))
  (withDom s { dom0 with ctl := [(0x40, 0x200001)], launches := [(1, some launch0), (2, some (launchW dbar n))], lqs := lqs }).toCore

/-- What the dependence wait of launch queue 0 meets. -/
def depends (c : Core) (n : BitVec 16) (dbar : Word) (head : Bool) (e : DepEnd) : Bool :=
  ((c.dom 0).depNext (lqKey false 0) == some (2, launchW dbar n, head)) && (c.depEnd 0 (launchW dbar n) == e)

/-- The same, where a narrow release of another quad covers the barrier's words and its die has something to publish. -/
def depending2 : Core :=
  { depending 0x100000 3 bar0 [(0, [2])] with tags := [⟨.primary, 0x20000, 0, 0, some 5⟩], reps := [⟨0, 32, 0, 32, 0, [0], [], 0, 0, false⟩] }

/-- What the scheduler asks before it reads a barrier. -/
def reads (c : Core) (p : Nat → Bool) : Bool :=
  decide (c.poison = []) && okAnd (c.engineLoc (deviceWho 0) (.load 4) 0x100000) fun x => barPlace x && p x.pa

def cand0 : Cand := { ep := 3, src := .launch 0 1, ident := launch0.ident, die := none, mate := none }

/-- The domain's launch of one task is ready, with a spawned task. -/
def placing : Core := (withDom (onTile (idle ctx0) fun tl => { tl with queue := [] }) { dom0 with launches := [(1, some { launch0 with n := 2 })], spawnsA := [⟨launch0.ident, 5, 0⟩] }).toCore

theorem witness_TasksAndTheScheduler_launches :
    depends (depending 0x100000 4 bar0 [(0, [2])]) 4 0x100000 true .waits = true ∧
      depends (depending 0x100000 3 bar0 [(0, [2])]) 3 0x100000 true .ended = true ∧
    depends (depending 0x100008 3 bar0 [(0, [1, 2])]) 3 0x100008 false .failed = true ∧
    depends (depending 0x100000 3 { bar0 with err := true } [(0, [2])]) 3 0x100000 true .failed = true ∧ (launchW 0x100000 3).ident.cpen = false ∧
    launch0.dpen = false ∧ (launchW 0x100008 3).dpen = true ∧ (launchW 0x100008 3).dbar.toNat % 16 ≠ 0 ∧
    depends depending2 3 0x100000 true (.publish 0) = true ∧ (depending2.dirtyReps 0 0).length = 1 ∧
    reads depending2 (fun pa => depending2.widen 0 Config.tiles .primary pa 16 == some 0) = true ∧
    reads (depending 0x100000 3 bar0 [(0, [2])]) (fun pa => let c := depending 0x100000 3 bar0 [(0, [2])]
      decide (c.widen 0 Config.tiles .primary pa 16 = none) && decide ((c.barAt pa).waitEnd 3 = .reached)) = true ∧
    reads (depending 0x100000 4 bar0 [(0, [2])]) (fun pa => let c := depending 0x100000 4 bar0 [(0, [2])]
      decide (c.widen 0 Config.tiles .primary pa 16 = none) && decide ((c.barAt pa).waitEnd 4 = .waits)) = true ∧
    (idle ctx0).toCore.choose 0 false ((idle ctx0).toCore.served 0 false) [] = none ∧
    ((placing.choose 0 false (placing.served 0 false) []).map fun e => e.2) = some 0 ∧ placing.tileFor 0 false cand0 [] = some 0 ∧
    cand0.src = .launch 0 1 ∧ (placing.dom 0).spawnsA[0]? = some ⟨launch0.ident, 5, 0⟩ ∧
    mapGet none (placing.dom 0).launches 1 = some { launch0 with n := 2 } ∧ descW cand0.ident.desc 1 37 1 = 0 ∧
      launch0.next + 1 < 2 := by decide +kernel

def fresh0 : Ctx := { ctx0 with life := .fresh, started := false, pc := 0 }

/-- A pair at its splice point. -/
def spliced (p : PairPhase) (x y : Ctx) : State :=
  onTile (idle x) fun tl => { tl with queue := [x, y], pair := some { pair0 with phase := p } }

/-- A joined pair of two tasks at the same code, about to dispatch or to commit. -/
def joining : State := ev { spliced .joined ctx0 ctx0 with mem := code [0x00EEEEEE00000001, 0x0000000004086020] } (.bundleDispatch (.task 0 0))

def joinedEnd : State := { joining with saved := some joining.toCore, bundle := some (bun0 (.task 0 0)) }

theorem witness_BundleDispatch_joined :
    joining.toCore.ctx? (.task 0 0) = some ctx0 ∧ joining.toCore.form (.task 0 0) = .joined ∧
    (let refs := [CtxRef.task 0 0, .task 0 1]
     let c1 := (refs.foldl Core.issuing joining.toCore).addCycles refs (1 + (Config.cycles (4 * joining.seq + 1)).toNat)
     let c := refs.foldl Core.firstBundle c1
     match c1.readParts (.task 0 0) with
       | .ok [a, b] =>
         let d := c.compose (.task 0 0) [a, b]
         let part := fun slot => if d.owner slot = 0 then a else b
         let due := (List.range 12).filter fun slot => decide (d.owner slot < 2 ∧ (part slot).eff c slot ≠ 0)
         (c.illegalIn d (c.form (.task 0 0))).isNone &&
           (c.queueTrap d.presents (due.map fun slot => (slot, (part slot).r, slotOp slot ((part slot).eff c slot)))).isNone
       | _ => false) = true := by decide +kernel

theorem witness_BundleCommit_joined :
    joinedEnd.bundle = some (bun0 (.task 0 0)) ∧ joinedEnd.toCore.form (.task 0 0) = .joined ∧ (bun0 (.task 0 0)).ends = false ∧
    (match joinedEnd.older.readParts (.task 0 0) with
     | .ok ps => ps.length == 2
     | .error _ => false) = true := by decide +kernel

theorem witness_TasksAndTheScheduler_starts :
    (idle ctx0).toCore.startable 0 = none ∧ (idle fresh0).toCore.startable 0 = some 0 ∧ ((idle fresh0).toCore.tile 0).queue = [fresh0] ∧
    ((idle fresh0).toCore.dom 0).heldEv = [] ∧ fresh0.r.accb ≤ 15 ∧ 15 < fresh0.r.accb + fresh0.id.accr ∧
    ((spliced .check ctx0 ctx0).toCore.tile 0).pair = some { pair0 with phase := .check } ∧
    streamsAgree (ctx0.stream (descW ctx0.id.desc 10 53 4)) (ctx0.stream (descW ctx0.id.desc 10 57 4)) (descW ctx0.id.desc 10 0 24)
      (descW ctx0.id.desc 10 24 24) = true ∧
    (let y : Ctx := { ctx0 with id := { ctx0.id with desc := desc0.set 10 (BitVec.ofNat 64 (1 * 2 ^ 24)) } }
     streamsAgree (ctx0.stream (descW ctx0.id.desc 10 53 4)) (y.stream (descW y.id.desc 10 57 4)) (descW ctx0.id.desc 10 0 24) (descW y.id.desc 10 24 24) = false) ∧
    ({ pair0 with phase := .sharedRelease } : Pair).sig = [] ∧
    releases { spliced .sharedRelease ctx0 ctx0 with ref := .task 0 0, slot := 4 } ((scopeOf (descW ctx0.id.desc 10 48 4)).getD .mod) = true ∧
    (let x : Ctx := { ctx0 with life := .preempted }
     (idle x).toCore.resumable 0 = true ∧ ((idle x).toCore.tile 0).queue = [x] ∧ x.pair = none ∧ x.uc = none ∧ (∀ n, n < 4 → (x.plane n).psrc = 0) ∧
     ((idle x).toCore.dom 0).resuming = []) ∧ (idle ctx0).toCore.resumable 0 = false := by decide +kernel

/-- The running task with requests, alone or before another. -/
def asked (qs : List Req) (xs : List Ctx) : Core :=
  let x := { ctx0 with reqs := qs }
  (onTile (idle x) fun tl => { tl with queue := x :: xs }).toCore

theorem witness_TasksAndTheScheduler_boundaries :
    (idle ctx0).toCore.testIdle 0 = false ∧ (idle ctx0).toCore.boundaryDue 0 = false ∧ (asked [.pre, .move] []).testIdle 0 = false ∧
    (asked [.pre, .move] []).boundaryDue 0 = true ∧ (asked [.pre, .move] []).hasReq 0 .selfTest = false ∧
      (asked [.pre, .move] []).hasReq 0 .move = true ∧
    (asked [.pre] []).boundaryDue 0 = true ∧ (asked [.pre] []).hasReq 0 .move = false ∧ (asked [.pre] []).hasReq 0 .pre = true ∧
    (asked [.yield] [fresh0]).boundaryDue 0 = true ∧ (asked [.yield] [fresh0]).hasReq 0 .pre = false ∧
      ((asked [.yield] [fresh0]).tile 0).closed = false ∧
    ((asked [.yield] [fresh0]).tile 0).headCount < ((asked [.yield] [fresh0]).tile 0).queue.length ∧
    (asked [.selfTest] []).boundaryDue 0 = true ∧ (asked [.selfTest] []).hasReq 0 .selfTest = true ∧
    ((asked [.pre] [fresh0]).tile 0).pair = none ∧ ctx0.life = .live := by decide +kernel

/-- A task that waits in `evt.wt`, and one whose release store waits, with a request pending that the watchdog ends at cycle n. -/
def yielding : Ctx := { ctx0 with status := .waiting (.evt 1), id := { ctx0.id with desc := desc0.set 1 0x1000000007 } }

def stuck (n : Word) : Ctx := { ctx0 with status := .waiting .heldWrite, reqs := [.pre], reqEnd := n }

def patient (x : Ctx) (xs : List Ctx) : Core :=
  (withDom (onTile (idle x) fun tl => { tl with queue := x :: xs }) { dom0 with ctl := [(0x70, 100)] }).toCore

theorem witness_TasksAndTheScheduler_waits :
    (patient ctx0 []).yieldDue 0 = false ∧ (patient yielding []).yieldDue 0 = true ∧ (patient yielding [fresh0]).yieldDue 0 = true ∧
    ((patient yielding [fresh0]).tile 0).closed = false ∧ ((patient yielding []).tile 0).pair = none ∧
    (idle ctx0).toCore.watchdogDue 0 = false ∧ (idle (stuck 5)).toCore.watchdogDue 0 = true ∧ (stuck 5).r.limit = 0 ∧ (stuck 5).id.logit = false ∧
    (stuck 5).reqEnd.toNat ≤ (stuck 5).r.cyc.toNat + (stuck 5).id.abint ∧ (idle (stuck 0x100000000)).toCore.watchdogDue 0 = true ∧
    (stuck 0x100000000).r.cyc.toNat + (stuck 0x100000000).id.abint < (stuck 0x100000000).reqEnd.toNat ∧ (idle ctx0).toCore.overrun 0 = none ∧
      ctx0.reqEnd = 0 ∧
    (idle { ctx0 with r := { ctx0.r with limit := 9, cyc := 9 } }).toCore.overrun 0 = some 0 := by decide +kernel

/-- A tile that is being emptied: its move, and what is left on it. -/
def emptying (m : MoveStage) (q : List Ctx) : Core :=
  (withDom (onTile (idle fresh0) fun tl => { tl with stage := m, queue := q, closed := true })
    { dom0 with move := some ⟨1, [0], true⟩, bbase := 0x1000001, slots := 2, slotUsed := [0] }).toCore

theorem padTo_length (n : Nat) (l : List Byte) : (padTo n l).length = n := by simp [padTo]

/-- The image of a task that has not started is its header, 4 KiB. -/
theorem fresh_image : ((emptying .draining [fresh0]).taskImage 0 0 none).length = 0x1000 := by
  unfold Core.taskImage Core.ctxImage headerBytes
  rw [if_neg (by decide +kernel), if_pos (by rfl)]
  exact padTo_length _ _

theorem fresh_slot : (emptying .draining [fresh0]).slotFault 0 (((emptying .draining [fresh0]).dom 0).slotPa 1)
    ((emptying .draining [fresh0]).taskImage 0 0 none).length = none := by
  rw [fresh_image]; decide +kernel

theorem witness_TasksAndTheScheduler_moves :
    ((emptying .saving []).tile 0).stage = .saving ∧ ((emptying .saving []).tile 0).queue = [] ∧
    ((emptying .releasing []).tile 0).stage = .releasing ∧ ((emptying .releasing []).tile 0).queue = [] ∧
      ((emptying .releasing []).tile 0).saving = [] ∧
    (emptying .releasing []).clean (dieOf 0) ((emptying .releasing []).domOf 0) = true ∧
    ({ emptying .releasing [] with reps := [⟨0, 32, 0, 32, 0, [0], [], 0, 0, false⟩] } : Core).clean (dieOf 0) 0 = false ∧
    ((emptying .releasing []).tile 0).serv = true ∧ ((emptying .releasing []).dom 0).move = some ⟨1, [0], true⟩ ∧
    ((emptying .draining [fresh0]).tile 0).stage = .draining ∧ ((emptying .draining [fresh0]).tile 0).queue = [fresh0] ∧ fresh0.pair = none ∧
    ((emptying .draining [fresh0]).tile 0).pair = none ∧ ((emptying .draining [fresh0]).dom 0).resuming = [] ∧
    ((emptying .draining [fresh0]).dom 0).freeSlot = some 1 ∧
    ((idle ctx0).toCore.dom 0).move = none ∧ ((emptying .saving []).dom 0).move.isSome = true := by decide +kernel

/-! Privileged operations, and signed images. -/

theorem leBytes_length (n v : Nat) : (leBytes n v).length = n := by
  induction n generalizing v with
  | zero => rfl
  | succ n ih => simp [leBytes, ih]

/-- Bytes of the scratchpad of tile 0. -/
theorem homeBytes_window (c : Core) (w : Map Byte) (off n : Nat) (h : (c.tile 0).win = w) (hn : off + n ≤ 0x1000000) :
    c.homeBytes (0xF000000000 + off) n = (List.range n).map fun i => mapGet 0 w (off + i) := by
  apply List.map_congr_left
  intro i hi
  have hi : i < n := by simpa using hi
  have hr : paRegion (0xF000000000 + off + i) = .win 0 (off + i) := by
    unfold paRegion
    rw [if_neg (by omega), if_pos (by omega)]
    congr 1 <;> omega
  simp only [Core.homeByte, hr, h]

/-- Whether n bytes of the own scratchpad at a VA are at this offset, and no own store is on its way. -/
def scratch (s : State) (va : Word) (n off : Nat) : Bool :=
  decide (0 < n) && decide (n ≤ 65536 - va.toNat % 65536) && decide (s.me.replay = []) && decide (s.me.late = []) && decide (s.rels = []) &&
  decide ((s.toCore.tile s.ref.tile).pair = none) && okAnd (s.acquirePart va n) (fun _ => true) &&
  loads s (.load 3) va n true fun l _ => l.isScratch s.ref.tile && decide (l.pa = 0xF000000000 + off)

theorem heldByte_none (c : Core) (r : CtxRef) (pa : Nat) (b : Byte) (h : c.rels = []) (hp : (c.tile r.tile).pair = none) : c.heldByte r pa b = b := by
  unfold Core.heldByte
  cases r <;> simp_all [CtxRef.tile]

theorem reads_scratch (s : State) (va : Word) (n fuel off : Nat) (acq : Bool) (h : scratch s va n off = true) :
    s.readOperand va n acq (fuel + 2) = .ok (some (s.toCore.homeBytes (0xF000000000 + off) n), s) := by
  simp only [scratch, Bool.and_eq_true, decide_eq_true_eq] at h
  obtain ⟨⟨⟨⟨⟨⟨⟨h0, h1⟩, h2⟩, h3⟩, h4⟩, h5⟩, h6⟩, h7⟩ := h
  obtain ⟨l, pl, hr, -, hl⟩ := ready_of_loads h7
  obtain ⟨u, hu, -⟩ := ok_of_okAnd _ _ h6
  simp only [Bool.and_eq_true, decide_eq_true_eq] at hl
  have hv : s.loadValue va n true l pl = s.toCore.homeBytes (0xF000000000 + off) n := by
    simp [State.loadValue, hl.1, hl.2, State.ownBytes, Ctx.parkedByte, h2, h3, heldByte_none _ _ _ _ h4 h5, List.mapIdx_eq_ofFn]
  have hs : s.afterLoad n false true l pl = s := by simp [State.afterLoad, hl.1]
  have hn : n ≠ 0 := by omega
  simp only [State.readOperand, Nat.min_eq_left h1, hn, if_false, State.loadPart_ready false hr, hv, hs, hu, Nat.sub_self, if_true, bind, Except.bind,
    pure, Except.pure]
  cases acq <;> simp [Option.map]

def signed0 : Nat := 0xb10506e910131bce3cd6076ba85b2c79228500e21d1b7e74c531585733ea8cd73a3fe5b752ab967543476facf336f2ed

def win0 : Map Byte := writeRun (writeRun [] 0x400 [3]) (0x400 + 2064) ((leBytes 48 signed0).reverse ++ (leBytes 48 signed0).reverse)

/-- A supervisor handler whose scratchpad holds, at s10, a microprogram image of number 3 and no micro-op, with the signature that this
key verifies: both halves equal the digest, and the key is the point of that abscissa less the generator. -/
def signing : State :=
  let s := hst ctx0 { hctx0 with r := { hctx0.r with s := [(10, 0xFFFFFFFFFF000400), (11, 0xFFFFFFFFFF000404), (12, 0x300000)] } }
  let s := onTile s fun tl => { tl with win := win0 }
  let mc := { s.mc with ukey := some (0x86b034470475a844ec08cab7f54ec2137e972562ed485620fd7960ffea86d92b5928b5b183f87fbc77e8764b97ff0d5f, 0x54e9711977436959a5ed2b76aa8a0444c599e6479aeea7b53ae4b7fad0121d1a4897186ad3b64ac6fad320d223283c31) }
  let c := { s.toCore with mc := mc }
  { s with toCore := c, saved := some c }

/-- The image as its bytes. -/
def image0 : List Byte := 3 :: List.replicate 2063 0 ++ ((leBytes 48 signed0).reverse ++ (leBytes 48 signed0).reverse)

theorem signing_image : signing.toCore.homeBytes (0xF000000000 + 0x400) 2160 = image0 := by
  rw [homeBytes_window _ win0 _ _ (by decide +kernel) (by decide), show 2160 = 2064 + 96 from rfl, List.range_add, List.map_append]
  have h : ∀ i ∈ List.range 2064, mapGet 0 win0 (0x400 + i) = if i = 0 then 3 else 0 := by
    intro i hi
    have hi : i < 2064 := by simpa using hi
    rw [win0, mapGet_writeRun_out _ _ _ _ (Or.inl (by omega))]
    by_cases h0 : i = 0
    · subst h0; decide
    · rw [mapGet_writeRun_out _ _ _ _ (Or.inr (by simp; omega)), if_neg h0]; rfl
  rw [List.map_congr_left h]
  decide +kernel

theorem image0_signed : signing.toCore.imageSigned image0 = true := by decide +kernel

theorem signing_reads (fuel : Nat) (acq : Bool) : signing.readOperand (signing.scalar 10) 2160 acq (fuel + 2) = .ok (some image0, signing) := by
  rw [reads_scratch signing (signing.scalar 10) 2160 fuel 0x400 acq (by decide +kernel), signing_image]

/-- 09 R253: images with status 0, 1 and 3. -/
theorem witness_SupervisorOperations_images :
    signing.readOperand (signing.scalar 10) 2160 false 3 = .ok (some image0, signing) ∧ signing.toCore.imageSigned image0 = true ∧
    signing.guardOk g0 = true ∧ signing.old.isSup = true ∧ signing.readable 10 = true ∧ ((image0.drop 8).take 8).all (· == 0) = true ∧
    (signing.scalar 10).toNat % 64 = 0 ∧ ready (hst ctx0 hctx0) g0 [5, 7] = true ∧ (hst ctx0 hctx0).old.isSup = true ∧
    (∃ img s1, (hst ctx0 hctx0).readOperand ((hst ctx0 hctx0).scalar 5) 2160 false 3 = .ok (some img, s1) ∧ s1.toCore.imageSigned img = false) ∧
    okAnd ((hst ctx0 hctx0).readOperand ((hst ctx0 hctx0).scalar 7) 2160 false 3) (fun r => r.1.isNone) = true := by
  refine ⟨signing_reads 1 false, image0_signed, by decide +kernel, by decide +kernel, by decide +kernel, by decide +kernel, by decide +kernel, by decide +kernel,
    by decide +kernel, ?_, by decide +kernel⟩
  exact ⟨_, _, reads_scratch (hst ctx0 hctx0) _ 2160 1 0x100 false (by decide +kernel), rfl⟩

/-- 12 R322: an image that the store holds already is loaded with status 0. -/
def holding : State := onTile signing fun tl => { tl with ucHeld := some (imageRec 0 image0) }

theorem witness_MatrixSlotOperations_images :
    signing.readOperand (signing.scalar 10) 2160 false 3 = .ok (some image0, signing) ∧ signing.old.rout = none ∧ signing.here = true ∧
    (∃ img s1, (hst ctx0 hctx0).readOperand ((hst ctx0 hctx0).scalar 5) 2160 false 3 = .ok (some img, s1) ∧
      s1.toCore.loadStatus (s1.toCore.tile 0).ucHeld ((hst ctx0 hctx0).scalar 5) (some img) ≠ 0) ∧
    (imageRec 0 image0).same (imageRec (holding.scalar 10) image0) = true ∧
    holding.toCore.loadStatus (holding.toCore.tile holding.ref.tile).ucHeld (holding.scalar 10) (some image0) = 0 := by
  refine ⟨signing_reads 1 false, by decide +kernel, by decide +kernel, ?_, by decide +kernel, by decide +kernel⟩
  refine ⟨_, _, reads_scratch (hst ctx0 hctx0) _ 2160 1 0x100 false (by decide +kernel), ?_⟩
  decide +kernel

/-- A read over two pages, of which the first is served. -/
def crossing : State :=
  onTile (hst ctx0 { hctx0 with r := { hctx0.r with s := [(10, 0x10FFF8)] } }) fun tl => { tl with tlb := [⟨0, 16, 0, 0x100071, 0⟩, ⟨0, 17, 0, 0x110071, 0⟩] }

theorem witness_SupervisorOperations_operands :
    loads signing (.load 3) (signing.scalar 10) 2160 true (fun l pl => acquires (signing.afterLoad 2160 false true l pl) (signing.scalar 10) 2160) = true ∧
    2160 ≤ 65536 - (signing.scalar 10).toNat % 65536 ∧
    trapAnd ((hst ctx0 hctx0).toCore.translateSpan ((hst ctx0 hctx0).toCore.whoFor (.hc 0 0) (.load 3)) (.load 3) ((hst ctx0 hctx0).scalar 7) 2160) (fun _ => true) = true ∧
    loads crossing (.load 3) (crossing.scalar 10) 8 true (fun l pl => let u := crossing.afterLoad 8 false true l pl
      acquires u (crossing.scalar 10) 8 && okAnd (u.readOperand (crossing.scalar 10 + 8) 8 true 2) fun r => r.1.isSome) = true ∧
    65536 - (crossing.scalar 10).toNat % 65536 = 8 := by decide +kernel

/-- The domain's tile 0 translates page 16, of which die 1 holds a replica. -/
def dropping : State :=
  let s := onTile (hst ctx0 hctx0) fun tl => { tl with tlb := [⟨0, 16, 0, 0x100171, 0⟩] }
  let c := { s.toCore with reps := [rep0] }
  { s with toCore := c, saved := some c }

theorem witness_SupervisorOperations_rights :
    (st ctx0).old.isSup = false ∧ (st ctx0).guardOk g0 = true ∧ ready (hst ctx0 hctx0) g0 [1, 2, 4] = true ∧ (hst ctx0 hctx0).old.isSup = true ∧
    releases (hst ctx0 hctx0) .mod = true ∧ (hst ctx0 hctx0).toCore.invPages 0 1 0x100000 0 = [] ∧ ready dropping g0 [4, 0] = true ∧
    dropping.toCore.invPages 0 1 (dropping.scalar 4) (dropping.scalar 0) = [16] ∧ releases dropping .mod = true ∧
      dropping.old.isSup = true := by decide +kernel

/-! `ctx.sv`: the image of a task of 16 KiB and 16 rows takes four pages. -/

/-- A handler that serves the suspended task, with four pages at s4 for its image; it has asked, or not; with the task's stores that wait. -/
def saving (asked : Option Bool) (un : List Nat) : State :=
  let x : Ctx := { ctx0 with status := .suspended, unacked := un }
  let h : Ctx := { hctx0 with hc := some { hc0 with serves := some ctx0.id.taskid, asked := asked } }
  onTile (hst x h) fun tl => { tl with tlb := [⟨0, 16, 0, 0x100071, 0⟩, ⟨0, 17, 0, 0x110071, 0⟩, ⟨0, 18, 0, 0x120071, 0⟩, ⟨0, 19, 0, 0x130071, 0⟩] }

/-- The buffer of the image has this many pages, or one of them faults. -/
def buffers (s : State) (va : Word) (p : Option (List (Loc × Place)) → Bool) : Bool :=
  okAnd (s.toCore.bufferPages s.ref va (((s.toCore.ctx (.task 0 0)).imgLen + 65535) / 65536)) p

theorem witness_SupervisorOperations_saves :
    (saving none []).ref = .hc 0 0 ∧ ready (saving none []) g0 [4, 7, 1] = true ∧ (saving none []).old.isSup = true ∧
    (saving none []).toCore.suspended (.hc 0 0) = some 0 ∧ ((saving none []).scalar 4).toNat % 65536 = 0 ∧
      ((saving none []).scalar 7).toNat % 65536 = 0 ∧
    ((saving none []).scalar 1).toNat % 65536 ≠ 0 ∧ ((saving none []).toCore.tile 0).pair = none ∧ (saving none []).asked = none ∧
    ((saving none []).toCore.ctx? (.task 0 0)).map (fun x => x.still) = some true ∧ (saving none []).toCore.released (.task 0 0) .mod = true ∧
    (saving none [7]).toCore.released (.task 0 0) .mod = false ∧
    buffers (saving none []) ((saving none []).scalar 7) (fun r => r.isNone) = true ∧
    buffers (saving none []) ((saving none []).scalar 4) (fun r => (r.map (·.length)) == some 4) = true ∧
    (saving (some true) []).asked.isSome = true ∧ releases (saving (some true) []) .mod = true ∧
      (saving (some true) []).toCore.suspended (.hc 0 0) = some 0 ∧
    (hst ctx0 hctx0).toCore.suspended (.hc 0 0) = none ∧
    trapAnd ((hst ctx0 hctx0).toCore.translate ((hst ctx0 hctx0).toCore.who (.hc 0 0)) (.store 3) ((hst ctx0 hctx0).scalar 7)) (fun _ => true) = true ∧
    okAnd (crossing.toCore.bufferPages (.hc 0 0) 0x100000 2) (fun r => r.isSome) = true ∧
      crossing.toCore.suspended (.hc 0 0) = none := by decide +kernel

/-- The handler waits for its save. -/
def saving2 : Core :=
  ((saving none []).toCore).updCtx (.hc 0 0) fun y => { y with status := .waiting (.save 0x100000) }

theorem witness_SupervisorOperations_images_written :
    (saving2.ctx? (.hc 0 0)).map (fun y => (y.status, y.hc.map fun h => h.asked)) = some (.waiting (.save 0x100000), some none) ∧
    saving2.suspended (.hc 0 0) = some 0 ∧ (saving2.tile 0).pair = none ∧ saving2.home = [] ∧ saving2.pages = [] ∧ saving2.poison = [] ∧
    saving2.aden (saving2.domOf 0) = false ∧
    okAnd (saving2.bufferPages (.hc 0 0) 0x100000 (((saving2.ctx (.task 0 0)).imgLen + 65535) / 65536)) (fun r =>
      r.any fun ps => (ps.map fun e => e.1.pa) == [0x100000, 0x110000, 0x120000, 0x130000] && (ps.all fun e => e.2 == .primary &&
        e.1.pa % 65536 == 0 && paRegion e.1.pa == .hbm e.1.pa)) = true := by decide +kernel

/-! `ctx.ld`. -/

/-- The codes of `ctx.ld` for an image and a tile (09 R250). -/
def ldCodes (s : State) (t : Nat) (img : List Byte) : List (Bool × Nat) :=
  let d := s.toCore.domOf s.ref.tile
  let dm := s.toCore.dom d
  let i := dm.identOf img
  let sound := dm.imageSound img
  [(!s.toCore.inDomain d t, 1), (sound && (s.toCore.tile t).learner != i.side, 2),
    (sound && !s.toCore.fitsBoth t i ((imageMate img).map fun m => dm.identOf m), 3), (!sound, 4), ((s.toCore.tile t).closed, 5)]

/-- The image of a task that has not started and claims nothing, at s5. -/
def loading : State :=
  onTile (hst ctx0 hctx0) fun tl => { tl with win := writeRun [] 0x100 (leBytes 16 (0x5A56434900010008 + 0x1000 * 2 ^ 64)) }

def image1 : List Byte := leBytes 16 (0x5A56434900010008 + 0x1000 * 2 ^ 64) ++ List.replicate 4080 0

theorem loading_image : loading.toCore.homeBytes (0xF000000000 + 0x100) 4096 = image1 := by
  rw [homeBytes_window _ (writeRun [] 0x100 (leBytes 16 (0x5A56434900010008 + 0x1000 * 2 ^ 64))) _ _ (by decide +kernel) (by decide),
    show 4096 = 16 + 4080 from rfl, List.range_add, List.map_append, List.map_map]
  have h : ∀ i ∈ List.range 4080, ((fun i => mapGet 0 (writeRun [] 0x100 (leBytes 16 (0x5A56434900010008 + 0x1000 * 2 ^ 64))) (0x100 + i)) ∘ fun x => 16 + x) i = (0 : Byte) := by
    intro i _
    show mapGet 0 _ (0x100 + (16 + i)) = 0
    rw [mapGet_writeRun_out _ _ _ _ (Or.inr (by rw [leBytes_length]; omega))]; rfl
  rw [List.map_congr_left h, List.map_const', List.length_range, image1]
  congr 1

theorem loading_reads (fuel : Nat) : loading.readOperand (loading.scalar 5) 0x1000 true (fuel + 2) = .ok (some image1, loading) := by
  rw [reads_scratch loading (loading.scalar 5) 0x1000 fuel 0x100 true (by decide +kernel), loading_image]

theorem image1_length : numAt image1 8 8 = 0x1000 := by decide +kernel

theorem witness_SupervisorOperations_loads :
    ready loading g0 [5, 0, 1] = true ∧ loading.here = true ∧ loading.old.isSup = true ∧ loading.ref.isHc = true ∧
    loading.readOperand (loading.scalar 5) 0x1000 true 3 = .ok (some image1, loading) ∧
      numAt image1 8 8 ≤ 2 * (0x20000 + 0x1000 * 256 + 0x400 * 4096) ∧
    loading.readOperand (loading.scalar 5) (numAt image1 8 8) true 200 = .ok (some image1, loading) ∧
    leastOf (ldCodes loading (wbits (loading.scalar 0) 0 9) image1) = none ∧ imageMate image1 = none ∧
    leastOf (ldCodes loading (wbits (loading.scalar 1) 0 9) image1) = some 1 ∧
    okAnd ((hst ctx0 hctx0).readOperand ((hst ctx0 hctx0).scalar 7) 0x1000 true 3) (fun r => r.1.isNone && r.2.toCore.inDomain 0 0) = true := by
  refine ⟨by decide +kernel, by decide +kernel, by decide +kernel, by decide +kernel, loading_reads 1, by decide +kernel, ?_, by decide +kernel, by decide +kernel,
    by decide +kernel, by decide +kernel⟩
  rw [image1_length]
  exact loading_reads 198

/-- A handler that asked, or not, and what was answered. -/
def asking (a : Option Bool) : State := hst ctx0 { hctx0 with hc := some { hc0 with asked := a }, r := { hctx0.r with s := [(1, 5), (3, 3)] } }

/-- Two tiles of the domain, of which a mask names the first. -/
def bordering : State :=
  let s := onTile (hst ctx0 { hctx0 with r := { hctx0.r with s := [(1, 1), (3, 3), (5, 0xFFFFFFFFFF000100)] } }) fun tl => { tl with win := [(0x100, 1)] }
  let c := s.toCore.setTile 1 { Tile.init with dom := some 0 }
  { s with toCore := c, saved := some c }

theorem witness_SupervisorOperations_requests :
    ((([none, some true, some false] : List (Option Bool)).all fun a => decide ((asking a).asked = a) && ready (asking a) g0 [0, 1] && (asking a).old.isSup) = true) ∧
    ((asking none).toCore.tile (wbits ((asking none).scalar 1) 0 9)).dom ≠ some 0 ∧
      ((asking none).toCore.tile (wbits ((asking none).scalar 0) 0 9)).dom = some 0 ∧
    (asking none).toCore.running 0 = true ∧
    (let c := (onTile (asking none) fun tl => { tl with queue := [] }).toCore
     c.running 0 = false ∧ (c.tile 0).stage ≠ .draining) ∧
    ((asking none).toCore.ctx? (.hc 0 0)).isSome = true ∧ ((asking none).toCore.tile 0).queue = [ctx0] ∧
    ready bordering g0 [5, 1, 3] = true ∧ bordering.asked = none ∧
    okAnd (bordering.readOperand (bordering.scalar 5) 64 false 3) (fun r => (r.2.toCore.movStatus 0 r.1 (bordering.scalar 1)).isNone &&
      (r.2.toCore.movStatus 0 r.1 (bordering.scalar 0) == some 2) && (r.2.toCore.movStatus 0 r.1 (bordering.scalar 3) == some 6)) = true ∧
    (63 : BitVec 6) ≠ 0 := by decide +kernel

/-! Devices, ports and management. -/

/-- A machine whose management registers differ. -/
def managed (e : Event) (f : Mc → Mc) : State := shared e fun c => { c with mc := f c.mc }

/-- Function 0 of host port 0 is bound to domain 0; port 0 is CXL with 1 GiB of device memory. -/
def bound (m : Mc) : Mc := { m with hfunc := [(0, 0x100), (8, 0x40000002)] }

def slotted (c : Core) : Core := { c with mc := bound c.mc, msgs := [.messageSlotWrite 0 3 0 [1] 0x1001 true true 0] }

theorem witness_DevicesAndManagement_tables :
    ((idle ctx0).toCore.dom 0).region 5 = .init ∧ (((versions none).toCore.dom 0).region 5).en = true ∧
      ((idle ctx0).toCore.dom 0).enableRefused 5 (Region.write .init 0 1) = true ∧
    (let d : Domain := { dom0 with regions := [(5, { region0 with en := false })] }
     (d.region 5).en = false ∧ d.enableRefused 5 ((d.region 5).write 0 0x10001) = false ∧ wbits 0x10001 0 1 = 1) ∧ (5 : Nat) ≠ headerEntry ∧
    wbits (mapGet 0 ((idle ctx0).toCore.dom 0).groups (4 * 3)) 0 1 ≠ 1 ∧
    wbits (mapGet 0 ((withDom (idle ctx0) { dom0 with groups := [(12, 0x10001)] }).toCore.dom 0).groups (4 * 3)) 0 1 = 1 ∧
    wbits 0x2400000003 0 1 = 1 ∧ wbits 0x2400000003 1 1 = 1 ∧ 36 ≤ wbits 0x2400000003 32 6 ∧ wbits 0x2400000002 0 1 = 0 := by decide +kernel

theorem witness_DevicesAndManagement_hosts :
    (idle ctx0).toCore.boundDomain 0 = none ∧ (managed (.hostRead 0 false 0 4) bound).toCore.boundDomain 0 = some 0 ∧
    (managed (.hostRead 0 false 0 4) bound).toCore.portStalled 0 = false ∧ (slotted (idle ctx0).toCore).portStalled 0 = true ∧
    (slotted (idle ctx0).toCore).boundDomain 0 = some 0 ∧
    (let s := managed (.hostPostedWrite 0 false 0x100 [1, 2]) bound
     let put := fun at0 => s.toCore.outsidePut (hostWho 0 0) (hostSender 0) (fun c va => c.bar0 (hostWho 0 0) .engWr va.toNat) (BitVec.ofNat 64 at0) [1, 2] []
       ([(1 : Byte), 2].length / 64 + 3)
     okAnd (put (Config.windowBase + 0x100)) (fun r => r.2.2.isNone && !isMessage s.toCore r.1) = true ∧
     okAnd (put (Config.windowBase + 0x1000000)) (fun r => r.2.2.any fun i => i.cause == cDomain) = true ∧ s.toCore.hostArrived = true ∧
     okAnd (s.toCore.hostBytes (hostWho 0 0) false 0x100 2) (fun bs => bs == [0, 0]) = true) ∧
    (let s := walked (idle ctx0)
     okAnd (s.toCore.engineLoc (linkWho 0) .engWr 0x100010) (fun l => (paRegion l.pa == .hbm 0x100010) && !s.toCore.aden 0 &&
       okAnd (s.toCore.placeOf (linkWho 0) .engWr l) fun pl => !(s.toCore.homeLine pl (l.pa / 128)).recalled &&
         decide ((s.toCore.page (l.pa / 65536)).mode ≠ .draining)) = true) ∧
    paRegion (0x1000000000 * 128) = .coh 0 0 ∧ 0x1000000000 ∈ ({ (idle ctx0).toCore with cxlDirty := [0x1000000000] } : Core).cxlDirty ∧
    (let c := (managed (.cxlMemAccess 0 false 0 [0, 0]) bound).toCore
     c.cxlMemPa 0 0 2 = some 0 ∧ c.cxlMemPa 0 0x40000000 2 = none ∧
     ((splitLines (2 / 128 + 2) 0 [some 0, some 0]).any fun e => c.recallBusy e.1 || (c.page (e.1 / 65536)).mode == .draining) = false) := by decide +kernel

/-- Port 4, with a state and counts. -/
def ported (x : Port) (e : Event) : State := managed e fun m => { m with ports := [(4, x)] }

def flit0 (ok : Bool) (dest : BitVec 20) (body : Option VcMsg) : Flit := ⟨4, .g, 0, ok, dest, body⟩

def bcast0 : WBcast := ⟨0, 5, 0x8000, true, 4, 1, 9, [(0, 9)], none⟩

/-- The version table with region 5 of domain 0. -/
def broadcasting (rg : Region) (held : List WBcast) (e : Event) : State :=
  ported { Port.init with state := 1, held := held } e |> fun s => withDom s { dom0 with regions := [(5, rg)], lver := 0x7FFF }

/-- What a receiver does with the broadcast: 0 discards, 1 holds, 2 waits, 3 takes it. -/
def takenBy (c : Core) : Nat :=
  match c.takeBroadcast bcast0 with
  | .discard => 0
  | .hold => 1
  | .busy => 2
  | .taken .. => 3

def receiving (rg : Region) : Core := (broadcasting rg [] (.weightBroadcastReceive bcast0)).toCore

def taken (rg : Region) : Nat := takenBy (receiving rg)

/-- The broadcast after its copy has been claimed and written. -/
def bcast1 : WBcast := { bcast0 with put := some (1, [9]) }

theorem witness_DevicesAndManagement_ports :
    ((ported .init (.flitReceive (flit0 true 0 none))).toCore.port 4).state ≠ 1 ∧
    (let x : Port := { Port.init with state := 1, retries := 14 }
     ((ported x (.flitReceive (flit0 false 0 none))).toCore.port 4) = x ∧ x.state = 1 ∧ x.retries + 1 < 16 ∧ (flit0 false 0 none).crcOk = false ∧
       (flit0 true 0 none).crcOk = true) ∧
    16 ≤ ({ Port.init with state := 1, retries := 15 } : Port).retries + 1 ∧
    taken { region0 with en := false } = 0 ∧ taken { region0 with cur := 0x8000 } = 0 ∧ taken region1 = 1 ∧ taken region0 = 3 ∧
    takenBy { receiving region0 with pages := [(0x30, { PageState.init with mode := .draining })] } = 2 ∧
    bcast0.put = none ∧ bcast1.put = some (1, [9]) ∧ (receiving region1).weightsWait bcast1 = false ∧
    ({ receiving region1 with diffs := [⟨9, 0, 0, 0x20, 1, 0, .none⟩] } : Core).weightsWait bcast1 = true ∧
    (mapGet Copy.init (((receiving region1).dom 0).region 5).copies 1).state = 1 ∧ region1.takes bcast1.ver = true ∧
    ({ region1 with cur := 0x8000 } : Region).takes bcast1.ver = false ∧
    ((broadcasting region0 [bcast0] (.heldBroadcastResume 4)).toCore.port 4).held = [bcast0] ∧
    ((broadcasting region0 [] (.weightBroadcastReceive bcast0)).toCore.port 4).held = [] := by decide +kernel

theorem witness_DevicesAndManagement_flits :
    (let x : Port := { Port.init with state := 1 }
     ((ported x (.flitReceive (flit0 true 0 none))).toCore.port 4) = x ∧ (flit0 true 0 none).seq = mapGet 0 x.rxSeq (chanCode .g) ∧
     ({ flit0 true 0 none with seq := 1 } : Flit).seq ≠ mapGet 0 x.rxSeq (chanCode .g)) ∧
    (let c := (managed (.flitReceive (flit0 true 0 none)) fun m => { m with modnum := 0 }).toCore
     (flit0 true 0 none).body = none ∧ (flit0 true 5 (some (.diff diff0))).dest ≠ c.mc.modnum ∧
       (flit0 true 0 (some (.diff diff0))).dest = c.mc.modnum ∧
     (flit0 true 0 (some (.weights 1 0 5 0x8000 true 9 [(0, 9)]))).dest = c.mc.modnum ∧ (8 : Nat) ≤ farDie 1 5 ∧
     (flit0 true 0 (some (.atomic (farDie 1 5) 3 9 0x100000 .add true false 1 0 none none))).dest = c.mc.modnum ∧
     (flit0 true 0 (some (.result 0 9 1))).dest = c.mc.modnum) := by decide +kernel

theorem witness_DevicesAndManagement_resets :
    ((idle ctx0).toCore.tile 0).idle = false ∧ ((idle ctx0).toCore.tile 5).idle = true ∧ (5 : Nat) < Config.tiles ∧
      ((idle ctx0).toCore.dom 0).move = none ∧
    (idle ctx0).mc.log = [] ∧ ((idle ctx0).toCore.tile 0).dom = some 0 ∧ ((idle ctx0).toCore.tile 5).dom ≠ some 0 ∧
    (let m : Mc := { Mc.init with spdm := ⟨true, true, true, []⟩ }
     m.spdm.algs = true ∧ m.spdm.caps = true) ∧ Mc.init.spdm.algs = false ∧ Mc.init.spdm.caps = false ∧
       Mc.init.spdm.version = false := by decide +kernel

theorem witness_DevicesAndManagement_power :
    Power.init.plim.toNat < (451 : BitVec 16).toNat ∧ (429 : BitVec 16).toNat + 20 < Power.init.plim.toNat ∧
      (430 : BitVec 16).toNat ≤ Power.init.plim.toNat ∧
    Power.init.plim.toNat ≤ (430 : BitVec 16).toNat + 20 ∧ ((idle ctx0).ftick - ((idle ctx0).toCore.power 3).plannedAt).toNat < replanTime ∧
    replanTime ≤ (({ idle ctx0 with ftick := 86400000000000 } : State).ftick - ((idle ctx0).toCore.power 3).plannedAt).toNat ∧
    ((idle ctx0).toCore.errorKey .scratchpad 0 0xF000000000).isSome = true ∧
    (let s := managed (.selfTestComplete .scratchpad 0 false false) fun m => { m with testing := [(.scratchpad, 0, 0xF000000000)] }
     let u := onTile s fun tl => { tl with testing := some .scratchpad }
     u.mc.testing.find? (fun e => e.1 == .scratchpad && e.2.1 == 0) = some (.scratchpad, 0, 0xF000000000) ∧ unitTile .scratchpad 0 = some 0 ∧
     (u.toCore.tile 0).testing = some .scratchpad) ∧ (idle ctx0).mc.testing = [] ∧ unitTile .homeSlice 0 = none ∧
       unitTile .walePort 0 = none := by decide +kernel

end Sys2Proof.Tests
end

/-!
SUPPORT. The S slot's arithmetic, bit fields, compares, select and immediates, and the branches and calls of the C slot
(09 R228 to R232, R235): what one operation of each operand shape does, and the words of each encoding format.
-/

namespace Sys2Proof.Machine

open Sys2Proof

/-! Words and numbers. -/

theorem toNat_append_add {v w : Nat} (x : BitVec v) (y : BitVec w) : (x ++ y).toNat = x.toNat * 2 ^ w + y.toNat := by
  rw [BitVec.toNat_append, ← Nat.shiftLeft_add_eq_or_of_lt y.isLt, Nat.shiftLeft_eq]

/-- Where the model asks for b < a and the manual for a ≤ b, the branches are exchanged. -/
theorem min_by_slt (a b : Word) : (if b.slt a then b else a) = if a.toInt ≤ b.toInt then a else b := by
  simp only [BitVec.slt, decide_eq_true_eq, ← not_lt, ite_not]

theorem min_by_ult (a b : Word) : (if b.ult a then b else a) = if a.toNat ≤ b.toNat then a else b := by
  simp only [BitVec.ult, decide_eq_true_eq, ← not_lt, ite_not]

/-- Where the model asks for a < b and the manual for a ≤ b, the words are equal when the answers differ. -/
theorem max_by_slt (a b : Word) : (if a.slt b then b else a) = if a.toInt ≤ b.toInt then b else a := by
  simp only [BitVec.slt, decide_eq_true_eq]
  rcases lt_trichotomy a.toInt b.toInt with h | h | h
  · rw [if_pos h, if_pos h.le]
  · rw [BitVec.eq_of_toInt_eq h, ite_self, ite_self]
  · rw [if_neg h.asymm, if_neg h.not_ge]

theorem max_by_ult (a b : Word) : (if a.ult b then b else a) = if a.toNat ≤ b.toNat then b else a := by
  simp only [BitVec.ult, decide_eq_true_eq]
  rcases lt_trichotomy a.toNat b.toNat with h | h | h
  · rw [if_pos h, if_pos h.le]
  · rw [BitVec.eq_of_toNat_eq h, ite_self, ite_self]
  · rw [if_neg h.asymm, if_neg h.not_ge]

theorem lt_two_pow_bitLen (n : Nat) : n < 2 ^ bitLen n := by
  unfold bitLen
  split
  · omega
  · exact Nat.lt_log2_self

theorem two_pow_le_of_bitLen {n k : Nat} (h : bitLen n = k + 1) : 2 ^ k ≤ n := by
  unfold bitLen at h
  split at h
  · omega
  · have hk : n.log2 = k := by omega
    exact hk ▸ Nat.log2_self_le ‹_›

theorem bitLen_toNat_le {w : Nat} (a : BitVec w) : bitLen a.toNat ≤ w := by
  by_contra h
  obtain ⟨k, hk⟩ := Nat.exists_eq_succ_of_ne_zero (show bitLen a.toNat ≠ 0 by omega)
  have hle := two_pow_le_of_bitLen hk
  have hmono : 2 ^ w ≤ 2 ^ k := Nat.pow_le_pow_right (by decide) (by omega)
  have := a.isLt
  omega

/-- What `clz` counts: the word has no bit from 64 - n upward, and bit 63 - n is set unless n is 64. -/
theorem leadingZeros_bounds (a : Word) :
    64 - bitLen a.toNat ≤ 64 ∧ a.toNat < 2 ^ (64 - (64 - bitLen a.toNat)) ∧
      (64 - bitLen a.toNat < 64 → 2 ^ (63 - (64 - bitLen a.toNat)) ≤ a.toNat) := by
  have hle := bitLen_toNat_le a
  refine ⟨by omega, ?_, fun h => two_pow_le_of_bitLen (by omega)⟩
  rw [Nat.sub_sub_self hle]
  exact lt_two_pow_bitLen _

theorem bitField_eq (a : Word) (pos len : Nat) : bitField a pos len = a.toNat / 2 ^ pos % 2 ^ len := by
  rw [bitField, wbits, Nat.shiftRight_eq_div_pow]

/-- The upper half from one number, the lower half from another. -/
theorem append_low_half (imm : BitVec 32) (a : Word) :
    imm ++ a.extractLsb' 0 32 = BitVec.ofNat 64 (imm.toNat * 2 ^ 32 + a.toNat % 2 ^ 32) := by
  apply BitVec.eq_of_toNat_eq
  have := imm.isLt
  simp only [toNat_append_add, BitVec.extractLsb'_toNat, Nat.shiftRight_zero, BitVec.toNat_ofNat]
  omega

theorem sextNat_mod (n v : Nat) :
    sextNat n (v % 2 ^ n) = let f : Int := (v % 2 ^ n : Nat)
      if f < 2 ^ (n - 1) then f else f - 2 ^ n := by
  simp only [sextNat, Nat.mod_mod]
  norm_cast

/-- A word with a field replaced is its bits above the field, the field's new value and its bits below. -/
theorem wset_eq (a : Word) (lo n v : Nat) :
    wset a lo n v = BitVec.ofNat 64 (2 ^ lo * (2 ^ n * (a.toNat / 2 ^ lo / 2 ^ n) + v % 2 ^ n) + a.toNat % 2 ^ lo) := by
  have hlow := Nat.div_add_mod a.toNat (2 ^ lo)
  have hfield := congrArg (2 ^ lo * ·) (Nat.div_add_mod (a.toNat / 2 ^ lo) (2 ^ n))
  simp only [Nat.mul_add] at hfield
  simp only [wset, Nat.shiftRight_eq_div_pow, Nat.shiftLeft_eq, Nat.mul_add, Nat.mul_comm _ (2 ^ lo)]
  congr 1
  omega

theorem getLsbD_wset (a : Word) (lo n v : Nat) {i : Nat} (hi : i < 64) :
    (wset a lo n v).getLsbD i = if lo ≤ i ∧ i < lo + n then v.testBit (i - lo) else a.getLsbD i := by
  have hlow : a.toNat % 2 ^ lo < 2 ^ lo := Nat.mod_lt _ (by positivity)
  have hfield : v % 2 ^ n < 2 ^ n := Nat.mod_lt _ (by positivity)
  rw [wset_eq, BitVec.getLsbD_ofNat, Nat.testBit_two_pow_mul_add _ hlow, Nat.testBit_two_pow_mul_add _ hfield]
  simp only [hi, decide_true, Bool.true_and, Nat.testBit_mod_two_pow, Nat.testBit_div_two_pow, BitVec.getLsbD]
  by_cases h1 : i < lo
  · simp [h1, Nat.not_le.2 h1]
  · by_cases h2 : i - lo < n
    · have : i < lo + n := by omega
      simp [h1, h2, this, Nat.le_of_not_lt h1]
    · have hout : ¬ i < lo + n := by omega
      simp only [h1, h2, hout, if_false, and_false]
      congr 1
      omega

/-- Every condition of a scalar compare as the manual's order (09 R231). -/
theorem Cond.holds_eq (a b : Word) : Cond.eq.holds a b = decide (a = b) := by
  simp only [Cond.holds, beq_eq_decide]

theorem Cond.holds_ne (a b : Word) : Cond.ne.holds a b = decide (a ≠ b) := by
  simp only [Cond.holds, bne, beq_eq_decide, decide_not]

theorem Cond.holds_ge (a b : Word) : Cond.ge.holds a b = decide (b.toInt ≤ a.toInt) := by
  simp only [Cond.holds, BitVec.slt, ← decide_not, not_lt]

theorem Cond.holds_geu (a b : Word) : Cond.geu.holds a b = decide (b.toNat ≤ a.toNat) := by
  simp only [Cond.holds, BitVec.ult, ← decide_not, not_lt]

/-! Operations whose guard holds and whose sources have landed (08 R206, R209). -/

section
variable {s : State} {g : Guard} {x y : BitVec 6}

/-- An operation of one scalar source goes on with the value that the older bundles left. -/
theorem guarded_read1 (k : State → Word → Op State) (hg : s.guardOk g = true) (hx : s.readable x = true) :
    guarded s g skip (fun s => s.rdS x >>= k s) = finish s (k s (s.scalar x)) := by
  rw [guarded_on _ _ hg, State.rdS_readable hx]
  rfl

/-- An operation of two scalar sources goes on with the values that the older bundles left. -/
theorem guarded_read2 (k : State → Word → Word → Op State) (hg : s.guardOk g = true) (hx : s.readable x = true)
    (hy : s.readable y = true) :
    guarded s g skip (fun s => s.rdS x >>= fun a => s.rdS y >>= k s a) = finish s (k s (s.scalar x) (s.scalar y)) := by
  rw [guarded_read1 (fun s a => s.rdS y >>= k s a) hg hx, State.rdS_readable hy]
  rfl

end

/-- A register operation writes its function of the sources. -/
theorem exec_alu2_written (i : OpRRR → Instr) {e f : Word → Word → Word}
    (hi : ∀ o s, exec (i o) s = alu2 s o e := by exact fun _ _ => rfl) (hf : ∀ a b, e a b = f a b := by exact fun _ _ => rfl)
    (o : OpRRR) (s : State) (hh : s.here = true) (hg : s.guardOk o.gd = true)
    (ha : s.readable o.a = true) (hb : s.readable o.b = true) :
    ∃ t, exec (i o) s = .next t ∧ ScalarWritten s t o.d (f (s.scalar o.a) (s.scalar o.b)) 0 :=
  ⟨_, (hi o s).trans (guarded_read2 (fun s a b => .ok (s.wrS o.d (e a b))) hg ha hb), hf _ _ ▸ s.wrS_written o.d _ hh⟩

theorem exec_alu1_written (i : OpRR → Instr) {e : Word → Word}
    (hi : ∀ o s, exec (i o) s = alu1 s o e := by exact fun _ _ => rfl)
    (o : OpRR) (s : State) (hh : s.here = true) (hg : s.guardOk o.gd = true) (ha : s.readable o.a = true) :
    ∃ t, exec (i o) s = .next t ∧ ScalarWritten s t o.d (e (s.scalar o.a)) 0 :=
  ⟨_, (hi o s).trans (guarded_read1 (fun s a => .ok (s.wrS o.d (e a))) hg ha), s.wrS_written o.d _ hh⟩

theorem exec_aluImm_written (i : OpRRI → Instr) {e f : Word → Word → Word}
    (hi : ∀ o s, exec (i o) s = aluImm s o e := by exact fun _ _ => rfl) (hf : ∀ a b, e a b = f a b := by exact fun _ _ => rfl)
    (o : OpRRI) (s : State) (hh : s.here = true) (hg : s.guardOk o.gd = true)
    (ha : s.readable o.a = true) :
    ∃ t, exec (i o) s = .next t ∧ ScalarWritten s t o.d (f (s.scalar o.a) (o.imm.signExtend 64)) 0 :=
  ⟨_, (hi o s).trans (guarded_read1 (fun s a => .ok (s.wrS o.d (e a (o.imm.signExtend 64)))) hg ha),
    hf _ _ ▸ s.wrS_written o.d _ hh⟩

theorem exec_aluShift_written (i : OpShI → Instr) {e : Word → Nat → Word}
    (hi : ∀ o s, exec (i o) s = aluShift s o e := by exact fun _ _ => rfl)
    (o : OpShI) (s : State) (hh : s.here = true) (hg : s.guardOk o.gd = true) (ha : s.readable o.a = true) :
    ∃ t, exec (i o) s = .next t ∧ ScalarWritten s t o.d (e (s.scalar o.a) o.sh.toNat) 0 :=
  ⟨_, (hi o s).trans (guarded_read1 (fun s a => .ok (s.wrS o.d (e a o.sh.toNat))) hg ha), s.wrS_written o.d _ hh⟩

/-- A compare of two scalars and the compare with an immediate write the same condition of their operands. -/
theorem exec_compare_written (i : OpCmp → Instr) (j : OpCmpI → Instr) {c : Cond} {f : Word → Word → Bool}
    (hf : ∀ a b : Word, c.holds a b = f a b) (hi : ∀ o s, exec (i o) s = compare2 s o c := by exact fun _ _ => rfl)
    (hj : ∀ o s, exec (j o) s = compareImm s o c := by exact fun _ _ => rfl) :
    (∀ (o : OpCmp) (s : State), s.here → s.guardOk o.gd → s.readable o.a → s.readable o.b →
      ∃ t, exec (i o) s = .next t ∧ GuardsWritten s t o.d (f (s.scalar o.a) (s.scalar o.b))) ∧
    (∀ (o : OpCmpI) (s : State), s.here → s.guardOk o.gd → s.readable o.a →
      ∃ t, exec (j o) s = .next t ∧ GuardsWritten s t o.d (f (s.scalar o.a) (o.imm.signExtend 64))) := by
  constructor
  · intro o s hh hg ha hb
    exact ⟨_, (hi o s).trans (guarded_read2 (fun s a b => .ok (s.wrG o.d (c.holds a b))) hg ha hb),
      hf _ _ ▸ s.wrG_written o.d _ hh⟩
  · intro o s hh hg ha
    exact ⟨_, (hj o s).trans (guarded_read1 (fun s a => .ok (s.wrG o.d (c.holds a (o.imm.signExtend 64)))) hg ha),
      hf _ _ ▸ s.wrG_written o.d _ hh⟩

/-- `divu` writes the quotient and joins DZ for a zero divisor (09 R228). -/
theorem exec_divu_written (o : OpRRR) (s : State) (hh : s.here = true) (hg : s.guardOk o.gd = true)
    (ha : s.readable o.a = true) (hb : s.readable o.b = true) :
    ∃ t, exec (.divu o) s = .next t ∧
      ScalarWritten s t o.d (divide (s.scalar o.a) (s.scalar o.b)) (fIf (s.scalar o.b == 0) fDZ) :=
  ⟨_, guarded_read2 (fun s a b => .ok ((s.wrS o.d (divide a b)).flag (fIf (b == 0) fDZ))) hg ha hb,
    s.wrS_flag_written o.d _ _ hh⟩

theorem exec_bfx_written (o : OpBfx) (s : State) (hh : s.here = true) (hg : s.guardOk o.gd = true)
    (ha : s.readable o.a = true) :
    ∃ t, exec (.bfx o) s = .next t ∧
      ScalarWritten s t o.d (BitVec.ofNat 64 (bitField (s.scalar o.a) o.pos.toNat o.len.toNat)) 0 :=
  ⟨_, guarded_read1 (fun s a => .ok (s.wrS o.d (BitVec.ofNat 64 (bitField a o.pos.toNat o.len.toNat)))) hg ha,
    s.wrS_written o.d _ hh⟩

theorem exec_bfxS_written (o : OpBfx) (s : State) (hh : s.here = true) (hg : s.guardOk o.gd = true)
    (ha : s.readable o.a = true) :
    ∃ t, exec (.bfxS o) s = .next t ∧
      ScalarWritten s t o.d (wordOfInt (sextNat o.len.toNat (bitField (s.scalar o.a) o.pos.toNat o.len.toNat))) 0 :=
  ⟨_, guarded_read1
      (fun s a => .ok (s.wrS o.d (wordOfInt (sextNat o.len.toNat (bitField a o.pos.toNat o.len.toNat))))) hg ha,
    s.wrS_written o.d _ hh⟩

theorem exec_bfi_written (o : OpBfi) (s : State) (hh : s.here = true) (hg : s.guardOk o.gd = true)
    (ha : s.readable o.a = true) (hb : s.readable o.b = true) :
    ∃ t, exec (.bfi o) s = .next t ∧
      ScalarWritten s t o.d (wset (s.scalar o.a) o.pos.toNat o.len.toNat (s.scalar o.b).toNat) 0 :=
  ⟨_, guarded_read2 (fun s a b => .ok (s.wrS o.d (wset a o.pos.toNat o.len.toNat b.toNat))) hg ha hb,
    s.wrS_written o.d _ hh⟩

theorem exec_sel_written (o : OpSel) (s : State) (hh : s.here = true) (hg : s.guardOk o.gd = true)
    (ha : s.readable o.a = true) (hb : s.readable o.b = true) :
    ∃ t, exec (.sel o) s = .next t ∧
      ScalarWritten s t o.d (if s.old.r.getG o.gc.toNat then s.scalar o.a else s.scalar o.b) 0 :=
  ⟨_, guarded_read2 (fun s a b => .ok (s.wrS o.d (if s.old.r.getG o.gc.toNat then a else b))) hg ha hb,
    s.wrS_written o.d _ hh⟩

theorem exec_sel_suppressed (o : OpSel) (s : State) (hg : s.guardOk o.gd = false) : exec (.sel o) s = .next s := by
  show execSel o s = _
  rw [execSel, guarded_off _ _ hg]
  rfl

theorem exec_li_written (o : OpLi) (s : State) (hh : s.here = true) (hg : s.guardOk o.gd = true) :
    ∃ t, exec (.li o) s = .next t ∧ ScalarWritten s t o.d (o.imm.signExtend 64) 0 :=
  ⟨_, guarded_on skip (fun s => .ok (s.wrS o.d (o.imm.signExtend 64))) hg, s.wrS_written o.d _ hh⟩

theorem exec_lih_written (o : OpRRI) (s : State) (hh : s.here = true) (hg : s.guardOk o.gd = true)
    (ha : s.readable o.a = true) :
    ∃ t, exec (.lih o) s = .next t ∧ ScalarWritten s t o.d (o.imm ++ (s.scalar o.a).extractLsb' 0 32) 0 :=
  ⟨_, guarded_read1 (fun s a => .ok (s.wrS o.d (o.imm ++ a.extractLsb' 0 32))) hg ha, s.wrS_written o.d _ hh⟩

/-! Branches and calls (09 R235). -/

section
variable {s : State} {b : Bundle} (h : s.bundle = some b)
include h

theorem State.atOffset_bundle (ofs : BitVec 32) : s.atOffset ofs = b.pc + ofs.signExtend 64 * 8 := by
  simp [State.atOffset, State.bundlePc, h]

theorem State.nextPc_bundle : s.nextPc = b.pc + BitVec.ofNat 64 b.len := by
  simp [State.nextPc, State.bundlePc, h]

theorem State.goTo_bundle (a : Word) : s.goTo a = { s with bundle := some { b with target := some a } } := by
  simp [State.goTo, h]

theorem exec_br_goTo (o : OpBr) (hg : s.guardOk o.gd = true) :
    exec (.br o) s = .next { s with bundle := some { b with target := some (b.pc + o.ofs.signExtend 64 * 8) } } := by
  rw [← State.atOffset_bundle h, ← State.goTo_bundle h]
  exact guarded_on skip (fun s => .ok (s.goTo (s.atOffset o.ofs))) hg

/-- `call` links s63 and goes on at its target; the link leaves the bundle as it is. -/
theorem exec_call_goTo (o : OpBr) (hg : s.guardOk o.gd = true) :
    exec (.call o) s = .next { s.wrS 63 (b.pc + BitVec.ofNat 64 b.len) with
      bundle := some { b with target := some (b.pc + o.ofs.signExtend 64 * 8) } } := by
  rw [← State.atOffset_bundle h, ← State.nextPc_bundle h,
    ← State.goTo_bundle (s := s.wrS 63 s.nextPc) ((State.setMe_bundle _ _).trans h)]
  exact guarded_on skip (fun s => .ok ((s.wrS 63 s.nextPc).goTo (s.atOffset o.ofs))) hg

end

/-- Operations that write one scalar other than s0 conflict in a bundle (08 R209). -/
theorem clash_of_same_scalar {u v : Uses} {n : Nat} (hu : u.s = some n) (hv : v.s = some n) (hn : n ≠ 0) :
    clash u v = true := by
  simp [clash, hu, hv, hn]

end Sys2Proof.Machine

namespace Sys2Proof

open Sys2Proof.Machine Laws

/-! Words of the formats G, I and O (08 R198, R199). -/

/-- A word is that of a grid when it is the sum of the grid's fields, each at its place. -/
theorem word_eq_pack {w : Word} {g : Grid} (h : w.toNat = g.x.toNat * 2 ^ 44 + g.rm.toNat * 2 ^ 41 + g.msk.toNat * 2 ^ 37 +
    g.c.toNat * 2 ^ 31 + g.b.toNat * 2 ^ 25 + g.a.toNat * 2 ^ 19 + g.d.toNat * 2 ^ 13 + g.opc.toNat * 2 ^ 5 +
    g.gs.toNat * 2 ^ 4 + g.grd.toNat) : w = g.pack := by
  apply BitVec.eq_of_toNat_eq
  simp only [Grid.pack, toNat_append_add]
  omega

section
variable (op : BitVec 8) (g : Guard) (d a b : BitVec 6)

theorem word_formatG : (0#33 ++ b ++ a ++ d ++ op ++ encBit g.neg ++ g.reg : Word) = (encRRR op ⟨g, d, a, b⟩).pack := by
  apply word_eq_pack
  simp only [toNat_append_add, encRRR, gridOf, BitVec.ofNat_eq_ofNat, BitVec.toNat_ofNat]
  omega

theorem word_formatG_selector (c : BitVec 6) : (0#27 ++ c ++ b ++ a ++ d ++ op ++ encBit g.neg ++ g.reg : Word) =
    { gridOf op g with d := d, a := a, b := b, c := c : Grid }.pack := by
  apply word_eq_pack
  simp only [toNat_append_add, gridOf, BitVec.ofNat_eq_ofNat, BitVec.toNat_ofNat]
  omega

theorem word_formatG_pair (k : BitVec 3) : (0#33 ++ b ++ a ++ 0#2 ++ k ++ 0#1 ++ op ++ encBit g.neg ++ g.reg : Word) =
    (encCmp op ⟨g, k, a, b⟩).pack := by
  apply word_eq_pack
  simp only [toNat_append_add, encCmp, encPair, gridOf, BitVec.ofNat_eq_ofNat, BitVec.toNat_ofNat]
  omega

theorem word_formatI (imm : BitVec 32) : (0#7 ++ imm ++ a ++ d ++ op ++ encBit g.neg ++ g.reg : Word) =
    (encRRI op ⟨g, d, a, imm⟩).pack := by
  apply word_eq_pack
  simp only [toNat_append_add, encRRI, Grid.withImm, gridOf, BitVec.ofNat_eq_ofNat, BitVec.toNat_ofNat,
    BitVec.extractLsb'_toNat, Nat.shiftRight_eq_div_pow]
  omega

theorem word_formatI_pair (k : BitVec 3) (imm : BitVec 32) :
    (0#7 ++ imm ++ a ++ 0#2 ++ k ++ 0#1 ++ op ++ encBit g.neg ++ g.reg : Word) = (encCmpI op ⟨g, k, a, imm⟩).pack := by
  apply word_eq_pack
  simp only [toNat_append_add, encCmpI, encPair, Grid.withImm, gridOf, BitVec.ofNat_eq_ofNat, BitVec.toNat_ofNat,
    BitVec.extractLsb'_toNat, Nat.shiftRight_eq_div_pow]
  omega

theorem word_formatO (ofs : BitVec 32) : (0#19 ++ ofs ++ op ++ encBit g.neg ++ g.reg : Word) =
    (encBr op ⟨g, ofs⟩).pack := by
  apply word_eq_pack
  simp only [toNat_append_add, encBr, gridOf, BitVec.ofNat_eq_ofNat, BitVec.toNat_ofNat,
    BitVec.extractLsb'_toNat, Nat.shiftRight_eq_div_pow]
  omega

/-- A bit-field extract: LEN and POS in X[12:0] below the bits that tell the two extracts apart (09 R230). -/
theorem word_bitFieldExtract (hi len : BitVec 7) (pos : BitVec 6) :
    (hi ++ len ++ pos ++ 0#19 ++ a ++ d ++ op ++ encBit g.neg ++ g.reg : Word) =
      { gridOf op g with d := d, a := a, x := hi ++ len ++ pos : Grid }.pack := by
  apply word_eq_pack
  simp only [toNat_append_add, gridOf, BitVec.ofNat_eq_ofNat, BitVec.toNat_ofNat]
  omega

theorem word_bitFieldInsert (len : BitVec 7) (pos : BitVec 6) :
    (0#7 ++ len ++ pos ++ 0#13 ++ b ++ a ++ d ++ op ++ encBit g.neg ++ g.reg : Word) =
      { gridOf op g with d := d, a := a, b := b, x := 0#7 ++ len ++ pos : Grid }.pack := by
  apply word_eq_pack
  simp only [toNat_append_add, gridOf, BitVec.ofNat_eq_ofNat, BitVec.toNat_ofNat]
  omega

end

/-! Decoding a word that is known by its grid. -/

/-- A word that the encoder gives for a well-formed instruction decodes to it. -/
theorem decodeSlot_encoded {cls : SlotClass} {i : Instr} {gr : Grid} {w : Word} (st : Laws.WordRoundTrip.Statement i)
    (hwf : wellFormed i = true) (he : encodeSlot cls i = some gr.pack) (hw : w = gr.pack) : decodeSlot cls w = .ok i :=
  st.1 cls w hwf (hw ▸ he)

theorem toNat_ofWord_opc (w : Word) : (Grid.ofWord w).opc.toNat = wbits w 5 8 := BitVec.extractLsb'_toNat ..

/-- A field of X read in place. -/
theorem toNat_ofWord_x (w : Word) {lo n : Nat} (h : lo + n ≤ 20) :
    ((Grid.ofWord w).x.extractLsb' lo n).toNat = wbits w (44 + lo) n := by
  simp only [Grid.ofWord, BitVec.extractLsb'_toNat, wbits]
  apply Nat.eq_of_testBit_eq
  intro i
  simp only [Nat.testBit_mod_two_pow, Nat.testBit_shiftRight, Nat.add_assoc]
  by_cases hi : i < n
  · have : lo + i < 20 := by omega
    simp [hi, this]
  · simp [hi]

theorem decodeSlot_of_opc {cls : SlotClass} {w : Word} (h : wbits w 5 8 ≠ 0) :
    decodeSlot cls w = decodeGrid cls (Grid.ofWord w) := by
  have hw : w ≠ 0 := by rintro rfl; exact h rfl
  have ho : (Grid.ofWord w).opc ≠ 0 := fun e => h (by rw [← toNat_ofWord_opc, e]; rfl)
  simp only [decodeSlot, if_neg hw, if_neg ho]
  cases cls <;> rfl

theorem decodeSlot_ok {cls : SlotClass} {w : Word} {i : Instr} (h : decodeSlot cls w = .ok i) (hn : i ≠ .nop) :
    decodeGrid cls (Grid.ofWord w) = .ok i := by
  unfold decodeSlot at h
  split at h
  · cases h; exact absurd rfl hn
  · dsimp only at h
    split at h
    · cases h
    · cases cls <;> exact h

/-! What a decoded operand shape says of its fields. -/

theorem error_of_ne_ok {α : Type} {x : Dec α} (h : ∀ a, x ≠ .ok a) : ∃ e, x = .error e := by
  cases x with
  | error e => exact ⟨e, rfl⟩
  | ok a => exact absurd rfl (h a)

theorem need_bind_ok {α : Type} {p : Bool} {e : DecodeError} {f : Unit → Dec α} {a : α}
    (h : (need p e >>= f) = .ok a) : p = true ∧ f () = .ok a := by
  cases p with
  | false => cases h
  | true => exact ⟨rfl, h⟩

theorem map_dec_ok {α : Type} {f : α → Instr} {x : Dec α} {i : Instr} (h : f <$> x = .ok i) : ∃ a, x = .ok a ∧ f a = i := by
  cases x with
  | error e => cases h
  | ok a => cases h; exact ⟨a, rfl, rfl⟩

theorem decRR_ok {g : Grid} {o : OpRR} (h : decRR g = .ok o) : g.b = 0 := by
  have hn := (need_bind_ok h).1
  simp only [Bool.and_eq_true, noB_eq, beq_iff_eq] at hn
  exact hn.1.1.1.1

theorem decLi_ok {g : Grid} {o : OpLi} (h : decLi g = .ok o) : g.a = 0 := by
  have hn := (need_bind_ok h).1
  simp only [Bool.and_eq_true, noA_eq, beq_iff_eq] at hn
  exact hn.2

theorem decLow_ok {n : Nat} {f : BitVec 6} {v : BitVec n} (h : decLow n f = .ok v) : f.toNat < 2 ^ n := by
  unfold decLow at h
  split at h
  · assumption
  · cases h

/-- A selector field below 16 is its low four bits. -/
theorem selector_of_lt {c : BitVec 6} (h : c.toNat < 16) : c = 0#2 ++ c.setWidth 4 := by
  apply BitVec.eq_of_toNat_eq
  simp only [toNat_append_add, BitVec.toNat_setWidth, BitVec.toNat_ofNat]
  omega

theorem decSel_ok {g : Grid} {o : OpSel} (h : decSel g = .ok o) : g.c.toNat < 16 := by
  have hc := (need_bind_ok h).2
  cases hl : decLow 4 g.c with
  | error e => rw [hl] at hc; cases hc
  | ok v => exact decLow_ok hl

theorem decShI_ok {g : Grid} {o : OpShI} (h : decShI g = .ok o) : g.x.toNat = 0 ∧ g.rm = 0 ∧ g.msk = 0 ∧ g.c = 0 := by
  have hn := (need_bind_ok h).1
  simp only [Bool.and_eq_true, noRm_eq, noMk_eq, noC_eq, beq_iff_eq, Grid.xBelow, decide_eq_true_eq] at hn
  obtain ⟨⟨⟨hx, hrm⟩, hmsk⟩, hc⟩ := hn
  exact ⟨by omega, hrm, hmsk, hc⟩

theorem decBfi_ok {g : Grid} {o : OpBfi} (h : decBfi g = .ok o) :
    bfOk (g.x.extractLsb' 0 6) (g.x.extractLsb' 6 7) = true := (need_bind_ok (need_bind_ok h).2).1

/-- X[13] chooses between `bfx` and `bfx.s`; both need a field within the word. -/
theorem decBfxS_ok {g : Grid} {i : Instr} (h : decBfxS g = .ok i) :
    bfOk (g.x.extractLsb' 0 6) (g.x.extractLsb' 6 7) = true ∧
      ((∃ o, i = .bfx o) ∧ g.x.extractLsb' 13 1 = 0#1 ∨ (∃ o, i = .bfxS o) ∧ g.x.extractLsb' 13 1 = 1#1) := by
  obtain ⟨hok, hi⟩ := need_bind_ok (need_bind_ok h).2
  refine ⟨hok, ?_⟩
  rcases one_bit (g.x.extractLsb' 13 1) with hx | hx <;> simp only [hx, decBit_zero, decBit_one] at hi <;> cases hi
  · exact .inl ⟨⟨_, rfl⟩, hx⟩
  · exact .inr ⟨⟨_, rfl⟩, hx⟩

/-- A field that passes the check, in the bits of the word. -/
theorem wbits_of_bfOk {w : Word}
    (h : bfOk ((Grid.ofWord w).x.extractLsb' 0 6) ((Grid.ofWord w).x.extractLsb' 6 7) = true) :
    1 ≤ wbits w 50 7 ∧ wbits w 44 6 + wbits w 50 7 ≤ 64 := by
  have hpos := toNat_ofWord_x w (lo := 0) (n := 6) (by decide)
  have hlen := toNat_ofWord_x w (lo := 6) (n := 7) (by decide)
  simpa only [bfOk, hpos, hlen, Bool.and_eq_true, decide_eq_true_eq] using h

/-- Only opcode 0x14 decodes to a bit-field extract. -/
theorem decodeS_bfx {g : Grid} {i : Instr} (hi : (∃ o, i = .bfx o) ∨ ∃ o, i = .bfxS o) (h : decodeS g = .ok i) :
    decBfxS g = .ok i := by
  unfold decodeS at h
  split at h
  case h_19 => exact h -- the arm of opcode 0x14
  case h_46 => cases h -- no opcode assigned
  all_goals
    obtain ⟨_, _, rfl⟩ := map_dec_ok h
    rcases hi with ⟨_, hi⟩ | ⟨_, hi⟩ <;> cases hi

theorem decodeS_bitField {g : Grid} {i : Instr} (hop : g.opc.toNat = 0x14 ∨ g.opc.toNat = 0x15) (h : decodeS g = .ok i) :
    bfOk (g.x.extractLsb' 0 6) (g.x.extractLsb' 6 7) = true := by
  rcases hop with hop | hop <;> simp only [decodeS, hop] at h
  · exact (decBfxS_ok h).1
  · obtain ⟨o, ho, -⟩ := map_dec_ok h
    exact decBfi_ok ho

theorem decodeS_shift {g : Grid} {i : Instr} (hop : g.opc.toNat = 0x2B ∨ g.opc.toNat = 0x2C ∨ g.opc.toNat = 0x2D)
    (h : decodeS g = .ok i) : ∃ o, decShI g = .ok o := by
  rcases hop with hop | hop | hop <;> simp only [decodeS, hop] at h <;> exact (map_dec_ok h).imp fun _ ho => ho.1

/-- A shift by an immediate has no bit of IMM[31:6]. -/
theorem wbits_of_decShI {w : Word} {o : OpShI} (h : decShI (Grid.ofWord w) = .ok o) : wbits w 31 26 = 0 := by
  obtain ⟨hx, hrm, hmsk, hc⟩ := decShI_ok h
  replace hrm := congrArg BitVec.toNat hrm
  replace hmsk := congrArg BitVec.toNat hmsk
  replace hc := congrArg BitVec.toNat hc
  simp only [Grid.ofWord, BitVec.extractLsb'_toNat, Nat.shiftRight_eq_div_pow, BitVec.ofNat_eq_ofNat,
    BitVec.toNat_ofNat, Nat.zero_mod] at hx hrm hmsk hc
  simp only [wbits, Nat.shiftRight_eq_div_pow]
  omega

/-- A grid whose shape refuses it decodes to nothing. -/
theorem decodeSlot_pack_error {α : Type} {f : α → Instr} {g : Grid} {x : Dec α} {w : Word} (hw : w = g.pack) (ho : g.opc ≠ 0)
    (hd : decodeS g = f <$> x) (hx : ∀ o, x ≠ .ok o) : ∃ e, decodeSlot .s w = .error e := by
  refine error_of_ne_ok fun i hi => ?_
  rw [hw, decodeSlot_pack _ _ ho] at hi
  obtain ⟨o, h, -⟩ := map_dec_ok (hd.symm.trans hi)
  exact hx o h

/-! One lemma for the words of each operand shape, from the round trip of its instruction. -/

section
open Laws.WordRoundTrip

theorem decodeSlot_RRR {op : BitVec 8} {i : OpRRR → Instr} (st : ∀ o, Statement (i o))
    (hwf : ∀ o, wellFormed (i o) = true := by exact fun _ => rfl)
    (he : ∀ o, encodeSlot .s (i o) = some (encRRR op o).pack := by exact fun _ => rfl)
    (g : Guard) (d a b : BitVec 6) :
    decodeSlot .s (0#33 ++ b ++ a ++ d ++ op ++ encBit g.neg ++ g.reg) = .ok (i ⟨g, d, a, b⟩) :=
  decodeSlot_encoded (st _) (hwf _) (he _) (word_formatG ..)

/-- One source, with B zero; any other B is refused. -/
theorem decodeSlot_RR {op : BitVec 8} {i : OpRR → Instr} (st : ∀ o, Statement (i o))
    (hwf : ∀ o, wellFormed (i o) = true := by exact fun _ => rfl)
    (he : ∀ o, encodeSlot .s (i o) = some (encRR op o).pack := by exact fun _ => rfl)
    (hop : op ≠ 0 := by decide) (hd : ∀ o, decodeS (encRRR op o) = i <$> decRR (encRRR op o) := by exact fun _ => rfl)
    (g : Guard) (d a b : BitVec 6) :
    decodeSlot .s (0#33 ++ 0#6 ++ a ++ d ++ op ++ encBit g.neg ++ g.reg) = .ok (i ⟨g, d, a⟩) ∧
    (b ≠ 0 → ∃ e, decodeSlot .s (0#33 ++ b ++ a ++ d ++ op ++ encBit g.neg ++ g.reg) = .error e) :=
  ⟨decodeSlot_encoded (st _) (hwf _) (he _) (word_formatG ..),
    fun hb => decodeSlot_pack_error (word_formatG ..) hop (hd _) fun _ h => hb (decRR_ok h)⟩

theorem decodeSlot_RRI {op : BitVec 8} {i : OpRRI → Instr} (st : ∀ o, Statement (i o))
    (hwf : ∀ o, wellFormed (i o) = true := by exact fun _ => rfl)
    (he : ∀ o, encodeSlot .s (i o) = some (encRRI op o).pack := by exact fun _ => rfl)
    (g : Guard) (d a : BitVec 6) (imm : BitVec 32) :
    decodeSlot .s (0#7 ++ imm ++ a ++ d ++ op ++ encBit g.neg ++ g.reg) = .ok (i ⟨g, d, a, imm⟩) :=
  decodeSlot_encoded (st _) (hwf _) (he _) (word_formatI ..)

theorem decodeSlot_ShI {op : BitVec 8} {i : OpShI → Instr} (st : ∀ o, Statement (i o))
    (hwf : ∀ o, wellFormed (i o) = true := by exact fun _ => rfl)
    (he : ∀ o, encodeSlot .s (i o) = some (encShI op o).pack := by exact fun _ => rfl)
    (g : Guard) (d a sh : BitVec 6) :
    decodeSlot .s (0#33 ++ sh ++ a ++ d ++ op ++ encBit g.neg ++ g.reg) = .ok (i ⟨g, d, a, sh⟩) :=
  decodeSlot_encoded (st _) (hwf _) (he _) (word_formatG ..)

theorem decodeSlot_Cmp {op : BitVec 8} {i : OpCmp → Instr} (st : ∀ o, Statement (i o))
    (hwf : ∀ o, wellFormed (i o) = true := by exact fun _ => rfl)
    (he : ∀ o, encodeSlot .s (i o) = some (encCmp op o).pack := by exact fun _ => rfl)
    (g : Guard) (k : BitVec 3) (a b : BitVec 6) :
    decodeSlot .s (0#33 ++ b ++ a ++ 0#2 ++ k ++ 0#1 ++ op ++ encBit g.neg ++ g.reg) = .ok (i ⟨g, k, a, b⟩) :=
  decodeSlot_encoded (st _) (hwf _) (he _) (word_formatG_pair ..)

theorem decodeSlot_CmpI {op : BitVec 8} {i : OpCmpI → Instr} (st : ∀ o, Statement (i o))
    (hwf : ∀ o, wellFormed (i o) = true := by exact fun _ => rfl)
    (he : ∀ o, encodeSlot .s (i o) = some (encCmpI op o).pack := by exact fun _ => rfl)
    (g : Guard) (k : BitVec 3) (a : BitVec 6) (imm : BitVec 32) :
    decodeSlot .s (0#7 ++ imm ++ a ++ 0#2 ++ k ++ 0#1 ++ op ++ encBit g.neg ++ g.reg) = .ok (i ⟨g, k, a, imm⟩) :=
  decodeSlot_encoded (st _) (hwf _) (he _) (word_formatI_pair ..)

end

/-! The statements of 09 R228 to R232 and R235: each operation by the rule of its operand shape, each word by the round trip
of its instruction. -/

/-- Settles O1: besides the shared shapes, `clz` counts from the length in bits and `divu` splits on a zero divisor. -/
theorem registerArithmetic : Obligations.RegisterArithmetic := by
  refine ⟨fun p hp => ?_, fun o s hh hg ha hb => ?_, fun o s hh hg ha => ?_, fun o s hh hg ha => ?_, fun p hp => ?_,
    fun p hp => ?_⟩
  · fin_cases hp
    exacts [exec_alu2_written .add, exec_alu2_written .sub, exec_alu2_written .mul,
      exec_alu2_written .mulh, exec_alu2_written .mulhu, exec_alu2_written .and, exec_alu2_written .or,
      exec_alu2_written .xor, exec_alu2_written .shl, exec_alu2_written .shr, exec_alu2_written .sra,
      exec_alu2_written .min (hf := min_by_slt), exec_alu2_written .max (hf := max_by_slt),
      exec_alu2_written .minu (hf := min_by_ult), exec_alu2_written .maxu (hf := max_by_ult)]
  · obtain ⟨t, ht, hw⟩ := exec_divu_written o s hh hg ha hb
    simp only [divide, fIf, beq_iff_eq] at hw
    exact ⟨t, ht, hw⟩
  · obtain ⟨t, ht, hw⟩ := exec_alu1_written .clz (fun _ _ => rfl) o s hh hg ha
    exact ⟨t, _, ht, hw, leadingZeros_bounds _⟩
  · obtain ⟨t, ht, hw⟩ := exec_alu1_written .pcnt (fun _ _ => rfl) o s hh hg ha
    rw [popCount, ← List.countP_eq_length_filter] at hw
    exact ⟨t, ht, hw⟩
  · fin_cases hp
    exacts [decodeSlot_RRR WordRoundTrip.add, decodeSlot_RRR WordRoundTrip.sub, decodeSlot_RRR WordRoundTrip.mul,
      decodeSlot_RRR WordRoundTrip.mulh, decodeSlot_RRR WordRoundTrip.mulhu, decodeSlot_RRR WordRoundTrip.divu,
      decodeSlot_RRR WordRoundTrip.and, decodeSlot_RRR WordRoundTrip.or, decodeSlot_RRR WordRoundTrip.xor,
      decodeSlot_RRR WordRoundTrip.shl, decodeSlot_RRR WordRoundTrip.shr, decodeSlot_RRR WordRoundTrip.sra,
      decodeSlot_RRR WordRoundTrip.min, decodeSlot_RRR WordRoundTrip.max, decodeSlot_RRR WordRoundTrip.minu,
      decodeSlot_RRR WordRoundTrip.maxu]
  · fin_cases hp
    exacts [decodeSlot_RR WordRoundTrip.clz, decodeSlot_RR WordRoundTrip.pcnt]

/-- Settles O2: a shift whose IMM[31:6] is not zero is refused by the check of its shape. -/
theorem immediateArithmetic : Obligations.ImmediateArithmetic := by
  refine ⟨fun p hp => ?_, fun p hp => ?_, fun p hp => ?_, fun p hp => ?_, fun w hop himm => ?_⟩
  · fin_cases hp
    exacts [exec_aluImm_written .addi, exec_aluImm_written .muli, exec_aluImm_written .andi,
      exec_aluImm_written .ori, exec_aluImm_written .xori]
  · fin_cases hp
    exacts [exec_aluShift_written .shli, exec_aluShift_written .shri, exec_aluShift_written .srai]
  · fin_cases hp
    exacts [decodeSlot_RRI WordRoundTrip.addi, decodeSlot_RRI WordRoundTrip.muli, decodeSlot_RRI WordRoundTrip.andi,
      decodeSlot_RRI WordRoundTrip.ori, decodeSlot_RRI WordRoundTrip.xori]
  · fin_cases hp
    exacts [decodeSlot_ShI WordRoundTrip.shli, decodeSlot_ShI WordRoundTrip.shri, decodeSlot_ShI WordRoundTrip.srai]
  · refine error_of_ne_ok fun i hi => ?_
    rw [decodeSlot_of_opc (by omega)] at hi
    obtain ⟨o, ho⟩ := decodeS_shift (by rwa [toNat_ofWord_opc]) hi
    exact himm (wbits_of_decShI ho)

/-- Settles O3: the extracts by their field, the insert bit by bit, the refusals by what a decoded field satisfies. -/
theorem bitFields : Obligations.BitFields := by
  refine ⟨fun o s _ hh hg ha => ?_, fun o s _ hh hg ha => ?_, fun o s _ hh hg ha hb => ?_,
    fun g d a b pos len hf => ⟨?_, ?_, ?_⟩, fun w o h => ?_, fun w o h => ?_, fun w hop hlen => ?_⟩
  · obtain ⟨t, ht, hw⟩ := exec_bfx_written o s hh hg ha
    rw [bitField_eq] at hw
    exact ⟨t, ht, hw⟩
  · obtain ⟨t, ht, hw⟩ := exec_bfxS_written o s hh hg ha
    rw [bitField_eq, sextNat_mod] at hw
    exact ⟨t, ht, hw⟩
  · obtain ⟨t, ht, hw⟩ := exec_bfi_written o s hh hg ha hb
    exact ⟨t, _, ht, hw, fun i hi => getLsbD_wset _ _ _ _ hi⟩
  · exact decodeSlot_encoded (WordRoundTrip.bfx _) hf rfl (word_bitFieldExtract ..)
  · exact decodeSlot_encoded (WordRoundTrip.bfxS _) hf rfl (word_bitFieldExtract ..)
  · exact decodeSlot_encoded (WordRoundTrip.bfi _) hf rfl (word_bitFieldInsert ..)
  · obtain ⟨-, ⟨-, hx⟩ | ⟨⟨_, hne⟩, -⟩⟩ := decBfxS_ok (decodeS_bfx (.inl ⟨o, rfl⟩) (decodeSlot_ok h nofun))
    · exact (toNat_ofWord_x w (by decide)).symm.trans (congrArg BitVec.toNat hx)
    · cases hne
  · obtain ⟨-, ⟨⟨_, hne⟩, -⟩ | ⟨-, hx⟩⟩ := decBfxS_ok (decodeS_bfx (.inr ⟨o, rfl⟩) (decodeSlot_ok h nofun))
    · cases hne
    · exact (toNat_ofWord_x w (by decide)).symm.trans (congrArg BitVec.toNat hx)
  · refine error_of_ne_ok fun i hi => ?_
    rw [decodeSlot_of_opc (by omega)] at hi
    have hf := wbits_of_bfOk (decodeS_bitField (by rwa [toNat_ofWord_opc]) hi)
    omega

/-- Settles O4: both forms of a compare share its condition; a selector beyond 15 is refused by the check of its field. -/
theorem comparesAndSelect : Obligations.ComparesAndSelect := by
  refine ⟨fun p hp => ?_, exec_sel_written, fun p hp => ?_, fun p hp => ?_, fun g d a b c => ⟨fun hc => ?_, fun hc => ?_⟩,
    fun o s _ => exec_sel_suppressed o s⟩
  · fin_cases hp
    · exact exec_compare_written .cmpEq .cmpiEq Cond.holds_eq
    · exact exec_compare_written .cmpNe .cmpiNe Cond.holds_ne
    · exact exec_compare_written .cmpLt .cmpiLt fun _ _ => rfl
    · exact exec_compare_written .cmpGe .cmpiGe Cond.holds_ge
    · exact exec_compare_written .cmpLtu .cmpiLtu fun _ _ => rfl
    · exact exec_compare_written .cmpGeu .cmpiGeu Cond.holds_geu
  · fin_cases hp
    exacts [decodeSlot_Cmp WordRoundTrip.cmpEq, decodeSlot_Cmp WordRoundTrip.cmpNe, decodeSlot_Cmp WordRoundTrip.cmpLt,
      decodeSlot_Cmp WordRoundTrip.cmpGe, decodeSlot_Cmp WordRoundTrip.cmpLtu, decodeSlot_Cmp WordRoundTrip.cmpGeu]
  · fin_cases hp
    exacts [decodeSlot_CmpI WordRoundTrip.cmpiEq, decodeSlot_CmpI WordRoundTrip.cmpiNe, decodeSlot_CmpI WordRoundTrip.cmpiLt,
      decodeSlot_CmpI WordRoundTrip.cmpiGe, decodeSlot_CmpI WordRoundTrip.cmpiLtu, decodeSlot_CmpI WordRoundTrip.cmpiGeu]
  · refine decodeSlot_encoded (WordRoundTrip.sel _) rfl rfl ((word_formatG_selector ..).trans ?_)
    exact congrArg (fun c => { gridOf 0x50 g with d := d, a := a, b := b, c := c : Grid }.pack) (selector_of_lt hc)
  · exact decodeSlot_pack_error (f := .sel) (word_formatG_selector ..) (show (0x50#8 : BitVec 8) ≠ 0 by decide) rfl
      fun o h => absurd (decSel_ok h) (Nat.not_lt.2 hc)

/-- Settles O5: `lih` joins the two halves; a nonzero A of `li` is refused by the check of its shape. -/
theorem immediates : Obligations.Immediates := by
  refine ⟨exec_li_written, fun o s hh hg ha => ?_, fun g d a imm => ⟨?_, ?_, fun ha => ?_⟩⟩
  · obtain ⟨t, ht, hw⟩ := exec_lih_written o s hh hg ha
    exact ⟨t, ht, append_low_half o.imm (s.scalar o.a) ▸ hw⟩
  · exact decodeSlot_encoded (WordRoundTrip.li _) rfl rfl (word_formatI 0x60 g d 0 imm)
  · exact decodeSlot_encoded (WordRoundTrip.lih _) rfl rfl (word_formatI ..)
  · exact decodeSlot_pack_error (f := .li) (word_formatI ..) (show (0x60#8 : BitVec 8) ≠ 0 by decide) rfl
      fun o h => ha (decLi_ok h)

/-- Settles O9: the target and the link are read off the bundle in progress; s63 is not s0, so that its two writers clash. -/
theorem branchesAndCalls : Obligations.BranchesAndCalls := by
  refine ⟨fun o s b hg hb => exec_br_goTo hb o hg, fun o s b hh hg hb => ?_, fun p i hi => ?_, fun _ => rfl,
    fun g ofs => ⟨?_, ?_⟩⟩
  · exact ⟨_, exec_call_goTo hb o hg, s.wrS_written 63 _ hh⟩
  · exact clash_of_same_scalar rfl hi (by decide)
  · exact decodeSlot_encoded (WordRoundTrip.br _) rfl rfl (word_formatO ..)
  · exact decodeSlot_encoded (WordRoundTrip.call _) rfl rfl (word_formatO ..)

end Sys2Proof
